-- ==== Sys2Proof/Word.lean ====
section
/-! DEFINITION. The machine's word types (spec/00_scope.md R6, R9). -/

namespace Sys2Proof

/-- A cell wide enough for a value of either width: 64 bits. An XLEN-bit value is held zero-extended (log 3). -/
abbrev Word := BitVec 64

/-- One byte of memory (20_memory.md R71). -/
abbrev Byte := BitVec 8

/-- An instruction word: 32 bits, always (30_encoding.md R100). -/
abbrev InstrWord := BitVec 32

end Sys2Proof
end

