-- ==== Sys2Proof/Config.lean ====
section
/-! DEFINITION. The implementation parameters of spec/00_scope.md R6, frozen for a session, and the free values of R7. -/

namespace Sys2Proof

/-- The width parameter XLEN: 32 or 64 (00_scope.md R6). Another width cannot be written, which is
70_reset_and_hazards.md R374 (f) (log 12). -/
inductive XLen where
  | x32
  | x64
  deriving DecidableEq, Repr

/-- XLEN as a number of bits. -/
abbrev XLen.bits : XLen → Nat
  | .x32 => 32
  | .x64 => 64

/-- The kind of a segment (20_memory.md R75). -/
inductive SegKind where
  | text
  | data
  deriving DecidableEq, Repr

/-- A segment `(name, base, top, kind)`: it holds every address a with base ≤ a ≤ top (20_memory.md R75). -/
structure Segment where
  name : String
  base : Nat
  top  : Nat
  kind : SegKind
  deriving DecidableEq, Repr

/-- The parameters of 00_scope.md R6. `image` is IMAGE as address and byte pairs; `exitServices` and
`bpInit` are read as sets; `startAtMain` is stored and read by no rule (70_reset_and_hazards.md R375). -/
structure Config where
  xlen         : XLen
  segments     : List Segment
  smc          : Bool
  maxSteps     : Int
  bpInit       : List Word
  pcInit       : Word
  textEnd      : Word
  image        : List Host.Cell
  xInit        : Vector Word 32
  exitServices : List Nat
  startAtMain  : Bool
  deriving DecidableEq, Repr

/-- FLEN, fixed at 64 (00_scope.md R6, D3). -/
abbrev flen : Nat := 64

/-- ILEN in bytes: the pc advances by 4 (00_scope.md R6, 10_state.md R44). -/
abbrev ilenBytes : Word := 4

/-- The n-th draw of the 64-bit `cycle` value: a FREE VALUE under no law (10_state.md R37, D11; log 4). -/
opaque Config.cycleDraw : Nat → BitVec 64

/-- The n-th draw of the 64-bit `time` value: a FREE VALUE under no law (10_state.md R37, D11; log 4). -/
opaque Config.timeDraw : Nat → BitVec 64

/-- The configuration EX of 92_eei_decisions.md with XLEN = 64, SMC = 0 and an empty program.
DESIGN CHOICE: every parameter is open in the spec (D8); EX is its example; 64 so that every row of the
table is applicable (log 1, log 2). -/
def Config.initial : Config where
  xlen := .x64
  segments := [⟨"text", 0x00400000, 0x0FFFFFFF, .text⟩, ⟨"data", 0x10000000, 0x7FFFFFFF, .data⟩]
  smc := false
  maxSteps := 0
  bpInit := []
  pcInit := 0x00400000
  textEnd := 0x00400000
  image := []
  xInit := ((Vector.replicate 32 0).set 2 0x7FFFEFFC).set 3 0x10008000
  exitServices := [10, 93]
  startAtMain := false

end Sys2Proof
end

