-- ==== Sys2Proof/Syntax.lean ====
section
/-! DEFINITION. The instruction set as syntax: one constructor per row of spec/opcode_table.json. -/

namespace Sys2Proof

/-- A 5-bit index of the integer register file (10_state.md R21). -/
abbrev XReg := BitVec 5

/-- A 5-bit index of the floating-point register file (10_state.md R25). -/
abbrev FReg := BitVec 5

/-- The 137 instructions. Fields (30_encoding.md R108 to R116): `imm` is the 12-bit I or S immediate or the 20-bit
U immediate; `off` is the byte offset of a branch (13 bits) or of jal (21 bits), bit 0 included; `shamt` is 6 bits
in slli, srli and srai, whose two rows each fix bit 5, and 5 bits in the w forms. -/
inductive Instr where
  /-- `lui` (41_integer.md R133) -/
  | lui (rd : XReg) (imm : BitVec 20)
  /-- `auipc` (41_integer.md R134) -/
  | auipc (rd : XReg) (imm : BitVec 20)
  /-- `jal` (42_control.md R173) -/
  | jal (rd : XReg) (off : BitVec 21)
  /-- `jalr` (42_control.md R174) -/
  | jalr (rd rs1 : XReg) (imm : BitVec 12)
  /-- `beq` (42_control.md R175) -/
  | beq (rs1 rs2 : XReg) (off : BitVec 13)
  /-- `bne` (42_control.md R176) -/
  | bne (rs1 rs2 : XReg) (off : BitVec 13)
  /-- `blt` (42_control.md R177) -/
  | blt (rs1 rs2 : XReg) (off : BitVec 13)
  /-- `bge` (42_control.md R178) -/
  | bge (rs1 rs2 : XReg) (off : BitVec 13)
  /-- `bltu` (42_control.md R179) -/
  | bltu (rs1 rs2 : XReg) (off : BitVec 13)
  /-- `bgeu` (42_control.md R180) -/
  | bgeu (rs1 rs2 : XReg) (off : BitVec 13)
  /-- `lb` (43_loadstore.md R186) -/
  | lb (rd rs1 : XReg) (imm : BitVec 12)
  /-- `lh` (43_loadstore.md R187) -/
  | lh (rd rs1 : XReg) (imm : BitVec 12)
  /-- `lw` (43_loadstore.md R188) -/
  | lw (rd rs1 : XReg) (imm : BitVec 12)
  /-- `lbu` (43_loadstore.md R190) -/
  | lbu (rd rs1 : XReg) (imm : BitVec 12)
  /-- `lhu` (43_loadstore.md R191) -/
  | lhu (rd rs1 : XReg) (imm : BitVec 12)
  /-- `lwu` (43_loadstore.md R192) -/
  | lwu (rd rs1 : XReg) (imm : BitVec 12)
  /-- `ld` (43_loadstore.md R189) -/
  | ld (rd rs1 : XReg) (imm : BitVec 12)
  /-- `sb` (43_loadstore.md R193) -/
  | sb (rs1 rs2 : XReg) (imm : BitVec 12)
  /-- `sh` (43_loadstore.md R194) -/
  | sh (rs1 rs2 : XReg) (imm : BitVec 12)
  /-- `sw` (43_loadstore.md R195) -/
  | sw (rs1 rs2 : XReg) (imm : BitVec 12)
  /-- `sd` (43_loadstore.md R196) -/
  | sd (rs1 rs2 : XReg) (imm : BitVec 12)
  /-- `addi` (41_integer.md R135) -/
  | addi (rd rs1 : XReg) (imm : BitVec 12)
  /-- `slti` (41_integer.md R136) -/
  | slti (rd rs1 : XReg) (imm : BitVec 12)
  /-- `sltiu` (41_integer.md R137) -/
  | sltiu (rd rs1 : XReg) (imm : BitVec 12)
  /-- `xori` (41_integer.md R138) -/
  | xori (rd rs1 : XReg) (imm : BitVec 12)
  /-- `ori` (41_integer.md R139) -/
  | ori (rd rs1 : XReg) (imm : BitVec 12)
  /-- `andi` (41_integer.md R140) -/
  | andi (rd rs1 : XReg) (imm : BitVec 12)
  /-- `slli` (41_integer.md R141) -/
  | slli (rd rs1 : XReg) (shamt : BitVec 6)
  /-- `srli` (41_integer.md R142) -/
  | srli (rd rs1 : XReg) (shamt : BitVec 6)
  /-- `srai` (41_integer.md R143) -/
  | srai (rd rs1 : XReg) (shamt : BitVec 6)
  /-- `slli[shamt5=1]` (41_integer.md R141) -/
  | slliHi (rd rs1 : XReg) (shamt : BitVec 6)
  /-- `srli[shamt5=1]` (41_integer.md R142) -/
  | srliHi (rd rs1 : XReg) (shamt : BitVec 6)
  /-- `srai[shamt5=1]` (41_integer.md R143) -/
  | sraiHi (rd rs1 : XReg) (shamt : BitVec 6)
  /-- `add` (41_integer.md R144) -/
  | add (rd rs1 rs2 : XReg)
  /-- `sub` (41_integer.md R145) -/
  | sub (rd rs1 rs2 : XReg)
  /-- `sll` (41_integer.md R146) -/
  | sll (rd rs1 rs2 : XReg)
  /-- `slt` (41_integer.md R147) -/
  | slt (rd rs1 rs2 : XReg)
  /-- `sltu` (41_integer.md R148) -/
  | sltu (rd rs1 rs2 : XReg)
  /-- `xor` (41_integer.md R149) -/
  | xor (rd rs1 rs2 : XReg)
  /-- `srl` (41_integer.md R150) -/
  | srl (rd rs1 rs2 : XReg)
  /-- `sra` (41_integer.md R151) -/
  | sra (rd rs1 rs2 : XReg)
  /-- `or` (41_integer.md R152) -/
  | or (rd rs1 rs2 : XReg)
  /-- `and` (41_integer.md R153) -/
  | and (rd rs1 rs2 : XReg)
  /-- `fence` (43_loadstore.md R197) -/
  | fence (pred succ : BitVec 4)
  /-- `fence.i` (43_loadstore.md R198) -/
  | fenceI
  /-- `ecall` (45_system.md R222) -/
  | ecall
  /-- `ebreak` (45_system.md R223) -/
  | ebreak
  /-- `addiw` (41_integer.md R154) -/
  | addiw (rd rs1 : XReg) (imm : BitVec 12)
  /-- `slliw` (41_integer.md R155) -/
  | slliw (rd rs1 : XReg) (shamt : BitVec 5)
  /-- `srliw` (41_integer.md R156) -/
  | srliw (rd rs1 : XReg) (shamt : BitVec 5)
  /-- `sraiw` (41_integer.md R157) -/
  | sraiw (rd rs1 : XReg) (shamt : BitVec 5)
  /-- `addw` (41_integer.md R158) -/
  | addw (rd rs1 rs2 : XReg)
  /-- `subw` (41_integer.md R159) -/
  | subw (rd rs1 rs2 : XReg)
  /-- `sllw` (41_integer.md R160) -/
  | sllw (rd rs1 rs2 : XReg)
  /-- `srlw` (41_integer.md R161) -/
  | srlw (rd rs1 rs2 : XReg)
  /-- `sraw` (41_integer.md R162) -/
  | sraw (rd rs1 rs2 : XReg)
  /-- `mul` (44_muldiv.md R202) -/
  | mul (rd rs1 rs2 : XReg)
  /-- `mulh` (44_muldiv.md R203) -/
  | mulh (rd rs1 rs2 : XReg)
  /-- `mulhsu` (44_muldiv.md R204) -/
  | mulhsu (rd rs1 rs2 : XReg)
  /-- `mulhu` (44_muldiv.md R205) -/
  | mulhu (rd rs1 rs2 : XReg)
  /-- `div` (44_muldiv.md R206) -/
  | div (rd rs1 rs2 : XReg)
  /-- `divu` (44_muldiv.md R207) -/
  | divu (rd rs1 rs2 : XReg)
  /-- `rem` (44_muldiv.md R208) -/
  | rem (rd rs1 rs2 : XReg)
  /-- `remu` (44_muldiv.md R209) -/
  | remu (rd rs1 rs2 : XReg)
  /-- `mulw` (44_muldiv.md R210) -/
  | mulw (rd rs1 rs2 : XReg)
  /-- `divw` (44_muldiv.md R211) -/
  | divw (rd rs1 rs2 : XReg)
  /-- `divuw` (44_muldiv.md R212) -/
  | divuw (rd rs1 rs2 : XReg)
  /-- `remw` (44_muldiv.md R213) -/
  | remw (rd rs1 rs2 : XReg)
  /-- `remuw` (44_muldiv.md R214) -/
  | remuw (rd rs1 rs2 : XReg)
  /-- `csrrw` (45_system.md R224) -/
  | csrrw (rd : XReg) (csr : BitVec 12) (rs1 : XReg)
  /-- `csrrs` (45_system.md R225) -/
  | csrrs (rd : XReg) (csr : BitVec 12) (rs1 : XReg)
  /-- `csrrc` (45_system.md R226) -/
  | csrrc (rd : XReg) (csr : BitVec 12) (rs1 : XReg)
  /-- `csrrwi` (45_system.md R227) -/
  | csrrwi (rd : XReg) (csr : BitVec 12) (uimm : BitVec 5)
  /-- `csrrsi` (45_system.md R228) -/
  | csrrsi (rd : XReg) (csr : BitVec 12) (uimm : BitVec 5)
  /-- `csrrci` (45_system.md R229) -/
  | csrrci (rd : XReg) (csr : BitVec 12) (uimm : BitVec 5)
  /-- `flw` (46_float_single.md R262) -/
  | flw (rd : FReg) (rs1 : XReg) (imm : BitVec 12)
  /-- `fsw` (46_float_single.md R263) -/
  | fsw (rs1 : XReg) (rs2 : FReg) (imm : BitVec 12)
  /-- `fmadd.s` (46_float_single.md R264) -/
  | fmaddS (rd rs1 rs2 rs3 : FReg) (rm : BitVec 3)
  /-- `fmsub.s` (46_float_single.md R265) -/
  | fmsubS (rd rs1 rs2 rs3 : FReg) (rm : BitVec 3)
  /-- `fnmsub.s` (46_float_single.md R266) -/
  | fnmsubS (rd rs1 rs2 rs3 : FReg) (rm : BitVec 3)
  /-- `fnmadd.s` (46_float_single.md R267) -/
  | fnmaddS (rd rs1 rs2 rs3 : FReg) (rm : BitVec 3)
  /-- `fadd.s` (46_float_single.md R268) -/
  | faddS (rd rs1 rs2 : FReg) (rm : BitVec 3)
  /-- `fsub.s` (46_float_single.md R269) -/
  | fsubS (rd rs1 rs2 : FReg) (rm : BitVec 3)
  /-- `fmul.s` (46_float_single.md R270) -/
  | fmulS (rd rs1 rs2 : FReg) (rm : BitVec 3)
  /-- `fdiv.s` (46_float_single.md R271) -/
  | fdivS (rd rs1 rs2 : FReg) (rm : BitVec 3)
  /-- `fsqrt.s` (46_float_single.md R272) -/
  | fsqrtS (rd rs1 : FReg) (rm : BitVec 3)
  /-- `fsgnj.s` (46_float_single.md R273) -/
  | fsgnjS (rd rs1 rs2 : FReg)
  /-- `fsgnjn.s` (46_float_single.md R274) -/
  | fsgnjnS (rd rs1 rs2 : FReg)
  /-- `fsgnjx.s` (46_float_single.md R275) -/
  | fsgnjxS (rd rs1 rs2 : FReg)
  /-- `fmin.s` (46_float_single.md R276) -/
  | fminS (rd rs1 rs2 : FReg)
  /-- `fmax.s` (46_float_single.md R277) -/
  | fmaxS (rd rs1 rs2 : FReg)
  /-- `feq.s` (46_float_single.md R288) -/
  | feqS (rd : XReg) (rs1 rs2 : FReg)
  /-- `flt.s` (46_float_single.md R289) -/
  | fltS (rd : XReg) (rs1 rs2 : FReg)
  /-- `fle.s` (46_float_single.md R290) -/
  | fleS (rd : XReg) (rs1 rs2 : FReg)
  /-- `fclass.s` (46_float_single.md R291) -/
  | fclassS (rd : XReg) (rs1 : FReg)
  /-- `fcvt.w.s` (46_float_single.md R278) -/
  | fcvtWS (rd : XReg) (rs1 : FReg) (rm : BitVec 3)
  /-- `fcvt.wu.s` (46_float_single.md R279) -/
  | fcvtWuS (rd : XReg) (rs1 : FReg) (rm : BitVec 3)
  /-- `fcvt.l.s` (46_float_single.md R280) -/
  | fcvtLS (rd : XReg) (rs1 : FReg) (rm : BitVec 3)
  /-- `fcvt.lu.s` (46_float_single.md R281) -/
  | fcvtLuS (rd : XReg) (rs1 : FReg) (rm : BitVec 3)
  /-- `fcvt.s.w` (46_float_single.md R282) -/
  | fcvtSW (rd : FReg) (rs1 : XReg) (rm : BitVec 3)
  /-- `fcvt.s.wu` (46_float_single.md R283) -/
  | fcvtSWu (rd : FReg) (rs1 : XReg) (rm : BitVec 3)
  /-- `fcvt.s.l` (46_float_single.md R284) -/
  | fcvtSL (rd : FReg) (rs1 : XReg) (rm : BitVec 3)
  /-- `fcvt.s.lu` (46_float_single.md R285) -/
  | fcvtSLu (rd : FReg) (rs1 : XReg) (rm : BitVec 3)
  /-- `fmv.x.w` (46_float_single.md R286) -/
  | fmvXW (rd : XReg) (rs1 : FReg)
  /-- `fmv.w.x` (46_float_single.md R287) -/
  | fmvWX (rd : FReg) (rs1 : XReg)
  /-- `fld` (47_float_double.md R300) -/
  | fld (rd : FReg) (rs1 : XReg) (imm : BitVec 12)
  /-- `fsd` (47_float_double.md R301) -/
  | fsd (rs1 : XReg) (rs2 : FReg) (imm : BitVec 12)
  /-- `fmadd.d` (47_float_double.md R302) -/
  | fmaddD (rd rs1 rs2 rs3 : FReg) (rm : BitVec 3)
  /-- `fmsub.d` (47_float_double.md R303) -/
  | fmsubD (rd rs1 rs2 rs3 : FReg) (rm : BitVec 3)
  /-- `fnmsub.d` (47_float_double.md R304) -/
  | fnmsubD (rd rs1 rs2 rs3 : FReg) (rm : BitVec 3)
  /-- `fnmadd.d` (47_float_double.md R305) -/
  | fnmaddD (rd rs1 rs2 rs3 : FReg) (rm : BitVec 3)
  /-- `fadd.d` (47_float_double.md R306) -/
  | faddD (rd rs1 rs2 : FReg) (rm : BitVec 3)
  /-- `fsub.d` (47_float_double.md R307) -/
  | fsubD (rd rs1 rs2 : FReg) (rm : BitVec 3)
  /-- `fmul.d` (47_float_double.md R308) -/
  | fmulD (rd rs1 rs2 : FReg) (rm : BitVec 3)
  /-- `fdiv.d` (47_float_double.md R309) -/
  | fdivD (rd rs1 rs2 : FReg) (rm : BitVec 3)
  /-- `fsqrt.d` (47_float_double.md R310) -/
  | fsqrtD (rd rs1 : FReg) (rm : BitVec 3)
  /-- `fsgnj.d` (47_float_double.md R311) -/
  | fsgnjD (rd rs1 rs2 : FReg)
  /-- `fsgnjn.d` (47_float_double.md R312) -/
  | fsgnjnD (rd rs1 rs2 : FReg)
  /-- `fsgnjx.d` (47_float_double.md R313) -/
  | fsgnjxD (rd rs1 rs2 : FReg)
  /-- `fmin.d` (47_float_double.md R314) -/
  | fminD (rd rs1 rs2 : FReg)
  /-- `fmax.d` (47_float_double.md R315) -/
  | fmaxD (rd rs1 rs2 : FReg)
  /-- `feq.d` (47_float_double.md R318) -/
  | feqD (rd : XReg) (rs1 rs2 : FReg)
  /-- `flt.d` (47_float_double.md R319) -/
  | fltD (rd : XReg) (rs1 rs2 : FReg)
  /-- `fle.d` (47_float_double.md R320) -/
  | fleD (rd : XReg) (rs1 rs2 : FReg)
  /-- `fclass.d` (47_float_double.md R321) -/
  | fclassD (rd : XReg) (rs1 : FReg)
  /-- `fcvt.w.d` (47_float_double.md R322) -/
  | fcvtWD (rd : XReg) (rs1 : FReg) (rm : BitVec 3)
  /-- `fcvt.wu.d` (47_float_double.md R323) -/
  | fcvtWuD (rd : XReg) (rs1 : FReg) (rm : BitVec 3)
  /-- `fcvt.l.d` (47_float_double.md R326) -/
  | fcvtLD (rd : XReg) (rs1 : FReg) (rm : BitVec 3)
  /-- `fcvt.lu.d` (47_float_double.md R327) -/
  | fcvtLuD (rd : XReg) (rs1 : FReg) (rm : BitVec 3)
  /-- `fcvt.d.w` (47_float_double.md R324) -/
  | fcvtDW (rd : FReg) (rs1 : XReg) (rm : BitVec 3)
  /-- `fcvt.d.wu` (47_float_double.md R325) -/
  | fcvtDWu (rd : FReg) (rs1 : XReg) (rm : BitVec 3)
  /-- `fcvt.d.l` (47_float_double.md R328) -/
  | fcvtDL (rd : FReg) (rs1 : XReg) (rm : BitVec 3)
  /-- `fcvt.d.lu` (47_float_double.md R329) -/
  | fcvtDLu (rd : FReg) (rs1 : XReg) (rm : BitVec 3)
  /-- `fcvt.s.d` (47_float_double.md R316) -/
  | fcvtSD (rd rs1 : FReg) (rm : BitVec 3)
  /-- `fcvt.d.s` (47_float_double.md R317) -/
  | fcvtDS (rd rs1 : FReg) (rm : BitVec 3)
  /-- `fmv.x.d` (47_float_double.md R330) -/
  | fmvXD (rd : XReg) (rs1 : FReg)
  /-- `fmv.d.x` (47_float_double.md R331) -/
  | fmvDX (rd : FReg) (rs1 : XReg)
  deriving DecidableEq, Repr

end Sys2Proof
end

