-- ==== Sys2Proof/Decode.lean ====
section
/-! DEFINITION. The codec, the instruction table and the lookup (30_encoding.md R100 to R116), and the encoder. -/

namespace Sys2Proof

/-- The field letters of a template (00_scope.md R11). -/
inductive Letter where
  | d | s | t | r | i | m | h | c | z | p | q
  deriving DecidableEq, Repr

/-- A run of a template's characters: fixed bits, or positions of one letter. A template is the list of its runs, most
significant first; a character other than 0, 1 or a letter cannot be written (30_encoding.md R105 (b)). -/
inductive Piece where
  | lit (width value : Nat)
  | fld (letter : Letter) (width : Nat)
  deriving DecidableEq, Repr

abbrev Piece.width : Piece → Nat
  | .lit n _ => n
  | .fld _ n => n

/-- How many characters a template has. -/
def templateWidth : List Piece → Nat
  | [] => 0
  | p :: ps => p.width + templateWidth ps

/-- Compilation (a): the mask has a 1 at every fixed position (30_encoding.md R101). -/
def templateMask : List Piece → Nat
  | [] => 0
  | .lit n _ :: ps => (2 ^ n - 1) * 2 ^ templateWidth ps + templateMask ps
  | .fld _ _ :: ps => templateMask ps

/-- Compilation (b): the literal value at the fixed positions (30_encoding.md R101). -/
def templateValue : List Piece → Nat
  | [] => 0
  | .lit _ v :: ps => v * 2 ^ templateWidth ps + templateValue ps
  | .fld _ _ :: ps => templateValue ps

/-- The raw value of letter `l` after `acc`: its positions concatenated in template order (30_encoding.md R103). -/
def rawFieldFrom (l : Letter) (w : InstrWord) : Nat → List Piece → Nat
  | acc, [] => acc
  | acc, .lit _ _ :: ps => rawFieldFrom l w acc ps
  | acc, .fld k n :: ps =>
    if k = l then rawFieldFrom l w (acc * 2 ^ n + (w.extractLsb' (templateWidth ps) n).toNat) ps
    else rawFieldFrom l w acc ps

/-- `decodeFields`: the raw value of each letter in a word (30_encoding.md R103). -/
def decodeFields (template : List Piece) (w : InstrWord) (l : Letter) : Nat := rawFieldFrom l w 0 template

/-- The raw fields of one word. -/
abbrev RawFields := Letter → Nat

/-- A 5-bit register field. -/
abbrev RawFields.reg (f : RawFields) (l : Letter) : BitVec 5 := .ofNat 5 (f l)

/-- The B offset from the raw i field w[31:25],w[11:7] (30_encoding.md R103, R110). -/
def immB (raw : BitVec 12) : BitVec 13 :=
  raw.extractLsb' 11 1 ++ raw.extractLsb' 0 1 ++ raw.extractLsb' 5 6 ++ raw.extractLsb' 1 4 ++ 0#1

/-- The J offset from the raw i field w[31:12] (30_encoding.md R103, R112). -/
def immJ (raw : BitVec 20) : BitVec 21 :=
  raw.extractLsb' 19 1 ++ raw.extractLsb' 0 8 ++ raw.extractLsb' 8 1 ++ raw.extractLsb' 9 10 ++ 0#1

/-- A descriptor: one row of spec/opcode_table.json. `rv64` marks a 64-bit-only row (30_encoding.md R106). -/
structure Row where
  mnemonic : String
  template : List Piece
  mask     : InstrWord
  value    : InstrWord
  rv64     : Bool
  build    : RawFields → Instr

/-- `matches(d, w)` (30_encoding.md R102). -/
def Row.hits (r : Row) (w : InstrWord) : Bool := (w &&& r.mask) == r.value

/-- The instruction a matching word stands for. -/
def Row.instr (r : Row) (w : InstrWord) : Instr := r.build (decodeFields r.template w)

/-- Mode applicability (30_encoding.md R106). -/
def Row.appliesTo (r : Row) (x : XLen) : Bool := !r.rv64 || x == .x64

/-- Two descriptors differ in a bit that both fix (30_encoding.md R105 (c)). -/
def Row.disjoint (r s : Row) : Bool := ((r.value ^^^ s.value) &&& r.mask &&& s.mask) != 0

/-- The rows of 41_integer.md (30_encoding.md section 8). -/
def rowsInteger : List Row := [
  ⟨"lui", [.fld .i 20, .fld .d 5, .lit 7 0b0110111],
    0x0000007F, 0x00000037, false, fun f => .lui (f.reg .d) (.ofNat 20 (f .i))⟩,
  ⟨"auipc", [.fld .i 20, .fld .d 5, .lit 7 0b0010111],
    0x0000007F, 0x00000017, false, fun f => .auipc (f.reg .d) (.ofNat 20 (f .i))⟩,
  ⟨"addi", [.fld .i 12, .fld .s 5, .lit 3 0b000, .fld .d 5, .lit 7 0b0010011],
    0x0000707F, 0x00000013, false, fun f => .addi (f.reg .d) (f.reg .s) (.ofNat 12 (f .i))⟩,
  ⟨"slti", [.fld .i 12, .fld .s 5, .lit 3 0b010, .fld .d 5, .lit 7 0b0010011],
    0x0000707F, 0x00002013, false, fun f => .slti (f.reg .d) (f.reg .s) (.ofNat 12 (f .i))⟩,
  ⟨"sltiu", [.fld .i 12, .fld .s 5, .lit 3 0b011, .fld .d 5, .lit 7 0b0010011],
    0x0000707F, 0x00003013, false, fun f => .sltiu (f.reg .d) (f.reg .s) (.ofNat 12 (f .i))⟩,
  ⟨"xori", [.fld .i 12, .fld .s 5, .lit 3 0b100, .fld .d 5, .lit 7 0b0010011],
    0x0000707F, 0x00004013, false, fun f => .xori (f.reg .d) (f.reg .s) (.ofNat 12 (f .i))⟩,
  ⟨"ori", [.fld .i 12, .fld .s 5, .lit 3 0b110, .fld .d 5, .lit 7 0b0010011],
    0x0000707F, 0x00006013, false, fun f => .ori (f.reg .d) (f.reg .s) (.ofNat 12 (f .i))⟩,
  ⟨"andi", [.fld .i 12, .fld .s 5, .lit 3 0b111, .fld .d 5, .lit 7 0b0010011],
    0x0000707F, 0x00007013, false, fun f => .andi (f.reg .d) (f.reg .s) (.ofNat 12 (f .i))⟩,
  ⟨"slli", [.lit 7 0b0000000, .fld .h 5, .fld .s 5, .lit 3 0b001, .fld .d 5, .lit 7 0b0010011],
    0xFE00707F, 0x00001013, false, fun f => .slli (f.reg .d) (f.reg .s) ((0#1 ++ (BitVec.ofNat 5 (f .h))))⟩,
  ⟨"srli", [.lit 7 0b0000000, .fld .h 5, .fld .s 5, .lit 3 0b101, .fld .d 5, .lit 7 0b0010011],
    0xFE00707F, 0x00005013, false, fun f => .srli (f.reg .d) (f.reg .s) ((0#1 ++ (BitVec.ofNat 5 (f .h))))⟩,
  ⟨"srai", [.lit 7 0b0100000, .fld .h 5, .fld .s 5, .lit 3 0b101, .fld .d 5, .lit 7 0b0010011],
    0xFE00707F, 0x40005013, false, fun f => .srai (f.reg .d) (f.reg .s) ((0#1 ++ (BitVec.ofNat 5 (f .h))))⟩,
  ⟨"slli[shamt5=1]", [.lit 7 0b0000001, .fld .h 5, .fld .s 5, .lit 3 0b001, .fld .d 5, .lit 7 0b0010011],
    0xFE00707F, 0x02001013, true, fun f => .slliHi (f.reg .d) (f.reg .s) ((1#1 ++ (BitVec.ofNat 5 (f .h))))⟩,
  ⟨"srli[shamt5=1]", [.lit 7 0b0000001, .fld .h 5, .fld .s 5, .lit 3 0b101, .fld .d 5, .lit 7 0b0010011],
    0xFE00707F, 0x02005013, true, fun f => .srliHi (f.reg .d) (f.reg .s) ((1#1 ++ (BitVec.ofNat 5 (f .h))))⟩,
  ⟨"srai[shamt5=1]", [.lit 7 0b0100001, .fld .h 5, .fld .s 5, .lit 3 0b101, .fld .d 5, .lit 7 0b0010011],
    0xFE00707F, 0x42005013, true, fun f => .sraiHi (f.reg .d) (f.reg .s) ((1#1 ++ (BitVec.ofNat 5 (f .h))))⟩,
  ⟨"add", [.lit 7 0b0000000, .fld .t 5, .fld .s 5, .lit 3 0b000, .fld .d 5, .lit 7 0b0110011],
    0xFE00707F, 0x00000033, false, fun f => .add (f.reg .d) (f.reg .s) (f.reg .t)⟩,
  ⟨"sub", [.lit 7 0b0100000, .fld .t 5, .fld .s 5, .lit 3 0b000, .fld .d 5, .lit 7 0b0110011],
    0xFE00707F, 0x40000033, false, fun f => .sub (f.reg .d) (f.reg .s) (f.reg .t)⟩,
  ⟨"sll", [.lit 7 0b0000000, .fld .t 5, .fld .s 5, .lit 3 0b001, .fld .d 5, .lit 7 0b0110011],
    0xFE00707F, 0x00001033, false, fun f => .sll (f.reg .d) (f.reg .s) (f.reg .t)⟩,
  ⟨"slt", [.lit 7 0b0000000, .fld .t 5, .fld .s 5, .lit 3 0b010, .fld .d 5, .lit 7 0b0110011],
    0xFE00707F, 0x00002033, false, fun f => .slt (f.reg .d) (f.reg .s) (f.reg .t)⟩,
  ⟨"sltu", [.lit 7 0b0000000, .fld .t 5, .fld .s 5, .lit 3 0b011, .fld .d 5, .lit 7 0b0110011],
    0xFE00707F, 0x00003033, false, fun f => .sltu (f.reg .d) (f.reg .s) (f.reg .t)⟩,
  ⟨"xor", [.lit 7 0b0000000, .fld .t 5, .fld .s 5, .lit 3 0b100, .fld .d 5, .lit 7 0b0110011],
    0xFE00707F, 0x00004033, false, fun f => .xor (f.reg .d) (f.reg .s) (f.reg .t)⟩,
  ⟨"srl", [.lit 7 0b0000000, .fld .t 5, .fld .s 5, .lit 3 0b101, .fld .d 5, .lit 7 0b0110011],
    0xFE00707F, 0x00005033, false, fun f => .srl (f.reg .d) (f.reg .s) (f.reg .t)⟩,
  ⟨"sra", [.lit 7 0b0100000, .fld .t 5, .fld .s 5, .lit 3 0b101, .fld .d 5, .lit 7 0b0110011],
    0xFE00707F, 0x40005033, false, fun f => .sra (f.reg .d) (f.reg .s) (f.reg .t)⟩,
  ⟨"or", [.lit 7 0b0000000, .fld .t 5, .fld .s 5, .lit 3 0b110, .fld .d 5, .lit 7 0b0110011],
    0xFE00707F, 0x00006033, false, fun f => .or (f.reg .d) (f.reg .s) (f.reg .t)⟩,
  ⟨"and", [.lit 7 0b0000000, .fld .t 5, .fld .s 5, .lit 3 0b111, .fld .d 5, .lit 7 0b0110011],
    0xFE00707F, 0x00007033, false, fun f => .and (f.reg .d) (f.reg .s) (f.reg .t)⟩,
  ⟨"addiw", [.fld .i 12, .fld .s 5, .lit 3 0b000, .fld .d 5, .lit 7 0b0011011],
    0x0000707F, 0x0000001B, true, fun f => .addiw (f.reg .d) (f.reg .s) (.ofNat 12 (f .i))⟩,
  ⟨"slliw", [.lit 7 0b0000000, .fld .h 5, .fld .s 5, .lit 3 0b001, .fld .d 5, .lit 7 0b0011011],
    0xFE00707F, 0x0000101B, true, fun f => .slliw (f.reg .d) (f.reg .s) (.ofNat 5 (f .h))⟩,
  ⟨"srliw", [.lit 7 0b0000000, .fld .h 5, .fld .s 5, .lit 3 0b101, .fld .d 5, .lit 7 0b0011011],
    0xFE00707F, 0x0000501B, true, fun f => .srliw (f.reg .d) (f.reg .s) (.ofNat 5 (f .h))⟩,
  ⟨"sraiw", [.lit 7 0b0100000, .fld .h 5, .fld .s 5, .lit 3 0b101, .fld .d 5, .lit 7 0b0011011],
    0xFE00707F, 0x4000501B, true, fun f => .sraiw (f.reg .d) (f.reg .s) (.ofNat 5 (f .h))⟩,
  ⟨"addw", [.lit 7 0b0000000, .fld .t 5, .fld .s 5, .lit 3 0b000, .fld .d 5, .lit 7 0b0111011],
    0xFE00707F, 0x0000003B, true, fun f => .addw (f.reg .d) (f.reg .s) (f.reg .t)⟩,
  ⟨"subw", [.lit 7 0b0100000, .fld .t 5, .fld .s 5, .lit 3 0b000, .fld .d 5, .lit 7 0b0111011],
    0xFE00707F, 0x4000003B, true, fun f => .subw (f.reg .d) (f.reg .s) (f.reg .t)⟩,
  ⟨"sllw", [.lit 7 0b0000000, .fld .t 5, .fld .s 5, .lit 3 0b001, .fld .d 5, .lit 7 0b0111011],
    0xFE00707F, 0x0000103B, true, fun f => .sllw (f.reg .d) (f.reg .s) (f.reg .t)⟩,
  ⟨"srlw", [.lit 7 0b0000000, .fld .t 5, .fld .s 5, .lit 3 0b101, .fld .d 5, .lit 7 0b0111011],
    0xFE00707F, 0x0000503B, true, fun f => .srlw (f.reg .d) (f.reg .s) (f.reg .t)⟩,
  ⟨"sraw", [.lit 7 0b0100000, .fld .t 5, .fld .s 5, .lit 3 0b101, .fld .d 5, .lit 7 0b0111011],
    0xFE00707F, 0x4000503B, true, fun f => .sraw (f.reg .d) (f.reg .s) (f.reg .t)⟩]

/-- The rows of 42_control.md (30_encoding.md section 8). -/
def rowsControl : List Row := [
  ⟨"jal", [.fld .i 20, .fld .d 5, .lit 7 0b1101111],
    0x0000007F, 0x0000006F, false, fun f => .jal (f.reg .d) (immJ (.ofNat 20 (f .i)))⟩,
  ⟨"jalr", [.fld .i 12, .fld .s 5, .lit 3 0b000, .fld .d 5, .lit 7 0b1100111],
    0x0000707F, 0x00000067, false, fun f => .jalr (f.reg .d) (f.reg .s) (.ofNat 12 (f .i))⟩,
  ⟨"beq", [.fld .i 7, .fld .t 5, .fld .s 5, .lit 3 0b000, .fld .i 5, .lit 7 0b1100011],
    0x0000707F, 0x00000063, false, fun f => .beq (f.reg .s) (f.reg .t) (immB (.ofNat 12 (f .i)))⟩,
  ⟨"bne", [.fld .i 7, .fld .t 5, .fld .s 5, .lit 3 0b001, .fld .i 5, .lit 7 0b1100011],
    0x0000707F, 0x00001063, false, fun f => .bne (f.reg .s) (f.reg .t) (immB (.ofNat 12 (f .i)))⟩,
  ⟨"blt", [.fld .i 7, .fld .t 5, .fld .s 5, .lit 3 0b100, .fld .i 5, .lit 7 0b1100011],
    0x0000707F, 0x00004063, false, fun f => .blt (f.reg .s) (f.reg .t) (immB (.ofNat 12 (f .i)))⟩,
  ⟨"bge", [.fld .i 7, .fld .t 5, .fld .s 5, .lit 3 0b101, .fld .i 5, .lit 7 0b1100011],
    0x0000707F, 0x00005063, false, fun f => .bge (f.reg .s) (f.reg .t) (immB (.ofNat 12 (f .i)))⟩,
  ⟨"bltu", [.fld .i 7, .fld .t 5, .fld .s 5, .lit 3 0b110, .fld .i 5, .lit 7 0b1100011],
    0x0000707F, 0x00006063, false, fun f => .bltu (f.reg .s) (f.reg .t) (immB (.ofNat 12 (f .i)))⟩,
  ⟨"bgeu", [.fld .i 7, .fld .t 5, .fld .s 5, .lit 3 0b111, .fld .i 5, .lit 7 0b1100011],
    0x0000707F, 0x00007063, false, fun f => .bgeu (f.reg .s) (f.reg .t) (immB (.ofNat 12 (f .i)))⟩]

/-- The rows of 43_loadstore.md (30_encoding.md section 8). -/
def rowsLoadStore : List Row := [
  ⟨"lb", [.fld .i 12, .fld .s 5, .lit 3 0b000, .fld .d 5, .lit 7 0b0000011],
    0x0000707F, 0x00000003, false, fun f => .lb (f.reg .d) (f.reg .s) (.ofNat 12 (f .i))⟩,
  ⟨"lh", [.fld .i 12, .fld .s 5, .lit 3 0b001, .fld .d 5, .lit 7 0b0000011],
    0x0000707F, 0x00001003, false, fun f => .lh (f.reg .d) (f.reg .s) (.ofNat 12 (f .i))⟩,
  ⟨"lw", [.fld .i 12, .fld .s 5, .lit 3 0b010, .fld .d 5, .lit 7 0b0000011],
    0x0000707F, 0x00002003, false, fun f => .lw (f.reg .d) (f.reg .s) (.ofNat 12 (f .i))⟩,
  ⟨"lbu", [.fld .i 12, .fld .s 5, .lit 3 0b100, .fld .d 5, .lit 7 0b0000011],
    0x0000707F, 0x00004003, false, fun f => .lbu (f.reg .d) (f.reg .s) (.ofNat 12 (f .i))⟩,
  ⟨"lhu", [.fld .i 12, .fld .s 5, .lit 3 0b101, .fld .d 5, .lit 7 0b0000011],
    0x0000707F, 0x00005003, false, fun f => .lhu (f.reg .d) (f.reg .s) (.ofNat 12 (f .i))⟩,
  ⟨"lwu", [.fld .i 12, .fld .s 5, .lit 3 0b110, .fld .d 5, .lit 7 0b0000011],
    0x0000707F, 0x00006003, true, fun f => .lwu (f.reg .d) (f.reg .s) (.ofNat 12 (f .i))⟩,
  ⟨"ld", [.fld .i 12, .fld .s 5, .lit 3 0b011, .fld .d 5, .lit 7 0b0000011],
    0x0000707F, 0x00003003, true, fun f => .ld (f.reg .d) (f.reg .s) (.ofNat 12 (f .i))⟩,
  ⟨"sb", [.fld .i 7, .fld .t 5, .fld .s 5, .lit 3 0b000, .fld .i 5, .lit 7 0b0100011],
    0x0000707F, 0x00000023, false, fun f => .sb (f.reg .s) (f.reg .t) (.ofNat 12 (f .i))⟩,
  ⟨"sh", [.fld .i 7, .fld .t 5, .fld .s 5, .lit 3 0b001, .fld .i 5, .lit 7 0b0100011],
    0x0000707F, 0x00001023, false, fun f => .sh (f.reg .s) (f.reg .t) (.ofNat 12 (f .i))⟩,
  ⟨"sw", [.fld .i 7, .fld .t 5, .fld .s 5, .lit 3 0b010, .fld .i 5, .lit 7 0b0100011],
    0x0000707F, 0x00002023, false, fun f => .sw (f.reg .s) (f.reg .t) (.ofNat 12 (f .i))⟩,
  ⟨"sd", [.fld .i 7, .fld .t 5, .fld .s 5, .lit 3 0b011, .fld .i 5, .lit 7 0b0100011],
    0x0000707F, 0x00003023, true, fun f => .sd (f.reg .s) (f.reg .t) (.ofNat 12 (f .i))⟩,
  ⟨"fence", [.lit 4 0b0000, .fld .p 4, .fld .q 4, .lit 20 0b00000000000000001111],
    0xF00FFFFF, 0x0000000F, false, fun f => .fence (.ofNat 4 (f .p)) (.ofNat 4 (f .q))⟩,
  ⟨"fence.i", [.lit 32 0b00000000000000000001000000001111],
    0xFFFFFFFF, 0x0000100F, false, fun _ => .fenceI⟩]

/-- The rows of 44_muldiv.md (30_encoding.md section 8). -/
def rowsMulDiv : List Row := [
  ⟨"mul", [.lit 7 0b0000001, .fld .t 5, .fld .s 5, .lit 3 0b000, .fld .d 5, .lit 7 0b0110011],
    0xFE00707F, 0x02000033, false, fun f => .mul (f.reg .d) (f.reg .s) (f.reg .t)⟩,
  ⟨"mulh", [.lit 7 0b0000001, .fld .t 5, .fld .s 5, .lit 3 0b001, .fld .d 5, .lit 7 0b0110011],
    0xFE00707F, 0x02001033, false, fun f => .mulh (f.reg .d) (f.reg .s) (f.reg .t)⟩,
  ⟨"mulhsu", [.lit 7 0b0000001, .fld .t 5, .fld .s 5, .lit 3 0b010, .fld .d 5, .lit 7 0b0110011],
    0xFE00707F, 0x02002033, false, fun f => .mulhsu (f.reg .d) (f.reg .s) (f.reg .t)⟩,
  ⟨"mulhu", [.lit 7 0b0000001, .fld .t 5, .fld .s 5, .lit 3 0b011, .fld .d 5, .lit 7 0b0110011],
    0xFE00707F, 0x02003033, false, fun f => .mulhu (f.reg .d) (f.reg .s) (f.reg .t)⟩,
  ⟨"div", [.lit 7 0b0000001, .fld .t 5, .fld .s 5, .lit 3 0b100, .fld .d 5, .lit 7 0b0110011],
    0xFE00707F, 0x02004033, false, fun f => .div (f.reg .d) (f.reg .s) (f.reg .t)⟩,
  ⟨"divu", [.lit 7 0b0000001, .fld .t 5, .fld .s 5, .lit 3 0b101, .fld .d 5, .lit 7 0b0110011],
    0xFE00707F, 0x02005033, false, fun f => .divu (f.reg .d) (f.reg .s) (f.reg .t)⟩,
  ⟨"rem", [.lit 7 0b0000001, .fld .t 5, .fld .s 5, .lit 3 0b110, .fld .d 5, .lit 7 0b0110011],
    0xFE00707F, 0x02006033, false, fun f => .rem (f.reg .d) (f.reg .s) (f.reg .t)⟩,
  ⟨"remu", [.lit 7 0b0000001, .fld .t 5, .fld .s 5, .lit 3 0b111, .fld .d 5, .lit 7 0b0110011],
    0xFE00707F, 0x02007033, false, fun f => .remu (f.reg .d) (f.reg .s) (f.reg .t)⟩,
  ⟨"mulw", [.lit 7 0b0000001, .fld .t 5, .fld .s 5, .lit 3 0b000, .fld .d 5, .lit 7 0b0111011],
    0xFE00707F, 0x0200003B, true, fun f => .mulw (f.reg .d) (f.reg .s) (f.reg .t)⟩,
  ⟨"divw", [.lit 7 0b0000001, .fld .t 5, .fld .s 5, .lit 3 0b100, .fld .d 5, .lit 7 0b0111011],
    0xFE00707F, 0x0200403B, true, fun f => .divw (f.reg .d) (f.reg .s) (f.reg .t)⟩,
  ⟨"divuw", [.lit 7 0b0000001, .fld .t 5, .fld .s 5, .lit 3 0b101, .fld .d 5, .lit 7 0b0111011],
    0xFE00707F, 0x0200503B, true, fun f => .divuw (f.reg .d) (f.reg .s) (f.reg .t)⟩,
  ⟨"remw", [.lit 7 0b0000001, .fld .t 5, .fld .s 5, .lit 3 0b110, .fld .d 5, .lit 7 0b0111011],
    0xFE00707F, 0x0200603B, true, fun f => .remw (f.reg .d) (f.reg .s) (f.reg .t)⟩,
  ⟨"remuw", [.lit 7 0b0000001, .fld .t 5, .fld .s 5, .lit 3 0b111, .fld .d 5, .lit 7 0b0111011],
    0xFE00707F, 0x0200703B, true, fun f => .remuw (f.reg .d) (f.reg .s) (f.reg .t)⟩]

/-- The rows of 45_system.md (30_encoding.md section 8). -/
def rowsSystem : List Row := [
  ⟨"ecall", [.lit 32 0b00000000000000000000000001110011],
    0xFFFFFFFF, 0x00000073, false, fun _ => .ecall⟩,
  ⟨"ebreak", [.lit 32 0b00000000000100000000000001110011],
    0xFFFFFFFF, 0x00100073, false, fun _ => .ebreak⟩,
  ⟨"csrrw", [.fld .c 12, .fld .s 5, .lit 3 0b001, .fld .d 5, .lit 7 0b1110011],
    0x0000707F, 0x00001073, false, fun f => .csrrw (f.reg .d) (.ofNat 12 (f .c)) (f.reg .s)⟩,
  ⟨"csrrs", [.fld .c 12, .fld .s 5, .lit 3 0b010, .fld .d 5, .lit 7 0b1110011],
    0x0000707F, 0x00002073, false, fun f => .csrrs (f.reg .d) (.ofNat 12 (f .c)) (f.reg .s)⟩,
  ⟨"csrrc", [.fld .c 12, .fld .s 5, .lit 3 0b011, .fld .d 5, .lit 7 0b1110011],
    0x0000707F, 0x00003073, false, fun f => .csrrc (f.reg .d) (.ofNat 12 (f .c)) (f.reg .s)⟩,
  ⟨"csrrwi", [.fld .c 12, .fld .z 5, .lit 3 0b101, .fld .d 5, .lit 7 0b1110011],
    0x0000707F, 0x00005073, false, fun f => .csrrwi (f.reg .d) (.ofNat 12 (f .c)) (.ofNat 5 (f .z))⟩,
  ⟨"csrrsi", [.fld .c 12, .fld .z 5, .lit 3 0b110, .fld .d 5, .lit 7 0b1110011],
    0x0000707F, 0x00006073, false, fun f => .csrrsi (f.reg .d) (.ofNat 12 (f .c)) (.ofNat 5 (f .z))⟩,
  ⟨"csrrci", [.fld .c 12, .fld .z 5, .lit 3 0b111, .fld .d 5, .lit 7 0b1110011],
    0x0000707F, 0x00007073, false, fun f => .csrrci (f.reg .d) (.ofNat 12 (f .c)) (.ofNat 5 (f .z))⟩]

/-- The rows of 46_float_single.md (30_encoding.md section 8). -/
def rowsFloatSingle : List Row := [
  ⟨"flw", [.fld .i 12, .fld .s 5, .lit 3 0b010, .fld .d 5, .lit 7 0b0000111],
    0x0000707F, 0x00002007, false, fun f => .flw (f.reg .d) (f.reg .s) (.ofNat 12 (f .i))⟩,
  ⟨"fsw", [.fld .i 7, .fld .t 5, .fld .s 5, .lit 3 0b010, .fld .i 5, .lit 7 0b0100111],
    0x0000707F, 0x00002027, false, fun f => .fsw (f.reg .s) (f.reg .t) (.ofNat 12 (f .i))⟩,
  ⟨"fmadd.s", [.fld .r 5, .lit 2 0b00, .fld .t 5, .fld .s 5, .fld .m 3, .fld .d 5, .lit 7 0b1000011],
    0x0600007F, 0x00000043, false, fun f => .fmaddS (f.reg .d) (f.reg .s) (f.reg .t) (f.reg .r) (.ofNat 3 (f .m))⟩,
  ⟨"fmsub.s", [.fld .r 5, .lit 2 0b00, .fld .t 5, .fld .s 5, .fld .m 3, .fld .d 5, .lit 7 0b1000111],
    0x0600007F, 0x00000047, false, fun f => .fmsubS (f.reg .d) (f.reg .s) (f.reg .t) (f.reg .r) (.ofNat 3 (f .m))⟩,
  ⟨"fnmsub.s", [.fld .r 5, .lit 2 0b00, .fld .t 5, .fld .s 5, .fld .m 3, .fld .d 5, .lit 7 0b1001011],
    0x0600007F, 0x0000004B, false, fun f => .fnmsubS (f.reg .d) (f.reg .s) (f.reg .t) (f.reg .r) (.ofNat 3 (f .m))⟩,
  ⟨"fnmadd.s", [.fld .r 5, .lit 2 0b00, .fld .t 5, .fld .s 5, .fld .m 3, .fld .d 5, .lit 7 0b1001111],
    0x0600007F, 0x0000004F, false, fun f => .fnmaddS (f.reg .d) (f.reg .s) (f.reg .t) (f.reg .r) (.ofNat 3 (f .m))⟩,
  ⟨"fadd.s", [.lit 7 0b0000000, .fld .t 5, .fld .s 5, .fld .m 3, .fld .d 5, .lit 7 0b1010011],
    0xFE00007F, 0x00000053, false, fun f => .faddS (f.reg .d) (f.reg .s) (f.reg .t) (.ofNat 3 (f .m))⟩,
  ⟨"fsub.s", [.lit 7 0b0000100, .fld .t 5, .fld .s 5, .fld .m 3, .fld .d 5, .lit 7 0b1010011],
    0xFE00007F, 0x08000053, false, fun f => .fsubS (f.reg .d) (f.reg .s) (f.reg .t) (.ofNat 3 (f .m))⟩,
  ⟨"fmul.s", [.lit 7 0b0001000, .fld .t 5, .fld .s 5, .fld .m 3, .fld .d 5, .lit 7 0b1010011],
    0xFE00007F, 0x10000053, false, fun f => .fmulS (f.reg .d) (f.reg .s) (f.reg .t) (.ofNat 3 (f .m))⟩,
  ⟨"fdiv.s", [.lit 7 0b0001100, .fld .t 5, .fld .s 5, .fld .m 3, .fld .d 5, .lit 7 0b1010011],
    0xFE00007F, 0x18000053, false, fun f => .fdivS (f.reg .d) (f.reg .s) (f.reg .t) (.ofNat 3 (f .m))⟩,
  ⟨"fsqrt.s", [.lit 12 0b010110000000, .fld .s 5, .fld .m 3, .fld .d 5, .lit 7 0b1010011],
    0xFFF0007F, 0x58000053, false, fun f => .fsqrtS (f.reg .d) (f.reg .s) (.ofNat 3 (f .m))⟩,
  ⟨"fsgnj.s", [.lit 7 0b0010000, .fld .t 5, .fld .s 5, .lit 3 0b000, .fld .d 5, .lit 7 0b1010011],
    0xFE00707F, 0x20000053, false, fun f => .fsgnjS (f.reg .d) (f.reg .s) (f.reg .t)⟩,
  ⟨"fsgnjn.s", [.lit 7 0b0010000, .fld .t 5, .fld .s 5, .lit 3 0b001, .fld .d 5, .lit 7 0b1010011],
    0xFE00707F, 0x20001053, false, fun f => .fsgnjnS (f.reg .d) (f.reg .s) (f.reg .t)⟩,
  ⟨"fsgnjx.s", [.lit 7 0b0010000, .fld .t 5, .fld .s 5, .lit 3 0b010, .fld .d 5, .lit 7 0b1010011],
    0xFE00707F, 0x20002053, false, fun f => .fsgnjxS (f.reg .d) (f.reg .s) (f.reg .t)⟩,
  ⟨"fmin.s", [.lit 7 0b0010100, .fld .t 5, .fld .s 5, .lit 3 0b000, .fld .d 5, .lit 7 0b1010011],
    0xFE00707F, 0x28000053, false, fun f => .fminS (f.reg .d) (f.reg .s) (f.reg .t)⟩,
  ⟨"fmax.s", [.lit 7 0b0010100, .fld .t 5, .fld .s 5, .lit 3 0b001, .fld .d 5, .lit 7 0b1010011],
    0xFE00707F, 0x28001053, false, fun f => .fmaxS (f.reg .d) (f.reg .s) (f.reg .t)⟩,
  ⟨"feq.s", [.lit 7 0b1010000, .fld .t 5, .fld .s 5, .lit 3 0b010, .fld .d 5, .lit 7 0b1010011],
    0xFE00707F, 0xA0002053, false, fun f => .feqS (f.reg .d) (f.reg .s) (f.reg .t)⟩,
  ⟨"flt.s", [.lit 7 0b1010000, .fld .t 5, .fld .s 5, .lit 3 0b001, .fld .d 5, .lit 7 0b1010011],
    0xFE00707F, 0xA0001053, false, fun f => .fltS (f.reg .d) (f.reg .s) (f.reg .t)⟩,
  ⟨"fle.s", [.lit 7 0b1010000, .fld .t 5, .fld .s 5, .lit 3 0b000, .fld .d 5, .lit 7 0b1010011],
    0xFE00707F, 0xA0000053, false, fun f => .fleS (f.reg .d) (f.reg .s) (f.reg .t)⟩,
  ⟨"fclass.s", [.lit 12 0b111000000000, .fld .s 5, .lit 3 0b001, .fld .d 5, .lit 7 0b1010011],
    0xFFF0707F, 0xE0001053, false, fun f => .fclassS (f.reg .d) (f.reg .s)⟩,
  ⟨"fcvt.w.s", [.lit 12 0b110000000000, .fld .s 5, .fld .m 3, .fld .d 5, .lit 7 0b1010011],
    0xFFF0007F, 0xC0000053, false, fun f => .fcvtWS (f.reg .d) (f.reg .s) (.ofNat 3 (f .m))⟩,
  ⟨"fcvt.wu.s", [.lit 12 0b110000000001, .fld .s 5, .fld .m 3, .fld .d 5, .lit 7 0b1010011],
    0xFFF0007F, 0xC0100053, false, fun f => .fcvtWuS (f.reg .d) (f.reg .s) (.ofNat 3 (f .m))⟩,
  ⟨"fcvt.l.s", [.lit 12 0b110000000010, .fld .s 5, .fld .m 3, .fld .d 5, .lit 7 0b1010011],
    0xFFF0007F, 0xC0200053, true, fun f => .fcvtLS (f.reg .d) (f.reg .s) (.ofNat 3 (f .m))⟩,
  ⟨"fcvt.lu.s", [.lit 12 0b110000000011, .fld .s 5, .fld .m 3, .fld .d 5, .lit 7 0b1010011],
    0xFFF0007F, 0xC0300053, true, fun f => .fcvtLuS (f.reg .d) (f.reg .s) (.ofNat 3 (f .m))⟩,
  ⟨"fcvt.s.w", [.lit 12 0b110100000000, .fld .s 5, .fld .m 3, .fld .d 5, .lit 7 0b1010011],
    0xFFF0007F, 0xD0000053, false, fun f => .fcvtSW (f.reg .d) (f.reg .s) (.ofNat 3 (f .m))⟩,
  ⟨"fcvt.s.wu", [.lit 12 0b110100000001, .fld .s 5, .fld .m 3, .fld .d 5, .lit 7 0b1010011],
    0xFFF0007F, 0xD0100053, false, fun f => .fcvtSWu (f.reg .d) (f.reg .s) (.ofNat 3 (f .m))⟩,
  ⟨"fcvt.s.l", [.lit 12 0b110100000010, .fld .s 5, .fld .m 3, .fld .d 5, .lit 7 0b1010011],
    0xFFF0007F, 0xD0200053, true, fun f => .fcvtSL (f.reg .d) (f.reg .s) (.ofNat 3 (f .m))⟩,
  ⟨"fcvt.s.lu", [.lit 12 0b110100000011, .fld .s 5, .fld .m 3, .fld .d 5, .lit 7 0b1010011],
    0xFFF0007F, 0xD0300053, true, fun f => .fcvtSLu (f.reg .d) (f.reg .s) (.ofNat 3 (f .m))⟩,
  ⟨"fmv.x.w", [.lit 12 0b111000000000, .fld .s 5, .lit 3 0b000, .fld .d 5, .lit 7 0b1010011],
    0xFFF0707F, 0xE0000053, false, fun f => .fmvXW (f.reg .d) (f.reg .s)⟩,
  ⟨"fmv.w.x", [.lit 12 0b111100000000, .fld .s 5, .lit 3 0b000, .fld .d 5, .lit 7 0b1010011],
    0xFFF0707F, 0xF0000053, false, fun f => .fmvWX (f.reg .d) (f.reg .s)⟩]

/-- The rows of 47_float_double.md (30_encoding.md section 8). -/
def rowsFloatDouble : List Row := [
  ⟨"fld", [.fld .i 12, .fld .s 5, .lit 3 0b011, .fld .d 5, .lit 7 0b0000111],
    0x0000707F, 0x00003007, false, fun f => .fld (f.reg .d) (f.reg .s) (.ofNat 12 (f .i))⟩,
  ⟨"fsd", [.fld .i 7, .fld .t 5, .fld .s 5, .lit 3 0b011, .fld .i 5, .lit 7 0b0100111],
    0x0000707F, 0x00003027, false, fun f => .fsd (f.reg .s) (f.reg .t) (.ofNat 12 (f .i))⟩,
  ⟨"fmadd.d", [.fld .r 5, .lit 2 0b01, .fld .t 5, .fld .s 5, .fld .m 3, .fld .d 5, .lit 7 0b1000011],
    0x0600007F, 0x02000043, false, fun f => .fmaddD (f.reg .d) (f.reg .s) (f.reg .t) (f.reg .r) (.ofNat 3 (f .m))⟩,
  ⟨"fmsub.d", [.fld .r 5, .lit 2 0b01, .fld .t 5, .fld .s 5, .fld .m 3, .fld .d 5, .lit 7 0b1000111],
    0x0600007F, 0x02000047, false, fun f => .fmsubD (f.reg .d) (f.reg .s) (f.reg .t) (f.reg .r) (.ofNat 3 (f .m))⟩,
  ⟨"fnmsub.d", [.fld .r 5, .lit 2 0b01, .fld .t 5, .fld .s 5, .fld .m 3, .fld .d 5, .lit 7 0b1001011],
    0x0600007F, 0x0200004B, false, fun f => .fnmsubD (f.reg .d) (f.reg .s) (f.reg .t) (f.reg .r) (.ofNat 3 (f .m))⟩,
  ⟨"fnmadd.d", [.fld .r 5, .lit 2 0b01, .fld .t 5, .fld .s 5, .fld .m 3, .fld .d 5, .lit 7 0b1001111],
    0x0600007F, 0x0200004F, false, fun f => .fnmaddD (f.reg .d) (f.reg .s) (f.reg .t) (f.reg .r) (.ofNat 3 (f .m))⟩,
  ⟨"fadd.d", [.lit 7 0b0000001, .fld .t 5, .fld .s 5, .fld .m 3, .fld .d 5, .lit 7 0b1010011],
    0xFE00007F, 0x02000053, false, fun f => .faddD (f.reg .d) (f.reg .s) (f.reg .t) (.ofNat 3 (f .m))⟩,
  ⟨"fsub.d", [.lit 7 0b0000101, .fld .t 5, .fld .s 5, .fld .m 3, .fld .d 5, .lit 7 0b1010011],
    0xFE00007F, 0x0A000053, false, fun f => .fsubD (f.reg .d) (f.reg .s) (f.reg .t) (.ofNat 3 (f .m))⟩,
  ⟨"fmul.d", [.lit 7 0b0001001, .fld .t 5, .fld .s 5, .fld .m 3, .fld .d 5, .lit 7 0b1010011],
    0xFE00007F, 0x12000053, false, fun f => .fmulD (f.reg .d) (f.reg .s) (f.reg .t) (.ofNat 3 (f .m))⟩,
  ⟨"fdiv.d", [.lit 7 0b0001101, .fld .t 5, .fld .s 5, .fld .m 3, .fld .d 5, .lit 7 0b1010011],
    0xFE00007F, 0x1A000053, false, fun f => .fdivD (f.reg .d) (f.reg .s) (f.reg .t) (.ofNat 3 (f .m))⟩,
  ⟨"fsqrt.d", [.lit 12 0b010110100000, .fld .s 5, .fld .m 3, .fld .d 5, .lit 7 0b1010011],
    0xFFF0007F, 0x5A000053, false, fun f => .fsqrtD (f.reg .d) (f.reg .s) (.ofNat 3 (f .m))⟩,
  ⟨"fsgnj.d", [.lit 7 0b0010001, .fld .t 5, .fld .s 5, .lit 3 0b000, .fld .d 5, .lit 7 0b1010011],
    0xFE00707F, 0x22000053, false, fun f => .fsgnjD (f.reg .d) (f.reg .s) (f.reg .t)⟩,
  ⟨"fsgnjn.d", [.lit 7 0b0010001, .fld .t 5, .fld .s 5, .lit 3 0b001, .fld .d 5, .lit 7 0b1010011],
    0xFE00707F, 0x22001053, false, fun f => .fsgnjnD (f.reg .d) (f.reg .s) (f.reg .t)⟩,
  ⟨"fsgnjx.d", [.lit 7 0b0010001, .fld .t 5, .fld .s 5, .lit 3 0b010, .fld .d 5, .lit 7 0b1010011],
    0xFE00707F, 0x22002053, false, fun f => .fsgnjxD (f.reg .d) (f.reg .s) (f.reg .t)⟩,
  ⟨"fmin.d", [.lit 7 0b0010101, .fld .t 5, .fld .s 5, .lit 3 0b000, .fld .d 5, .lit 7 0b1010011],
    0xFE00707F, 0x2A000053, false, fun f => .fminD (f.reg .d) (f.reg .s) (f.reg .t)⟩,
  ⟨"fmax.d", [.lit 7 0b0010101, .fld .t 5, .fld .s 5, .lit 3 0b001, .fld .d 5, .lit 7 0b1010011],
    0xFE00707F, 0x2A001053, false, fun f => .fmaxD (f.reg .d) (f.reg .s) (f.reg .t)⟩,
  ⟨"feq.d", [.lit 7 0b1010001, .fld .t 5, .fld .s 5, .lit 3 0b010, .fld .d 5, .lit 7 0b1010011],
    0xFE00707F, 0xA2002053, false, fun f => .feqD (f.reg .d) (f.reg .s) (f.reg .t)⟩,
  ⟨"flt.d", [.lit 7 0b1010001, .fld .t 5, .fld .s 5, .lit 3 0b001, .fld .d 5, .lit 7 0b1010011],
    0xFE00707F, 0xA2001053, false, fun f => .fltD (f.reg .d) (f.reg .s) (f.reg .t)⟩,
  ⟨"fle.d", [.lit 7 0b1010001, .fld .t 5, .fld .s 5, .lit 3 0b000, .fld .d 5, .lit 7 0b1010011],
    0xFE00707F, 0xA2000053, false, fun f => .fleD (f.reg .d) (f.reg .s) (f.reg .t)⟩,
  ⟨"fclass.d", [.lit 12 0b111000100000, .fld .s 5, .lit 3 0b001, .fld .d 5, .lit 7 0b1010011],
    0xFFF0707F, 0xE2001053, false, fun f => .fclassD (f.reg .d) (f.reg .s)⟩,
  ⟨"fcvt.w.d", [.lit 12 0b110000100000, .fld .s 5, .fld .m 3, .fld .d 5, .lit 7 0b1010011],
    0xFFF0007F, 0xC2000053, false, fun f => .fcvtWD (f.reg .d) (f.reg .s) (.ofNat 3 (f .m))⟩,
  ⟨"fcvt.wu.d", [.lit 12 0b110000100001, .fld .s 5, .fld .m 3, .fld .d 5, .lit 7 0b1010011],
    0xFFF0007F, 0xC2100053, false, fun f => .fcvtWuD (f.reg .d) (f.reg .s) (.ofNat 3 (f .m))⟩,
  ⟨"fcvt.l.d", [.lit 12 0b110000100010, .fld .s 5, .fld .m 3, .fld .d 5, .lit 7 0b1010011],
    0xFFF0007F, 0xC2200053, true, fun f => .fcvtLD (f.reg .d) (f.reg .s) (.ofNat 3 (f .m))⟩,
  ⟨"fcvt.lu.d", [.lit 12 0b110000100011, .fld .s 5, .fld .m 3, .fld .d 5, .lit 7 0b1010011],
    0xFFF0007F, 0xC2300053, true, fun f => .fcvtLuD (f.reg .d) (f.reg .s) (.ofNat 3 (f .m))⟩,
  ⟨"fcvt.d.w", [.lit 12 0b110100100000, .fld .s 5, .fld .m 3, .fld .d 5, .lit 7 0b1010011],
    0xFFF0007F, 0xD2000053, false, fun f => .fcvtDW (f.reg .d) (f.reg .s) (.ofNat 3 (f .m))⟩,
  ⟨"fcvt.d.wu", [.lit 12 0b110100100001, .fld .s 5, .fld .m 3, .fld .d 5, .lit 7 0b1010011],
    0xFFF0007F, 0xD2100053, false, fun f => .fcvtDWu (f.reg .d) (f.reg .s) (.ofNat 3 (f .m))⟩,
  ⟨"fcvt.d.l", [.lit 12 0b110100100010, .fld .s 5, .fld .m 3, .fld .d 5, .lit 7 0b1010011],
    0xFFF0007F, 0xD2200053, true, fun f => .fcvtDL (f.reg .d) (f.reg .s) (.ofNat 3 (f .m))⟩,
  ⟨"fcvt.d.lu", [.lit 12 0b110100100011, .fld .s 5, .fld .m 3, .fld .d 5, .lit 7 0b1010011],
    0xFFF0007F, 0xD2300053, true, fun f => .fcvtDLu (f.reg .d) (f.reg .s) (.ofNat 3 (f .m))⟩,
  ⟨"fcvt.s.d", [.lit 12 0b010000000001, .fld .s 5, .fld .m 3, .fld .d 5, .lit 7 0b1010011],
    0xFFF0007F, 0x40100053, false, fun f => .fcvtSD (f.reg .d) (f.reg .s) (.ofNat 3 (f .m))⟩,
  ⟨"fcvt.d.s", [.lit 12 0b010000100000, .fld .s 5, .fld .m 3, .fld .d 5, .lit 7 0b1010011],
    0xFFF0007F, 0x42000053, false, fun f => .fcvtDS (f.reg .d) (f.reg .s) (.ofNat 3 (f .m))⟩,
  ⟨"fmv.x.d", [.lit 12 0b111000100000, .fld .s 5, .lit 3 0b000, .fld .d 5, .lit 7 0b1010011],
    0xFFF0707F, 0xE2000053, true, fun f => .fmvXD (f.reg .d) (f.reg .s)⟩,
  ⟨"fmv.d.x", [.lit 12 0b111100100000, .fld .s 5, .lit 3 0b000, .fld .d 5, .lit 7 0b1010011],
    0xFFF0707F, 0xF2000053, true, fun f => .fmvDX (f.reg .d) (f.reg .s)⟩]

/-- The catalog of 137 descriptors (30_encoding.md R104, R105). -/
def catalog : List Row :=
  rowsInteger ++ rowsControl ++ rowsLoadStore ++ rowsMulDiv ++ rowsSystem ++ rowsFloatSingle ++ rowsFloatDouble

/-- Every pair of rows of a list is disjoint. -/
def allDisjoint : List Row → Bool
  | [] => true
  | r :: rs => rs.all (fun s => r.disjoint s) && allDisjoint rs

/-- The construction-time checks of the table (30_encoding.md R105): every template has 32 characters, its stored mask and
value are those it compiles to, and the rows are pairwise disjoint. -/
def tableConstructs (rows : List Row) : Bool :=
  rows.all (fun r => templateWidth r.template == 32 && r.mask.toNat == templateMask r.template &&
    r.value.toNat == templateValue r.template) && allDisjoint rows

/-- The row that matches a word; the catalog is disjoint, so there is at most one (30_encoding.md R104). -/
def findRow (w : InstrWord) : Option Row := catalog.find? (fun r => r.hits w)

/-- The instruction of the catalog a word stands for, whatever the width. -/
def decode (w : InstrWord) : Option Instr := (findRow w).map (fun r => r.instr w)

/-- The verdicts of the lookup (30_encoding.md R104, R119). -/
inductive Verdict where
  | descriptor (i : Instr)
  | reserved (i : Instr)
  | illegal
  deriving DecidableEq, Repr

/-- `Lookup(w, XLEN)` (30_encoding.md R104). -/
def lookup (x : XLen) (w : InstrWord) : Verdict :=
  match findRow w with
  | none => .illegal
  | some r => if r.appliesTo x then .descriptor (r.instr w) else .reserved (r.instr w)

/-- Why a list of bytes is no instruction. -/
inductive DecodeError where
  /-- fewer than four bytes are left -/
  | truncated
  /-- no descriptor matches the word (30_encoding.md R119) -/
  | illegal
  /-- a descriptor matches but not in this width (30_encoding.md R119) -/
  | reserved
  deriving DecidableEq, Repr

/-- The word of four bytes, lowest address first: little-endian (20_memory.md R71, R72). -/
def wordOfBytes (b0 b1 b2 b3 : Byte) : InstrWord := b3 ++ b2 ++ b1 ++ b0

/-- The four bytes of a word, lowest address first (20_memory.md R71). -/
def bytesOfWord (w : InstrWord) : List Byte :=
  [w.extractLsb' 0 8, w.extractLsb' 8 8, w.extractLsb' 16 8, w.extractLsb' 24 8]

/-- Decoding of any bytes: an instruction and the rest, or a rejection by name. -/
def decodeBytes (x : XLen) : List Byte → Except DecodeError (Instr × List Byte)
  | b0 :: b1 :: b2 :: b3 :: rest =>
    match lookup x (wordOfBytes b0 b1 b2 b3) with
    | .descriptor i => .ok (i, rest)
    | .reserved _ => .error .reserved
    | .illegal => .error .illegal
  | _ => .error .truncated

/-! The encoder: the formats of 30_encoding.md R108. -/

/-- R format. -/
def encR (funct7 : BitVec 7) (rs2 rs1 : BitVec 5) (funct3 : BitVec 3) (rd : BitVec 5) (op : BitVec 7) : InstrWord :=
  funct7 ++ rs2 ++ rs1 ++ funct3 ++ rd ++ op

/-- R4 format. -/
def encR4 (rs3 : BitVec 5) (fmt : BitVec 2) (rs2 rs1 : BitVec 5) (rm : BitVec 3) (rd : BitVec 5) (op : BitVec 7) :
    InstrWord :=
  rs3 ++ fmt ++ rs2 ++ rs1 ++ rm ++ rd ++ op

/-- I format. -/
def encI (imm : BitVec 12) (rs1 : BitVec 5) (funct3 : BitVec 3) (rd : BitVec 5) (op : BitVec 7) : InstrWord :=
  imm ++ rs1 ++ funct3 ++ rd ++ op

/-- I format with a 6-bit shift amount (30_encoding.md R113). -/
def encSh (funct6 : BitVec 6) (shamt : BitVec 6) (rs1 : BitVec 5) (funct3 : BitVec 3) (rd : BitVec 5) (op : BitVec 7) :
    InstrWord :=
  funct6 ++ shamt ++ rs1 ++ funct3 ++ rd ++ op

/-- S format (30_encoding.md R109). -/
def encS (imm : BitVec 12) (rs2 rs1 : BitVec 5) (funct3 : BitVec 3) (op : BitVec 7) : InstrWord :=
  imm.extractLsb' 5 7 ++ rs2 ++ rs1 ++ funct3 ++ imm.extractLsb' 0 5 ++ op

/-- B format (30_encoding.md R110). -/
def encB (off : BitVec 13) (rs2 rs1 : BitVec 5) (funct3 : BitVec 3) (op : BitVec 7) : InstrWord :=
  off.extractLsb' 12 1 ++ off.extractLsb' 5 6 ++ rs2 ++ rs1 ++ funct3 ++ off.extractLsb' 1 4 ++
    off.extractLsb' 11 1 ++ op

/-- U format (30_encoding.md R111). -/
def encU (imm : BitVec 20) (rd : BitVec 5) (op : BitVec 7) : InstrWord := imm ++ rd ++ op

/-- J format (30_encoding.md R112). -/
def encJ (off : BitVec 21) (rd : BitVec 5) (op : BitVec 7) : InstrWord :=
  off.extractLsb' 20 1 ++ off.extractLsb' 1 10 ++ off.extractLsb' 11 1 ++ off.extractLsb' 12 8 ++ rd ++ op

/-- The word of an instruction, from the same table (30_encoding.md section 8). -/
def encode : Instr → InstrWord
  | .lui rd imm => encU imm rd 0b0110111
  | .auipc rd imm => encU imm rd 0b0010111
  | .jal rd off => encJ off rd 0b1101111
  | .jalr rd rs1 imm => encI imm rs1 0b000 rd 0b1100111
  | .beq rs1 rs2 off => encB off rs2 rs1 0b000 0b1100011
  | .bne rs1 rs2 off => encB off rs2 rs1 0b001 0b1100011
  | .blt rs1 rs2 off => encB off rs2 rs1 0b100 0b1100011
  | .bge rs1 rs2 off => encB off rs2 rs1 0b101 0b1100011
  | .bltu rs1 rs2 off => encB off rs2 rs1 0b110 0b1100011
  | .bgeu rs1 rs2 off => encB off rs2 rs1 0b111 0b1100011
  | .lb rd rs1 imm => encI imm rs1 0b000 rd 0b0000011
  | .lh rd rs1 imm => encI imm rs1 0b001 rd 0b0000011
  | .lw rd rs1 imm => encI imm rs1 0b010 rd 0b0000011
  | .lbu rd rs1 imm => encI imm rs1 0b100 rd 0b0000011
  | .lhu rd rs1 imm => encI imm rs1 0b101 rd 0b0000011
  | .lwu rd rs1 imm => encI imm rs1 0b110 rd 0b0000011
  | .ld rd rs1 imm => encI imm rs1 0b011 rd 0b0000011
  | .sb rs1 rs2 imm => encS imm rs2 rs1 0b000 0b0100011
  | .sh rs1 rs2 imm => encS imm rs2 rs1 0b001 0b0100011
  | .sw rs1 rs2 imm => encS imm rs2 rs1 0b010 0b0100011
  | .sd rs1 rs2 imm => encS imm rs2 rs1 0b011 0b0100011
  | .addi rd rs1 imm => encI imm rs1 0b000 rd 0b0010011
  | .slti rd rs1 imm => encI imm rs1 0b010 rd 0b0010011
  | .sltiu rd rs1 imm => encI imm rs1 0b011 rd 0b0010011
  | .xori rd rs1 imm => encI imm rs1 0b100 rd 0b0010011
  | .ori rd rs1 imm => encI imm rs1 0b110 rd 0b0010011
  | .andi rd rs1 imm => encI imm rs1 0b111 rd 0b0010011
  | .slli rd rs1 shamt => encSh 0b000000 shamt rs1 0b001 rd 0b0010011
  | .srli rd rs1 shamt => encSh 0b000000 shamt rs1 0b101 rd 0b0010011
  | .srai rd rs1 shamt => encSh 0b010000 shamt rs1 0b101 rd 0b0010011
  | .slliHi rd rs1 shamt => encSh 0b000000 shamt rs1 0b001 rd 0b0010011
  | .srliHi rd rs1 shamt => encSh 0b000000 shamt rs1 0b101 rd 0b0010011
  | .sraiHi rd rs1 shamt => encSh 0b010000 shamt rs1 0b101 rd 0b0010011
  | .add rd rs1 rs2 => encR 0b0000000 rs2 rs1 0b000 rd 0b0110011
  | .sub rd rs1 rs2 => encR 0b0100000 rs2 rs1 0b000 rd 0b0110011
  | .sll rd rs1 rs2 => encR 0b0000000 rs2 rs1 0b001 rd 0b0110011
  | .slt rd rs1 rs2 => encR 0b0000000 rs2 rs1 0b010 rd 0b0110011
  | .sltu rd rs1 rs2 => encR 0b0000000 rs2 rs1 0b011 rd 0b0110011
  | .xor rd rs1 rs2 => encR 0b0000000 rs2 rs1 0b100 rd 0b0110011
  | .srl rd rs1 rs2 => encR 0b0000000 rs2 rs1 0b101 rd 0b0110011
  | .sra rd rs1 rs2 => encR 0b0100000 rs2 rs1 0b101 rd 0b0110011
  | .or rd rs1 rs2 => encR 0b0000000 rs2 rs1 0b110 rd 0b0110011
  | .and rd rs1 rs2 => encR 0b0000000 rs2 rs1 0b111 rd 0b0110011
  | .fence pred succ => encI (0b0000#4 ++ pred ++ succ) 0b00000 0b000 0b00000 0b0001111
  | .fenceI => encI 0b000000000000 0b00000 0b001 0b00000 0b0001111
  | .ecall => encI 0b000000000000 0b00000 0b000 0b00000 0b1110011
  | .ebreak => encI 0b000000000001 0b00000 0b000 0b00000 0b1110011
  | .addiw rd rs1 imm => encI imm rs1 0b000 rd 0b0011011
  | .slliw rd rs1 shamt => encR 0b0000000 shamt rs1 0b001 rd 0b0011011
  | .srliw rd rs1 shamt => encR 0b0000000 shamt rs1 0b101 rd 0b0011011
  | .sraiw rd rs1 shamt => encR 0b0100000 shamt rs1 0b101 rd 0b0011011
  | .addw rd rs1 rs2 => encR 0b0000000 rs2 rs1 0b000 rd 0b0111011
  | .subw rd rs1 rs2 => encR 0b0100000 rs2 rs1 0b000 rd 0b0111011
  | .sllw rd rs1 rs2 => encR 0b0000000 rs2 rs1 0b001 rd 0b0111011
  | .srlw rd rs1 rs2 => encR 0b0000000 rs2 rs1 0b101 rd 0b0111011
  | .sraw rd rs1 rs2 => encR 0b0100000 rs2 rs1 0b101 rd 0b0111011
  | .mul rd rs1 rs2 => encR 0b0000001 rs2 rs1 0b000 rd 0b0110011
  | .mulh rd rs1 rs2 => encR 0b0000001 rs2 rs1 0b001 rd 0b0110011
  | .mulhsu rd rs1 rs2 => encR 0b0000001 rs2 rs1 0b010 rd 0b0110011
  | .mulhu rd rs1 rs2 => encR 0b0000001 rs2 rs1 0b011 rd 0b0110011
  | .div rd rs1 rs2 => encR 0b0000001 rs2 rs1 0b100 rd 0b0110011
  | .divu rd rs1 rs2 => encR 0b0000001 rs2 rs1 0b101 rd 0b0110011
  | .rem rd rs1 rs2 => encR 0b0000001 rs2 rs1 0b110 rd 0b0110011
  | .remu rd rs1 rs2 => encR 0b0000001 rs2 rs1 0b111 rd 0b0110011
  | .mulw rd rs1 rs2 => encR 0b0000001 rs2 rs1 0b000 rd 0b0111011
  | .divw rd rs1 rs2 => encR 0b0000001 rs2 rs1 0b100 rd 0b0111011
  | .divuw rd rs1 rs2 => encR 0b0000001 rs2 rs1 0b101 rd 0b0111011
  | .remw rd rs1 rs2 => encR 0b0000001 rs2 rs1 0b110 rd 0b0111011
  | .remuw rd rs1 rs2 => encR 0b0000001 rs2 rs1 0b111 rd 0b0111011
  | .csrrw rd csr rs1 => encI csr rs1 0b001 rd 0b1110011
  | .csrrs rd csr rs1 => encI csr rs1 0b010 rd 0b1110011
  | .csrrc rd csr rs1 => encI csr rs1 0b011 rd 0b1110011
  | .csrrwi rd csr uimm => encI csr uimm 0b101 rd 0b1110011
  | .csrrsi rd csr uimm => encI csr uimm 0b110 rd 0b1110011
  | .csrrci rd csr uimm => encI csr uimm 0b111 rd 0b1110011
  | .flw rd rs1 imm => encI imm rs1 0b010 rd 0b0000111
  | .fsw rs1 rs2 imm => encS imm rs2 rs1 0b010 0b0100111
  | .fmaddS rd rs1 rs2 rs3 rm => encR4 rs3 0b00 rs2 rs1 rm rd 0b1000011
  | .fmsubS rd rs1 rs2 rs3 rm => encR4 rs3 0b00 rs2 rs1 rm rd 0b1000111
  | .fnmsubS rd rs1 rs2 rs3 rm => encR4 rs3 0b00 rs2 rs1 rm rd 0b1001011
  | .fnmaddS rd rs1 rs2 rs3 rm => encR4 rs3 0b00 rs2 rs1 rm rd 0b1001111
  | .faddS rd rs1 rs2 rm => encR 0b0000000 rs2 rs1 rm rd 0b1010011
  | .fsubS rd rs1 rs2 rm => encR 0b0000100 rs2 rs1 rm rd 0b1010011
  | .fmulS rd rs1 rs2 rm => encR 0b0001000 rs2 rs1 rm rd 0b1010011
  | .fdivS rd rs1 rs2 rm => encR 0b0001100 rs2 rs1 rm rd 0b1010011
  | .fsqrtS rd rs1 rm => encR 0b0101100 0b00000 rs1 rm rd 0b1010011
  | .fsgnjS rd rs1 rs2 => encR 0b0010000 rs2 rs1 0b000 rd 0b1010011
  | .fsgnjnS rd rs1 rs2 => encR 0b0010000 rs2 rs1 0b001 rd 0b1010011
  | .fsgnjxS rd rs1 rs2 => encR 0b0010000 rs2 rs1 0b010 rd 0b1010011
  | .fminS rd rs1 rs2 => encR 0b0010100 rs2 rs1 0b000 rd 0b1010011
  | .fmaxS rd rs1 rs2 => encR 0b0010100 rs2 rs1 0b001 rd 0b1010011
  | .feqS rd rs1 rs2 => encR 0b1010000 rs2 rs1 0b010 rd 0b1010011
  | .fltS rd rs1 rs2 => encR 0b1010000 rs2 rs1 0b001 rd 0b1010011
  | .fleS rd rs1 rs2 => encR 0b1010000 rs2 rs1 0b000 rd 0b1010011
  | .fclassS rd rs1 => encR 0b1110000 0b00000 rs1 0b001 rd 0b1010011
  | .fcvtWS rd rs1 rm => encR 0b1100000 0b00000 rs1 rm rd 0b1010011
  | .fcvtWuS rd rs1 rm => encR 0b1100000 0b00001 rs1 rm rd 0b1010011
  | .fcvtLS rd rs1 rm => encR 0b1100000 0b00010 rs1 rm rd 0b1010011
  | .fcvtLuS rd rs1 rm => encR 0b1100000 0b00011 rs1 rm rd 0b1010011
  | .fcvtSW rd rs1 rm => encR 0b1101000 0b00000 rs1 rm rd 0b1010011
  | .fcvtSWu rd rs1 rm => encR 0b1101000 0b00001 rs1 rm rd 0b1010011
  | .fcvtSL rd rs1 rm => encR 0b1101000 0b00010 rs1 rm rd 0b1010011
  | .fcvtSLu rd rs1 rm => encR 0b1101000 0b00011 rs1 rm rd 0b1010011
  | .fmvXW rd rs1 => encR 0b1110000 0b00000 rs1 0b000 rd 0b1010011
  | .fmvWX rd rs1 => encR 0b1111000 0b00000 rs1 0b000 rd 0b1010011
  | .fld rd rs1 imm => encI imm rs1 0b011 rd 0b0000111
  | .fsd rs1 rs2 imm => encS imm rs2 rs1 0b011 0b0100111
  | .fmaddD rd rs1 rs2 rs3 rm => encR4 rs3 0b01 rs2 rs1 rm rd 0b1000011
  | .fmsubD rd rs1 rs2 rs3 rm => encR4 rs3 0b01 rs2 rs1 rm rd 0b1000111
  | .fnmsubD rd rs1 rs2 rs3 rm => encR4 rs3 0b01 rs2 rs1 rm rd 0b1001011
  | .fnmaddD rd rs1 rs2 rs3 rm => encR4 rs3 0b01 rs2 rs1 rm rd 0b1001111
  | .faddD rd rs1 rs2 rm => encR 0b0000001 rs2 rs1 rm rd 0b1010011
  | .fsubD rd rs1 rs2 rm => encR 0b0000101 rs2 rs1 rm rd 0b1010011
  | .fmulD rd rs1 rs2 rm => encR 0b0001001 rs2 rs1 rm rd 0b1010011
  | .fdivD rd rs1 rs2 rm => encR 0b0001101 rs2 rs1 rm rd 0b1010011
  | .fsqrtD rd rs1 rm => encR 0b0101101 0b00000 rs1 rm rd 0b1010011
  | .fsgnjD rd rs1 rs2 => encR 0b0010001 rs2 rs1 0b000 rd 0b1010011
  | .fsgnjnD rd rs1 rs2 => encR 0b0010001 rs2 rs1 0b001 rd 0b1010011
  | .fsgnjxD rd rs1 rs2 => encR 0b0010001 rs2 rs1 0b010 rd 0b1010011
  | .fminD rd rs1 rs2 => encR 0b0010101 rs2 rs1 0b000 rd 0b1010011
  | .fmaxD rd rs1 rs2 => encR 0b0010101 rs2 rs1 0b001 rd 0b1010011
  | .feqD rd rs1 rs2 => encR 0b1010001 rs2 rs1 0b010 rd 0b1010011
  | .fltD rd rs1 rs2 => encR 0b1010001 rs2 rs1 0b001 rd 0b1010011
  | .fleD rd rs1 rs2 => encR 0b1010001 rs2 rs1 0b000 rd 0b1010011
  | .fclassD rd rs1 => encR 0b1110001 0b00000 rs1 0b001 rd 0b1010011
  | .fcvtWD rd rs1 rm => encR 0b1100001 0b00000 rs1 rm rd 0b1010011
  | .fcvtWuD rd rs1 rm => encR 0b1100001 0b00001 rs1 rm rd 0b1010011
  | .fcvtLD rd rs1 rm => encR 0b1100001 0b00010 rs1 rm rd 0b1010011
  | .fcvtLuD rd rs1 rm => encR 0b1100001 0b00011 rs1 rm rd 0b1010011
  | .fcvtDW rd rs1 rm => encR 0b1101001 0b00000 rs1 rm rd 0b1010011
  | .fcvtDWu rd rs1 rm => encR 0b1101001 0b00001 rs1 rm rd 0b1010011
  | .fcvtDL rd rs1 rm => encR 0b1101001 0b00010 rs1 rm rd 0b1010011
  | .fcvtDLu rd rs1 rm => encR 0b1101001 0b00011 rs1 rm rd 0b1010011
  | .fcvtSD rd rs1 rm => encR 0b0100000 0b00001 rs1 rm rd 0b1010011
  | .fcvtDS rd rs1 rm => encR 0b0100001 0b00000 rs1 rm rd 0b1010011
  | .fmvXD rd rs1 => encR 0b1110001 0b00000 rs1 0b000 rd 0b1010011
  | .fmvDX rd rs1 => encR 0b1111001 0b00000 rs1 0b000 rd 0b1010011

/-- The instruction the decoder reads from the table's bits: the word laid out as four bytes in memory order and read back
through the byte decoder's composition. `none` where a bit lies above 32 or no descriptor matches; the width is not
consulted, so a 64-bit-only row answers its instruction. -/
def decodeTableWord (_nbits w : Nat) : Option Instr :=
  if w < 2 ^ 32 then
    match bytesOfWord (.ofNat 32 w) with
    | [b0, b1, b2, b3] => decode (wordOfBytes b0 b1 b2 b3)
    | _ => none
  else none

end Sys2Proof
end

