-- ==== Sys2Proof/Machine/Memory.lean ====
section
/-! DEFINITION. The storage: a map from byte address to a byte or Unwritten (20_memory.md R71), as one canonical list. -/

namespace Sys2Proof.Machine

/-- The written bytes, addresses strictly rising; an unlisted address is Unwritten (20_memory.md R71, R95). No listed
byte equals what an unlisted address holds, since Unwritten is no byte. -/
abbrev Memory := List Host.Cell

/-- Every address of the list lies above `a`, in strictly rising order. -/
def Memory.risesFrom : Nat → Memory → Bool
  | _, [] => true
  | a, c :: cs => decide (a < c.1) && Memory.risesFrom c.1 cs

/-- The canonical form: addresses strictly rising. -/
def Memory.wf : Memory → Bool
  | [] => true
  | c :: cs => Memory.risesFrom c.1 cs

/-- The byte at an address, or `none` where it is Unwritten. -/
def Memory.byte? : Memory → Nat → Option Byte
  | [], _ => none
  | c :: cs, a => if c.1 = a then some c.2 else Memory.byte? cs a

/-- What the normal accessors read: an Unwritten byte counts as 0x00 (20_memory.md R71, R73). -/
def Memory.byte (m : Memory) (a : Nat) : Byte := (m.byte? a).getD 0

/-- Write one byte, keeping the canonical form. -/
def Memory.write : Memory → Nat → Byte → Memory
  | [], a, b => [(a, b)]
  | c :: cs, a, b =>
    if a < c.1 then (a, b) :: c :: cs
    else if a = c.1 then (a, b) :: cs
    else c :: Memory.write cs a b

/-- The little-endian value of the n bytes at a (20_memory.md R71). -/
def Memory.load (m : Memory) (a : Nat) : Nat → BitVec 64
  | 0 => 0
  | n + 1 => m.load a n ||| ((m.byte (a + n)).setWidth 64 <<< (8 * n))

/-- Write the low n bytes of v at a, least significant first (20_memory.md R79). -/
def Memory.store (m : Memory) (a : Nat) (v : BitVec 64) : Nat → Memory
  | 0 => m
  | n + 1 => (m.store a v n).write (a + n) (v.extractLsb' (8 * n) 8)

/-- A memory from any list of cells; where an address is given twice the later byte stands (log 13). -/
def Memory.ofCells (cs : List Host.Cell) : Memory := cs.foldl (fun m c => m.write c.1 c.2) []

end Sys2Proof.Machine
end

