-- ==== Sys2Proof/Machine/State.lean ====
section
/-! DEFINITION. The state of the block (10_state.md, 20_memory.md), its environment as plain data, and reset. -/

namespace Sys2Proof.Machine

/-- The control state (10_state.md R45). -/
inductive Ctl where
  | ready
  | running
  | service
  | breakpoint
  | maxSteps
  | cancelled
  | cliff
  | exited
  | faulted
  deriving DecidableEq, Repr

/-- The fault categories, codes 0 to 5 in this order (60_exceptions.md R340). -/
inductive Cause where
  | illegalInstruction
  | reservedInstruction
  | addressAlignment
  | addressOutOfRange
  | writeProtection
  /-- never raised (60_exceptions.md R340) -/
  | arithmetic
  deriving DecidableEq, Repr

/-- The kind of an access (20_memory.md R82). -/
inductive Access where
  | fetch
  | load
  | store
  deriving DecidableEq, Repr

/-- The fault record (60_exceptions.md R341). -/
structure FaultRecord where
  cause  : Cause
  pc     : Word
  word   : Option InstrWord
  addr   : Option Word
  access : Option Access
  deriving DecidableEq, Repr

/-- A pending service request: the ecall's pc and the service number (10_state.md R48). -/
structure SvcRequest where
  pc     : Word
  number : Word
  deriving DecidableEq, Repr

/-- The width of a memory access (20_memory.md R73). -/
inductive MemSize where
  | byte
  | half
  | word
  | dword
  deriving DecidableEq, Repr

/-- What the host may ask of the block: the commands of 10_state.md R50, the reads of the inspection port (R40, R49,
20_memory.md R73, R74) and the writes and replies of the service port (R48). -/
inductive HostCommand where
  | run
  | step
  /-- `reset(cfg)`, or with `none` `reset()` (70_reset_and_hazards.md R370) -/
  | reset (cfg : Option Config)
  | setBreakpoints (addrs : List Word)
  | inspectX (r : XReg)
  | inspectF (r : FReg)
  /-- a register by its name (10_state.md R23, R25) -/
  | inspectName (name : String)
  | inspectPc
  | inspectCsr (number : BitVec 12)
  | inspectCsrName (name : String)
  | inspectState
  | inspectFault
  | inspectExitCode
  | inspectInstret
  | inspectMem (addr : Word) (size : MemSize)
  /-- `getRawWordOrUninitialized` (20_memory.md R74) -/
  | probe (addr : Word)
  | serviceWriteX (r : XReg) (v : Word)
  | serviceWriteF (r : FReg) (v : BitVec 64)
  | serviceWriteByte (addr : Word) (b : Byte)
  | serviceDone
  | serviceTerminate (code : Word)
  deriving DecidableEq, Repr

/-- One event of the environment (00_scope.md R7): the host lets the block take a transition by itself, drives the level
`cancel`, or issues a command (log 5). -/
inductive HostEvent where
  | wait
  | driveCancel (level : Bool)
  | command (c : HostCommand)
  deriving DecidableEq, Repr

/-- What the host port answers (log 6). -/
inductive HostReply where
  | accepted
  /-- a command not accepted in this state; the state is the answer (10_state.md R50) -/
  | refused (now : Ctl)
  /-- 70_reset_and_hazards.md R370 -/
  | configRejected
  /-- inspection while RUNNING (10_state.md R49) -/
  | busy
  /-- 10_state.md R40 -/
  | notFound
  /-- an XLEN-bit value -/
  | value (v : Word)
  /-- 64 bits: an FP register, `instret`, or a memory value -/
  | value64 (v : BitVec 64)
  | state (c : Ctl)
  | fault (r : Option FaultRecord)
  | exitCode (c : Option Word)
  /-- the condition a memory accessor returns to the port (20_memory.md R73) -/
  | memCondition (cause : Cause) (addr : Word)
  /-- the raw probe of a word never written (20_memory.md R74) -/
  | uninitialized
  deriving DecidableEq, Repr

/-- The whole state. `cfg` is the session's frozen configuration; `draws`, `cancel`, `host` and `reply` are the model's own
(log 4, log 5, log 6); every other field is the spec's (10_state.md R21, R25, R29, R36, R41, R47; 20_memory.md R71). -/
structure State where
  cfg      : Config
  x        : Vector Word 32
  f        : Vector (BitVec 64) 32
  frm      : BitVec 3
  fflags   : BitVec 5
  pc       : Word
  instret  : BitVec 64
  mem      : Memory
  ctl      : Ctl
  steps    : Nat
  budget   : Int
  bpSkip   : Bool
  bp       : List Word
  fault    : Option FaultRecord
  exitCode : Option Word
  svc      : Option SvcRequest
  draws    : Nat
  cancel   : Bool
  host     : List HostEvent
  reply    : Option HostReply
  deriving DecidableEq, Repr

/-- The reasons the machine could stop without a next state: NONE. Every fault of the spec is a transition into FAULTED with
its record written (60_exceptions.md R343), which is a next state (log 7). Nobody raises it; safe. -/
inductive Fault
  deriving DecidableEq, Repr

/-- The reasons an instruction has no meaning. -/
inductive Refusal where
  /-- raised by an arm of exec for an instruction that is not modelled yet; safe. No arm raises it in this model. -/
  | notModelled (mnemonic : String)
  deriving DecidableEq, Repr

/-- The state of the block right after `reset(cfg)` (70_reset_and_hazards.md R370, R371), in an environment that does
nothing more. -/
def State.ofConfig (cfg : Config) : State where
  cfg := cfg
  x := cfg.xInit
  f := Vector.replicate 32 0
  frm := 0
  fflags := 0
  pc := cfg.pcInit
  instret := 0
  mem := Memory.ofCells cfg.image
  ctl := .ready
  steps := 0
  budget := cfg.maxSteps
  bpSkip := false
  bp := cfg.bpInit
  fault := none
  exitCode := none
  svc := none
  draws := 0
  cancel := false
  host := []
  reply := none

/-- The machine right after reset, with the configuration EX at XLEN = 64 (log 1, log 2). -/
def State.reset : State := State.ofConfig Config.initial

end Sys2Proof.Machine
end

