-- ==== Sys2Proof/Machine/Width.lean ====
section
/-! DEFINITION. XLEN-bit values in 64-bit words: truncation, extension, and computing at the active width
(00_scope.md R9; log 3). -/

namespace Sys2Proof

/-- Keep the low XLEN bits (00_scope.md R9 `trunc`), zero-extended in the word. -/
def XLen.trunc (x : XLen) (v : Word) : Word :=
  match x with
  | .x32 => (v.setWidth 32).setWidth 64
  | .x64 => v

/-- `sext_XLEN(v)` (00_scope.md R9). -/
def XLen.sext {n : Nat} (x : XLen) (v : BitVec n) : Word := x.trunc (v.signExtend 64)

/-- `zext_XLEN(v)` (00_scope.md R9). -/
def XLen.zext {n : Nat} (x : XLen) (v : BitVec n) : Word := x.trunc (v.setWidth 64)

/-- `s(v)`: an XLEN-bit value read as a two's-complement integer (00_scope.md R9). -/
def XLen.signed (x : XLen) (v : Word) : Int :=
  match x with
  | .x32 => (v.setWidth 32).toInt
  | .x64 => v.toInt

/-- `u(v)`: an XLEN-bit value read as an unsigned integer (00_scope.md R9). -/
def XLen.unsigned (x : XLen) (v : Word) : Nat := (x.trunc v).toNat

/-- Compute a two-operand operation at the active width (41_integer.md R130). -/
def XLen.lift2 (x : XLen) (op : (w : Nat) → BitVec w → BitVec w → BitVec w) (a b : Word) : Word :=
  match x with
  | .x32 => (op 32 (a.setWidth 32) (b.setWidth 32)).setWidth 64
  | .x64 => op 64 a b

/-- Compute on the low 32 bits and sign-extend to XLEN (41_integer.md R131). -/
def XLen.liftW (x : XLen) (op : (w : Nat) → BitVec w → BitVec w → BitVec w) (a b : Word) : Word :=
  x.sext (op 32 (a.setWidth 32) (b.setWidth 32))

end Sys2Proof
end

