-- ==== Sys2Proof/Machine/Operands.lean ====
section
/-! DEFINITION. The register files' accessors and the operand forms (10_state.md R21 to R28, 30_encoding.md R109 to R114,
43_loadstore.md R185). -/

namespace Sys2Proof.Machine

/-- The active width. -/
abbrev State.xlen (s : State) : XLen := s.cfg.xlen

/-- A read of `x[r]`: XLEN bits, and 0 for x0 (10_state.md R21, R22). -/
def State.readX (s : State) (r : XReg) : Word := if r = 0 then 0 else s.xlen.trunc s.x[r.toNat]

/-- A write of `x[r]`: XLEN bits, discarded for x0 (10_state.md R21, R22). -/
def State.writeX (s : State) (r : XReg) (v : Word) : State :=
  if r = 0 then s else { s with x := s.x.set r.toNat (s.xlen.trunc v) }

/-- The 64 raw bits of `f[r]` (10_state.md R25, R28). -/
def State.readF (s : State) (r : FReg) : BitVec 64 := s.f[r.toNat]

/-- Write all 64 bits of `f[r]` (10_state.md R25). -/
def State.writeF (s : State) (r : FReg) (v : BitVec 64) : State := { s with f := s.f.set r.toNat v }

/-- The upper half of a NaN-boxed single (10_state.md R26). -/
def boxBits : BitVec 32 := 0xFFFFFFFF

/-- The canonical quiet NaN of binary32 (46_float_single.md R241). -/
def canonicalNaN32 : BitVec 32 := 0x7FC00000

/-- The single a 64-bit register value reads as: the low half where the upper half is all ones, else the canonical NaN
(10_state.md R26). -/
def unbox (v : BitVec 64) : BitVec 32 := if v.extractLsb' 32 32 = boxBits then v.extractLsb' 0 32 else canonicalNaN32

/-- NaN-boxing (10_state.md R26). -/
def box (v : BitVec 32) : BitVec 64 := boxBits ++ v

/-- `readS(i)` (10_state.md R26). -/
def State.readS (s : State) (r : FReg) : BitVec 32 := unbox (s.readF r)

/-- `writeS(i, v)` (10_state.md R26). -/
def State.writeS (s : State) (r : FReg) (v : BitVec 32) : State := s.writeF r (box v)

/-- `readD(i)` (10_state.md R27). -/
def State.readD (s : State) (r : FReg) : BitVec 64 := s.readF r

/-- `writeD(i, v)` (10_state.md R27). -/
def State.writeD (s : State) (r : FReg) (v : BitVec 64) : State := s.writeF r v

/-- The pc: XLEN bits (10_state.md R41). -/
def State.readPc (s : State) : Word := s.xlen.trunc s.pc

/-- `immI` and `immS` (30_encoding.md R109). -/
def State.imm12 (s : State) (imm : BitVec 12) : Word := s.xlen.sext imm

/-- `immU` (30_encoding.md R111). -/
def State.immU (s : State) (imm : BitVec 20) : Word := s.xlen.sext (imm ++ 0#12)

/-- The target `pc + immB` or `pc + immJ` (30_encoding.md R110, R112; 42_control.md R171). -/
def State.pcPlus {n : Nat} (s : State) (off : BitVec n) : Word := s.xlen.trunc (s.readPc + s.xlen.sext off)

/-- The effective address `x[rs1] + sext_XLEN(imm)` modulo 2^XLEN (43_loadstore.md R185, 20_memory.md R87). -/
def State.ea (s : State) (rs1 : XReg) (imm : BitVec 12) : Word := s.xlen.trunc (s.readX rs1 + s.imm12 imm)

/-- `zext_XLEN(uimm)` (30_encoding.md R114). -/
def State.uimm5 (s : State) (u : BitVec 5) : Word := s.xlen.zext u

end Sys2Proof.Machine
end

