-- ==== Sys2Proof/Machine/Flags.lean ====
section
/-! DEFINITION. The exception flags and the rounding mode of the FP latch (10_state.md R29, R30; 46_float_single.md R243). -/

namespace Sys2Proof.Machine

/-- The five sticky flags as a 5-bit mask (10_state.md R29). -/
abbrev FFlags := BitVec 5

/-- Invalid: bit 4. -/
abbrev flagNV : FFlags := 0b10000
/-- Divide by zero: bit 3. -/
abbrev flagDZ : FFlags := 0b01000
/-- Overflow: bit 2. -/
abbrev flagOF : FFlags := 0b00100
/-- Underflow: bit 1. -/
abbrev flagUF : FFlags := 0b00010
/-- Inexact: bit 0. -/
abbrev flagNX : FFlags := 0b00001

/-- A flag raised where a condition holds. -/
def flagIf (c : Bool) (f : FFlags) : FFlags := if c then f else 0

/-- `fflags <- fflags | e` (10_state.md R30, 46_float_single.md R260). -/
def State.accrue (s : State) (e : FFlags) : State := { s with fflags := s.fflags ||| e }

/-- The rounding directions (30_encoding.md R115, 46_float_single.md R244). -/
inductive RoundMode where
  /-- to nearest, ties to even -/
  | rne
  /-- toward zero -/
  | rtz
  /-- toward minus infinity -/
  | rdn
  /-- toward plus infinity -/
  | rup
  /-- to nearest, ties away from zero -/
  | rmm
  deriving DecidableEq, Repr

/-- The mode a 3-bit code names; 5, 6 and 7 name none (46_float_single.md R243). -/
def RoundMode.ofCode (c : BitVec 3) : Option RoundMode :=
  if c = 0 then some .rne
  else if c = 1 then some .rtz
  else if c = 2 then some .rdn
  else if c = 3 then some .rup
  else if c = 4 then some .rmm
  else none

/-- `RM(rm)`: the static mode, or `frm` where rm is 7; none where the effective mode is reserved
(46_float_single.md R243). -/
def State.roundMode (s : State) (rm : BitVec 3) : Option RoundMode :=
  RoundMode.ofCode (if rm = 7 then s.frm else rm)

end Sys2Proof.Machine
end

