-- ==== Sys2Proof/Machine/Ops.lean ====
section
/-! DEFINITION. The shared operations: commit, taking a fault, memory access behind its checks, and the CSRs. -/

namespace Sys2Proof.Machine

/-- What one instruction answers. -/
abbrev Result := Host.Outcome State Fault Refusal

/-! Commit (10_state.md R42, R44, R54). -/

/-- The commit of a completed instruction: the new pc, `steps + 1` and `instret + 1` (10_state.md R36, R42, R54). -/
def State.commit (s : State) (pc' : Word) : State :=
  { s with pc := s.xlen.trunc pc', steps := s.steps + 1, instret := s.instret + 1 }

/-- The commit of an instruction that does not set the pc: `pc + 4` (10_state.md R44). -/
def State.advance (s : State) : State := s.commit (s.readPc + ilenBytes)

/-- Complete and go on at the next instruction. -/
def retire (s : State) : Result := .next s.advance

/-- Complete with an integer result. -/
def retireX (rd : XReg) (v : Word) (s : State) : Result := retire (s.writeX rd v)

/-- Complete with a single result (46_float_single.md R242). -/
def retireS (rd : FReg) (v : BitVec 32) (s : State) : Result := retire (s.writeS rd v)

/-- Complete with a double result (46_float_single.md R242). -/
def retireD (rd : FReg) (v : BitVec 64) (s : State) : Result := retire (s.writeD rd v)

/-! Taking a fault (60_exceptions.md R343). -/

/-- Fault entry: the record is written and the state becomes FAULTED; nothing else changes (60_exceptions.md R343). It is a
next state, since the spec describes the entry (log 7). -/
def takeFault (r : FaultRecord) (s : State) : Result := .next { s with ctl := .faulted, fault := some r }

/-- Where an instruction's fault is found, the cases of the `addr` field (60_exceptions.md R341): at decode, by its own check (CSR or
rounding mode), at the target of its control transfer, at its memory access. -/
inductive FaultSite where
  | decode
  | ownCheck
  | target
  | access
  deriving DecidableEq, Repr

/-- The `addr` field of the record of a fault raised with this address: none where the instruction's own check raised it
(60_exceptions.md R341; log 10). -/
def FaultSite.recorded : FaultSite → Word → Option Word
  | .ownCheck, _ => none
  | .decode, a | .target, a | .access, a => some a

/-- `raise Fault(cause, addr, word, access)` by the instruction i at the pc: the record stored is that of 60_exceptions.md R341 (R343,
step 2); its word is the word of i (log 9). -/
def raise (cause : Cause) (site : FaultSite) (i : Instr) (addr : Word) (access : Option Access) (s : State) : Result :=
  takeFault ⟨cause, s.readPc, some (encode i), site.recorded addr, access⟩ s

/-- A 64-bit-only instruction: reserved when XLEN = 32, with the pc as `addr` (30_encoding.md R106, 60_exceptions.md R341). -/
def rv64Only (i : Instr) (s : State) (go : Result) : Result :=
  match s.xlen with
  | .x32 => raise .reservedInstruction .decode i s.readPc none s
  | .x64 => go

/-- `raise Fault(illegal-instruction, addr = pc, word = w)` by an instruction's own check (45_system.md R220, 46_float_single.md
R243). -/
def raiseIllegal (i : Instr) (s : State) : Result := raise .illegalInstruction .ownCheck i s.readPc none s

/-! Control transfer (42_control.md R170). -/

/-- Bits [1:0] of an address are zero. -/
def aligned4 (a : Word) : Bool := a.extractLsb' 0 2 == 0

/-- Transfer control to t, with `s'` the state that holds the link: a misaligned target faults at the transfer, from the
state s before any write (42_control.md R170). -/
def transfer (i : Instr) (t : Word) (s s' : State) : Result :=
  if aligned4 t then .next (s'.commit t) else raise .addressAlignment .target i t (some .fetch) s

/-! Memory (20_memory.md R75 to R81). -/

/-- How many bytes an access moves. -/
abbrev MemSize.bytes : MemSize → Nat
  | .byte => 1
  | .half => 2
  | .word => 4
  | .dword => 8

/-- A condition of the memory checks: what a fault of it carries (20_memory.md R82). -/
structure MemFault where
  cause  : Cause
  addr   : Word
  access : Access
  deriving DecidableEq, Repr

/-- `Seg(a, n)`: the segment that holds all n bytes at a (20_memory.md R76). -/
def segOf (cfg : Config) (a n : Nat) : Option Segment :=
  if a + n ≤ 2 ^ cfg.xlen.bits then
    cfg.segments.find? (fun g => decide (g.base ≤ a) && decide (a + n ≤ g.top + 1))
  else none

/-- The checks of an access of n = 1, 2 or 4 bytes, in order: alignment, range, and for a store write protection
(20_memory.md R78, R79). -/
def accessFaultWord (cfg : Config) (access : Access) (a : Word) (n : Nat) : Option MemFault :=
  if a.toNat % n ≠ 0 then some ⟨.addressAlignment, a, access⟩
  else match segOf cfg a.toNat n with
    | none => some ⟨.addressOutOfRange, a, access⟩
    | some g =>
      if access = .store ∧ g.kind = .text ∧ cfg.smc = false then some ⟨.writeProtection, a, access⟩ else none

/-- The checks of a doubleword access: 8-alignment, then the low half, then the high half (20_memory.md R80, R81). -/
def accessFaultDouble (cfg : Config) (access : Access) (a : Word) : Option MemFault :=
  if a.toNat % 8 ≠ 0 then some ⟨.addressAlignment, a, access⟩
  else match accessFaultWord cfg access a 4 with
    | some e => some e
    | none => accessFaultWord cfg access (a + 4) 4

/-- The checks of an access of any width; none where it may go on (20_memory.md R77 to R81). -/
def accessFault (cfg : Config) (access : Access) (a : Word) : MemSize → Option MemFault
  | .byte => accessFaultWord cfg access a 1
  | .half => accessFaultWord cfg access a 2
  | .word => accessFaultWord cfg access a 4
  | .dword => accessFaultDouble cfg access a

/-- `MemRead(a, n)`, zero-extended (20_memory.md R78, R80, R83). -/
def State.memRead (s : State) (a : Word) (sz : MemSize) : Except MemFault (BitVec 64) :=
  match accessFault s.cfg .load a sz with
  | some e => .error e
  | none => .ok (s.mem.load a.toNat sz.bytes)

/-- Store the low n bytes without a check. -/
def State.storeRaw (s : State) (a : Word) (v : BitVec 64) (n : Nat) : State :=
  { s with mem := s.mem.store a.toNat v n }

/-- `MemWrite(a, n, v)`: every check first, then all the bytes (20_memory.md R79 to R81). -/
def State.memWrite (s : State) (a : Word) (sz : MemSize) (v : BitVec 64) : Except MemFault State :=
  match accessFault s.cfg .store a sz with
  | some e => .error e
  | none => .ok (s.storeRaw a v sz.bytes)

/-- A failed access of the instruction i faults with the condition's cause, address and access kind
(20_memory.md R82, 60_exceptions.md R341). -/
def raiseMem (i : Instr) (e : MemFault) (s : State) : Result := raise e.cause .access i e.addr (some e.access) s

/-- A load: read at the effective address and hand the value to the instruction's commit (43_loadstore.md R185). -/
def loadThen (i : Instr) (sz : MemSize) (rs1 : XReg) (imm : BitVec 12) (s : State) (fin : BitVec 64 → Result) : Result :=
  match s.memRead (s.ea rs1 imm) sz with
  | .error e => raiseMem i e s
  | .ok v => fin v

/-- A store of v at the effective address (43_loadstore.md R185). -/
def storeAt (i : Instr) (sz : MemSize) (rs1 : XReg) (imm : BitVec 12) (v : BitVec 64) (s : State) : Result :=
  match s.memWrite (s.ea rs1 imm) sz v with
  | .error e => raiseMem i e s
  | .ok s' => retire s'

/-! CSRs (10_state.md R31 to R40, 45_system.md R220). -/

/-- The implemented CSRs (10_state.md R32). -/
inductive Csr where
  | fflags
  | frm
  | fcsr
  | cycle
  | time
  | instret
  | cycleh
  | timeh
  | instreth
  deriving DecidableEq, Repr

/-- The CSR at an address; the three high halves exist only when XLEN = 32 (10_state.md R32). -/
def Csr.ofAddr (x : XLen) (a : BitVec 12) : Option Csr :=
  if a = 0x001 then some .fflags
  else if a = 0x002 then some .frm
  else if a = 0x003 then some .fcsr
  else if a = 0xC00 then some .cycle
  else if a = 0xC01 then some .time
  else if a = 0xC02 then some .instret
  else if x = .x32 ∧ a = 0xC80 then some .cycleh
  else if x = .x32 ∧ a = 0xC81 then some .timeh
  else if x = .x32 ∧ a = 0xC82 then some .instreth
  else none

/-- Reading this CSR takes a draw (10_state.md R37). -/
def Csr.drawn : Csr → Bool
  | .cycle | .time | .cycleh | .timeh => true
  | .fflags | .frm | .fcsr | .instret | .instreth => false

/-- The value a read of a CSR returns, XLEN bits (10_state.md R32 to R38). -/
def State.readCsr (s : State) : Csr → Word
  | .fflags => s.xlen.zext s.fflags
  | .frm => s.xlen.zext s.frm
  | .fcsr => s.xlen.zext (s.frm ++ s.fflags)
  | .cycle => s.xlen.trunc (Config.cycleDraw s.draws)
  | .time => s.xlen.trunc (Config.timeDraw s.draws)
  | .instret => s.xlen.trunc s.instret
  | .cycleh => s.xlen.zext ((Config.cycleDraw s.draws).extractLsb' 32 32)
  | .timeh => s.xlen.zext ((Config.timeDraw s.draws).extractLsb' 32 32)
  | .instreth => s.xlen.zext (s.instret.extractLsb' 32 32)

/-- The draw counter after a read: every read of a drawn CSR takes a fresh value (10_state.md R37; log 4). -/
def State.afterCsrRead (s : State) (c : Csr) : State := if c.drawn then { s with draws := s.draws + 1 } else s

/-- A write of a CSR's defined fields; the counters are written by nothing (10_state.md R33 to R35, R39). -/
def State.writeCsr (s : State) (c : Csr) (v : Word) : State :=
  match c with
  | .fflags => { s with fflags := v.extractLsb' 0 5 }
  | .frm => { s with frm := v.extractLsb' 0 3 }
  | .fcsr => { s with frm := v.extractLsb' 5 3, fflags := v.extractLsb' 0 5 }
  | .cycle | .time | .instret | .cycleh | .timeh | .instreth => s

/-- Address bits [11:10] = 0b11 mark a read-only CSR (10_state.md R39). -/
def csrReadOnly (a : BitVec 12) : Bool := a.extractLsb' 10 2 == 3

/-- The state after a CSR instruction's reads and writes, before its pc moves: x[rd] takes the old value, and with write
intent the CSR takes `op old` (45_system.md R220). -/
def State.csrEffect (s : State) (c : Csr) (rd : XReg) (wr : Bool) (op : Word → Word) : State :=
  let old := s.readCsr c
  let s1 := s.afterCsrRead c
  let s2 := if wr then s1.writeCsr c (op old) else s1
  s2.writeX rd old

/-- The CSR access procedure (45_system.md R220): unimplemented first, then a write of a read-only CSR. -/
def csrAccess (i : Instr) (rd : XReg) (a : BitVec 12) (wr : Bool) (op : Word → Word) (s : State) : Result :=
  match Csr.ofAddr s.xlen a with
  | none => raiseIllegal i s
  | some c => if wr && csrReadOnly a then raiseIllegal i s else retire (s.csrEffect c rd wr op)

/-- The rounding-mode check, before any computation (46_float_single.md R243). -/
def withRound (i : Instr) (rm : BitVec 3) (s : State) (go : RoundMode → Result) : Result :=
  match s.roundMode rm with
  | none => raiseIllegal i s
  | some m => go m

end Sys2Proof.Machine
end

