-- ==== Sys2Proof/Machine/Control.lean ====
section
/-! DEFINITION. The control transfer instructions (42_control.md). -/

namespace Sys2Proof.Machine

/-- The common tail of the conditional branches (42_control.md section 3): the target is checked only when taken (R170). -/
def branch (i : Instr) (taken : Bool) (off : BitVec 13) (s : State) : Result :=
  if taken then transfer i (s.pcPlus off) s s else retire s

/-- `jal` (42_control.md R173). -/
def execJal (rd : XReg) (off : BitVec 21) (s : State) : Result :=
  transfer (.jal rd off) (s.pcPlus off) s (s.writeX rd (s.readPc + ilenBytes))

/-- `jalr` (42_control.md R174). -/
def execJalr (rd rs1 : XReg) (imm : BitVec 12) (s : State) : Result :=
  transfer (.jalr rd rs1 imm) (s.ea rs1 imm &&& ~~~1) s (s.writeX rd (s.readPc + ilenBytes))

/-- `beq` (42_control.md R175). -/
def execBeq (rs1 rs2 : XReg) (off : BitVec 13) (s : State) : Result :=
  branch (.beq rs1 rs2 off) (s.readX rs1 == s.readX rs2) off s

/-- `bne` (42_control.md R176). -/
def execBne (rs1 rs2 : XReg) (off : BitVec 13) (s : State) : Result :=
  branch (.bne rs1 rs2 off) (s.readX rs1 != s.readX rs2) off s

/-- `blt` (42_control.md R177). -/
def execBlt (rs1 rs2 : XReg) (off : BitVec 13) (s : State) : Result :=
  branch (.blt rs1 rs2 off) (decide (s.xlen.signed (s.readX rs1) < s.xlen.signed (s.readX rs2))) off s

/-- `bge` (42_control.md R178). -/
def execBge (rs1 rs2 : XReg) (off : BitVec 13) (s : State) : Result :=
  branch (.bge rs1 rs2 off) (decide (s.xlen.signed (s.readX rs1) ≥ s.xlen.signed (s.readX rs2))) off s

/-- `bltu` (42_control.md R179). -/
def execBltu (rs1 rs2 : XReg) (off : BitVec 13) (s : State) : Result :=
  branch (.bltu rs1 rs2 off) (decide ((s.readX rs1).toNat < (s.readX rs2).toNat)) off s

/-- `bgeu` (42_control.md R180). -/
def execBgeu (rs1 rs2 : XReg) (off : BitVec 13) (s : State) : Result :=
  branch (.bgeu rs1 rs2 off) (decide ((s.readX rs1).toNat ≥ (s.readX rs2).toNat)) off s

end Sys2Proof.Machine
end

