-- ==== Sys2Proof/Machine/Float.lean ====
section
/-! DEFINITION. IEEE-754 arithmetic on bit patterns of either format (46_float_single.md R240 to R259). Every operation
computes its exact result on integers and rounds it once (R244). -/

namespace Sys2Proof.Machine

/-- A binary format: exponent and fraction widths (46_float_single.md R240). -/
structure FpFormat where
  expBits  : Nat
  fracBits : Nat
  deriving DecidableEq, Repr

/-- binary32. -/
def single : FpFormat := ⟨8, 23⟩

/-- binary64. -/
def double : FpFormat := ⟨11, 52⟩

/-- The exponent bias. -/
def FpFormat.bias (F : FpFormat) : Nat := 2 ^ (F.expBits - 1) - 1

/-- The exponent field of infinities and NaNs: all ones. -/
def FpFormat.expMax (F : FpFormat) : Nat := 2 ^ F.expBits - 1

/-- The exponent of the smallest normal, 1 - bias. -/
def FpFormat.minExp (F : FpFormat) : Int := 1 - F.bias

/-- The exponent of the smallest subnormal, the value of its last bit. -/
def FpFormat.ulpExp (F : FpFormat) : Int := F.minExp - F.fracBits

/-- A pattern from its sign, exponent field and fraction. -/
def FpFormat.pattern (F : FpFormat) (sign : Bool) (expField frac : Nat) : Nat :=
  sign.toNat * 2 ^ (F.expBits + F.fracBits) + expField * 2 ^ F.fracBits + frac

/-- The canonical quiet NaN: 0x7FC00000 and 0x7FF8000000000000 (46_float_single.md R241). -/
def FpFormat.canonicalNaN (F : FpFormat) : Nat := F.pattern false F.expMax (2 ^ (F.fracBits - 1))

/-- An infinity. -/
def FpFormat.infinity (F : FpFormat) (sign : Bool) : Nat := F.pattern sign F.expMax 0

/-- The largest finite magnitude. -/
def FpFormat.maxFinite (F : FpFormat) (sign : Bool) : Nat := F.pattern sign (F.expMax - 1) (2 ^ F.fracBits - 1)

/-- A zero. -/
def FpFormat.zero (F : FpFormat) (sign : Bool) : Nat := F.pattern sign 0 0

/-- The sign bit of a pattern. -/
def FpFormat.signOf (F : FpFormat) (bits : Nat) : Bool := bits / 2 ^ (F.expBits + F.fracBits) % 2 == 1

/-- The exponent field of a pattern. -/
def FpFormat.expOf (F : FpFormat) (bits : Nat) : Nat := bits / 2 ^ F.fracBits % 2 ^ F.expBits

/-- The fraction field of a pattern. -/
def FpFormat.fracOf (F : FpFormat) (bits : Nat) : Nat := bits % 2 ^ F.fracBits

/-- What a pattern stands for. `fin s m e` is (-1)^s * m * 2^e; it is a zero where m = 0. -/
inductive FpVal where
  | nan (signaling : Bool)
  | inf (sign : Bool)
  | fin (sign : Bool) (mant : Nat) (exp : Int)
  deriving DecidableEq, Repr

/-- `F32(v)` and `F64(v)` (46_float_single.md R240; 00_scope.md R10). -/
def FpFormat.unpack (F : FpFormat) (bits : Nat) : FpVal :=
  if F.expOf bits = F.expMax then
    if F.fracOf bits = 0 then .inf (F.signOf bits) else .nan (F.fracOf bits / 2 ^ (F.fracBits - 1) == 0)
  else if F.expOf bits = 0 then .fin (F.signOf bits) (F.fracOf bits) F.ulpExp
  else .fin (F.signOf bits) (2 ^ F.fracBits + F.fracOf bits) (F.ulpExp + (F.expOf bits - 1 : Nat))

/-- A NaN, of either kind. -/
def FpVal.isNaN : FpVal → Bool
  | .nan _ => true
  | .inf _ | .fin _ _ _ => false

/-- A signaling NaN (46_float_single.md R240). -/
def FpVal.isSignaling : FpVal → Bool
  | .nan sig => sig
  | .inf _ | .fin _ _ _ => false

/-- A pattern and the flags raised with it. -/
structure FpResult where
  bits  : Nat
  flags : FFlags
  deriving DecidableEq, Repr

/-- A NaN result: canonical, with NV where the operation is invalid (46_float_single.md R247, R248). -/
def FpFormat.nanResult (F : FpFormat) (invalid : Bool) : FpResult := ⟨F.canonicalNaN, flagIf invalid flagNV⟩

/-! Rounding (46_float_single.md R244 to R246). A magnitude is given as m * 2^e, or, where `st` holds, as a real strictly
between m * 2^e and (m + 1) * 2^e; then m has more bits than the rounding keeps. -/

/-- Whether the integer part q is raised by one: `half` compares the part cut off with one half. -/
def RoundMode.roundsUp (mode : RoundMode) (sign : Bool) (q : Nat) (half : Ordering) (inexact : Bool) : Bool :=
  match mode with
  | .rne => half == .gt || (half == .eq && q % 2 == 1)
  | .rtz => false
  | .rdn => inexact && sign
  | .rup => inexact && !sign
  | .rmm => half == .gt || half == .eq

/-- Round m / 2^sh (with sticky `st`) to an integer: the integer, and whether it is inexact. -/
def roundShift (mode : RoundMode) (sign : Bool) (m sh : Nat) (st : Bool) : Nat × Bool :=
  let q := m / 2 ^ sh
  let r := m % 2 ^ sh
  let inexact := r != 0 || st
  let half := match compare (2 * r) (2 ^ sh) with
    | .lt => .lt
    | .eq => if st then .gt else .eq
    | .gt => .gt
  (if mode.roundsUp sign q half inexact then q + 1 else q, inexact)

/-- Round m * 2^e to a multiple of 2^ue: the multiple, and whether it is inexact. -/
def roundAt (mode : RoundMode) (sign : Bool) (m : Nat) (e ue : Int) (st : Bool) : Nat × Bool :=
  if ue ≤ e then (m * 2 ^ (e - ue).toNat, st) else roundShift mode sign m (ue - e).toNat st

/-- How many bits a number has. -/
def bitLength (m : Nat) : Nat := if m = 0 then 0 else m.log2 + 1

/-- The overflow result by mode and sign (46_float_single.md R246). -/
def FpFormat.overflowBits (F : FpFormat) (mode : RoundMode) (sign : Bool) : Nat :=
  match mode with
  | .rne | .rmm => F.infinity sign
  | .rtz => F.maxFinite sign
  | .rdn => if sign then F.infinity sign else F.maxFinite sign
  | .rup => if sign then F.maxFinite sign else F.infinity sign

/-- The magnitude rounded as if the exponent range were unbounded, as multiple and exponent (46_float_single.md R245). -/
def FpFormat.unboundedRound (F : FpFormat) (mode : RoundMode) (sign : Bool) (m : Nat) (e : Int) (st : Bool) : Nat × Int :=
  let ue := e + bitLength m - (F.fracBits + 1)
  ((roundAt mode sign m e ue st).1, ue)

/-- Tiny after rounding: the unbounded-exponent result is below the smallest normal (46_float_single.md R245). -/
def FpFormat.tiny (F : FpFormat) (mode : RoundMode) (sign : Bool) (m : Nat) (e : Int) (st : Bool) : Bool :=
  let r := F.unboundedRound mode sign m e st
  decide (r.2 < F.minExp) && decide (r.1 < 2 ^ (F.minExp - r.2).toNat)

/-- `round_fmt` of a nonzero magnitude, with OF, UF and NX (46_float_single.md R244 to R246). -/
def FpFormat.round (F : FpFormat) (mode : RoundMode) (sign : Bool) (m : Nat) (e : Int) (st : Bool) : FpResult :=
  let ue := max (e + bitLength m - (F.fracBits + 1)) F.ulpExp
  let r := roundAt mode sign m e ue st
  -- a carry out of the top bit moves the exponent by one
  let carry := decide (2 ^ (F.fracBits + 1) ≤ r.1)
  let q := if carry then r.1 / 2 else r.1
  let ue' := if carry then ue + 1 else ue
  -- a full significand at ulpExp has exponent field 1
  let expField := (ue' - F.ulpExp).toNat + 1
  if q < 2 ^ F.fracBits then
    ⟨F.pattern sign 0 q, flagIf r.2 flagNX ||| flagIf (r.2 && F.tiny mode sign m e st) flagUF⟩
  else if F.expMax ≤ expField then ⟨F.overflowBits mode sign, flagOF ||| flagNX⟩
  else ⟨F.pattern sign expField (q - 2 ^ F.fracBits),
    flagIf r.2 flagNX ||| flagIf (r.2 && F.tiny mode sign m e st) flagUF⟩

/-- The sign of an exact zero sum whose terms are not zeros of one sign: + but for RDN (46_float_single.md R251). -/
def RoundMode.zeroSumSign (mode : RoundMode) : Bool := mode == .rdn

/-- The signed integer of a sign and a magnitude. -/
def signedMag (sign : Bool) (m : Nat) : Int := if sign then -(m : Int) else m

/-- `round_fmt` of the exact sum of two finite terms (46_float_single.md R244, R251). -/
def FpFormat.roundSum (F : FpFormat) (mode : RoundMode) (s1 : Bool) (m1 : Nat) (e1 : Int) (s2 : Bool) (m2 : Nat)
    (e2 : Int) : FpResult :=
  let e := min e1 e2
  let v := signedMag s1 (m1 * 2 ^ (e1 - e).toNat) + signedMag s2 (m2 * 2 ^ (e2 - e).toNat)
  if v = 0 then
    ⟨F.zero (if m1 = 0 ∧ m2 = 0 ∧ s1 = s2 then s1 else mode.zeroSumSign), 0⟩
  else F.round mode (decide (v < 0)) v.natAbs e false

/-- The exact sum of two values, rounded once, its NaN cases first (46_float_single.md R247, R248 (a), (b)). -/
def FpFormat.sumVals (F : FpFormat) (mode : RoundMode) (a b : FpVal) : FpResult :=
  match a, b with
  | .nan _, _ | _, .nan _ => F.nanResult (a.isSignaling || b.isSignaling)
  | .inf sa, .inf sb => if sa = sb then ⟨F.infinity sa, 0⟩ else F.nanResult true
  | .inf sa, .fin _ _ _ => ⟨F.infinity sa, 0⟩
  | .fin _ _ _, .inf sb => ⟨F.infinity sb, 0⟩
  | .fin sa ma ea, .fin sb mb eb => F.roundSum mode sa ma ea sb mb eb

/-- A value with its sign changed where `neg` holds; a NaN stays. -/
def FpVal.negIf (neg : Bool) : FpVal → FpVal
  | .nan sig => .nan sig
  | .inf s => .inf (s ^^ neg)
  | .fin s m e => .fin (s ^^ neg) m e

/-- fadd (46_float_single.md R268). -/
def FpFormat.add (F : FpFormat) (mode : RoundMode) (a b : Nat) : FpResult := F.sumVals mode (F.unpack a) (F.unpack b)

/-- fsub (46_float_single.md R269). -/
def FpFormat.sub (F : FpFormat) (mode : RoundMode) (a b : Nat) : FpResult :=
  F.sumVals mode (F.unpack a) ((F.unpack b).negIf true)

/-- Round a finite magnitude that may be zero; a zero keeps the sign. -/
def FpFormat.roundOrZero (F : FpFormat) (mode : RoundMode) (sign : Bool) (m : Nat) (e : Int) : FpResult :=
  if m = 0 then ⟨F.zero sign, 0⟩ else F.round mode sign m e false

/-- fmul (46_float_single.md R248 (c), R251, R270). -/
def FpFormat.mul (F : FpFormat) (mode : RoundMode) (a b : Nat) : FpResult :=
  match F.unpack a, F.unpack b with
  | .nan sa, .nan sb => F.nanResult (sa || sb)
  | .nan sa, .inf _ | .nan sa, .fin _ _ _ => F.nanResult sa
  | .inf _, .nan sb | .fin _ _ _, .nan sb => F.nanResult sb
  | .inf sa, .inf sb => ⟨F.infinity (sa ^^ sb), 0⟩
  | .inf sa, .fin sb mb _ => if mb = 0 then F.nanResult true else ⟨F.infinity (sa ^^ sb), 0⟩
  | .fin sa ma _, .inf sb => if ma = 0 then F.nanResult true else ⟨F.infinity (sa ^^ sb), 0⟩
  | .fin sa ma ea, .fin sb mb eb => F.roundOrZero mode (sa ^^ sb) (ma * mb) (ea + eb)

/-- The quotient of two nonzero magnitudes, with enough bits that rounding it is rounding the exact quotient
(46_float_single.md R253). -/
def FpFormat.roundQuotient (F : FpFormat) (mode : RoundMode) (sign : Bool) (ma : Nat) (ea : Int) (mb : Nat) (eb : Int) :
    FpResult :=
  let k := F.fracBits + 4 + bitLength mb - bitLength ma
  let n := ma * 2 ^ k
  F.round mode sign (n / mb) (ea - eb - k) (n % mb != 0)

/-- fdiv (46_float_single.md R248 (d), R249, R271). -/
def FpFormat.div (F : FpFormat) (mode : RoundMode) (a b : Nat) : FpResult :=
  match F.unpack a, F.unpack b with
  | .nan sa, .nan sb => F.nanResult (sa || sb)
  | .nan sa, .inf _ | .nan sa, .fin _ _ _ => F.nanResult sa
  | .inf _, .nan sb | .fin _ _ _, .nan sb => F.nanResult sb
  | .inf _, .inf _ => F.nanResult true
  | .inf sa, .fin sb _ _ => ⟨F.infinity (sa ^^ sb), 0⟩
  | .fin sa _ _, .inf sb => ⟨F.zero (sa ^^ sb), 0⟩
  | .fin sa ma ea, .fin sb mb eb =>
    if mb = 0 then
      if ma = 0 then F.nanResult true else ⟨F.infinity (sa ^^ sb), flagDZ⟩
    else if ma = 0 then ⟨F.zero (sa ^^ sb), 0⟩
    else F.roundQuotient mode (sa ^^ sb) ma ea mb eb

/-- The square root of n rounded down, bit by bit from 2^k; `r` holds the bits found. -/
def isqrtFrom (n : Nat) : Nat → Nat → Nat
  | 0, r => r
  | k + 1, r => isqrtFrom n k (if (r + 2 ^ k) * (r + 2 ^ k) ≤ n then r + 2 ^ k else r)

/-- The square root of n rounded down. -/
def isqrt (n : Nat) : Nat := isqrtFrom n (bitLength n / 2 + 1) 0

/-- The square root of a nonzero magnitude, with enough bits that rounding it is rounding the exact root
(46_float_single.md R253). -/
def FpFormat.roundRoot (F : FpFormat) (mode : RoundMode) (m : Nat) (e : Int) : FpResult :=
  let k0 := 2 * (F.fracBits + 4)
  let k := if (e - k0) % 2 = 0 then k0 else k0 + 1
  let n := m * 2 ^ k
  F.round mode false (isqrt n) ((e - k) / 2) (isqrt n * isqrt n != n)

/-- fsqrt (46_float_single.md R248 (e), R251, R272). -/
def FpFormat.sqrt (F : FpFormat) (mode : RoundMode) (a : Nat) : FpResult :=
  match F.unpack a with
  | .nan sig => F.nanResult sig
  | .inf s => if s then F.nanResult true else ⟨F.infinity false, 0⟩
  | .fin s m e =>
    if m = 0 then ⟨F.zero s, 0⟩ else if s then F.nanResult true else F.roundRoot mode m e

/-- The product of a fused operation before its sum: an infinity, or an exact finite value. Not called on a NaN or on
zero times infinity. -/
def exactProduct : FpVal → FpVal → FpVal
  | .fin sa ma ea, .fin sb mb eb => .fin (sa ^^ sb) (ma * mb) (ea + eb)
  | .inf sa, .inf sb | .inf sa, .fin sb _ _ | .fin sa _ _, .inf sb => .inf (sa ^^ sb)
  | .nan sig, _ | _, .nan sig => .nan sig

/-- `0 * inf` or `inf * 0` (46_float_single.md R248 (c)). -/
def zeroTimesInf : FpVal → FpVal → Bool
  | .inf _, .fin _ m _ | .fin _ m _, .inf _ => m == 0
  | .inf _, .inf _ | .inf _, .nan _ | .fin _ _ _, .fin _ _ _ | .fin _ _ _, .nan _ | .nan _, _ => false

/-- `FMA(a, b, c, np, nc, mode)`: one rounding, the negations applied before it (46_float_single.md R252). -/
def FpFormat.fma (F : FpFormat) (np nc : Bool) (mode : RoundMode) (a b c : Nat) : FpResult :=
  let va := F.unpack a
  let vb := F.unpack b
  let vc := F.unpack c
  if va.isSignaling || vb.isSignaling || vc.isSignaling || zeroTimesInf va vb then F.nanResult true
  else if va.isNaN || vb.isNaN || vc.isNaN then F.nanResult false
  else F.sumVals mode ((exactProduct va vb).negIf np) (vc.negIf nc)

/-! Minimum, maximum, comparison, classification (46_float_single.md R254 to R256). -/

/-- The order of two finite magnitudes with signs, -0 equal to +0. -/
def compareFin (sa : Bool) (ma : Nat) (ea : Int) (sb : Bool) (mb : Nat) (eb : Int) : Ordering :=
  let e := min ea eb
  compare (signedMag sa (ma * 2 ^ (ea - e).toNat)) (signedMag sb (mb * 2 ^ (eb - e).toNat))

/-- The order of two values; none where either is a NaN (46_float_single.md R255). -/
def compareVals : FpVal → FpVal → Option Ordering
  | .nan _, _ | _, .nan _ => none
  | .inf sa, .inf sb => some (if sa = sb then .eq else if sa then .lt else .gt)
  | .inf sa, .fin _ _ _ => some (if sa then .lt else .gt)
  | .fin _ _ _, .inf sb => some (if sb then .gt else .lt)
  | .fin sa ma ea, .fin sb mb eb => some (compareFin sa ma ea sb mb eb)

/-- `a < b` with -0 below +0 (46_float_single.md R254); false where either is a NaN. -/
def FpFormat.below (F : FpFormat) (a b : Nat) : Bool :=
  match compareVals (F.unpack a) (F.unpack b) with
  | none => false
  | some .lt => true
  | some .gt => false
  | some .eq => F.signOf a && !F.signOf b

/-- NV for a signaling operand (46_float_single.md R254, R255). -/
def FpFormat.signalingFlag (F : FpFormat) (a b : Nat) : FFlags :=
  flagIf ((F.unpack a).isSignaling || (F.unpack b).isSignaling) flagNV

/-- The operand chosen by fmin and fmax where at most one is a NaN; `pickA` says which of two numbers
(46_float_single.md R254). -/
def FpFormat.minMax (F : FpFormat) (pickA : Bool) (a b : Nat) : FpResult :=
  ⟨if (F.unpack a).isNaN then (if (F.unpack b).isNaN then F.canonicalNaN else b)
    else if (F.unpack b).isNaN then a
    else if pickA then a else b,
   F.signalingFlag a b⟩

/-- fmin (46_float_single.md R254, R276). -/
def FpFormat.minimum (F : FpFormat) (a b : Nat) : FpResult := F.minMax (!F.below b a) a b

/-- fmax (46_float_single.md R254, R277). -/
def FpFormat.maximum (F : FpFormat) (a b : Nat) : FpResult := F.minMax (!F.below a b) a b

/-- A comparison's answer and flags. -/
structure CmpResult where
  holds : Bool
  flags : FFlags
  deriving DecidableEq, Repr

/-- feq: quiet (46_float_single.md R255, R288). -/
def FpFormat.eq (F : FpFormat) (a b : Nat) : CmpResult :=
  ⟨compareVals (F.unpack a) (F.unpack b) == some .eq, F.signalingFlag a b⟩

/-- NV for any NaN operand (46_float_single.md R255). -/
def FpFormat.nanFlag (F : FpFormat) (a b : Nat) : FFlags := flagIf ((F.unpack a).isNaN || (F.unpack b).isNaN) flagNV

/-- flt: signaling (46_float_single.md R255, R289). -/
def FpFormat.lt (F : FpFormat) (a b : Nat) : CmpResult :=
  ⟨compareVals (F.unpack a) (F.unpack b) == some .lt, F.nanFlag a b⟩

/-- fle: signaling (46_float_single.md R255, R290). -/
def FpFormat.le (F : FpFormat) (a b : Nat) : CmpResult :=
  ⟨compareVals (F.unpack a) (F.unpack b) == some .lt || compareVals (F.unpack a) (F.unpack b) == some .eq,
   F.nanFlag a b⟩

/-- The class bit of a pattern (46_float_single.md R256). -/
def FpFormat.classBit (F : FpFormat) (a : Nat) : Nat :=
  match F.unpack a with
  | .inf s => if s then 0 else 7
  | .nan sig => if sig then 8 else 9
  | .fin s m _ =>
    if m = 0 then (if s then 3 else 4)
    else if m < 2 ^ F.fracBits then (if s then 2 else 5)
    else if s then 1 else 6

/-- fclass: one of bits 9:0 (46_float_single.md R256, R291). -/
def FpFormat.classify (F : FpFormat) (a : Nat) : Word := 1 <<< F.classBit a

/-! Conversions (46_float_single.md R257, R258). -/

/-- The integer kinds of a conversion (46_float_single.md R257). -/
inductive IntKind where
  | w
  | wu
  | l
  | lu
  deriving DecidableEq, Repr

/-- The least value of a kind. -/
def IntKind.least : IntKind → Int
  | .w => -2 ^ 31
  | .wu => 0
  | .l => -2 ^ 63
  | .lu => 0

/-- The greatest value of a kind. -/
def IntKind.greatest : IntKind → Int
  | .w => 2 ^ 31 - 1
  | .wu => 2 ^ 32 - 1
  | .l => 2 ^ 63 - 1
  | .lu => 2 ^ 64 - 1

/-- An integer result and its flags. -/
structure CvtResult where
  value : Int
  flags : FFlags
  deriving DecidableEq, Repr

/-- `cvt_int(v, mode, kind)`: round to an integer, then the range test on it (46_float_single.md R257). -/
def FpFormat.toInt (F : FpFormat) (k : IntKind) (mode : RoundMode) (a : Nat) : CvtResult :=
  match F.unpack a with
  | .nan _ => ⟨k.greatest, flagNV⟩
  | .inf s => ⟨if s then k.least else k.greatest, flagNV⟩
  | .fin s m e =>
    let r := roundAt mode s m e 0 false
    let n := signedMag s r.1
    if n < k.least then ⟨k.least, flagNV⟩
    else if k.greatest < n then ⟨k.greatest, flagNV⟩
    else ⟨n, flagIf r.2 flagNX⟩

/-- An integer rounded to the format; 0 gives +0 (46_float_single.md R258). -/
def FpFormat.ofInt (F : FpFormat) (mode : RoundMode) (n : Int) : FpResult :=
  F.roundOrZero mode (decide (n < 0)) n.natAbs 0

/-- A value of format F rounded to format G; any NaN gives G's canonical NaN (46_float_single.md R247;
47_float_double.md R316, R317). -/
def FpFormat.convert (F G : FpFormat) (mode : RoundMode) (a : Nat) : FpResult :=
  match F.unpack a with
  | .nan sig => G.nanResult sig
  | .inf s => ⟨G.infinity s, 0⟩
  | .fin s m e => G.roundOrZero mode s m e

end Sys2Proof.Machine
end

