-- ==== Sys2Proof/Machine/FloatOps.lean ====
section
/-! DEFINITION. The commits of the floating-point instructions: read operands, check the rounding mode, write the result and
accrue the flags (10_state.md R30, R42; 46_float_single.md R242, R243, R260). -/

namespace Sys2Proof.Machine

/-- A single operand's pattern (46_float_single.md R242). -/
def State.bitsS (s : State) (r : FReg) : Nat := (s.readS r).toNat

/-- A double operand's pattern (46_float_single.md R242). -/
def State.bitsD (s : State) (r : FReg) : Nat := (s.readD r).toNat

/-- Complete with a single result and its flags, in one commit (46_float_single.md R260). -/
def retireFpS (rd : FReg) (r : FpResult) (s : State) : Result := retireS rd (.ofNat 32 r.bits) (s.accrue r.flags)

/-- Complete with a double result and its flags, in one commit (46_float_single.md R260). -/
def retireFpD (rd : FReg) (r : FpResult) (s : State) : Result := retireD rd (.ofNat 64 r.bits) (s.accrue r.flags)

/-- Complete a comparison: 1 or 0, and its flags (46_float_single.md R255, R261). -/
def retireCmp (rd : XReg) (r : CmpResult) (s : State) : Result :=
  retireX rd (if r.holds then 1 else 0) (s.accrue r.flags)

/-- A rounding instruction with a single result. -/
def fpS (i : Instr) (rd : FReg) (rm : BitVec 3) (s : State) (op : RoundMode → FpResult) : Result :=
  withRound i rm s (fun m => retireFpS rd (op m) s)

/-- A rounding instruction with a double result. -/
def fpD (i : Instr) (rd : FReg) (rm : BitVec 3) (s : State) (op : RoundMode → FpResult) : Result :=
  withRound i rm s (fun m => retireFpD rd (op m) s)

/-- A conversion to w or wu: `sext_XLEN` of the 32 bits (46_float_single.md R257, R261). -/
def fpToInt (i : Instr) (rd : XReg) (rm : BitVec 3) (s : State) (op : RoundMode → CvtResult) : Result :=
  withRound i rm s (fun m => retireX rd (s.xlen.sext (BitVec.ofInt 32 (op m).value)) (s.accrue (op m).flags))

/-- A conversion to l or lu: 64 bits (46_float_single.md R257, R261). -/
def fpToLong (i : Instr) (rd : XReg) (rm : BitVec 3) (s : State) (op : RoundMode → CvtResult) : Result :=
  withRound i rm s (fun m => retireX rd (BitVec.ofInt 64 (op m).value) (s.accrue (op m).flags))

/-- The integer a conversion to FP reads (46_float_single.md R258). -/
def intSource : IntKind → Word → Int
  | .w, v => (v.setWidth 32).toInt
  | .wu, v => (v.setWidth 32).toNat
  | .l, v => v.toInt
  | .lu, v => v.toNat

/-- a with its sign bit replaced by b's (46_float_single.md R259). -/
def signInjectS (a b : BitVec 32) : BitVec 32 := b.extractLsb' 31 1 ++ a.extractLsb' 0 31

/-- a with its sign bit replaced by b's (46_float_single.md R259). -/
def signInjectD (a b : BitVec 64) : BitVec 64 := b.extractLsb' 63 1 ++ a.extractLsb' 0 63

end Sys2Proof.Machine
end

