-- ==== Sys2Proof/Machine/FloatDouble.lean ====
section
/-! DEFINITION. The double-precision instructions (47_float_double.md). -/

namespace Sys2Proof.Machine

/-- `fld` (47_float_double.md R300). -/
def execFld (rd : FReg) (rs1 : XReg) (imm : BitVec 12) (s : State) : Result :=
  loadThen (.fld rd rs1 imm) .dword rs1 imm s (fun v => retireD rd v s)

/-- `fsd` (47_float_double.md R301). -/
def execFsd (rs1 : XReg) (rs2 : FReg) (imm : BitVec 12) (s : State) : Result :=
  storeAt (.fsd rs1 rs2 imm) .dword rs1 imm (s.readF rs2) s

/-- `fmadd.d` (47_float_double.md R302). -/
def execFmaddD (rd rs1 rs2 rs3 : FReg) (rm : BitVec 3) (s : State) : Result :=
  fpD (.fmaddD rd rs1 rs2 rs3 rm) rd rm s (fun m => double.fma false false m (s.bitsD rs1) (s.bitsD rs2) (s.bitsD rs3))

/-- `fmsub.d` (47_float_double.md R303). -/
def execFmsubD (rd rs1 rs2 rs3 : FReg) (rm : BitVec 3) (s : State) : Result :=
  fpD (.fmsubD rd rs1 rs2 rs3 rm) rd rm s (fun m => double.fma false true m (s.bitsD rs1) (s.bitsD rs2) (s.bitsD rs3))

/-- `fnmsub.d` (47_float_double.md R304). -/
def execFnmsubD (rd rs1 rs2 rs3 : FReg) (rm : BitVec 3) (s : State) : Result :=
  fpD (.fnmsubD rd rs1 rs2 rs3 rm) rd rm s (fun m => double.fma true false m (s.bitsD rs1) (s.bitsD rs2) (s.bitsD rs3))

/-- `fnmadd.d` (47_float_double.md R305). -/
def execFnmaddD (rd rs1 rs2 rs3 : FReg) (rm : BitVec 3) (s : State) : Result :=
  fpD (.fnmaddD rd rs1 rs2 rs3 rm) rd rm s (fun m => double.fma true true m (s.bitsD rs1) (s.bitsD rs2) (s.bitsD rs3))

/-- `fadd.d` (47_float_double.md R306). -/
def execFaddD (rd rs1 rs2 : FReg) (rm : BitVec 3) (s : State) : Result :=
  fpD (.faddD rd rs1 rs2 rm) rd rm s (fun m => double.add m (s.bitsD rs1) (s.bitsD rs2))

/-- `fsub.d` (47_float_double.md R307). -/
def execFsubD (rd rs1 rs2 : FReg) (rm : BitVec 3) (s : State) : Result :=
  fpD (.fsubD rd rs1 rs2 rm) rd rm s (fun m => double.sub m (s.bitsD rs1) (s.bitsD rs2))

/-- `fmul.d` (47_float_double.md R308). -/
def execFmulD (rd rs1 rs2 : FReg) (rm : BitVec 3) (s : State) : Result :=
  fpD (.fmulD rd rs1 rs2 rm) rd rm s (fun m => double.mul m (s.bitsD rs1) (s.bitsD rs2))

/-- `fdiv.d` (47_float_double.md R309). -/
def execFdivD (rd rs1 rs2 : FReg) (rm : BitVec 3) (s : State) : Result :=
  fpD (.fdivD rd rs1 rs2 rm) rd rm s (fun m => double.div m (s.bitsD rs1) (s.bitsD rs2))

/-- `fsqrt.d` (47_float_double.md R310). -/
def execFsqrtD (rd rs1 : FReg) (rm : BitVec 3) (s : State) : Result :=
  fpD (.fsqrtD rd rs1 rm) rd rm s (fun m => double.sqrt m (s.bitsD rs1))

/-- `fsgnj.d` (47_float_double.md R311). -/
def execFsgnjD (rd rs1 rs2 : FReg) (s : State) : Result :=
  retireD rd (signInjectD (s.readD rs1) (s.readD rs2)) s

/-- `fsgnjn.d` (47_float_double.md R312). -/
def execFsgnjnD (rd rs1 rs2 : FReg) (s : State) : Result :=
  retireD rd (signInjectD (s.readD rs1) (~~~(s.readD rs2))) s

/-- `fsgnjx.d` (47_float_double.md R313). -/
def execFsgnjxD (rd rs1 rs2 : FReg) (s : State) : Result :=
  retireD rd (signInjectD (s.readD rs1) (s.readD rs1 ^^^ s.readD rs2)) s

/-- `fmin.d` (47_float_double.md R314). -/
def execFminD (rd rs1 rs2 : FReg) (s : State) : Result :=
  retireFpD rd (double.minimum (s.bitsD rs1) (s.bitsD rs2)) s

/-- `fmax.d` (47_float_double.md R315). -/
def execFmaxD (rd rs1 rs2 : FReg) (s : State) : Result :=
  retireFpD rd (double.maximum (s.bitsD rs1) (s.bitsD rs2)) s

/-- `feq.d` (47_float_double.md R318). -/
def execFeqD (rd : XReg) (rs1 rs2 : FReg) (s : State) : Result :=
  retireCmp rd (double.eq (s.bitsD rs1) (s.bitsD rs2)) s

/-- `flt.d` (47_float_double.md R319). -/
def execFltD (rd : XReg) (rs1 rs2 : FReg) (s : State) : Result :=
  retireCmp rd (double.lt (s.bitsD rs1) (s.bitsD rs2)) s

/-- `fle.d` (47_float_double.md R320). -/
def execFleD (rd : XReg) (rs1 rs2 : FReg) (s : State) : Result :=
  retireCmp rd (double.le (s.bitsD rs1) (s.bitsD rs2)) s

/-- `fclass.d` (47_float_double.md R321). -/
def execFclassD (rd : XReg) (rs1 : FReg) (s : State) : Result :=
  retireX rd (double.classify (s.bitsD rs1)) s

/-- `fcvt.w.d` (47_float_double.md R322). -/
def execFcvtWD (rd : XReg) (rs1 : FReg) (rm : BitVec 3) (s : State) : Result :=
  fpToInt (.fcvtWD rd rs1 rm) rd rm s (fun m => double.toInt .w m (s.bitsD rs1))

/-- `fcvt.wu.d` (47_float_double.md R323). -/
def execFcvtWuD (rd : XReg) (rs1 : FReg) (rm : BitVec 3) (s : State) : Result :=
  fpToInt (.fcvtWuD rd rs1 rm) rd rm s (fun m => double.toInt .wu m (s.bitsD rs1))

/-- `fcvt.l.d` (47_float_double.md R326). -/
def execFcvtLD (rd : XReg) (rs1 : FReg) (rm : BitVec 3) (s : State) : Result :=
  rv64Only (.fcvtLD rd rs1 rm) s
    (fpToLong (.fcvtLD rd rs1 rm) rd rm s (fun m => double.toInt .l m (s.bitsD rs1)))

/-- `fcvt.lu.d` (47_float_double.md R327). -/
def execFcvtLuD (rd : XReg) (rs1 : FReg) (rm : BitVec 3) (s : State) : Result :=
  rv64Only (.fcvtLuD rd rs1 rm) s
    (fpToLong (.fcvtLuD rd rs1 rm) rd rm s (fun m => double.toInt .lu m (s.bitsD rs1)))

/-- `fcvt.d.w` (47_float_double.md R324). -/
def execFcvtDW (rd : FReg) (rs1 : XReg) (rm : BitVec 3) (s : State) : Result :=
  fpD (.fcvtDW rd rs1 rm) rd rm s (fun m => double.ofInt m (intSource .w (s.readX rs1)))

/-- `fcvt.d.wu` (47_float_double.md R325). -/
def execFcvtDWu (rd : FReg) (rs1 : XReg) (rm : BitVec 3) (s : State) : Result :=
  fpD (.fcvtDWu rd rs1 rm) rd rm s (fun m => double.ofInt m (intSource .wu (s.readX rs1)))

/-- `fcvt.d.l` (47_float_double.md R328). -/
def execFcvtDL (rd : FReg) (rs1 : XReg) (rm : BitVec 3) (s : State) : Result :=
  rv64Only (.fcvtDL rd rs1 rm) s
    (fpD (.fcvtDL rd rs1 rm) rd rm s (fun m => double.ofInt m (intSource .l (s.readX rs1))))

/-- `fcvt.d.lu` (47_float_double.md R329). -/
def execFcvtDLu (rd : FReg) (rs1 : XReg) (rm : BitVec 3) (s : State) : Result :=
  rv64Only (.fcvtDLu rd rs1 rm) s
    (fpD (.fcvtDLu rd rs1 rm) rd rm s (fun m => double.ofInt m (intSource .lu (s.readX rs1))))

/-- `fcvt.s.d` (47_float_double.md R316). -/
def execFcvtSD (rd rs1 : FReg) (rm : BitVec 3) (s : State) : Result :=
  fpS (.fcvtSD rd rs1 rm) rd rm s (fun m => FpFormat.convert double single m (s.bitsD rs1))

/-- `fcvt.d.s` (47_float_double.md R317). -/
def execFcvtDS (rd rs1 : FReg) (rm : BitVec 3) (s : State) : Result :=
  fpD (.fcvtDS rd rs1 rm) rd rm s (fun m => FpFormat.convert single double m (s.bitsS rs1))

/-- `fmv.x.d` (47_float_double.md R330). -/
def execFmvXD (rd : XReg) (rs1 : FReg) (s : State) : Result :=
  rv64Only (.fmvXD rd rs1) s (retireX rd (s.readF rs1) s)

/-- `fmv.d.x` (47_float_double.md R331). -/
def execFmvDX (rd : FReg) (rs1 : XReg) (s : State) : Result :=
  rv64Only (.fmvDX rd rs1) s (retireD rd (s.readX rs1) s)

end Sys2Proof.Machine
end

