-- ==== Sys2Proof/Machine/FloatSingle.lean ====
section
/-! DEFINITION. The single-precision instructions (46_float_single.md). -/

namespace Sys2Proof.Machine

/-- `flw` (46_float_single.md R262). -/
def execFlw (rd : FReg) (rs1 : XReg) (imm : BitVec 12) (s : State) : Result :=
  loadThen (.flw rd rs1 imm) .word rs1 imm s (fun v => retireS rd (v.setWidth 32) s)

/-- `fsw` (46_float_single.md R263). -/
def execFsw (rs1 : XReg) (rs2 : FReg) (imm : BitVec 12) (s : State) : Result :=
  storeAt (.fsw rs1 rs2 imm) .word rs1 imm (s.readF rs2) s

/-- `fmadd.s` (46_float_single.md R264). -/
def execFmaddS (rd rs1 rs2 rs3 : FReg) (rm : BitVec 3) (s : State) : Result :=
  fpS (.fmaddS rd rs1 rs2 rs3 rm) rd rm s (fun m => single.fma false false m (s.bitsS rs1) (s.bitsS rs2) (s.bitsS rs3))

/-- `fmsub.s` (46_float_single.md R265). -/
def execFmsubS (rd rs1 rs2 rs3 : FReg) (rm : BitVec 3) (s : State) : Result :=
  fpS (.fmsubS rd rs1 rs2 rs3 rm) rd rm s (fun m => single.fma false true m (s.bitsS rs1) (s.bitsS rs2) (s.bitsS rs3))

/-- `fnmsub.s` (46_float_single.md R266). -/
def execFnmsubS (rd rs1 rs2 rs3 : FReg) (rm : BitVec 3) (s : State) : Result :=
  fpS (.fnmsubS rd rs1 rs2 rs3 rm) rd rm s (fun m => single.fma true false m (s.bitsS rs1) (s.bitsS rs2) (s.bitsS rs3))

/-- `fnmadd.s` (46_float_single.md R267). -/
def execFnmaddS (rd rs1 rs2 rs3 : FReg) (rm : BitVec 3) (s : State) : Result :=
  fpS (.fnmaddS rd rs1 rs2 rs3 rm) rd rm s (fun m => single.fma true true m (s.bitsS rs1) (s.bitsS rs2) (s.bitsS rs3))

/-- `fadd.s` (46_float_single.md R268). -/
def execFaddS (rd rs1 rs2 : FReg) (rm : BitVec 3) (s : State) : Result :=
  fpS (.faddS rd rs1 rs2 rm) rd rm s (fun m => single.add m (s.bitsS rs1) (s.bitsS rs2))

/-- `fsub.s` (46_float_single.md R269). -/
def execFsubS (rd rs1 rs2 : FReg) (rm : BitVec 3) (s : State) : Result :=
  fpS (.fsubS rd rs1 rs2 rm) rd rm s (fun m => single.sub m (s.bitsS rs1) (s.bitsS rs2))

/-- `fmul.s` (46_float_single.md R270). -/
def execFmulS (rd rs1 rs2 : FReg) (rm : BitVec 3) (s : State) : Result :=
  fpS (.fmulS rd rs1 rs2 rm) rd rm s (fun m => single.mul m (s.bitsS rs1) (s.bitsS rs2))

/-- `fdiv.s` (46_float_single.md R271). -/
def execFdivS (rd rs1 rs2 : FReg) (rm : BitVec 3) (s : State) : Result :=
  fpS (.fdivS rd rs1 rs2 rm) rd rm s (fun m => single.div m (s.bitsS rs1) (s.bitsS rs2))

/-- `fsqrt.s` (46_float_single.md R272). -/
def execFsqrtS (rd rs1 : FReg) (rm : BitVec 3) (s : State) : Result :=
  fpS (.fsqrtS rd rs1 rm) rd rm s (fun m => single.sqrt m (s.bitsS rs1))

/-- `fsgnj.s` (46_float_single.md R273). -/
def execFsgnjS (rd rs1 rs2 : FReg) (s : State) : Result :=
  retireS rd (signInjectS (s.readS rs1) (s.readS rs2)) s

/-- `fsgnjn.s` (46_float_single.md R274). -/
def execFsgnjnS (rd rs1 rs2 : FReg) (s : State) : Result :=
  retireS rd (signInjectS (s.readS rs1) (~~~(s.readS rs2))) s

/-- `fsgnjx.s` (46_float_single.md R275). -/
def execFsgnjxS (rd rs1 rs2 : FReg) (s : State) : Result :=
  retireS rd (signInjectS (s.readS rs1) (s.readS rs1 ^^^ s.readS rs2)) s

/-- `fmin.s` (46_float_single.md R276). -/
def execFminS (rd rs1 rs2 : FReg) (s : State) : Result :=
  retireFpS rd (single.minimum (s.bitsS rs1) (s.bitsS rs2)) s

/-- `fmax.s` (46_float_single.md R277). -/
def execFmaxS (rd rs1 rs2 : FReg) (s : State) : Result :=
  retireFpS rd (single.maximum (s.bitsS rs1) (s.bitsS rs2)) s

/-- `feq.s` (46_float_single.md R288). -/
def execFeqS (rd : XReg) (rs1 rs2 : FReg) (s : State) : Result :=
  retireCmp rd (single.eq (s.bitsS rs1) (s.bitsS rs2)) s

/-- `flt.s` (46_float_single.md R289). -/
def execFltS (rd : XReg) (rs1 rs2 : FReg) (s : State) : Result :=
  retireCmp rd (single.lt (s.bitsS rs1) (s.bitsS rs2)) s

/-- `fle.s` (46_float_single.md R290). -/
def execFleS (rd : XReg) (rs1 rs2 : FReg) (s : State) : Result :=
  retireCmp rd (single.le (s.bitsS rs1) (s.bitsS rs2)) s

/-- `fclass.s` (46_float_single.md R291). -/
def execFclassS (rd : XReg) (rs1 : FReg) (s : State) : Result :=
  retireX rd (single.classify (s.bitsS rs1)) s

/-- `fcvt.w.s` (46_float_single.md R278). -/
def execFcvtWS (rd : XReg) (rs1 : FReg) (rm : BitVec 3) (s : State) : Result :=
  fpToInt (.fcvtWS rd rs1 rm) rd rm s (fun m => single.toInt .w m (s.bitsS rs1))

/-- `fcvt.wu.s` (46_float_single.md R279). -/
def execFcvtWuS (rd : XReg) (rs1 : FReg) (rm : BitVec 3) (s : State) : Result :=
  fpToInt (.fcvtWuS rd rs1 rm) rd rm s (fun m => single.toInt .wu m (s.bitsS rs1))

/-- `fcvt.l.s` (46_float_single.md R280). -/
def execFcvtLS (rd : XReg) (rs1 : FReg) (rm : BitVec 3) (s : State) : Result :=
  rv64Only (.fcvtLS rd rs1 rm) s
    (fpToLong (.fcvtLS rd rs1 rm) rd rm s (fun m => single.toInt .l m (s.bitsS rs1)))

/-- `fcvt.lu.s` (46_float_single.md R281). -/
def execFcvtLuS (rd : XReg) (rs1 : FReg) (rm : BitVec 3) (s : State) : Result :=
  rv64Only (.fcvtLuS rd rs1 rm) s
    (fpToLong (.fcvtLuS rd rs1 rm) rd rm s (fun m => single.toInt .lu m (s.bitsS rs1)))

/-- `fcvt.s.w` (46_float_single.md R282). -/
def execFcvtSW (rd : FReg) (rs1 : XReg) (rm : BitVec 3) (s : State) : Result :=
  fpS (.fcvtSW rd rs1 rm) rd rm s (fun m => single.ofInt m (intSource .w (s.readX rs1)))

/-- `fcvt.s.wu` (46_float_single.md R283). -/
def execFcvtSWu (rd : FReg) (rs1 : XReg) (rm : BitVec 3) (s : State) : Result :=
  fpS (.fcvtSWu rd rs1 rm) rd rm s (fun m => single.ofInt m (intSource .wu (s.readX rs1)))

/-- `fcvt.s.l` (46_float_single.md R284). -/
def execFcvtSL (rd : FReg) (rs1 : XReg) (rm : BitVec 3) (s : State) : Result :=
  rv64Only (.fcvtSL rd rs1 rm) s
    (fpS (.fcvtSL rd rs1 rm) rd rm s (fun m => single.ofInt m (intSource .l (s.readX rs1))))

/-- `fcvt.s.lu` (46_float_single.md R285). -/
def execFcvtSLu (rd : FReg) (rs1 : XReg) (rm : BitVec 3) (s : State) : Result :=
  rv64Only (.fcvtSLu rd rs1 rm) s
    (fpS (.fcvtSLu rd rs1 rm) rd rm s (fun m => single.ofInt m (intSource .lu (s.readX rs1))))

/-- `fmv.x.w` (46_float_single.md R286). -/
def execFmvXW (rd : XReg) (rs1 : FReg) (s : State) : Result :=
  retireX rd (s.xlen.sext ((s.readF rs1).setWidth 32)) s

/-- `fmv.w.x` (46_float_single.md R287). -/
def execFmvWX (rd : FReg) (rs1 : XReg) (s : State) : Result :=
  retireS rd ((s.readX rs1).setWidth 32) s

end Sys2Proof.Machine
end

