-- ==== Sys2Proof/Machine/Alu.lean ====
section
/-! DEFINITION. Integer arithmetic at any width w (41_integer.md R130 to R132, 44_muldiv.md R200, R201), and the commits of
its instructions. -/

namespace Sys2Proof.Machine

namespace Alu

def add (w : Nat) (a b : BitVec w) : BitVec w := a + b
def sub (w : Nat) (a b : BitVec w) : BitVec w := a - b
def and (w : Nat) (a b : BitVec w) : BitVec w := a &&& b
def or (w : Nat) (a b : BitVec w) : BitVec w := a ||| b
def xor (w : Nat) (a b : BitVec w) : BitVec w := a ^^^ b

/-- Signed less than, as 1 or 0 (41_integer.md R136, R147). -/
def slt (w : Nat) (a b : BitVec w) : BitVec w := if a.toInt < b.toInt then 1 else 0

/-- Unsigned less than, as 1 or 0 (41_integer.md R137, R148). -/
def sltu (w : Nat) (a b : BitVec w) : BitVec w := if a.toNat < b.toNat then 1 else 0

/-- Shifts by the amount modulo the width (41_integer.md R132). -/
def sll (w : Nat) (a b : BitVec w) : BitVec w := a <<< (b.toNat % w)
def srl (w : Nat) (a b : BitVec w) : BitVec w := a >>> (b.toNat % w)
def sra (w : Nat) (a b : BitVec w) : BitVec w := a.sshiftRight (b.toNat % w)

/-- The low half of the product (44_muldiv.md R200). -/
def mul (w : Nat) (a b : BitVec w) : BitVec w := .ofInt w (a.toInt * b.toInt)

/-- The high half of the exact product, by the signedness of the operands (44_muldiv.md R200). -/
def mulh (w : Nat) (a b : BitVec w) : BitVec w := .ofInt w (a.toInt * b.toInt / 2 ^ w)
def mulhsu (w : Nat) (a b : BitVec w) : BitVec w := .ofInt w (a.toInt * b.toNat / 2 ^ w)
def mulhu (w : Nat) (a b : BitVec w) : BitVec w := .ofNat w (a.toNat * b.toNat / 2 ^ w)

/-- Signed division toward zero; zero divisor and overflow have the results of 44_muldiv.md R201. -/
def div (w : Nat) (a b : BitVec w) : BitVec w :=
  if b = 0 then BitVec.allOnes w
  else if a = BitVec.intMin w ∧ b = BitVec.allOnes w then a
  else .ofInt w (a.toInt.tdiv b.toInt)

def divu (w : Nat) (a b : BitVec w) : BitVec w :=
  if b = 0 then BitVec.allOnes w else .ofNat w (a.toNat / b.toNat)

/-- Signed remainder, `dividend - divisor * quotient` (44_muldiv.md R201, R208). -/
def rem (w : Nat) (a b : BitVec w) : BitVec w :=
  if b = 0 then a
  else if a = BitVec.intMin w ∧ b = BitVec.allOnes w then 0
  else .ofInt w (a.toInt - b.toInt * a.toInt.tdiv b.toInt)

def remu (w : Nat) (a b : BitVec w) : BitVec w :=
  if b = 0 then a else .ofNat w (a.toNat % b.toNat)

end Alu

/-- Complete `rd <- op(x[rs1], x[rs2])` at the active width. -/
def opRR (op : (w : Nat) → BitVec w → BitVec w → BitVec w) (rd rs1 rs2 : XReg) (s : State) : Result :=
  retireX rd (s.xlen.lift2 op (s.readX rs1) (s.readX rs2)) s

/-- Complete `rd <- op(x[rs1], immI)` at the active width. -/
def opRI (op : (w : Nat) → BitVec w → BitVec w → BitVec w) (rd rs1 : XReg) (imm : BitVec 12) (s : State) : Result :=
  retireX rd (s.xlen.lift2 op (s.readX rs1) (s.imm12 imm)) s

/-- Complete `rd <- op(x[rs1], shamt)` at the active width. -/
def opShift (op : (w : Nat) → BitVec w → BitVec w → BitVec w) (rd rs1 : XReg) (shamt : BitVec 6) (s : State) : Result :=
  retireX rd (s.xlen.lift2 op (s.readX rs1) (shamt.setWidth 64)) s

/-- Complete a 64-bit-only word operation on two registers (41_integer.md R131). -/
def opRRW (op : (w : Nat) → BitVec w → BitVec w → BitVec w) (i : Instr) (rd rs1 rs2 : XReg) (s : State) : Result :=
  rv64Only i s (retireX rd (s.xlen.liftW op (s.readX rs1) (s.readX rs2)) s)

/-- Complete a 64-bit-only word operation on a register and a value (41_integer.md R131). -/
def opRVW (op : (w : Nat) → BitVec w → BitVec w → BitVec w) (i : Instr) (rd rs1 : XReg) (v : Word) (s : State) : Result :=
  rv64Only i s (retireX rd (s.xlen.liftW op (s.readX rs1) v) s)

end Sys2Proof.Machine
end

