-- ==== Sys2Proof/Machine/Integer.lean ====
section
/-! DEFINITION. The integer computational instructions (41_integer.md). -/

namespace Sys2Proof.Machine

/-- `lui` (41_integer.md R133). -/
def execLui (rd : XReg) (imm : BitVec 20) (s : State) : Result :=
  retireX rd (s.immU imm) s

/-- `auipc` (41_integer.md R134). -/
def execAuipc (rd : XReg) (imm : BitVec 20) (s : State) : Result :=
  retireX rd (s.readPc + s.immU imm) s

/-- `addi` (41_integer.md R135). -/
def execAddi (rd rs1 : XReg) (imm : BitVec 12) (s : State) : Result :=
  opRI Alu.add rd rs1 imm s

/-- `slti` (41_integer.md R136). -/
def execSlti (rd rs1 : XReg) (imm : BitVec 12) (s : State) : Result :=
  opRI Alu.slt rd rs1 imm s

/-- `sltiu` (41_integer.md R137). -/
def execSltiu (rd rs1 : XReg) (imm : BitVec 12) (s : State) : Result :=
  opRI Alu.sltu rd rs1 imm s

/-- `xori` (41_integer.md R138). -/
def execXori (rd rs1 : XReg) (imm : BitVec 12) (s : State) : Result :=
  opRI Alu.xor rd rs1 imm s

/-- `ori` (41_integer.md R139). -/
def execOri (rd rs1 : XReg) (imm : BitVec 12) (s : State) : Result :=
  opRI Alu.or rd rs1 imm s

/-- `andi` (41_integer.md R140). -/
def execAndi (rd rs1 : XReg) (imm : BitVec 12) (s : State) : Result :=
  opRI Alu.and rd rs1 imm s

/-- `slli` (41_integer.md R141). -/
def execSlli (rd rs1 : XReg) (shamt : BitVec 6) (s : State) : Result :=
  opShift Alu.sll rd rs1 shamt s

/-- `srli` (41_integer.md R142). -/
def execSrli (rd rs1 : XReg) (shamt : BitVec 6) (s : State) : Result :=
  opShift Alu.srl rd rs1 shamt s

/-- `srai` (41_integer.md R143). -/
def execSrai (rd rs1 : XReg) (shamt : BitVec 6) (s : State) : Result :=
  opShift Alu.sra rd rs1 shamt s

/-- `slli[shamt5=1]` (41_integer.md R141). -/
def execSlliHi (rd rs1 : XReg) (shamt : BitVec 6) (s : State) : Result :=
  rv64Only (.slliHi rd rs1 shamt) s (opShift Alu.sll rd rs1 shamt s)

/-- `srli[shamt5=1]` (41_integer.md R142). -/
def execSrliHi (rd rs1 : XReg) (shamt : BitVec 6) (s : State) : Result :=
  rv64Only (.srliHi rd rs1 shamt) s (opShift Alu.srl rd rs1 shamt s)

/-- `srai[shamt5=1]` (41_integer.md R143). -/
def execSraiHi (rd rs1 : XReg) (shamt : BitVec 6) (s : State) : Result :=
  rv64Only (.sraiHi rd rs1 shamt) s (opShift Alu.sra rd rs1 shamt s)

/-- `add` (41_integer.md R144). -/
def execAdd (rd rs1 rs2 : XReg) (s : State) : Result :=
  opRR Alu.add rd rs1 rs2 s

/-- `sub` (41_integer.md R145). -/
def execSub (rd rs1 rs2 : XReg) (s : State) : Result :=
  opRR Alu.sub rd rs1 rs2 s

/-- `sll` (41_integer.md R146). -/
def execSll (rd rs1 rs2 : XReg) (s : State) : Result :=
  opRR Alu.sll rd rs1 rs2 s

/-- `slt` (41_integer.md R147). -/
def execSlt (rd rs1 rs2 : XReg) (s : State) : Result :=
  opRR Alu.slt rd rs1 rs2 s

/-- `sltu` (41_integer.md R148). -/
def execSltu (rd rs1 rs2 : XReg) (s : State) : Result :=
  opRR Alu.sltu rd rs1 rs2 s

/-- `xor` (41_integer.md R149). -/
def execXor (rd rs1 rs2 : XReg) (s : State) : Result :=
  opRR Alu.xor rd rs1 rs2 s

/-- `srl` (41_integer.md R150). -/
def execSrl (rd rs1 rs2 : XReg) (s : State) : Result :=
  opRR Alu.srl rd rs1 rs2 s

/-- `sra` (41_integer.md R151). -/
def execSra (rd rs1 rs2 : XReg) (s : State) : Result :=
  opRR Alu.sra rd rs1 rs2 s

/-- `or` (41_integer.md R152). -/
def execOr (rd rs1 rs2 : XReg) (s : State) : Result :=
  opRR Alu.or rd rs1 rs2 s

/-- `and` (41_integer.md R153). -/
def execAnd (rd rs1 rs2 : XReg) (s : State) : Result :=
  opRR Alu.and rd rs1 rs2 s

/-- `addiw` (41_integer.md R154). -/
def execAddiw (rd rs1 : XReg) (imm : BitVec 12) (s : State) : Result :=
  opRVW Alu.add (.addiw rd rs1 imm) rd rs1 (s.imm12 imm) s

/-- `slliw` (41_integer.md R155). -/
def execSlliw (rd rs1 : XReg) (shamt : BitVec 5) (s : State) : Result :=
  opRVW Alu.sll (.slliw rd rs1 shamt) rd rs1 (shamt.setWidth 64) s

/-- `srliw` (41_integer.md R156). -/
def execSrliw (rd rs1 : XReg) (shamt : BitVec 5) (s : State) : Result :=
  opRVW Alu.srl (.srliw rd rs1 shamt) rd rs1 (shamt.setWidth 64) s

/-- `sraiw` (41_integer.md R157). -/
def execSraiw (rd rs1 : XReg) (shamt : BitVec 5) (s : State) : Result :=
  opRVW Alu.sra (.sraiw rd rs1 shamt) rd rs1 (shamt.setWidth 64) s

/-- `addw` (41_integer.md R158). -/
def execAddw (rd rs1 rs2 : XReg) (s : State) : Result :=
  opRRW Alu.add (.addw rd rs1 rs2) rd rs1 rs2 s

/-- `subw` (41_integer.md R159). -/
def execSubw (rd rs1 rs2 : XReg) (s : State) : Result :=
  opRRW Alu.sub (.subw rd rs1 rs2) rd rs1 rs2 s

/-- `sllw` (41_integer.md R160). -/
def execSllw (rd rs1 rs2 : XReg) (s : State) : Result :=
  opRRW Alu.sll (.sllw rd rs1 rs2) rd rs1 rs2 s

/-- `srlw` (41_integer.md R161). -/
def execSrlw (rd rs1 rs2 : XReg) (s : State) : Result :=
  opRRW Alu.srl (.srlw rd rs1 rs2) rd rs1 rs2 s

/-- `sraw` (41_integer.md R162). -/
def execSraw (rd rs1 rs2 : XReg) (s : State) : Result :=
  opRRW Alu.sra (.sraw rd rs1 rs2) rd rs1 rs2 s

end Sys2Proof.Machine
end

