-- ==== Sys2Proof/Machine/LoadStore.lean ====
section
/-! DEFINITION. The integer loads, stores and fences (43_loadstore.md). -/

namespace Sys2Proof.Machine

/-- `lb` (43_loadstore.md R186). -/
def execLb (rd rs1 : XReg) (imm : BitVec 12) (s : State) : Result :=
  loadThen (.lb rd rs1 imm) .byte rs1 imm s (fun v => retireX rd (s.xlen.sext (v.setWidth 8)) s)

/-- `lh` (43_loadstore.md R187). -/
def execLh (rd rs1 : XReg) (imm : BitVec 12) (s : State) : Result :=
  loadThen (.lh rd rs1 imm) .half rs1 imm s (fun v => retireX rd (s.xlen.sext (v.setWidth 16)) s)

/-- `lw` (43_loadstore.md R188). -/
def execLw (rd rs1 : XReg) (imm : BitVec 12) (s : State) : Result :=
  loadThen (.lw rd rs1 imm) .word rs1 imm s (fun v => retireX rd (s.xlen.sext (v.setWidth 32)) s)

/-- `lbu` (43_loadstore.md R190). -/
def execLbu (rd rs1 : XReg) (imm : BitVec 12) (s : State) : Result :=
  loadThen (.lbu rd rs1 imm) .byte rs1 imm s (fun v => retireX rd (s.xlen.zext (v.setWidth 8)) s)

/-- `lhu` (43_loadstore.md R191). -/
def execLhu (rd rs1 : XReg) (imm : BitVec 12) (s : State) : Result :=
  loadThen (.lhu rd rs1 imm) .half rs1 imm s (fun v => retireX rd (s.xlen.zext (v.setWidth 16)) s)

/-- `lwu` (43_loadstore.md R192). -/
def execLwu (rd rs1 : XReg) (imm : BitVec 12) (s : State) : Result :=
  rv64Only (.lwu rd rs1 imm) s
    (loadThen (.lwu rd rs1 imm) .word rs1 imm s (fun v => retireX rd ((v.setWidth 32).setWidth 64) s))

/-- `ld` (43_loadstore.md R189). -/
def execLd (rd rs1 : XReg) (imm : BitVec 12) (s : State) : Result :=
  rv64Only (.ld rd rs1 imm) s
    (loadThen (.ld rd rs1 imm) .dword rs1 imm s (fun v => retireX rd v s))

/-- `sb` (43_loadstore.md R193). -/
def execSb (rs1 rs2 : XReg) (imm : BitVec 12) (s : State) : Result :=
  storeAt (.sb rs1 rs2 imm) .byte rs1 imm (s.readX rs2) s

/-- `sh` (43_loadstore.md R194). -/
def execSh (rs1 rs2 : XReg) (imm : BitVec 12) (s : State) : Result :=
  storeAt (.sh rs1 rs2 imm) .half rs1 imm (s.readX rs2) s

/-- `sw` (43_loadstore.md R195). -/
def execSw (rs1 rs2 : XReg) (imm : BitVec 12) (s : State) : Result :=
  storeAt (.sw rs1 rs2 imm) .word rs1 imm (s.readX rs2) s

/-- `sd` (43_loadstore.md R196). -/
def execSd (rs1 rs2 : XReg) (imm : BitVec 12) (s : State) : Result :=
  rv64Only (.sd rs1 rs2 imm) s (storeAt (.sd rs1 rs2 imm) .dword rs1 imm (s.readX rs2) s)

/-- `fence` (43_loadstore.md R197). -/
def execFence (_pred _succ : BitVec 4) (s : State) : Result :=
  retire s

/-- `fence.i` (43_loadstore.md R198). -/
def execFenceI (s : State) : Result :=
  retire s

end Sys2Proof.Machine
end

