-- ==== Sys2Proof/Machine/MulDiv.lean ====
section
/-! DEFINITION. The multiply and divide instructions (44_muldiv.md). -/

namespace Sys2Proof.Machine

/-- `mul` (44_muldiv.md R202). -/
def execMul (rd rs1 rs2 : XReg) (s : State) : Result :=
  opRR Alu.mul rd rs1 rs2 s

/-- `mulh` (44_muldiv.md R203). -/
def execMulh (rd rs1 rs2 : XReg) (s : State) : Result :=
  opRR Alu.mulh rd rs1 rs2 s

/-- `mulhsu` (44_muldiv.md R204). -/
def execMulhsu (rd rs1 rs2 : XReg) (s : State) : Result :=
  opRR Alu.mulhsu rd rs1 rs2 s

/-- `mulhu` (44_muldiv.md R205). -/
def execMulhu (rd rs1 rs2 : XReg) (s : State) : Result :=
  opRR Alu.mulhu rd rs1 rs2 s

/-- `div` (44_muldiv.md R206). -/
def execDiv (rd rs1 rs2 : XReg) (s : State) : Result :=
  opRR Alu.div rd rs1 rs2 s

/-- `divu` (44_muldiv.md R207). -/
def execDivu (rd rs1 rs2 : XReg) (s : State) : Result :=
  opRR Alu.divu rd rs1 rs2 s

/-- `rem` (44_muldiv.md R208). -/
def execRem (rd rs1 rs2 : XReg) (s : State) : Result :=
  opRR Alu.rem rd rs1 rs2 s

/-- `remu` (44_muldiv.md R209). -/
def execRemu (rd rs1 rs2 : XReg) (s : State) : Result :=
  opRR Alu.remu rd rs1 rs2 s

/-- `mulw` (44_muldiv.md R210). -/
def execMulw (rd rs1 rs2 : XReg) (s : State) : Result :=
  opRRW Alu.mul (.mulw rd rs1 rs2) rd rs1 rs2 s

/-- `divw` (44_muldiv.md R211). -/
def execDivw (rd rs1 rs2 : XReg) (s : State) : Result :=
  opRRW Alu.div (.divw rd rs1 rs2) rd rs1 rs2 s

/-- `divuw` (44_muldiv.md R212). -/
def execDivuw (rd rs1 rs2 : XReg) (s : State) : Result :=
  opRRW Alu.divu (.divuw rd rs1 rs2) rd rs1 rs2 s

/-- `remw` (44_muldiv.md R213). -/
def execRemw (rd rs1 rs2 : XReg) (s : State) : Result :=
  opRRW Alu.rem (.remw rd rs1 rs2) rd rs1 rs2 s

/-- `remuw` (44_muldiv.md R214). -/
def execRemuw (rd rs1 rs2 : XReg) (s : State) : Result :=
  opRRW Alu.remu (.remuw rd rs1 rs2) rd rs1 rs2 s

end Sys2Proof.Machine
end

