-- ==== Sys2Proof/Machine/System.lean ====
section
/-! DEFINITION. CSR access, environment call and breakpoint (45_system.md). -/

namespace Sys2Proof.Machine

/-- ecall (45_system.md R222): an exit service completes in EXITED with its code; any other number waits in SERVICE, with
no commit (10_state.md R48). -/
def environmentCall (s : State) : Result :=
  let n := s.readX 17
  if n.toNat ∈ s.cfg.exitServices then
    .next { s.advance with ctl := .exited, exitCode := some (if n = 93 then s.readX 10 else 0) }
  else .next { s with ctl := .service, svc := some ⟨s.readPc, n⟩ }

/-- `ecall` (45_system.md R222). -/
def execEcall (s : State) : Result :=
  environmentCall s

/-- `ebreak` (45_system.md R223). -/
def execEbreak (s : State) : Result :=
  .next { s.advance with ctl := .breakpoint, bpSkip := false }

/-- `csrrw` (45_system.md R224). -/
def execCsrrw (rd : XReg) (csr : BitVec 12) (rs1 : XReg) (s : State) : Result :=
  csrAccess (.csrrw rd csr rs1) rd csr true (fun _ => s.readX rs1) s

/-- `csrrs` (45_system.md R225). -/
def execCsrrs (rd : XReg) (csr : BitVec 12) (rs1 : XReg) (s : State) : Result :=
  csrAccess (.csrrs rd csr rs1) rd csr (rs1 != 0) (fun old => old ||| s.readX rs1) s

/-- `csrrc` (45_system.md R226). -/
def execCsrrc (rd : XReg) (csr : BitVec 12) (rs1 : XReg) (s : State) : Result :=
  csrAccess (.csrrc rd csr rs1) rd csr (rs1 != 0) (fun old => old &&& ~~~(s.readX rs1)) s

/-- `csrrwi` (45_system.md R227). -/
def execCsrrwi (rd : XReg) (csr : BitVec 12) (uimm : BitVec 5) (s : State) : Result :=
  csrAccess (.csrrwi rd csr uimm) rd csr true (fun _ => s.uimm5 uimm) s

/-- `csrrsi` (45_system.md R228). -/
def execCsrrsi (rd : XReg) (csr : BitVec 12) (uimm : BitVec 5) (s : State) : Result :=
  csrAccess (.csrrsi rd csr uimm) rd csr (uimm != 0) (fun old => old ||| s.uimm5 uimm) s

/-- `csrrci` (45_system.md R229). -/
def execCsrrci (rd : XReg) (csr : BitVec 12) (uimm : BitVec 5) (s : State) : Result :=
  csrAccess (.csrrci rd csr uimm) rd csr (uimm != 0) (fun old => old &&& ~~~(s.uimm5 uimm)) s

end Sys2Proof.Machine
end

