-- ==== Sys2Proof/Machine/Engine.lean ====
section
/-! DEFINITION. The execution-control state machine's own transitions (10_state.md R53 to R56). -/

namespace Sys2Proof.Machine

/-- The word at the pc, where its four bytes lie in one text-kind segment (10_state.md R54; 20_memory.md R71). -/
def State.fetchWord (s : State) : Option InstrWord :=
  match segOf s.cfg s.readPc.toNat 4 with
  | some g => if g.kind = .text then some ((s.mem.load s.readPc.toNat 4).setWidth 32) else none
  | none => none

/-- The verdicts Illegal and NoInstance: CLIFF at TEXT_END, an illegal-instruction fault elsewhere (10_state.md R54). -/
def noInstruction (w : Option InstrWord) (s : State) : Result :=
  if s.readPc = s.xlen.trunc s.cfg.textEnd then .next { s with ctl := .cliff }
  else takeFault ⟨.illegalInstruction, s.readPc, w, some s.readPc, none⟩ s

/-- Execute one instruction at the pc (10_state.md R54). -/
def executeAtPc (s : State) : Result :=
  if aligned4 s.readPc then
    match s.fetchWord with
    | none => noInstruction none s
    | some w =>
      match lookup s.xlen w with
      | .descriptor i => exec i s
      | .reserved _ => takeFault ⟨.reservedInstruction, s.readPc, some w, some s.readPc, none⟩ s
      | .illegal => noInstruction (some w) s
  else takeFault ⟨.addressAlignment, s.readPc, none, some s.readPc, some .fetch⟩ s

/-- One iteration in RUNNING: the first that applies of budget, cancellation, breakpoint, execution (10_state.md R53). -/
def iterate (s : State) : Result :=
  if 0 < s.budget ∧ s.budget ≤ s.steps then .next { s with ctl := .maxSteps }
  else if s.cancel then .next { s with ctl := .cancelled }
  else if s.readPc ∈ s.bp ∧ s.bpSkip = false then .next { s with ctl := .breakpoint, bpSkip := true }
  else executeAtPc { s with bpSkip := false }

/-- The block's own transition: an iteration in RUNNING, nothing elsewhere (10_state.md R48, 60_exceptions.md R358). -/
def tick (s : State) : Result :=
  match s.ctl with
  | .running => iterate s
  | .ready | .service | .breakpoint | .maxSteps | .cancelled | .cliff | .exited | .faulted => .next s

end Sys2Proof.Machine
end

