-- ==== Sys2Proof/Machine/Boot.lean ====
section
/-! DEFINITION. Reset and its boot requirements (70_reset_and_hazards.md R370 to R375). -/

namespace Sys2Proof.Machine

/-- Two segments share no address. -/
def segmentsApart (g h : Segment) : Bool := decide (g.top < h.base) || decide (h.top < g.base)

/-- SEGMENTS: `base <= top`, XLEN-bit addresses, no overlap (20_memory.md R75, 70_reset_and_hazards.md R374 (b)). -/
def segmentsAccepted (x : XLen) : List Segment → Bool
  | [] => true
  | g :: gs => decide (g.base ≤ g.top) && decide (g.top < 2 ^ x.bits) && gs.all (segmentsApart g) && segmentsAccepted x gs

/-- A value that fits in XLEN bits. -/
def fits (x : XLen) (v : Word) : Bool := x.trunc v == v

/-- The boot requirements (a) to (e) of 70_reset_and_hazards.md R374; (f) holds by the type of XLEN (log 12). -/
def configAccepted (cfg : Config) : Bool :=
  tableConstructs catalog && segmentsAccepted cfg.xlen cfg.segments &&
  cfg.image.all (fun c => (segOf cfg c.1 1).isSome) &&
  cfg.xInit[0] == 0 && cfg.xInit.toList.all (fits cfg.xlen) &&
  fits cfg.xlen cfg.pcInit && fits cfg.xlen cfg.textEnd && aligned4 cfg.pcInit && aligned4 cfg.textEnd

/-- The state after an accepted reset: the reset state of the configuration, in the environment there is; the host's later
events, the level of `cancel` and the draws still to come are not the block's (70_reset_and_hazards.md R370, R372). -/
def State.resetTo (s : State) (cfg : Config) : State :=
  { State.ofConfig cfg with draws := s.draws, cancel := s.cancel, host := s.host }

/-- `reset(cfg)` and `reset()`: refused for a configuration that fails its requirements (70_reset_and_hazards.md R370). -/
def State.doReset (s : State) (cfg : Option Config) : State :=
  let c := cfg.getD s.cfg
  if configAccepted c then { s.resetTo c with reply := some .accepted } else { s with reply := some .configRejected }

/-- A program of one word loaded at the pc from outside the machine, and the host's `step()`: the word stands in memory,
TEXT_END is the address past it (70_reset_and_hazards.md R374 (h)), no host event or cancellation intervenes, and the
control registers are those of an accepted `step()` (10_state.md R52; log 8). The pc must lie in a text-kind segment, as it
does after reset. -/
def State.loadWordAndStep (s : State) (w : Nat) : State :=
  { s with
    mem := s.mem.store s.readPc.toNat (.ofNat 64 w) 4
    cfg := { s.cfg with textEnd := s.xlen.trunc (s.readPc + ilenBytes) }
    ctl := .running
    steps := 0
    budget := 1
    bpSkip := true
    fault := none
    exitCode := none
    svc := none
    cancel := false
    host := [] }

end Sys2Proof.Machine
end

