-- ==== Sys2Proof/Machine/HostPort.lean ====
section
/-! DEFINITION. The host's side: commands, the service port and the inspection port (10_state.md R23, R40, R48 to R52,
60_exceptions.md R359). -/

namespace Sys2Proof.Machine

/-- The code of a control state (10_state.md R45). -/
def Ctl.code : Ctl → BitVec 4
  | .ready => 0
  | .running => 1
  | .service => 2
  | .breakpoint => 3
  | .maxSteps => 4
  | .cancelled => 5
  | .cliff => 6
  | .exited => 7
  | .faulted => 8

/-- The code of a fault category (60_exceptions.md R340). -/
def Cause.code : Cause → BitVec 3
  | .illegalInstruction => 0
  | .reservedInstruction => 1
  | .addressAlignment => 2
  | .addressOutOfRange => 3
  | .writeProtection => 4
  | .arithmetic => 5

/-- The states that accept `run()` and `step()` (10_state.md R50). -/
def Ctl.acceptsCall : Ctl → Bool
  | .ready | .breakpoint | .maxSteps | .cancelled => true
  | .running | .service | .cliff | .exited | .faulted => false

/-- The states in which a call has returned, its terminal reasons (10_state.md R55). -/
def Ctl.terminal : Ctl → Bool
  | .breakpoint | .maxSteps | .cancelled | .cliff | .exited | .faulted => true
  | .ready | .running | .service => false

/-- What a call that has returned reports: the reason, with the fault record or the exit code where there is one
(60_exceptions.md R359); none before that. DESIGN CHOICE: none too for a call that a reset in SERVICE ends, since no rule names what
it returns (log 20). -/
def State.report (s : State) : Option (Ctl × Option FaultRecord × Option Word) :=
  if s.ctl.terminal then some (s.ctl, s.fault, s.exitCode) else none

/-- Answer the host. -/
def State.answer (s : State) (r : HostReply) : State := { s with reply := some r }

/-- A command that this state does not accept: nothing changes, and the state is the answer (10_state.md R50). -/
def State.refuse (s : State) : State := s.answer (.refused s.ctl)

/-- `run()` (10_state.md R51). -/
def State.doRun (s : State) : State :=
  if s.ctl.acceptsCall then
    { s with steps := 0, budget := s.cfg.maxSteps, ctl := .running, reply := some .accepted }
  else s.refuse

/-- `step()` (10_state.md R52). -/
def State.doStep (s : State) : State :=
  if s.ctl.acceptsCall then
    { s with steps := 0, budget := 1, bpSkip := true, ctl := .running, reply := some .accepted }
  else s.refuse

/-- Do it in every state but RUNNING (10_state.md R50). -/
def State.unlessRunning (s : State) (go : State) : State := if s.ctl = .running then s.refuse else go

/-- Do it in SERVICE only (10_state.md R48). -/
def State.inService (s : State) (go : State) : State := if s.ctl = .service then go else s.refuse

/-- Read in every state but RUNNING, else Busy (10_state.md R49). -/
def State.inspect (s : State) (r : HostReply) : State := s.answer (if s.ctl = .running then .busy else r)

/-! Names (10_state.md R23, R25, R32). -/

/-- The names of the integer registers; the position is the index. `fp` is a second name of x8. -/
def intAbiNames : List String :=
  ["zero", "ra", "sp", "gp", "tp", "t0", "t1", "t2", "s0", "s1", "a0", "a1", "a2", "a3", "a4", "a5"] ++
  ["a6", "a7", "s2", "s3", "s4", "s5", "s6", "s7", "s8", "s9", "s10", "s11", "t3", "t4", "t5", "t6"]

def intNumericNames : List String :=
  ["x0", "x1", "x2", "x3", "x4", "x5", "x6", "x7", "x8", "x9", "x10", "x11", "x12", "x13", "x14", "x15"] ++
  ["x16", "x17", "x18", "x19", "x20", "x21", "x22", "x23", "x24", "x25", "x26", "x27", "x28", "x29", "x30", "x31"]

/-- The names of the FP registers; the position is the index. -/
def fpAbiNames : List String :=
  ["ft0", "ft1", "ft2", "ft3", "ft4", "ft5", "ft6", "ft7", "fs0", "fs1", "fa0", "fa1", "fa2", "fa3", "fa4", "fa5"] ++
  ["fa6", "fa7", "fs2", "fs3", "fs4", "fs5", "fs6", "fs7", "fs8", "fs9", "fs10", "fs11", "ft8", "ft9", "ft10", "ft11"]

def fpNumericNames : List String :=
  ["f0", "f1", "f2", "f3", "f4", "f5", "f6", "f7", "f8", "f9", "f10", "f11", "f12", "f13", "f14", "f15"] ++
  ["f16", "f17", "f18", "f19", "f20", "f21", "f22", "f23", "f24", "f25", "f26", "f27", "f28", "f29", "f30", "f31"]

/-- The position of a name in a list of names. -/
def indexOf (name : String) (names : List String) : Option (BitVec 5) :=
  (names.findIdx? (fun n => n == name)).map (fun i => .ofNat 5 i)

/-- The integer register of a name (10_state.md R23). -/
def xRegOfName (name : String) : Option XReg :=
  if name == "fp" then some 8 else (indexOf name intAbiNames).or (indexOf name intNumericNames)

/-- The FP register of a name (10_state.md R25; the numeric names are those of the assembler, 30_encoding.md R123). -/
def fRegOfName (name : String) : Option FReg := (indexOf name fpAbiNames).or (indexOf name fpNumericNames)

/-- The address of a CSR name (10_state.md R32). -/
def csrAddrOfName (name : String) : Option (BitVec 12) :=
  if name == "fflags" then some 0x001
  else if name == "frm" then some 0x002
  else if name == "fcsr" then some 0x003
  else if name == "cycle" then some 0xC00
  else if name == "time" then some 0xC01
  else if name == "instret" then some 0xC02
  else if name == "cycleh" then some 0xC80
  else if name == "timeh" then some 0xC81
  else if name == "instreth" then some 0xC82
  else none

/-- A register's value by name, or NotFound (10_state.md R23, R25, R40). -/
def State.namedRegister (s : State) (name : String) : HostReply :=
  match xRegOfName name with
  | some r => .value (s.readX r)
  | none =>
    match fRegOfName name with
    | some r => .value64 (s.readF r)
    | none => .notFound

/-- The host's CSR lookup; a drawn CSR takes a fresh draw (10_state.md R40). -/
def State.inspectCsrAt (s : State) (addr : Option (BitVec 12)) : State :=
  match addr.bind (Csr.ofAddr s.xlen) with
  | none => s.inspect .notFound
  | some c => if s.ctl = .running then s.answer .busy else (s.afterCsrRead c).answer (.value (s.readCsr c))

/-- Memory through the normal accessors: a failed check is the answer, not a fault (20_memory.md R73). -/
def State.inspectedMem (s : State) (a : Word) (sz : MemSize) : HostReply :=
  match s.memRead (s.xlen.trunc a) sz with
  | .error e => .memCondition e.cause e.addr
  | .ok v => .value64 v

/-- All four bytes at an address are Unwritten. -/
def Memory.wordUnwritten (m : Memory) (a : Nat) : Bool :=
  (m.byte? a).isNone && (m.byte? (a + 1)).isNone && (m.byte? (a + 2)).isNone && (m.byte? (a + 3)).isNone

/-- The raw probe of a word (20_memory.md R74). -/
def State.probed (s : State) (a : Word) : HostReply :=
  match s.memRead (s.xlen.trunc a) .word with
  | .error e => .memCondition e.cause e.addr
  | .ok v => if s.mem.wordUnwritten (s.xlen.trunc a).toNat then .uninitialized else .value64 v

/-! The service port (10_state.md R48). -/

/-- A host write of an integer register other than x0. -/
def State.serviceWriteX (s : State) (r : XReg) (v : Word) : State :=
  s.inService (if r = 0 then s.refuse else (s.writeX r v).answer .accepted)

/-- A host write of an FP register. -/
def State.serviceWriteF (s : State) (r : FReg) (v : BitVec 64) : State :=
  s.inService ((s.writeF r v).answer .accepted)

/-- A host write of a byte inside a data-kind segment, without the checks of 20_memory.md. -/
def State.serviceWriteByte (s : State) (a : Word) (b : Byte) : State :=
  s.inService
    (match segOf s.cfg (s.xlen.trunc a).toNat 1 with
      | some g =>
        if g.kind = .data then ({ s with mem := s.mem.write (s.xlen.trunc a).toNat b }).answer .accepted else s.refuse
      | none => s.refuse)

/-- The reply `Done`: the ecall commits and the call goes on. -/
def State.serviceDone (s : State) : State :=
  s.inService { s.advance with svc := none, ctl := .running, reply := some .accepted }

/-- The reply `Terminate(code)`: the ecall commits and the program has exited. -/
def State.serviceTerminate (s : State) (code : Word) : State :=
  s.inService
    { s.advance with svc := none, exitCode := some (s.xlen.trunc code), ctl := .exited, reply := some .accepted }

/-- One host command (10_state.md R48 to R52). -/
def State.onCommand (s : State) : HostCommand → State
  | .run => s.doRun
  | .step => s.doStep
  | .reset cfg => s.unlessRunning (s.doReset cfg)
  | .setBreakpoints addrs => s.unlessRunning { s with bp := addrs, reply := some .accepted }
  | .inspectX r => s.inspect (.value (s.readX r))
  | .inspectF r => s.inspect (.value64 (s.readF r))
  | .inspectName name => s.inspect (s.namedRegister name)
  | .inspectPc => s.inspect (.value s.readPc)
  | .inspectCsr number => s.inspectCsrAt (some number)
  | .inspectCsrName name => s.inspectCsrAt (csrAddrOfName name)
  | .inspectState => s.inspect (.state s.ctl)
  | .inspectFault => s.inspect (.fault s.fault)
  | .inspectExitCode => s.inspect (.exitCode s.exitCode)
  | .inspectInstret => s.inspect (.value64 s.instret)
  | .inspectMem a sz => s.inspect (s.inspectedMem a sz)
  | .probe a => s.inspect (s.probed a)
  | .serviceWriteX r v => s.serviceWriteX r v
  | .serviceWriteF r v => s.serviceWriteF r v
  | .serviceWriteByte a b => s.serviceWriteByte a b
  | .serviceDone => s.serviceDone
  | .serviceTerminate code => s.serviceTerminate code

end Sys2Proof.Machine
end

