-- ==== Sys2Proof/Machine/Transition.lean ====
section
/-! DEFINITION. One transition of the whole: the environment's next event, or the block's own transition (00_scope.md R7, R8). -/

namespace Sys2Proof.Machine

/-- One event of the environment on the state without it (log 5). -/
def onEvent (e : HostEvent) (s : State) : Result :=
  match e with
  | .wait => tick s
  | .driveCancel level => .next { s with cancel := level }
  | .command c => .next (s.onCommand c)

/-- One transition: the first event of the list, or, where the host does nothing more, the block's own transition. -/
def transition (s : State) : Result :=
  match s.host with
  | [] => tick s
  | e :: rest => onEvent e { s with host := rest }

end Sys2Proof.Machine
end

