-- ==== Sys2Proof/Machine/Step.lean ====
section
/-! DEFINITION. The machine's step. -/

namespace Sys2Proof.Machine

/-- One transition of the block (00_scope.md R8). -/
def step (s : State) : Host.Outcome State Fault Refusal := transition s

/-- s with a program of one word loaded at the pc and the host's `step()` accepted: the very next step fetches and runs that
word (log 8). Every instruction is 32 bits wide, so the bit count is not consulted. -/
def State.withFetchWord (s : State) (_nbits w : Nat) : State := s.loadWordAndStep w

end Sys2Proof.Machine
end

