-- ==== Sys2Proof/Safety.lean ====
section
/-! DEFINITION. What holds between instructions (10_state.md R57) and which states are safe. -/

namespace Sys2Proof

open Machine

/-- The block's invariants between instructions (10_state.md R57), with the widths of its registers (R21, R41), the boot
requirements of its configuration (70_reset_and_hazards.md R374) and the canonical form of its memory. -/
structure Inv (s : State) : Prop where
  /-- 70_reset_and_hazards.md R374 -/
  config : configAccepted s.cfg = true
  /-- 10_state.md R22 -/
  x0 : s.x[0] = 0
  /-- 10_state.md R21 -/
  xWidth : ∀ k : Fin 32, fits s.xlen s.x[k] = true
  /-- 10_state.md R41 -/
  pcWidth : fits s.xlen s.pc = true
  /-- 10_state.md R41 -/
  pcAligned : aligned4 s.pc = true
  /-- the storage is a map (20_memory.md R71) -/
  memWf : s.mem.wf = true
  /-- FAULTED exactly when there is a record -/
  faulted : s.ctl = .faulted ↔ s.fault ≠ none
  /-- EXITED exactly when there is a code -/
  exited : s.ctl = .exited ↔ s.exitCode ≠ none
  /-- SERVICE exactly when a request is pending -/
  service : s.ctl = .service ↔ s.svc ≠ none
  /-- in FAULTED the pc is the faulting instruction's -/
  faultPc : ∀ r, s.fault = some r → r.pc = s.pc

/-- A state from which the program can still go on: not a final state of the session (10_state.md R56). -/
def live (s : State) : Bool :=
  match s.ctl with
  | .cliff | .exited | .faulted => false
  | .ready | .running | .service | .breakpoint | .maxSteps | .cancelled => true

/-- A safe run ends in no fault: no state of it is FAULTED (60_exceptions.md R343, R344). -/
def safe (s : State) : Bool := s.fault.isNone

end Sys2Proof
end

