-- ==== Sys2Proof/Claims.lean ====
section
/-! DEFINITION. The words in which the statements about the machine are written: values as integers and reals, frames, kinds
of instructions, and correct rounding. Nothing in the machine uses them. -/

namespace Sys2Proof

open Machine

/-! Register values as integers (00_scope.md R9). -/

/-- `u(x[r])`: the register as an unsigned integer. -/
def uval (s : State) (r : XReg) : Int := (s.readX r).toNat

/-- `s(x[r])`: the register as a two's-complement integer of XLEN bits. -/
def sval (s : State) (r : XReg) : Int := (uval s r).bmod (2 ^ s.xlen.bits)

/-- The low 32 bits of the register as a two's-complement integer. -/
def sval32 (s : State) (r : XReg) : Int := (uval s r).bmod (2 ^ 32)

/-- The low 32 bits of the register as an unsigned integer. -/
def uval32 (s : State) (r : XReg) : Int := uval s r % 2 ^ 32

/-- The pc as an unsigned integer. -/
def pcval (s : State) : Int := s.readPc.toNat

/-- An integer as an unsigned XLEN-bit number. -/
def wrap (s : State) (v : Int) : Int := v % 2 ^ s.xlen.bits

/-- The n bytes at a as a little-endian number (20_memory.md R71). -/
def leValue (m : Memory) (a : Nat) : Nat → Nat
  | 0 => 0
  | n + 1 => (m.byte a).toNat + 256 * leValue m (a + 1) n

/-! Frames. -/

/-- What no completing instruction but ecall and ebreak changes: the configuration, the control state and the host's side. -/
structure SameControl (s t : State) : Prop where
  cfg      : t.cfg = s.cfg
  ctl      : t.ctl = s.ctl
  budget   : t.budget = s.budget
  bpSkip   : t.bpSkip = s.bpSkip
  bp       : t.bp = s.bp
  fault    : t.fault = s.fault
  exitCode : t.exitCode = s.exitCode
  svc      : t.svc = s.svc
  cancel   : t.cancel = s.cancel
  host     : t.host = s.host
  reply    : t.reply = s.reply

/-- The instruction completed: the pc is `pc'`, and it has been counted once (10_state.md R36, R42, R47). -/
structure Committed (s t : State) (pc' : Int) : Prop where
  pc      : pcval t = pc'
  steps   : t.steps = s.steps + 1
  instret : t.instret = s.instret + 1

/-- Every byte of memory is as it was, Unwritten ones included. -/
def SameMemory (s t : State) : Prop := ∀ a, t.mem.byte? a = s.mem.byte? a

/-- Every integer register is as it was. -/
def SameX (s t : State) : Prop := ∀ r, t.readX r = s.readX r

/-- Every integer register but rd is as it was, and x0 is 0. -/
def SameXBut (rd : XReg) (s t : State) : Prop := t.readX 0 = 0 ∧ ∀ r, r ≠ rd → t.readX r = s.readX r

/-- Every FP register is as it was. -/
def SameF (s t : State) : Prop := ∀ r, t.readF r = s.readF r

/-- Every FP register but rd is as it was. -/
def SameFBut (rd : FReg) (s t : State) : Prop := ∀ r, r ≠ rd → t.readF r = s.readF r

/-- t is s after an instruction that falls through, gives the integer register rd the value v modulo 2^XLEN (nothing where
rd is x0) and raises the flags e; all else is as it was. -/
structure XResult (s t : State) (rd : XReg) (v : Int) (e : FFlags) : Prop where
  value     : rd ≠ 0 → uval t rd = wrap s v
  others    : SameXBut rd s t
  sameF     : SameF s t
  frm       : t.frm = s.frm
  fflags    : t.fflags = s.fflags ||| e
  memory    : SameMemory s t
  draws     : t.draws = s.draws
  committed : Committed s t (wrap s (pcval s + 4))
  control   : SameControl s t

/-- t is s after an instruction that falls through, gives the FP register rd the 64 bits v and raises the flags e; all else
is as it was. -/
structure FResult (s t : State) (rd : FReg) (v : BitVec 64) (e : FFlags) : Prop where
  value     : t.readF rd = v
  others    : SameFBut rd s t
  sameX     : SameX s t
  frm       : t.frm = s.frm
  fflags    : t.fflags = s.fflags ||| e
  memory    : SameMemory s t
  draws     : t.draws = s.draws
  committed : Committed s t (wrap s (pcval s + 4))
  control   : SameControl s t

/-- t is s after an instruction that falls through and stores the low n bytes of v at the address a, least significant
first; all else is as it was. -/
structure StoreResult (s t : State) (a n v : Nat) : Prop where
  stored    : ∀ k, k < n → t.mem.byte? (a + k) = some (.ofNat 8 (v / 256 ^ k % 256))
  memory    : ∀ p, p < a ∨ a + n ≤ p → t.mem.byte? p = s.mem.byte? p
  sameX     : SameX s t
  sameF     : SameF s t
  latch     : t.frm = s.frm ∧ t.fflags = s.fflags
  draws     : t.draws = s.draws
  committed : Committed s t (wrap s (pcval s + 4))
  control   : SameControl s t

/-- t is s with the pc at pc' and the instruction counted; all else is as it was. -/
structure OnlyPc (s t : State) (pc' : Int) : Prop where
  sameX     : SameX s t
  sameF     : SameF s t
  latch     : t.frm = s.frm ∧ t.fflags = s.fflags
  memory    : SameMemory s t
  draws     : t.draws = s.draws
  committed : Committed s t pc'
  control   : SameControl s t

/-- t is s after a jump to pc' that gives rd the return address `pc + 4` (nothing where rd is x0); all else is as it was. -/
structure LinkResult (s t : State) (rd : XReg) (pc' : Int) : Prop where
  value     : rd ≠ 0 → uval t rd = wrap s (pcval s + 4)
  others    : SameXBut rd s t
  sameF     : SameF s t
  latch     : t.frm = s.frm ∧ t.fflags = s.fflags
  memory    : SameMemory s t
  draws     : t.draws = s.draws
  committed : Committed s t pc'
  control   : SameControl s t

/-- t is s after an instruction that falls through, gives rd the value old (nothing where rd is x0), leaves this latch and has
taken the draws before this count; all else is as it was. -/
structure CsrResult (s t : State) (rd : XReg) (old : Word) (frm : BitVec 3) (fflags : FFlags) (draws : Nat) : Prop where
  value     : rd ≠ 0 → t.readX rd = old
  others    : SameXBut rd s t
  sameF     : SameF s t
  frm       : t.frm = frm
  fflags    : t.fflags = fflags
  memory    : SameMemory s t
  draws     : t.draws = draws
  committed : Committed s t (wrap s (pcval s + 4))
  control   : SameControl s t

/-- The single-precision result r stands NaN-boxed in rd, its flags raised (10_state.md R26, 46_float_single.md R260). -/
def SingleResult (s t : State) (rd : FReg) (r : FpResult) : Prop := FResult s t rd (box (.ofNat 32 r.bits)) r.flags

/-- The double-precision result r stands in rd, its flags raised (10_state.md R27, 46_float_single.md R260). -/
def DoubleResult (s t : State) (rd : FReg) (r : FpResult) : Prop := FResult s t rd (.ofNat 64 r.bits) r.flags

/-- The comparison result r stands in rd as 1 or 0, its flags raised (46_float_single.md R255, R261). -/
def TruthResult (s t : State) (rd : XReg) (r : CmpResult) : Prop := XResult s t rd (if r.holds then 1 else 0) r.flags

/-- The result r of a conversion to w or wu stands in rd, sign-extended from 32 bits, its flags raised
(46_float_single.md R257, R260). -/
def WordResult (s t : State) (rd : XReg) (r : CvtResult) : Prop := XResult s t rd (r.value.bmod (2 ^ 32)) r.flags

/-- The result r of a conversion to l or lu stands in rd, its flags raised (46_float_single.md R257, R260). -/
def LongResult (s t : State) (rd : XReg) (r : CvtResult) : Prop := XResult s t rd r.value r.flags

/-! Memory accesses (20_memory.md R76 to R81). -/

/-- A segment holds the n bytes at a. -/
def Holds (g : Segment) (a n : Nat) : Prop := g.base ≤ a ∧ a + n ≤ g.top + 1

/-- One segment holds the n bytes at a. -/
def Mapped (cfg : Config) (a n : Nat) : Prop := ∃ g ∈ cfg.segments, Holds g a n

/-- One segment holds the n bytes at a, and a store may write there. -/
def Writable (cfg : Config) (a n : Nat) : Prop := ∃ g ∈ cfg.segments, Holds g a n ∧ (g.kind = .text → cfg.smc = true)

/-- A load of this width at a completes: aligned and mapped, a doubleword as two words. -/
def Loads (cfg : Config) (a : Nat) : MemSize → Prop
  | .byte => Mapped cfg a 1
  | .half => a % 2 = 0 ∧ Mapped cfg a 2
  | .word => a % 4 = 0 ∧ Mapped cfg a 4
  | .dword => a % 8 = 0 ∧ Mapped cfg a 4 ∧ Mapped cfg (a + 4) 4

/-- A store of this width at a completes: aligned, mapped and not write-protected, a doubleword as two words. -/
def Stores (cfg : Config) (a : Nat) : MemSize → Prop
  | .byte => Writable cfg a 1
  | .half => a % 2 = 0 ∧ Writable cfg a 2
  | .word => a % 4 = 0 ∧ Writable cfg a 4
  | .dword => a % 8 = 0 ∧ Writable cfg a 4 ∧ Writable cfg (a + 4) 4

/-- The text-kind segments hold this byte. -/
def IsText (cfg : Config) (a : Nat) : Prop := ∃ g ∈ cfg.segments, g.kind = .text ∧ Holds g a 1

/-- t is s in FAULTED with this record, and nothing else changed (60_exceptions.md R343). -/
def Faults (s t : State) (r : FaultRecord) : Prop := t = { s with ctl := .faulted, fault := some r }

/-! The running machine (10_state.md R53). -/

/-- The host lets the block take its own transition. -/
def HostIdle (s : State) : Prop := s.host = [] ∨ ∃ rest, s.host = .wait :: rest

/-- The next transition attempts an instruction: the block runs, the host is idle, and neither the budget, nor cancellation,
nor a breakpoint stops it (10_state.md R53). -/
structure Attempts (s : State) : Prop where
  running    : s.ctl = .running
  idle       : HostIdle s
  budget     : ¬ (0 < s.budget ∧ s.budget ≤ s.steps)
  cancel     : s.cancel = false
  breakpoint : s.readPc ∈ s.bp → s.bpSkip = true

/-- The state an attempted instruction starts from: `bp_skip` is cleared, and the host's event is taken off the list. -/
def begun (s : State) : State := { s with bpSkip := false, host := s.host.tail }

/-- The word whose four bytes stand at the pc (10_state.md R54, 20_memory.md R71). -/
def wordAtPc (s : State) : InstrWord :=
  wordOfBytes (s.mem.byte s.readPc.toNat) (s.mem.byte (s.readPc.toNat + 1)) (s.mem.byte (s.readPc.toNat + 2))
    (s.mem.byte (s.readPc.toNat + 3))

/-- The four bytes at the pc lie in one text-kind segment (10_state.md R54). -/
def InText (s : State) : Prop := ∃ g ∈ s.cfg.segments, g.kind = .text ∧ Holds g s.readPc.toNat 4

/-- The next event of the host is no reset. -/
def NoReset (s : State) : Prop := ∀ c rest, s.host ≠ .command (.reset c) :: rest

/-! Kinds of instructions, by the faults they may raise (60_exceptions.md R342). -/

/-- The columns of 60_exceptions.md R342. -/
inductive Kind where
  /-- a control transfer -/
  | transfer
  /-- a load, integer or FP -/
  | load
  /-- a store, integer or FP -/
  | store
  /-- a CSR instruction -/
  | csr
  /-- an FP instruction with an rm field -/
  | rounding
  /-- any other instruction: it raises no fault of its own -/
  | plain
  deriving DecidableEq, Repr

/-- The kind of an instruction. -/
def Instr.kind : Instr → Kind
  | .jal .. | .jalr .. | .beq .. | .bne .. | .blt .. | .bge .. | .bltu .. | .bgeu .. => .transfer
  | .lb .. | .lh .. | .lw .. | .lbu .. | .lhu .. | .lwu .. | .ld .. | .flw .. | .fld .. => .load
  | .sb .. | .sh .. | .sw .. | .sd .. | .fsw .. | .fsd .. => .store
  | .csrrw .. | .csrrs .. | .csrrc .. | .csrrwi .. | .csrrsi .. | .csrrci .. => .csr
  | .fmaddS .. | .fmsubS .. | .fnmsubS .. | .fnmaddS .. | .faddS .. | .fsubS .. | .fmulS .. | .fdivS .. | .fsqrtS ..
  | .fcvtWS .. | .fcvtWuS .. | .fcvtLS .. | .fcvtLuS .. | .fcvtSW .. | .fcvtSWu .. | .fcvtSL .. | .fcvtSLu ..
  | .fmaddD .. | .fmsubD .. | .fnmsubD .. | .fnmaddD .. | .faddD .. | .fsubD .. | .fmulD .. | .fdivD .. | .fsqrtD ..
  | .fcvtWD .. | .fcvtWuD .. | .fcvtLD .. | .fcvtLuD .. | .fcvtDW .. | .fcvtDWu .. | .fcvtDL .. | .fcvtDLu ..
  | .fcvtSD .. | .fcvtDS .. => .rounding
  | .lui .. | .auipc .. | .addi .. | .slti .. | .sltiu .. | .xori .. | .ori .. | .andi ..
  | .slli .. | .srli .. | .srai .. | .slliHi .. | .srliHi .. | .sraiHi ..
  | .add .. | .sub .. | .sll .. | .slt .. | .sltu .. | .xor .. | .srl .. | .sra .. | .or .. | .and ..
  | .fence .. | .fenceI | .ecall | .ebreak
  | .addiw .. | .slliw .. | .srliw .. | .sraiw .. | .addw .. | .subw .. | .sllw .. | .srlw .. | .sraw ..
  | .mul .. | .mulh .. | .mulhsu .. | .mulhu .. | .div .. | .divu .. | .rem .. | .remu ..
  | .mulw .. | .divw .. | .divuw .. | .remw .. | .remuw ..
  | .fsgnjS .. | .fsgnjnS .. | .fsgnjxS .. | .fminS .. | .fmaxS .. | .feqS .. | .fltS .. | .fleS .. | .fclassS ..
  | .fmvXW .. | .fmvWX ..
  | .fsgnjD .. | .fsgnjnD .. | .fsgnjxD .. | .fminD .. | .fmaxD .. | .feqD .. | .fltD .. | .fleD .. | .fclassD ..
  | .fmvXD .. | .fmvDX .. => .plain

/-- The 64-bit-only instructions, as 30_encoding.md R106 lists them. -/
def Instr.rv64Only : Instr → Bool
  | .lwu .. | .ld .. | .sd .. | .addiw .. | .slliw .. | .srliw .. | .sraiw .. | .addw .. | .subw .. | .sllw .. | .srlw ..
  | .sraw .. | .mulw .. | .divw .. | .divuw .. | .remw .. | .remuw .. | .fcvtLS .. | .fcvtLuS .. | .fcvtSL .. | .fcvtSLu ..
  | .fcvtLD .. | .fcvtLuD .. | .fcvtDL .. | .fcvtDLu .. | .fmvXD .. | .fmvDX .. | .slliHi .. | .srliHi .. | .sraiHi .. => true
  | _ => false

/-- The rm field of an instruction that has one (46_float_single.md R243). -/
def Instr.rmField : Instr → Option (BitVec 3)
  | .fmaddS _ _ _ _ rm | .fmsubS _ _ _ _ rm | .fnmsubS _ _ _ _ rm | .fnmaddS _ _ _ _ rm
  | .faddS _ _ _ rm | .fsubS _ _ _ rm | .fmulS _ _ _ rm | .fdivS _ _ _ rm | .fsqrtS _ _ rm
  | .fcvtWS _ _ rm | .fcvtWuS _ _ rm | .fcvtLS _ _ rm | .fcvtLuS _ _ rm
  | .fcvtSW _ _ rm | .fcvtSWu _ _ rm | .fcvtSL _ _ rm | .fcvtSLu _ _ rm
  | .fmaddD _ _ _ _ rm | .fmsubD _ _ _ _ rm | .fnmsubD _ _ _ _ rm | .fnmaddD _ _ _ _ rm
  | .faddD _ _ _ rm | .fsubD _ _ _ rm | .fmulD _ _ _ rm | .fdivD _ _ _ rm | .fsqrtD _ _ rm
  | .fcvtWD _ _ rm | .fcvtWuD _ _ rm | .fcvtLD _ _ rm | .fcvtLuD _ _ rm
  | .fcvtDW _ _ rm | .fcvtDWu _ _ rm | .fcvtDL _ _ rm | .fcvtDLu _ _ rm
  | .fcvtSD _ _ rm | .fcvtDS _ _ rm => some rm
  | _ => none

/-- The memory access of a load or store: its kind, its width, its base register and its offset. -/
def Instr.access : Instr → Option (Access × MemSize × XReg × BitVec 12)
  | .lb _ rs1 imm | .lbu _ rs1 imm => some (.load, .byte, rs1, imm)
  | .lh _ rs1 imm | .lhu _ rs1 imm => some (.load, .half, rs1, imm)
  | .lw _ rs1 imm | .lwu _ rs1 imm | .flw _ rs1 imm => some (.load, .word, rs1, imm)
  | .ld _ rs1 imm | .fld _ rs1 imm => some (.load, .dword, rs1, imm)
  | .sb rs1 _ imm => some (.store, .byte, rs1, imm)
  | .sh rs1 _ imm => some (.store, .half, rs1, imm)
  | .sw rs1 _ imm | .fsw rs1 _ imm => some (.store, .word, rs1, imm)
  | .sd rs1 _ imm | .fsd rs1 _ imm => some (.store, .dword, rs1, imm)
  | _ => none

/-- The effective rounding-mode code: frm where rm is 7 (46_float_single.md R243). -/
def modeCode (s : State) (rm : BitVec 3) : BitVec 3 := if rm = 7 then s.frm else rm

/-- The causes an instruction of a kind may raise (60_exceptions.md R342). -/
def Kind.causes : Kind → List Cause
  | .transfer => [.addressAlignment]
  | .load => [.addressAlignment, .addressOutOfRange]
  | .store => [.addressAlignment, .addressOutOfRange, .writeProtection]
  | .csr => [.illegalInstruction]
  | .rounding => [.illegalInstruction]
  | .plain => []

/-! Floating point as numbers (46_float_single.md R240, R244 to R246). -/

/-- The rational number a finite value stands for; 0 for the others. -/
def Machine.FpVal.rat : FpVal → ℚ
  | .fin s m e => (if s then -1 else 1) * (m : ℚ) * (2 : ℚ) ^ e
  | .inf _ | .nan _ => 0

/-- A finite value. -/
def Machine.FpVal.isFinite : FpVal → Bool
  | .fin _ _ _ => true
  | .inf _ | .nan _ => false

/-- An infinity. -/
def Machine.FpVal.isInf : FpVal → Bool
  | .inf _ => true
  | .fin _ _ _ | .nan _ => false

/-- The order of the numbers with the two infinities; no NaN is below or above anything (46_float_single.md R255). -/
def Machine.FpVal.Less : FpVal → FpVal → Prop
  | .fin s m e, .fin s' m' e' => (FpVal.fin s m e).rat < (FpVal.fin s' m' e').rat
  | .inf s, .fin _ _ _ => s = true
  | .fin _ _ _, .inf s => s = false
  | .inf s, .inf s' => s = true ∧ s' = false
  | .nan _, _ | _, .nan _ => False

/-- Equality of numbers, -0 equal to +0; no NaN equals anything (46_float_single.md R255). -/
def Machine.FpVal.Equal : FpVal → FpVal → Prop
  | .fin s m e, .fin s' m' e' => (FpVal.fin s m e).rat = (FpVal.fin s' m' e').rat
  | .inf s, .inf s' => s = s'
  | .inf _, .fin _ _ _ | .fin _ _ _, .inf _ | .nan _, _ | _, .nan _ => False

/-- a is below b, -0 below +0 (46_float_single.md R254). -/
def Below (F : FpFormat) (a b : Nat) : Prop :=
  (F.unpack a).Less (F.unpack b) ∨ (F.unpack a).Equal (F.unpack b) ∧ F.signOf a = true ∧ F.signOf b = false

/-- The integer n is v rounded by the mode: ties to even, toward zero, down, up, ties away (46_float_single.md R244). -/
def RoundsTo : RoundMode → ℝ → Int → Prop
  | .rne, v, n => |(n : ℝ) - v| ≤ 1 / 2 ∧ (|(n : ℝ) - v| = 1 / 2 → n % 2 = 0)
  | .rtz, v, n => n = if 0 ≤ v then ⌊v⌋ else ⌈v⌉
  | .rdn, v, n => n = ⌊v⌋
  | .rup, v, n => n = ⌈v⌉
  | .rmm, v, n => |(n : ℝ) - v| ≤ 1 / 2 ∧ (|(n : ℝ) - v| = 1 / 2 → |v| < |(n : ℝ)|)

/-- k is the exponent of the last place of a number of the size of v, with the significand's full width. -/
def LastPlace (F : FpFormat) (v : ℝ) (k : Int) : Prop :=
  (2 : ℝ) ^ F.fracBits * 2 ^ k ≤ |v| ∧ |v| < 2 ^ (F.fracBits + 1) * (2 : ℝ) ^ k

/-- v is tiny after rounding: rounded with an unbounded exponent range, its magnitude is below the smallest normal
(46_float_single.md R245). -/
def TinyAfterRounding (F : FpFormat) (mode : RoundMode) (v : ℝ) : Prop :=
  ∃ (k n : Int), LastPlace F v k ∧ RoundsTo mode (v / 2 ^ k) n ∧ |(n : ℝ) * 2 ^ k| < (2 : ℝ) ^ F.minExp

/-- What an overflow delivers, by the mode and the sign of the result: an infinity or the largest finite magnitude
(46_float_single.md R246); FormatLayout gives both as bit patterns. -/
def overflowResult (F : FpFormat) (mode : RoundMode) (negative : Bool) : Nat :=
  match mode, negative with
  | .rne, _ | .rmm, _ | .rdn, true | .rup, false => F.infinity negative
  | .rtz, _ | .rdn, false | .rup, true => F.maxFinite negative

/-- What a pattern of sign s, exponent field e and fraction f stands for, in a format of w fraction bits whose exponent field
of all ones is `top`: an infinity, a NaN that is signaling where the fraction's top bit is 0, a zero or subnormal, or a normal
number (46_float_single.md R240). -/
def StandsFor (v : FpVal) (s : Bool) (e f top bias w : Nat) : Prop :=
  (e = top → f = 0 → v = .inf s) ∧
  (e = top → f ≠ 0 → v = .nan (decide (f < 2 ^ (w - 1)))) ∧
  (e ≠ top → v.isFinite = true ∧ v.rat = (if s then -1 else 1) *
    (if e = 0 then (f : ℚ) * 2 ^ (1 - (bias : Int) - w) else (1 + (f : ℚ) / 2 ^ w) * 2 ^ ((e : Int) - bias)))

/-- The result r is the nonzero real v rounded once to the format F, with its flags (46_float_single.md R244 to R246, R250):
v is rounded to a multiple n of its last place 2^k, which is never below the last place of the subnormals; past the largest
finite magnitude the overflow result of the mode and the sign is delivered. -/
def CorrectlyRounded (F : FpFormat) (mode : RoundMode) (v : ℝ) (r : FpResult) : Prop :=
  ∃ (k n : Int),
    (LastPlace F v k ∧ F.ulpExp ≤ k ∨ k = F.ulpExp ∧ |v| < 2 ^ F.fracBits * (2 : ℝ) ^ k) ∧
    RoundsTo mode (v / 2 ^ k) n ∧
    (if 2 ^ (F.bias + 1) ≤ |(n : ℝ) * 2 ^ k| then
      r.bits = overflowResult F mode (decide (v < 0)) ∧ r.flags = flagOF ||| flagNX
    else
      (F.unpack r.bits).isFinite = true ∧ ((F.unpack r.bits).rat : ℝ) = (n : ℝ) * 2 ^ k ∧ F.signOf r.bits = decide (v < 0) ∧
      ((n : ℝ) * 2 ^ k = v → r.flags = 0) ∧
      ((n : ℝ) * 2 ^ k ≠ v → TinyAfterRounding F mode v → r.flags = flagUF ||| flagNX) ∧
      ((n : ℝ) * 2 ^ k ≠ v → ¬ TinyAfterRounding F mode v → r.flags = flagNX))

/-- One of the two formats. -/
def IsFormat (F : FpFormat) : Prop := F = single ∨ F = double

end Sys2Proof
end

