-- ==== Sys2Proof/Certificates/Slice0/Obligations.lean ====
section
/-! DEFINITION. The statements for the provers, in the words of Claims; each docstring names the rules of spec/ it formalises.
A statement about the drawn counters holds for every value of the draws (log 4). -/

open Sys2Proof Sys2Proof.Machine

/-! Encoding and lookup (30_encoding.md). -/

/-- Every well-formed instruction is what its encoding decodes to: no field of any format is dropped (R103, R108 to R116). -/
def Obligations.DecodeEncode : Prop :=
  ∀ i : Instr, i.wellFormed = true → decode (encode i) = some i

/-- Every word that decodes is the encoding of the well-formed instruction it decodes to: a word has one meaning (R102 to R105). -/
def Obligations.EncodeDecode : Prop :=
  ∀ (w : InstrWord) (i : Instr), decode w = some i → i.wellFormed = true ∧ encode i = w

/-- Words written out from the encodings of 30_encoding.md, one per family, decode to the instructions they stand for. -/
def Obligations.SpecWordsDecode : Prop :=
  decode 0b00000000000000000000000000010011 = some (.addi 0 0 0) ∧
  decode 0b01000000001000001000000110110011 = some (.sub 3 1 2) ∧
  decode 0b11111110001000001000100011100011 = some (.beq 1 2 (-16)) ∧
  decode 0b00000000100000000000000011101111 = some (.jal 1 8) ∧
  decode 0b11111110001000001010111000100011 = some (.sw 1 2 (-4)) ∧
  decode 0b00000010001000001000000110110011 = some (.mul 3 1 2) ∧
  decode 0b11000000001000000010001111110011 = some (.csrrs 7 0xC02 0) ∧
  decode 0b00100000001100010111000011001011 = some (.fnmsubS 1 2 3 4 7) ∧
  decode 0b00000010001000001000000111010011 = some (.faddD 3 1 2 0)

/-- The lookup: at most one descriptor matches a word; none gives the verdict Illegal, an applicable one the descriptor, an
inapplicable one Reserved (R104). -/
def Obligations.LookupVerdicts : Prop :=
  ∀ (x : XLen) (w : InstrWord),
    (catalog.filter (fun r => r.hits w)).length ≤ 1 ∧
    ((∀ r ∈ catalog, r.hits w = false) → lookup x w = .illegal) ∧
    (∀ r ∈ catalog, r.hits w = true →
      lookup x w = if r.rv64 = true ∧ x = .x32 then .reserved (r.instr w) else .descriptor (r.instr w))

/-- Words of no major opcode of 30_encoding.md R117, among them those whose bits [1:0] are not 11 and the atomics, and the
SYSTEM words with funct3 = 000 other than ecall and ebreak, are illegal (R93, R100, R117, R230). -/
def Obligations.IllegalWords : Prop :=
  ∀ (x : XLen) (w : InstrWord),
    (w.extractLsb' 0 7 ∉ ([0b0000011, 0b0000111, 0b0001111, 0b0010011, 0b0010111, 0b0011011, 0b0100011, 0b0100111, 0b0110011,
      0b0110111, 0b0111011, 0b1000011, 0b1000111, 0b1001011, 0b1001111, 0b1010011, 0b1100011, 0b1100111, 0b1101111,
      0b1110011] : List (BitVec 7)) → lookup x w = .illegal) ∧
    (w.extractLsb' 0 7 = 0b1110011 → w.extractLsb' 12 3 = 0 → w ≠ 0x00000073 → w ≠ 0x00100073 → lookup x w = .illegal)

/-- Of the catalog exactly the listed instructions are 64-bit-only: with XLEN = 32 their words are reserved, and running one is
the reserved-instruction fault, its record holding the encoding (log 9); every other word is a descriptor in both widths (R106). -/
def Obligations.Rv64OnlyReserved : Prop :=
  (∀ i : Instr, i.wellFormed = true →
    lookup .x64 (encode i) = .descriptor i ∧
    lookup .x32 (encode i) = if i.rv64Only then .reserved i else .descriptor i) ∧
  (∀ (i : Instr) (s : State), i.rv64Only = true → s.xlen = .x32 →
    ∃ t, exec i s = .next t ∧
      Faults s t ⟨.reservedInstruction, s.readPc, some (encode i), some s.readPc, none⟩)

/-! The step (10_state.md R45 to R57). -/

/-- A step runs the decoded instruction: where an instruction is attempted and the four bytes at the aligned pc, in one text-kind
segment, decode to an instruction of the active width, the step is exec of it (R53, R54). The boot requirement on the segments
is an invariant (InvStep). -/
def Obligations.StepExecutes : Prop :=
  ∀ (s : State) (i : Instr), Attempts s → segmentsAccepted s.xlen s.cfg.segments = true →
    pcval s % 4 = 0 → InText s → decode (wordAtPc s) = some i → (i.rv64Only = true → s.xlen = .x64) →
      step s = exec i (begun s)

/-- One iteration in RUNNING does the first that applies of: the budget is used up, cancellation, a breakpoint, one instruction
at the pc (R53). -/
def Obligations.IterationOrder : Prop :=
  ∀ s : State, s.ctl = .running → s.host = [] →
    (0 < s.budget ∧ s.budget ≤ s.steps → step s = .next { s with ctl := .maxSteps }) ∧
    (¬ (0 < s.budget ∧ s.budget ≤ s.steps) → s.cancel = true → step s = .next { s with ctl := .cancelled }) ∧
    (¬ (0 < s.budget ∧ s.budget ≤ s.steps) → s.cancel = false → s.readPc ∈ s.bp → s.bpSkip = false →
      step s = .next { s with ctl := .breakpoint, bpSkip := true }) ∧
    (¬ (0 < s.budget ∧ s.budget ≤ s.steps) → s.cancel = false → (s.readPc ∈ s.bp → s.bpSkip = true) →
      step s = executeAtPc { s with bpSkip := false })

/-- An attempted instruction that is not there: a misaligned pc, a word outside text, an illegal word and a reserved word give the
faults of R54 with the records of 60_exceptions.md R341, and CLIFF in place of the illegal-instruction fault at TEXT_END. -/
def Obligations.FetchVerdicts : Prop :=
  ∀ s : State, Attempts s → segmentsAccepted s.xlen s.cfg.segments = true →
    (pcval s % 4 ≠ 0 → ∃ t, step s = .next t ∧
      Faults (begun s) t ⟨.addressAlignment, s.readPc, none, some s.readPc, some .fetch⟩) ∧
    (pcval s % 4 = 0 → ¬ InText s →
      (s.readPc = s.xlen.trunc s.cfg.textEnd → step s = .next { begun s with ctl := .cliff }) ∧
      (s.readPc ≠ s.xlen.trunc s.cfg.textEnd → ∃ t, step s = .next t ∧
        Faults (begun s) t ⟨.illegalInstruction, s.readPc, none, some s.readPc, none⟩)) ∧
    (pcval s % 4 = 0 → InText s → lookup s.xlen (wordAtPc s) = .illegal →
      (s.readPc = s.xlen.trunc s.cfg.textEnd → step s = .next { begun s with ctl := .cliff }) ∧
      (s.readPc ≠ s.xlen.trunc s.cfg.textEnd → ∃ t, step s = .next t ∧
        Faults (begun s) t ⟨.illegalInstruction, s.readPc, some (wordAtPc s), some s.readPc, none⟩)) ∧
    (∀ i, pcval s % 4 = 0 → InText s → lookup s.xlen (wordAtPc s) = .reserved i → ∃ t, step s = .next t ∧
      Faults (begun s) t ⟨.reservedInstruction, s.readPc, some (wordAtPc s), some s.readPc, none⟩)

/-- CLIFF, EXITED and FAULTED are left by reset only, and nothing of the program's changes in them; outside RUNNING the block does
nothing by itself (R56, 60_exceptions.md R344, R358). -/
def Obligations.FinalStatesStay : Prop :=
  (∀ s t : State, s.ctl = .cliff ∨ s.ctl = .exited ∨ s.ctl = .faulted → NoReset s → step s = .next t →
    t.ctl = s.ctl ∧ t.fault = s.fault ∧ t.exitCode = s.exitCode ∧ t.readPc = s.readPc ∧ SameX s t ∧ SameF s t ∧
    SameMemory s t ∧ t.frm = s.frm ∧ t.fflags = s.fflags ∧ t.instret = s.instret) ∧
  (∀ s : State, s.ctl ≠ .running → s.host = [] → step s = .next s)

/-! Laws of the whole machine. -/

/-- Precise fault entry: where a running block's step ends in FAULTED, nothing but `state` and `fault` has changed since the
instruction began, the record names the instruction's pc, and the call reports FAULTED with the record (60_exceptions.md R343). -/
def Obligations.PreciseFaults : Prop :=
  ∀ s t : State, s.ctl = .running → HostIdle s → step s = .next t → t.ctl = .faulted →
    ∃ r, Faults (begun s) t r ∧ r.pc = s.readPc ∧ t.report = some (.faulted, some r, s.exitCode)

/-- An instruction raises the faults of its family and no others: the record holds its pc and its word, and a cause of its row of
R342, or reserved-instruction for a 64-bit-only instruction with XLEN = 32. Its word is the encoding of the instruction (log 9).
The arithmetic category is never raised (R340). -/
def Obligations.FaultCauses : Prop :=
  ∀ (s t : State) (i : Instr), s.ctl = .running → exec i s = .next t → t.ctl = .faulted →
    ∃ r, t.fault = some r ∧ r.pc = s.readPc ∧ r.word = some (encode i) ∧ r.cause ≠ .arithmetic ∧
      (r.cause ∈ i.kind.causes ∨ r.cause = .reservedInstruction ∧ i.rv64Only = true ∧ s.xlen = .x32)

/-- `instret` and `steps` count an instruction that completes, exit environment calls and ebreak included, and neither counts one
that faults or one that waits for the host (10_state.md R36, R54). -/
def Obligations.CompletionCounts : Prop :=
  ∀ (s t : State) (i : Instr), s.ctl = .running → exec i s = .next t →
    (t.ctl = .faulted ∨ t.ctl = .service → t.instret = s.instret ∧ t.steps = s.steps) ∧
    (t.ctl ≠ .faulted → t.ctl ≠ .service → t.instret = s.instret + 1 ∧ t.steps = s.steps + 1)

/-- No instruction writes both an integer and an FP register, none writes a second register of a file, and only a store changes
memory, which then writes no register and no latch field (10_state.md R43, 20_memory.md R90). -/
def Obligations.OneWritePort : Prop :=
  ∀ (s t : State) (i : Instr), exec i s = .next t →
    (SameX s t ∨ SameF s t) ∧ (∃ rd, SameXBut rd s t) ∧ (∃ rd, SameFBut rd s t) ∧
    (i.kind ≠ .store → SameMemory s t) ∧
    (i.kind = .store → SameX s t ∧ SameF s t ∧ t.frm = s.frm ∧ t.fflags = s.fflags)

/-- With SMC = 0 no step but a reset changes a byte of a text-kind segment: not an instruction, not the host in SERVICE (20_memory.md
R85, 10_state.md R48). -/
def Obligations.TextProtected : Prop :=
  ∀ (s t : State) (a : Nat), segmentsAccepted s.xlen s.cfg.segments = true → s.cfg.smc = false → NoReset s →
    step s = .next t → IsText s.cfg a → t.mem.byte? a = s.mem.byte? a

/-- No step but a reset changes a configuration parameter; setting breakpoints changes BP, not the parameter
(70_reset_and_hazards.md R373). -/
def Obligations.ConfigFrozen : Prop :=
  (∀ s t : State, NoReset s → step s = .next t → t.cfg = s.cfg) ∧
  (∀ (s : State) (addrs : List Word) (rest : List HostEvent), s.host = .command (.setBreakpoints addrs) :: rest →
    s.ctl ≠ .running → ∃ t, step s = .next t ∧ t.bp = addrs ∧ t.cfg.bpInit = s.cfg.bpInit)

/-- The flags are sticky: no instruction but a CSR instruction clears a flag or changes `frm` (10_state.md R30). -/
def Obligations.FlagsSticky : Prop :=
  ∀ (s t : State) (i : Instr), i.kind ≠ .csr → exec i s = .next t →
    t.frm = s.frm ∧ t.fflags ||| s.fflags = t.fflags

/-- The invariants hold after reset. -/
def Obligations.InvReset : Prop := Inv State.reset

/-- Every step keeps the block's invariants: the hard-wired x0, an aligned pc, FAULTED exactly with a record, EXITED exactly with a
code, SERVICE exactly with a request (10_state.md R57); the registers' widths, an accepted configuration and the canonical form of
memory are the model's own (log 19). -/
def Obligations.InvStep : Prop :=
  ∀ s t : State, Inv s → step s = .next t → Inv t

/-- No step and no instruction stops the machine: every fault of the spec is a next state (log 7), no instruction is refused. -/
def Obligations.StepAnswers : Prop :=
  (∀ s : State, ∃ t, step s = .next t) ∧ (∀ (i : Instr) (s : State), ∃ t, exec i s = .next t)

/-! Memory (20_memory.md). -/

/-- What is written is read back: the low 8n bits, wherever the write completes, and no other byte has changed (R84, R90). -/
def Obligations.WriteThenRead : Prop :=
  ∀ (s : State) (a : Word) (sz : MemSize) (v : BitVec 64), segmentsAccepted s.xlen s.cfg.segments = true →
    Stores s.cfg a.toNat sz →
      ∃ u r, s.memWrite a sz v = .ok u ∧ u.memRead a sz = .ok r ∧ r.toNat = v.toNat % 256 ^ sz.bytes ∧
        ∀ p, p < a.toNat ∨ a.toNat + sz.bytes ≤ p → u.mem.byte? p = s.mem.byte? p

/-- A read of one, two or four bytes: alignment first, then range, then the little-endian value, never-written bytes as 0 (R78, R71). -/
def Obligations.LoadChecks : Prop :=
  ∀ (s : State) (a : Word) (sz : MemSize), segmentsAccepted s.xlen s.cfg.segments = true → sz ≠ .dword →
    (a.toNat % sz.bytes ≠ 0 → s.memRead a sz = .error ⟨.addressAlignment, a, .load⟩) ∧
    (a.toNat % sz.bytes = 0 → ¬ Mapped s.cfg a.toNat sz.bytes → s.memRead a sz = .error ⟨.addressOutOfRange, a, .load⟩) ∧
    (a.toNat % sz.bytes = 0 → Mapped s.cfg a.toNat sz.bytes →
      ∃ v, s.memRead a sz = .ok v ∧ v.toNat = leValue s.mem a.toNat sz.bytes)

/-- A write of one, two or four bytes: alignment, then range, then write protection, then the bytes, least significant first (R79). -/
def Obligations.StoreChecks : Prop :=
  ∀ (s : State) (a : Word) (sz : MemSize) (v : BitVec 64), segmentsAccepted s.xlen s.cfg.segments = true → sz ≠ .dword →
    (a.toNat % sz.bytes ≠ 0 → s.memWrite a sz v = .error ⟨.addressAlignment, a, .store⟩) ∧
    (a.toNat % sz.bytes = 0 → ¬ Mapped s.cfg a.toNat sz.bytes →
      s.memWrite a sz v = .error ⟨.addressOutOfRange, a, .store⟩) ∧
    (a.toNat % sz.bytes = 0 → Mapped s.cfg a.toNat sz.bytes → ¬ Writable s.cfg a.toNat sz.bytes →
      s.memWrite a sz v = .error ⟨.writeProtection, a, .store⟩) ∧
    (a.toNat % sz.bytes = 0 → Writable s.cfg a.toNat sz.bytes →
      ∃ u, s.memWrite a sz v = .ok u ∧
        (∀ k, k < sz.bytes → u.mem.byte? (a.toNat + k) = some (.ofNat 8 (v.toNat / 256 ^ k % 256))) ∧
        ∀ p, p < a.toNat ∨ a.toNat + sz.bytes ≤ p → u.mem.byte? p = s.mem.byte? p)

/-- A doubleword access: 8-alignment, then the low half, then the high half, each with its own address, and every check before
anything is written (R80, R81). -/
def Obligations.DoublewordChecks : Prop :=
  ∀ (s : State) (a : Word) (v : BitVec 64), segmentsAccepted s.xlen s.cfg.segments = true →
    (a.toNat % 8 ≠ 0 → s.memRead a .dword = .error ⟨.addressAlignment, a, .load⟩ ∧
      s.memWrite a .dword v = .error ⟨.addressAlignment, a, .store⟩) ∧
    (a.toNat % 8 = 0 → ¬ Mapped s.cfg a.toNat 4 → s.memRead a .dword = .error ⟨.addressOutOfRange, a, .load⟩ ∧
      s.memWrite a .dword v = .error ⟨.addressOutOfRange, a, .store⟩) ∧
    (a.toNat % 8 = 0 → Mapped s.cfg a.toNat 4 → ¬ Mapped s.cfg (a.toNat + 4) 4 →
      s.memRead a .dword = .error ⟨.addressOutOfRange, a + 4, .load⟩) ∧
    (a.toNat % 8 = 0 → Mapped s.cfg a.toNat 4 → Mapped s.cfg (a.toNat + 4) 4 →
      ∃ r, s.memRead a .dword = .ok r ∧ r.toNat = leValue s.mem a.toNat 4 + 2 ^ 32 * leValue s.mem (a.toNat + 4) 4) ∧
    (a.toNat % 8 = 0 → Mapped s.cfg a.toNat 4 → ¬ Writable s.cfg a.toNat 4 →
      s.memWrite a .dword v = .error ⟨.writeProtection, a, .store⟩) ∧
    (a.toNat % 8 = 0 → Writable s.cfg a.toNat 4 → ¬ Mapped s.cfg (a.toNat + 4) 4 →
      s.memWrite a .dword v = .error ⟨.addressOutOfRange, a + 4, .store⟩) ∧
    (a.toNat % 8 = 0 → Writable s.cfg a.toNat 4 → Mapped s.cfg (a.toNat + 4) 4 → ¬ Writable s.cfg (a.toNat + 4) 4 →
      s.memWrite a .dword v = .error ⟨.writeProtection, a + 4, .store⟩) ∧
    (a.toNat % 8 = 0 → Writable s.cfg a.toNat 4 → Writable s.cfg (a.toNat + 4) 4 →
      ∃ u, s.memWrite a .dword v = .ok u ∧ leValue u.mem a.toNat 4 = v.toNat % 2 ^ 32 ∧
        leValue u.mem (a.toNat + 4) 4 = v.toNat / 2 ^ 32)

/-! Integer instructions (41_integer.md, 44_muldiv.md). Each completes in every state, at both widths unless the premise fixes
XLEN = 64, and with rd = x0 writes nothing. -/

/-- Register-register arithmetic, logic, comparison and shifts (R132, R144 to R153). -/
def Obligations.RegisterOps : Prop :=
  ∀ (s : State) (rd rs1 rs2 : XReg), let sh := (s.readX rs2).toNat % s.xlen.bits
    (∃ t, exec (.add rd rs1 rs2) s = .next t ∧ XResult s t rd (uval s rs1 + uval s rs2) 0) ∧
    (∃ t, exec (.sub rd rs1 rs2) s = .next t ∧ XResult s t rd (uval s rs1 - uval s rs2) 0) ∧
    (∃ t, exec (.slt rd rs1 rs2) s = .next t ∧ XResult s t rd (if sval s rs1 < sval s rs2 then 1 else 0) 0) ∧
    (∃ t, exec (.sltu rd rs1 rs2) s = .next t ∧ XResult s t rd (if uval s rs1 < uval s rs2 then 1 else 0) 0) ∧
    (∃ t, exec (.xor rd rs1 rs2) s = .next t ∧ XResult s t rd (s.readX rs1 ^^^ s.readX rs2).toNat 0) ∧
    (∃ t, exec (.or rd rs1 rs2) s = .next t ∧ XResult s t rd (s.readX rs1 ||| s.readX rs2).toNat 0) ∧
    (∃ t, exec (.and rd rs1 rs2) s = .next t ∧ XResult s t rd (s.readX rs1 &&& s.readX rs2).toNat 0) ∧
    (∃ t, exec (.sll rd rs1 rs2) s = .next t ∧ XResult s t rd (uval s rs1 * 2 ^ sh) 0) ∧
    (∃ t, exec (.srl rd rs1 rs2) s = .next t ∧ XResult s t rd (uval s rs1 / 2 ^ sh) 0) ∧
    (∃ t, exec (.sra rd rs1 rs2) s = .next t ∧ XResult s t rd (sval s rs1 / 2 ^ sh) 0)

/-- Upper-immediate and register-immediate instructions; the shifts with shamt[5] = 1 with XLEN = 64 (R133 to R143). -/
def Obligations.ImmediateOps : Prop :=
  ∀ (s : State) (rd rs1 : XReg) (imm : BitVec 12) (up : BitVec 20) (shamt : BitVec 6),
    let sh := shamt.toNat % s.xlen.bits
    (∃ t, exec (.lui rd up) s = .next t ∧ XResult s t rd (up.toInt * 2 ^ 12) 0) ∧
    (∃ t, exec (.auipc rd up) s = .next t ∧ XResult s t rd (pcval s + up.toInt * 2 ^ 12) 0) ∧
    (∃ t, exec (.addi rd rs1 imm) s = .next t ∧ XResult s t rd (uval s rs1 + imm.toInt) 0) ∧
    (∃ t, exec (.slti rd rs1 imm) s = .next t ∧ XResult s t rd (if sval s rs1 < imm.toInt then 1 else 0) 0) ∧
    (∃ t, exec (.sltiu rd rs1 imm) s = .next t ∧ XResult s t rd (if uval s rs1 < wrap s imm.toInt then 1 else 0) 0) ∧
    (∃ t, exec (.xori rd rs1 imm) s = .next t ∧ XResult s t rd (s.readX rs1 ^^^ imm.signExtend 64).toNat 0) ∧
    (∃ t, exec (.ori rd rs1 imm) s = .next t ∧ XResult s t rd (s.readX rs1 ||| imm.signExtend 64).toNat 0) ∧
    (∃ t, exec (.andi rd rs1 imm) s = .next t ∧ XResult s t rd (s.readX rs1 &&& imm.signExtend 64).toNat 0) ∧
    (∃ t, exec (.slli rd rs1 shamt) s = .next t ∧ XResult s t rd (uval s rs1 * 2 ^ sh) 0) ∧
    (∃ t, exec (.srli rd rs1 shamt) s = .next t ∧ XResult s t rd (uval s rs1 / 2 ^ sh) 0) ∧
    (∃ t, exec (.srai rd rs1 shamt) s = .next t ∧ XResult s t rd (sval s rs1 / 2 ^ sh) 0) ∧
    (s.xlen = .x64 →
      (∃ t, exec (.slliHi rd rs1 shamt) s = .next t ∧ XResult s t rd (uval s rs1 * 2 ^ shamt.toNat) 0) ∧
      (∃ t, exec (.srliHi rd rs1 shamt) s = .next t ∧ XResult s t rd (uval s rs1 / 2 ^ shamt.toNat) 0) ∧
      (∃ t, exec (.sraiHi rd rs1 shamt) s = .next t ∧ XResult s t rd (sval s rs1 / 2 ^ shamt.toNat) 0))

/-- The word instructions compute on the low 32 bits and sign-extend (R131, R154 to R162). -/
def Obligations.WordOps : Prop :=
  ∀ (s : State) (rd rs1 rs2 : XReg) (imm : BitVec 12) (shamt : BitVec 5), s.xlen = .x64 →
    let sh := (s.readX rs2).toNat % 32
    (∃ t, exec (.addiw rd rs1 imm) s = .next t ∧ XResult s t rd ((uval s rs1 + imm.toInt).bmod (2 ^ 32)) 0) ∧
    (∃ t, exec (.slliw rd rs1 shamt) s = .next t ∧ XResult s t rd ((uval32 s rs1 * 2 ^ shamt.toNat).bmod (2 ^ 32)) 0) ∧
    (∃ t, exec (.srliw rd rs1 shamt) s = .next t ∧ XResult s t rd ((uval32 s rs1 / 2 ^ shamt.toNat).bmod (2 ^ 32)) 0) ∧
    (∃ t, exec (.sraiw rd rs1 shamt) s = .next t ∧ XResult s t rd (sval32 s rs1 / 2 ^ shamt.toNat) 0) ∧
    (∃ t, exec (.addw rd rs1 rs2) s = .next t ∧ XResult s t rd ((uval s rs1 + uval s rs2).bmod (2 ^ 32)) 0) ∧
    (∃ t, exec (.subw rd rs1 rs2) s = .next t ∧ XResult s t rd ((uval s rs1 - uval s rs2).bmod (2 ^ 32)) 0) ∧
    (∃ t, exec (.sllw rd rs1 rs2) s = .next t ∧ XResult s t rd ((uval32 s rs1 * 2 ^ sh).bmod (2 ^ 32)) 0) ∧
    (∃ t, exec (.srlw rd rs1 rs2) s = .next t ∧ XResult s t rd ((uval32 s rs1 / 2 ^ sh).bmod (2 ^ 32)) 0) ∧
    (∃ t, exec (.sraw rd rs1 rs2) s = .next t ∧ XResult s t rd (sval32 s rs1 / 2 ^ sh) 0)

/-- The halves of the exact product (R200, R202 to R205, R210). -/
def Obligations.Multiply : Prop :=
  ∀ (s : State) (rd rs1 rs2 : XReg),
    (∃ t, exec (.mul rd rs1 rs2) s = .next t ∧ XResult s t rd (uval s rs1 * uval s rs2) 0) ∧
    (∃ t, exec (.mulh rd rs1 rs2) s = .next t ∧ XResult s t rd (sval s rs1 * sval s rs2 / 2 ^ s.xlen.bits) 0) ∧
    (∃ t, exec (.mulhsu rd rs1 rs2) s = .next t ∧ XResult s t rd (sval s rs1 * uval s rs2 / 2 ^ s.xlen.bits) 0) ∧
    (∃ t, exec (.mulhu rd rs1 rs2) s = .next t ∧ XResult s t rd (uval s rs1 * uval s rs2 / 2 ^ s.xlen.bits) 0) ∧
    (s.xlen = .x64 →
      ∃ t, exec (.mulw rd rs1 rs2) s = .next t ∧ XResult s t rd ((uval32 s rs1 * uval32 s rs2).bmod (2 ^ 32)) 0)

/-- Quotient toward zero and its remainder, with the special results for a zero divisor and for signed overflow; never a fault
(R201, R206 to R209, R211 to R214). -/
def Obligations.Divide : Prop :=
  ∀ (s : State) (rd rs1 rs2 : XReg), let L := s.xlen.bits
    (∃ t, exec (.div rd rs1 rs2) s = .next t ∧ XResult s t rd
      (if sval s rs2 = 0 then -1 else if sval s rs1 = -2 ^ (L - 1) ∧ sval s rs2 = -1 then -2 ^ (L - 1)
        else (sval s rs1).tdiv (sval s rs2)) 0) ∧
    (∃ t, exec (.divu rd rs1 rs2) s = .next t ∧ XResult s t rd
      (if uval s rs2 = 0 then 2 ^ L - 1 else uval s rs1 / uval s rs2) 0) ∧
    (∃ t, exec (.rem rd rs1 rs2) s = .next t ∧ XResult s t rd
      (if sval s rs2 = 0 then sval s rs1 else if sval s rs1 = -2 ^ (L - 1) ∧ sval s rs2 = -1 then 0
        else sval s rs1 - sval s rs2 * (sval s rs1).tdiv (sval s rs2)) 0) ∧
    (∃ t, exec (.remu rd rs1 rs2) s = .next t ∧ XResult s t rd
      (if uval s rs2 = 0 then uval s rs1 else uval s rs1 % uval s rs2) 0) ∧
    (s.xlen = .x64 →
      (∃ t, exec (.divw rd rs1 rs2) s = .next t ∧ XResult s t rd
        (if sval32 s rs2 = 0 then -1 else if sval32 s rs1 = -2 ^ 31 ∧ sval32 s rs2 = -1 then -2 ^ 31
          else (sval32 s rs1).tdiv (sval32 s rs2)) 0) ∧
      (∃ t, exec (.divuw rd rs1 rs2) s = .next t ∧ XResult s t rd
        (if uval32 s rs2 = 0 then -1 else (uval32 s rs1 / uval32 s rs2).bmod (2 ^ 32)) 0) ∧
      (∃ t, exec (.remw rd rs1 rs2) s = .next t ∧ XResult s t rd
        (if sval32 s rs2 = 0 then sval32 s rs1 else if sval32 s rs1 = -2 ^ 31 ∧ sval32 s rs2 = -1 then 0
          else sval32 s rs1 - sval32 s rs2 * (sval32 s rs1).tdiv (sval32 s rs2)) 0) ∧
      (∃ t, exec (.remuw rd rs1 rs2) s = .next t ∧ XResult s t rd
        (if uval32 s rs2 = 0 then sval32 s rs1 else (uval32 s rs1 % uval32 s rs2).bmod (2 ^ 32)) 0))

/-! Control transfer (42_control.md). -/

/-- The jumps to a 4-aligned target: the target becomes the pc, and rd holds the return address (R173, R174). -/
def Obligations.Jumps : Prop :=
  ∀ (s : State) (rd rs1 : XReg) (off : BitVec 21) (imm : BitVec 12),
    (let target := wrap s (pcval s + off.toInt)
     target % 4 = 0 → ∃ t, exec (.jal rd off) s = .next t ∧ LinkResult s t rd target) ∧
    (let target := wrap s (uval s rs1 + imm.toInt) / 2 * 2
     target % 4 = 0 → ∃ t, exec (.jalr rd rs1 imm) s = .next t ∧ LinkResult s t rd target)

/-- A transfer to a target that is not a multiple of 4 faults at the transfer, with the target as the address, and writes nothing;
a branch checks its target only when it is taken, and falls through otherwise (R170). The record
holds the encoding of the instruction (log 9). -/
def Obligations.MisalignedTargets : Prop :=
  ∀ (s : State) (rd rs1 rs2 : XReg) (off : BitVec 21) (imm : BitVec 12) (br : BitVec 13),
    let bad := fun (i : Instr) (target : Int) => target % 4 ≠ 0 → ∃ t, exec i s = .next t ∧
      Faults s t ⟨.addressAlignment, s.readPc, some (encode i), some (.ofInt 64 target), some .fetch⟩
    let branch := fun (i : Instr) (taken : Prop) =>
      (taken → bad i (wrap s (pcval s + br.toInt))) ∧
      (¬ taken → ∃ t, exec i s = .next t ∧ OnlyPc s t (wrap s (pcval s + 4)))
    bad (.jal rd off) (wrap s (pcval s + off.toInt)) ∧
    bad (.jalr rd rs1 imm) (wrap s (uval s rs1 + imm.toInt) / 2 * 2) ∧
    branch (.beq rs1 rs2 br) (uval s rs1 = uval s rs2) ∧
    branch (.bne rs1 rs2 br) (uval s rs1 ≠ uval s rs2) ∧
    branch (.blt rs1 rs2 br) (sval s rs1 < sval s rs2) ∧
    branch (.bge rs1 rs2 br) (sval s rs1 ≥ sval s rs2) ∧
    branch (.bltu rs1 rs2 br) (uval s rs1 < uval s rs2) ∧
    branch (.bgeu rs1 rs2 br) (uval s rs1 ≥ uval s rs2)

/-- The branches: taken to a 4-aligned target, the target becomes the pc; not taken, the pc falls through whatever the target;
nothing else changes (R175 to R180). -/
def Obligations.Branches : Prop :=
  ∀ (s : State) (rs1 rs2 : XReg) (br : BitVec 13),
    let target := wrap s (pcval s + br.toInt)
    let goes := fun (i : Instr) (taken : Prop) =>
      (taken → target % 4 = 0 → ∃ t, exec i s = .next t ∧ OnlyPc s t target) ∧
      (¬ taken → ∃ t, exec i s = .next t ∧ OnlyPc s t (wrap s (pcval s + 4)))
    goes (.beq rs1 rs2 br) (uval s rs1 = uval s rs2) ∧
    goes (.bne rs1 rs2 br) (uval s rs1 ≠ uval s rs2) ∧
    goes (.blt rs1 rs2 br) (sval s rs1 < sval s rs2) ∧
    goes (.bge rs1 rs2 br) (sval s rs1 ≥ sval s rs2) ∧
    goes (.bltu rs1 rs2 br) (uval s rs1 < uval s rs2) ∧
    goes (.bgeu rs1 rs2 br) (uval s rs1 ≥ uval s rs2)

/-! Loads, stores and fences (43_loadstore.md; 46_float_single.md and 47_float_double.md for the FP ones). -/

/-- The integer loads: the effective address is the base plus the offset modulo 2^XLEN, and where the access completes rd holds the
bytes there, sign- or zero-extended; every byte of memory stays (R185 to R192). -/
def Obligations.IntLoads : Prop :=
  ∀ (s : State) (rd rs1 : XReg) (imm : BitVec 12), segmentsAccepted s.xlen s.cfg.segments = true →
    let a := (s.ea rs1 imm).toNat
    (a : Int) = wrap s (uval s rs1 + imm.toInt) ∧
    (Loads s.cfg a .byte →
      (∃ t, exec (.lb rd rs1 imm) s = .next t ∧ XResult s t rd ((leValue s.mem a 1 : Int).bmod (2 ^ 8)) 0) ∧
      (∃ t, exec (.lbu rd rs1 imm) s = .next t ∧ XResult s t rd (leValue s.mem a 1) 0)) ∧
    (Loads s.cfg a .half →
      (∃ t, exec (.lh rd rs1 imm) s = .next t ∧ XResult s t rd ((leValue s.mem a 2 : Int).bmod (2 ^ 16)) 0) ∧
      (∃ t, exec (.lhu rd rs1 imm) s = .next t ∧ XResult s t rd (leValue s.mem a 2) 0)) ∧
    (Loads s.cfg a .word →
      (∃ t, exec (.lw rd rs1 imm) s = .next t ∧ XResult s t rd ((leValue s.mem a 4 : Int).bmod (2 ^ 32)) 0) ∧
      (s.xlen = .x64 → ∃ t, exec (.lwu rd rs1 imm) s = .next t ∧ XResult s t rd (leValue s.mem a 4) 0)) ∧
    (Loads s.cfg a .dword → s.xlen = .x64 →
      ∃ t, exec (.ld rd rs1 imm) s = .next t ∧ XResult s t rd (leValue s.mem a 8) 0)

/-- The integer stores, where the access completes: the low bytes of rs2 stand at the effective address, every other byte, every
register and the latch stay (R193 to R196). -/
def Obligations.IntStores : Prop :=
  ∀ (s : State) (rs1 rs2 : XReg) (imm : BitVec 12), segmentsAccepted s.xlen s.cfg.segments = true →
    let a := (s.ea rs1 imm).toNat
    let v := (s.readX rs2).toNat
    (Stores s.cfg a .byte → ∃ t, exec (.sb rs1 rs2 imm) s = .next t ∧ StoreResult s t a 1 v) ∧
    (Stores s.cfg a .half → ∃ t, exec (.sh rs1 rs2 imm) s = .next t ∧ StoreResult s t a 2 v) ∧
    (Stores s.cfg a .word → ∃ t, exec (.sw rs1 rs2 imm) s = .next t ∧ StoreResult s t a 4 v) ∧
    (Stores s.cfg a .dword → s.xlen = .x64 → ∃ t, exec (.sd rs1 rs2 imm) s = .next t ∧ StoreResult s t a 8 v)

/-- The FP loads and stores, where the access completes: flw boxes the word as it stands, fld takes the doubleword at either width,
fsw and fsd store the raw bits (R262, R263, R300, R301). -/
def Obligations.FpLoadsStores : Prop :=
  ∀ (s : State) (rd rs2 : FReg) (rs1 : XReg) (imm : BitVec 12), segmentsAccepted s.xlen s.cfg.segments = true →
    let a := (s.ea rs1 imm).toNat
    let v := (s.readF rs2).toNat
    (Loads s.cfg a .word → ∃ t, exec (.flw rd rs1 imm) s = .next t ∧
      FResult s t rd (0xFFFFFFFF#32 ++ BitVec.ofNat 32 (leValue s.mem a 4)) 0) ∧
    (Loads s.cfg a .dword → ∃ t, exec (.fld rd rs1 imm) s = .next t ∧
      FResult s t rd (.ofNat 64 (leValue s.mem a 8)) 0) ∧
    (Stores s.cfg a .word → ∃ t, exec (.fsw rs1 rs2 imm) s = .next t ∧ StoreResult s t a 4 v) ∧
    (Stores s.cfg a .dword → ∃ t, exec (.fsd rs1 rs2 imm) s = .next t ∧ StoreResult s t a 8 v)

/-- A load or store whose checks fail faults with the failed check's cause, address and access kind, and changes nothing else
(20_memory.md R82, 60_exceptions.md R341, R343); which check fails is LoadChecks, StoreChecks and DoublewordChecks. The
record holds the encoding of the instruction (log 9). -/
def Obligations.MemoryFaults : Prop :=
  ∀ (s : State) (i : Instr) (k : Access) (sz : MemSize) (rs1 : XReg) (imm : BitVec 12) (e : MemFault),
    i.access = some (k, sz, rs1, imm) → (i.rv64Only = true → s.xlen = .x64) →
    (k = .load ∧ s.memRead (s.ea rs1 imm) sz = .error e ∨ k = .store ∧ ∃ v, s.memWrite (s.ea rs1 imm) sz v = .error e) →
      ∃ t, exec i s = .next t ∧ Faults s t ⟨e.cause, s.readPc, some (encode i), some e.addr, some e.access⟩

/-- fence, for every pred and succ, and fence.i only advance the pc (R197, R198). -/
def Obligations.Fences : Prop :=
  ∀ (s : State) (pred succ : BitVec 4),
    (∃ t, exec (.fence pred succ) s = .next t ∧ OnlyPc s t (wrap s (pcval s + 4))) ∧
    (∃ t, exec .fenceI s = .next t ∧ OnlyPc s t (wrap s (pcval s + 4)))

/-! CSRs, environment call and breakpoint (45_system.md; 10_state.md R31 to R39). -/

/-- The six CSR instructions on an implemented CSR, read-only ones only without write intent: rd takes the old value, and with write
intent the CSR takes the new one, computed from the old value and the source before any write; each read of a drawn counter takes a
draw. `writeCsr` is read only for the latch it leaves; LatchViews says what that is (R220, R224 to R229). -/
def Obligations.CsrInstructions : Prop :=
  ∀ (s : State) (rd rs1 : XReg) (a : BitVec 12) (uimm : BitVec 5) (c : Csr), Csr.ofAddr s.xlen a = some c →
    let old := s.readCsr c
    let runs := fun (i : Instr) (wr : Bool) (new : Word) => (wr = true → csrReadOnly a = false) →
      let u := if wr then s.writeCsr c new else s
      ∃ t, exec i s = .next t ∧ CsrResult s t rd old u.frm u.fflags (s.draws + if c.drawn then 1 else 0)
    runs (.csrrw rd a rs1) true (s.readX rs1) ∧
    runs (.csrrs rd a rs1) (decide (rs1 ≠ 0)) (old ||| s.readX rs1) ∧
    runs (.csrrc rd a rs1) (decide (rs1 ≠ 0)) (old &&& ~~~(s.readX rs1)) ∧
    runs (.csrrwi rd a uimm) true (uimm.setWidth 64) ∧
    runs (.csrrsi rd a uimm) (decide (uimm ≠ 0)) (old ||| uimm.setWidth 64) ∧
    runs (.csrrci rd a uimm) (decide (uimm ≠ 0)) (old &&& ~~~(uimm.setWidth 64))

/-- fflags, frm and fcsr are views of the latch: a read gives its fields zero-extended, a write sets them and ignores every other bit;
instret and instreth read the count before the instruction (R32 to R36, R38). -/
def Obligations.LatchViews : Prop :=
  ∀ (s : State) (rd rs1 : XReg), let v := s.readX rs1
    (∃ t, exec (.csrrw rd 0x001 rs1) s = .next t ∧
      CsrResult s t rd (s.fflags.setWidth 64) s.frm (v.extractLsb' 0 5) s.draws) ∧
    (∃ t, exec (.csrrw rd 0x002 rs1) s = .next t ∧
      CsrResult s t rd (s.frm.setWidth 64) (v.extractLsb' 0 3) s.fflags s.draws) ∧
    (∃ t, exec (.csrrw rd 0x003 rs1) s = .next t ∧
      CsrResult s t rd ((s.frm ++ s.fflags).setWidth 64) (v.extractLsb' 5 3) (v.extractLsb' 0 5) s.draws) ∧
    (∃ t, exec (.csrrs rd 0xC02 0) s = .next t ∧
      CsrResult s t rd (.ofNat 64 (s.instret.toNat % 2 ^ s.xlen.bits)) s.frm s.fflags s.draws) ∧
    (s.xlen = .x32 → ∃ t, exec (.csrrs rd 0xC82 0) s = .next t ∧
      CsrResult s t rd (.ofNat 64 (s.instret.toNat / 2 ^ 32)) s.frm s.fflags s.draws)

/-- Exactly the nine CSRs of 10_state.md R32 are implemented, the high halves with XLEN = 32 only; a CSR instruction on another
address, or one with write intent on an address with bits [11:10] = 11, is the illegal-instruction fault (R31, R39, R220). The record
has no address, as 60_exceptions.md R341 says (log 10), and the encoding of the instruction (log 9). -/
def Obligations.CsrIllegal : Prop :=
  (∀ (x : XLen) (a : BitVec 12), Csr.ofAddr x a = none ↔
    a ∉ ([0x001, 0x002, 0x003, 0xC00, 0xC01, 0xC02] : List (BitVec 12)) ∧
    (x = .x32 → a ∉ ([0xC80, 0xC81, 0xC82] : List (BitVec 12)))) ∧
  (∀ (s : State) (rd rs1 : XReg) (a : BitVec 12) (uimm : BitVec 5),
    let bad := fun (i : Instr) (wr : Prop) => Csr.ofAddr s.xlen a = none ∨ wr ∧ a.toNat / 1024 = 3 →
      ∃ t, exec i s = .next t ∧ Faults s t ⟨.illegalInstruction, s.readPc, some (encode i), none, none⟩
    bad (.csrrw rd a rs1) True ∧ bad (.csrrs rd a rs1) (rs1 ≠ 0) ∧ bad (.csrrc rd a rs1) (rs1 ≠ 0) ∧
    bad (.csrrwi rd a uimm) True ∧ bad (.csrrsi rd a uimm) (uimm ≠ 0) ∧ bad (.csrrci rd a uimm) (uimm ≠ 0))

/-- ecall: an exit service completes in EXITED with exit code x10 for service 93 and 0 for the others; any other service waits in
SERVICE with its request and nothing else changed. ebreak completes in BREAKPOINT with `bp_skip` cleared. Neither writes a register,
the latch or memory (R222, R223). -/
def Obligations.EnvironmentCallAndBreakpoint : Prop :=
  ∀ s : State,
    ((s.readX 17).toNat ∈ s.cfg.exitServices → ∃ t, exec .ecall s = .next t ∧ t.ctl = .exited ∧
      t.exitCode = some (if (s.readX 17).toNat = 93 then s.readX 10 else 0) ∧
      OnlyPc s { t with ctl := s.ctl, exitCode := s.exitCode } (wrap s (pcval s + 4))) ∧
    ((s.readX 17).toNat ∉ s.cfg.exitServices →
      exec .ecall s = .next { s with ctl := .service, svc := some ⟨s.readPc, s.readX 17⟩ }) ∧
    (∃ t, exec .ebreak s = .next t ∧ t.ctl = .breakpoint ∧ t.bpSkip = false ∧
      OnlyPc s { t with ctl := s.ctl, bpSkip := s.bpSkip } (wrap s (pcval s + 4)))

/-! The host (10_state.md R48 to R52, 70_reset_and_hazards.md). How the host's events and answers stand in State is the model's
(log 5, log 6). -/

/-- In SERVICE the host may write registers other than x0 and bytes of data-kind segments, and its reply commits the ecall: Done goes
on running, Terminate ends in EXITED with the code (R48). An integer register's value, the exit code and a byte's address are
truncated to XLEN bits, which is the model's choice (log 15). A host write of x0, of a byte of a text-kind segment and of a byte that no
segment holds is refused and changes nothing else (log 6). -/
def Obligations.ServiceReplies : Prop :=
  ∀ (s : State) (rest : List HostEvent), s.ctl = .service →
    let onHost := fun (c : HostCommand) (P : State → Prop) => s.host = .command c :: rest → ∃ t, step s = .next t ∧ P t
    onHost .serviceDone (fun t => t.ctl = .running ∧ t.svc = none ∧
      OnlyPc s { t with ctl := s.ctl, svc := s.svc, host := s.host, reply := s.reply } (wrap s (pcval s + 4))) ∧
    (∀ code, onHost (.serviceTerminate code) (fun t => t.ctl = .exited ∧ t.svc = none ∧
      t.exitCode = some (s.xlen.trunc code) ∧
      OnlyPc s { t with ctl := s.ctl, svc := s.svc, exitCode := s.exitCode, host := s.host, reply := s.reply }
        (wrap s (pcval s + 4)))) ∧
    (∀ r v, r ≠ 0 → onHost (.serviceWriteX r v) (fun t => t.readX r = s.xlen.trunc v ∧ SameXBut r s t ∧ SameF s t ∧
      SameMemory s t ∧ t.readPc = s.readPc ∧ t.ctl = .service ∧ t.svc = s.svc)) ∧
    (∀ r v, onHost (.serviceWriteF r v) (fun t => t.readF r = v ∧ SameFBut r s t ∧ SameX s t ∧ SameMemory s t ∧
      t.readPc = s.readPc ∧ t.ctl = .service ∧ t.svc = s.svc)) ∧
    (∀ a b g, segOf s.cfg (s.xlen.trunc a).toNat 1 = some g → g.kind = .data → onHost (.serviceWriteByte a b) (fun t =>
      t.mem.byte? (s.xlen.trunc a).toNat = some b ∧
      (∀ p, p ≠ (s.xlen.trunc a).toNat → t.mem.byte? p = s.mem.byte? p) ∧
      SameX s t ∧ SameF s t ∧ t.readPc = s.readPc ∧ t.ctl = .service ∧ t.svc = s.svc)) ∧
    (let refuses := fun (c : HostCommand) => onHost c (fun t => t = { s with host := rest, reply := some (.refused .service) })
     (∀ v, refuses (.serviceWriteX 0 v)) ∧
     (∀ a b g, segOf s.cfg (s.xlen.trunc a).toNat 1 = some g → g.kind = .text → refuses (.serviceWriteByte a b)) ∧
     (∀ a b, segOf s.cfg (s.xlen.trunc a).toNat 1 = none → refuses (.serviceWriteByte a b)))

/-- `run()` and `step()` are accepted in READY, BREAKPOINT, MAXSTEPS and CANCELLED, and then set `steps`, `budget` and RUNNING, a step
`bp_skip` too; in CLIFF, EXITED and FAULTED they are refused and the state is the answer (R50 to R52). -/
def Obligations.RunAndStep : Prop :=
  ∀ (s : State) (rest : List HostEvent),
    (s.ctl = .ready ∨ s.ctl = .breakpoint ∨ s.ctl = .maxSteps ∨ s.ctl = .cancelled →
      (s.host = .command .run :: rest → step s = .next { s with
        host := rest, steps := 0, budget := s.cfg.maxSteps, ctl := .running, reply := some .accepted }) ∧
      (s.host = .command .step :: rest → step s = .next { s with
        host := rest, steps := 0, budget := 1, bpSkip := true, ctl := .running, reply := some .accepted })) ∧
    (s.ctl = .cliff ∨ s.ctl = .exited ∨ s.ctl = .faulted →
      s.host = .command .run :: rest ∨ s.host = .command .step :: rest →
        step s = .next { s with host := rest, reply := some (.refused s.ctl) })

/-- What reset demands of a configuration: segments that are ranges of XLEN-bit addresses and do not overlap, an image inside them, an
X_INIT of XLEN-bit values with X_INIT[0] = 0, and XLEN-bit PC_INIT and TEXT_END that are multiples of 4 (R374 (a) to (f)). -/
def Obligations.BootRequirements : Prop :=
  ∀ cfg : Config, configAccepted cfg = true ↔
    (∀ g ∈ cfg.segments, g.base ≤ g.top ∧ g.top < 2 ^ cfg.xlen.bits) ∧
    cfg.segments.Pairwise (fun g h => g.top < h.base ∨ h.top < g.base) ∧
    (∀ c ∈ cfg.image, Mapped cfg c.1 1) ∧
    cfg.xInit[0] = 0 ∧ (∀ k : Fin 32, cfg.xInit[k].toNat < 2 ^ cfg.xlen.bits) ∧
    cfg.pcInit.toNat < 2 ^ cfg.xlen.bits ∧ cfg.textEnd.toNat < 2 ^ cfg.xlen.bits ∧
    cfg.pcInit.toNat % 4 = 0 ∧ cfg.textEnd.toNat % 4 = 0

/-- An accepted reset leaves every element at its reset value; a second reset changes nothing; a rejected one changes nothing; while
RUNNING it is refused (R370 to R372). An address that IMAGE gives twice is left out of the memory clause (log 13). -/
def Obligations.ResetProcedure : Prop :=
  ∀ (s : State) (arg : Option Config) (rest : List HostEvent), s.host = .command (.reset arg) :: rest →
    let cfg := arg.getD s.cfg
    (s.ctl ≠ .running → configAccepted cfg = true → ∃ t, step s = .next t ∧
      t.cfg = cfg ∧ (∀ k : Fin 32, t.x[k] = cfg.xInit[k]) ∧ (∀ r, t.readF r = 0) ∧ t.frm = 0 ∧ t.fflags = 0 ∧
      t.instret = 0 ∧ t.pc = cfg.pcInit ∧
      ((cfg.image.map (·.1)).Nodup → ∀ c ∈ cfg.image, t.mem.byte? c.1 = some c.2) ∧
      (∀ a, (∀ c ∈ cfg.image, c.1 ≠ a) → t.mem.byte? a = none) ∧
      t.ctl = .ready ∧ t.steps = 0 ∧ t.budget = cfg.maxSteps ∧ t.bpSkip = false ∧ t.bp = cfg.bpInit ∧
      t.fault = none ∧ t.exitCode = none ∧ t.svc = none ∧
      step { t with host := .command (.reset none) :: rest } = .next t) ∧
    (s.ctl ≠ .running → configAccepted cfg = false →
      step s = .next { s with host := rest, reply := some .configRejected }) ∧
    (s.ctl = .running → step s = .next { s with host := rest, reply := some (.refused .running) })

/-! Floating-point instructions (46_float_single.md, 47_float_double.md). -/

/-- The effective rounding mode: the static mode, or frm where rm is 7; the codes 0 to 4 are the five modes, and with 5, 6 or 7 every
instruction that has an rm field is the illegal-instruction fault, with no flag raised (R243). The record has no address, as
60_exceptions.md R341 says (log 10), and the encoding of the instruction (log 9). -/
def Obligations.RoundingModes : Prop :=
  ∀ (s : State) (rm : BitVec 3),
    (modeCode s rm = 0 → s.roundMode rm = some .rne) ∧ (modeCode s rm = 1 → s.roundMode rm = some .rtz) ∧
    (modeCode s rm = 2 → s.roundMode rm = some .rdn) ∧ (modeCode s rm = 3 → s.roundMode rm = some .rup) ∧
    (modeCode s rm = 4 → s.roundMode rm = some .rmm) ∧
    (∀ i : Instr, i.rmField = some rm → 5 ≤ (modeCode s rm).toNat → (i.rv64Only = true → s.xlen = .x64) →
      ∃ t, exec i s = .next t ∧ Faults s t ⟨.illegalInstruction, s.readPc, some (encode i), none, none⟩)

/-- The arithmetic instructions complete in every legal rounding mode: the rounded result and its flags in one commit, a single
NaN-boxed, and nothing else changed (R260, R268 to R272, R306 to R310). What the result is, is said of the operations by
Sums, ProductsQuotientsRoots and ExceptionalOperands. -/
def Obligations.FpArithmetic : Prop :=
  ∀ (s : State) (rd rs1 rs2 : FReg) (rm : BitVec 3) (m : RoundMode), s.roundMode rm = some m →
    (let a := s.bitsS rs1
     let b := s.bitsS rs2
     (∃ t, exec (.faddS rd rs1 rs2 rm) s = .next t ∧ SingleResult s t rd (single.add m a b)) ∧
     (∃ t, exec (.fsubS rd rs1 rs2 rm) s = .next t ∧ SingleResult s t rd (single.sub m a b)) ∧
     (∃ t, exec (.fmulS rd rs1 rs2 rm) s = .next t ∧ SingleResult s t rd (single.mul m a b)) ∧
     (∃ t, exec (.fdivS rd rs1 rs2 rm) s = .next t ∧ SingleResult s t rd (single.div m a b)) ∧
     (∃ t, exec (.fsqrtS rd rs1 rm) s = .next t ∧ SingleResult s t rd (single.sqrt m a))) ∧
    (let a := s.bitsD rs1
     let b := s.bitsD rs2
     (∃ t, exec (.faddD rd rs1 rs2 rm) s = .next t ∧ DoubleResult s t rd (double.add m a b)) ∧
     (∃ t, exec (.fsubD rd rs1 rs2 rm) s = .next t ∧ DoubleResult s t rd (double.sub m a b)) ∧
     (∃ t, exec (.fmulD rd rs1 rs2 rm) s = .next t ∧ DoubleResult s t rd (double.mul m a b)) ∧
     (∃ t, exec (.fdivD rd rs1 rs2 rm) s = .next t ∧ DoubleResult s t rd (double.div m a b)) ∧
     (∃ t, exec (.fsqrtD rd rs1 rm) s = .next t ∧ DoubleResult s t rd (double.sqrt m a)))

/-- The fused instructions complete in every legal rounding mode as the four sign variants of one operation (R252, R264 to R267,
R302 to R305). What the result is, is said of the operation by FusedRounding and ExceptionalOperands. -/
def Obligations.FpFused : Prop :=
  ∀ (s : State) (rd rs1 rs2 rs3 : FReg) (rm : BitVec 3) (m : RoundMode), s.roundMode rm = some m →
    (let a := s.bitsS rs1
     let b := s.bitsS rs2
     let c := s.bitsS rs3
     (∃ t, exec (.fmaddS rd rs1 rs2 rs3 rm) s = .next t ∧ SingleResult s t rd (single.fma false false m a b c)) ∧
     (∃ t, exec (.fmsubS rd rs1 rs2 rs3 rm) s = .next t ∧ SingleResult s t rd (single.fma false true m a b c)) ∧
     (∃ t, exec (.fnmsubS rd rs1 rs2 rs3 rm) s = .next t ∧ SingleResult s t rd (single.fma true false m a b c)) ∧
     (∃ t, exec (.fnmaddS rd rs1 rs2 rs3 rm) s = .next t ∧ SingleResult s t rd (single.fma true true m a b c))) ∧
    (let a := s.bitsD rs1
     let b := s.bitsD rs2
     let c := s.bitsD rs3
     (∃ t, exec (.fmaddD rd rs1 rs2 rs3 rm) s = .next t ∧ DoubleResult s t rd (double.fma false false m a b c)) ∧
     (∃ t, exec (.fmsubD rd rs1 rs2 rs3 rm) s = .next t ∧ DoubleResult s t rd (double.fma false true m a b c)) ∧
     (∃ t, exec (.fnmsubD rd rs1 rs2 rs3 rm) s = .next t ∧ DoubleResult s t rd (double.fma true false m a b c)) ∧
     (∃ t, exec (.fnmaddD rd rs1 rs2 rs3 rm) s = .next t ∧ DoubleResult s t rd (double.fma true true m a b c)))

/-- Minimum, maximum, comparison and classification complete in every state and do not read frm (R254 to R256, R276, R277, R288 to
R291, R314, R315, R318 to R321). What the results are, is said of the operations by OrderOperations and Classification. -/
def Obligations.FpCompareAndClassify : Prop :=
  ∀ (s : State) (fd rs1 rs2 : FReg) (rd : XReg),
    (let a := s.bitsS rs1
     let b := s.bitsS rs2
     (∃ t, exec (.fminS fd rs1 rs2) s = .next t ∧ SingleResult s t fd (single.minimum a b)) ∧
     (∃ t, exec (.fmaxS fd rs1 rs2) s = .next t ∧ SingleResult s t fd (single.maximum a b)) ∧
     (∃ t, exec (.feqS rd rs1 rs2) s = .next t ∧ TruthResult s t rd (single.eq a b)) ∧
     (∃ t, exec (.fltS rd rs1 rs2) s = .next t ∧ TruthResult s t rd (single.lt a b)) ∧
     (∃ t, exec (.fleS rd rs1 rs2) s = .next t ∧ TruthResult s t rd (single.le a b)) ∧
     (∃ t, exec (.fclassS rd rs1) s = .next t ∧ XResult s t rd (single.classify a).toNat 0)) ∧
    (let a := s.bitsD rs1
     let b := s.bitsD rs2
     (∃ t, exec (.fminD fd rs1 rs2) s = .next t ∧ DoubleResult s t fd (double.minimum a b)) ∧
     (∃ t, exec (.fmaxD fd rs1 rs2) s = .next t ∧ DoubleResult s t fd (double.maximum a b)) ∧
     (∃ t, exec (.feqD rd rs1 rs2) s = .next t ∧ TruthResult s t rd (double.eq a b)) ∧
     (∃ t, exec (.fltD rd rs1 rs2) s = .next t ∧ TruthResult s t rd (double.lt a b)) ∧
     (∃ t, exec (.fleD rd rs1 rs2) s = .next t ∧ TruthResult s t rd (double.le a b)) ∧
     (∃ t, exec (.fclassD rd rs1) s = .next t ∧ XResult s t rd (double.classify a).toNat 0))

/-- The conversions complete in every legal rounding mode, the long ones with XLEN = 64: w and wu results sign-extended from 32 bits,
the integer read signed or unsigned from its 32 or 64 bits (R257, R258, R261, R278 to R285, R316, R317, R322 to R329). What the results
are, is said of the operations by ConversionsRounding. -/
def Obligations.FpConversions : Prop :=
  ∀ (s : State) (fd rs : FReg) (rd xs : XReg) (rm : BitVec 3) (m : RoundMode), s.roundMode rm = some m →
    (∃ t, exec (.fcvtWS rd rs rm) s = .next t ∧ WordResult s t rd (single.toInt .w m (s.bitsS rs))) ∧
    (∃ t, exec (.fcvtWuS rd rs rm) s = .next t ∧ WordResult s t rd (single.toInt .wu m (s.bitsS rs))) ∧
    (∃ t, exec (.fcvtWD rd rs rm) s = .next t ∧ WordResult s t rd (double.toInt .w m (s.bitsD rs))) ∧
    (∃ t, exec (.fcvtWuD rd rs rm) s = .next t ∧ WordResult s t rd (double.toInt .wu m (s.bitsD rs))) ∧
    (∃ t, exec (.fcvtSW fd xs rm) s = .next t ∧ SingleResult s t fd (single.ofInt m (sval32 s xs))) ∧
    (∃ t, exec (.fcvtSWu fd xs rm) s = .next t ∧ SingleResult s t fd (single.ofInt m (uval32 s xs))) ∧
    (∃ t, exec (.fcvtDW fd xs rm) s = .next t ∧ DoubleResult s t fd (double.ofInt m (sval32 s xs))) ∧
    (∃ t, exec (.fcvtDWu fd xs rm) s = .next t ∧ DoubleResult s t fd (double.ofInt m (uval32 s xs))) ∧
    (∃ t, exec (.fcvtSD fd rs rm) s = .next t ∧ SingleResult s t fd (FpFormat.convert double single m (s.bitsD rs))) ∧
    (∃ t, exec (.fcvtDS fd rs rm) s = .next t ∧ DoubleResult s t fd (FpFormat.convert single double m (s.bitsS rs))) ∧
    (s.xlen = .x64 →
      (∃ t, exec (.fcvtLS rd rs rm) s = .next t ∧ LongResult s t rd (single.toInt .l m (s.bitsS rs))) ∧
      (∃ t, exec (.fcvtLuS rd rs rm) s = .next t ∧ LongResult s t rd (single.toInt .lu m (s.bitsS rs))) ∧
      (∃ t, exec (.fcvtLD rd rs rm) s = .next t ∧ LongResult s t rd (double.toInt .l m (s.bitsD rs))) ∧
      (∃ t, exec (.fcvtLuD rd rs rm) s = .next t ∧ LongResult s t rd (double.toInt .lu m (s.bitsD rs))) ∧
      (∃ t, exec (.fcvtSL fd xs rm) s = .next t ∧ SingleResult s t fd (single.ofInt m (sval s xs))) ∧
      (∃ t, exec (.fcvtSLu fd xs rm) s = .next t ∧ SingleResult s t fd (single.ofInt m (uval s xs))) ∧
      (∃ t, exec (.fcvtDL fd xs rm) s = .next t ∧ DoubleResult s t fd (double.ofInt m (sval s xs))) ∧
      (∃ t, exec (.fcvtDLu fd xs rm) s = .next t ∧ DoubleResult s t fd (double.ofInt m (uval s xs))))

/-- Sign injection takes rs2's sign, its inverse or the XOR of the two signs, and keeps every other bit of rs1's operand; the moves take
the raw bits; none raises a flag (R259, R273 to R275, R286, R287, R311 to R313, R330, R331). -/
def Obligations.SignInjectAndMoves : Prop :=
  ∀ (s : State) (fd rs1 rs2 : FReg) (rd xs : XReg),
    (let a := s.readS rs1
     let b := s.readS rs2
     let rest := a.extractLsb' 0 31
     (∃ t, exec (.fsgnjS fd rs1 rs2) s = .next t ∧ FResult s t fd (0xFFFFFFFF#32 ++ (b.extractLsb' 31 1 ++ rest)) 0) ∧
     (∃ t, exec (.fsgnjnS fd rs1 rs2) s = .next t ∧ FResult s t fd (0xFFFFFFFF#32 ++ (~~~(b.extractLsb' 31 1) ++ rest)) 0) ∧
     (∃ t, exec (.fsgnjxS fd rs1 rs2) s = .next t ∧
       FResult s t fd (0xFFFFFFFF#32 ++ ((a.extractLsb' 31 1 ^^^ b.extractLsb' 31 1) ++ rest)) 0)) ∧
    (let a := s.readD rs1
     let b := s.readD rs2
     let rest := a.extractLsb' 0 63
     (∃ t, exec (.fsgnjD fd rs1 rs2) s = .next t ∧ FResult s t fd (b.extractLsb' 63 1 ++ rest) 0) ∧
     (∃ t, exec (.fsgnjnD fd rs1 rs2) s = .next t ∧ FResult s t fd (~~~(b.extractLsb' 63 1) ++ rest) 0) ∧
     (∃ t, exec (.fsgnjxD fd rs1 rs2) s = .next t ∧
       FResult s t fd ((a.extractLsb' 63 1 ^^^ b.extractLsb' 63 1) ++ rest) 0)) ∧
    (∃ t, exec (.fmvXW rd rs1) s = .next t ∧ XResult s t rd (((s.readF rs1).toNat : Int).bmod (2 ^ 32)) 0) ∧
    (∃ t, exec (.fmvWX fd xs) s = .next t ∧ FResult s t fd (0xFFFFFFFF#32 ++ (s.readX xs).setWidth 32) 0) ∧
    (s.xlen = .x64 →
      (∃ t, exec (.fmvXD rd rs1) s = .next t ∧ XResult s t rd (s.readF rs1).toNat 0) ∧
      (∃ t, exec (.fmvDX fd xs) s = .next t ∧ FResult s t fd (s.readX xs) 0))

/-- The single-precision accessors: a write NaN-boxes, and a read gives the low half of a boxed register and the canonical quiet NaN of
any other (10_state.md R26). -/
def Obligations.NanBoxing : Prop :=
  ∀ (s : State) (r : FReg) (v : BitVec 32),
    (s.writeS r v).readF r = 0xFFFFFFFF#32 ++ v ∧
    ((s.readF r).extractLsb' 32 32 = 0xFFFFFFFF#32 → s.readS r = (s.readF r).extractLsb' 0 32) ∧
    ((s.readF r).extractLsb' 32 32 ≠ 0xFFFFFFFF#32 → s.readS r = 0x7FC00000)

/-! Floating-point results. -/

/-- The sum and the difference of two finite numbers are correctly rounded with their flags; an exact zero has the sign of two zeros of
one sign, else + but for RDN (R244 to R246, R251). -/
def Obligations.Sums : Prop :=
  ∀ (F : FpFormat) (mode : RoundMode) (a b : Nat), IsFormat F →
    (F.unpack a).isFinite = true → (F.unpack b).isFinite = true →
    let va := (F.unpack a).rat
    let vb := (F.unpack b).rat
    (va + vb ≠ 0 → CorrectlyRounded F mode ((va + vb : ℚ) : ℝ) (F.add mode a b)) ∧
    (va + vb = 0 → F.add mode a b =
      ⟨F.zero (if va = 0 ∧ F.signOf a = F.signOf b then F.signOf a else decide (mode = .rdn)), 0⟩) ∧
    (va - vb ≠ 0 → CorrectlyRounded F mode ((va - vb : ℚ) : ℝ) (F.sub mode a b)) ∧
    (va - vb = 0 → F.sub mode a b =
      ⟨F.zero (if va = 0 ∧ F.signOf a ≠ F.signOf b then F.signOf a else decide (mode = .rdn)), 0⟩)

/-- The product, the quotient and the square root of finite numbers are correctly rounded with their flags, the exact result rounded
once; a zero product or quotient has the XOR of the signs, and the root of a zero is that zero (R244 to R246, R251, R253). -/
def Obligations.ProductsQuotientsRoots : Prop :=
  ∀ (F : FpFormat) (mode : RoundMode) (a b : Nat), IsFormat F →
    (F.unpack a).isFinite = true → (F.unpack b).isFinite = true →
    let va := (F.unpack a).rat
    let vb := (F.unpack b).rat
    let sign := F.signOf a ^^ F.signOf b
    (va * vb ≠ 0 → CorrectlyRounded F mode ((va * vb : ℚ) : ℝ) (F.mul mode a b)) ∧
    (va * vb = 0 → F.mul mode a b = ⟨F.zero sign, 0⟩) ∧
    (va ≠ 0 → vb ≠ 0 → CorrectlyRounded F mode ((va / vb : ℚ) : ℝ) (F.div mode a b)) ∧
    (va = 0 → vb ≠ 0 → F.div mode a b = ⟨F.zero sign, 0⟩) ∧
    (0 < va → CorrectlyRounded F mode (Real.sqrt (va : ℝ)) (F.sqrt mode a)) ∧
    (va = 0 → F.sqrt mode a = ⟨F.zero (F.signOf a), 0⟩)

/-- The fused operation on finite numbers is (-1)^np * (a * b) + (-1)^nc * c, correctly rounded once with its flags; an exact zero has
the sign of R251 applied to the negated terms (R252). -/
def Obligations.FusedRounding : Prop :=
  ∀ (F : FpFormat) (np nc : Bool) (mode : RoundMode) (a b c : Nat), IsFormat F →
    (F.unpack a).isFinite = true → (F.unpack b).isFinite = true → (F.unpack c).isFinite = true →
    let p := (if np then -1 else 1) * ((F.unpack a).rat * (F.unpack b).rat)
    let q := (if nc then -1 else 1) * (F.unpack c).rat
    let sp := (F.signOf a ^^ F.signOf b) ^^ np
    let sq := F.signOf c ^^ nc
    (p + q ≠ 0 → CorrectlyRounded F mode ((p + q : ℚ) : ℝ) (F.fma np nc mode a b c)) ∧
    (p + q = 0 → F.fma np nc mode a b c = ⟨F.zero (if p = 0 ∧ sp = sq then sp else decide (mode = .rdn)), 0⟩)

/-- Conversions: an integer and a finite number are correctly rounded to the destination format, 0 to +0 and a zero to its sign, a
single to double exactly; a finite number to an integer is rounded by the mode and then tested against the range, NaNs and infinities
give the values of the table with NV (R257, R258; 47_float_double.md R316, R317). -/
def Obligations.ConversionsRounding : Prop :=
  ∀ (F G : FpFormat) (mode : RoundMode) (k : IntKind) (a : Nat) (n : Int), IsFormat F → IsFormat G →
    (n ≠ 0 → CorrectlyRounded G mode (n : ℝ) (G.ofInt mode n)) ∧ (G.ofInt mode 0 = ⟨G.zero false, 0⟩) ∧
    ((F.unpack a).isFinite = true →
      let v := (F.unpack a).rat
      (v ≠ 0 → CorrectlyRounded G mode (v : ℝ) (FpFormat.convert F G mode a)) ∧
      (v = 0 → FpFormat.convert F G mode a = ⟨G.zero (F.signOf a), 0⟩) ∧
      (F = single → G = double → (G.unpack (FpFormat.convert F G mode a).bits).rat = v ∧
        (FpFormat.convert F G mode a).flags = 0) ∧
      (RoundsTo mode (v : ℝ) n → F.toInt k mode a =
        if n < k.least then ⟨k.least, flagNV⟩ else if k.greatest < n then ⟨k.greatest, flagNV⟩
        else ⟨n, if (n : ℚ) = v then 0 else flagNX⟩)) ∧
    ((F.unpack a).isNaN = true → F.toInt k mode a = ⟨k.greatest, flagNV⟩) ∧
    ((F.unpack a).isInf = true → F.toInt k mode a = ⟨if F.signOf a then k.least else k.greatest, flagNV⟩)

/-- Operands that are not both finite, and division by zero: a NaN operand gives the canonical NaN, with NV where an operand is
signaling; infinities of opposite sign added, zero times infinity, 0/0, infinity over infinity and the root of a negative number give
it with NV; a finite nonzero number over zero is an infinity with DZ; the other results with an infinity are exact and raise no flag
(R247 to R249). -/
def Obligations.ExceptionalOperands : Prop :=
  ∀ (F : FpFormat) (mode : RoundMode) (np nc : Bool) (a b c : Nat),
    let A := F.unpack a
    let B := F.unpack b
    let C := F.unpack c
    let sign := F.signOf a ^^ F.signOf b
    let nan := fun (invalid : Bool) => (⟨F.canonicalNaN, if invalid then flagNV else 0⟩ : FpResult)
    (A.isNaN = true ∨ B.isNaN = true →
      F.add mode a b = nan (A.isSignaling || B.isSignaling) ∧ F.sub mode a b = nan (A.isSignaling || B.isSignaling) ∧
      F.mul mode a b = nan (A.isSignaling || B.isSignaling) ∧ F.div mode a b = nan (A.isSignaling || B.isSignaling)) ∧
    (A.isNaN = true → F.sqrt mode a = nan A.isSignaling ∧
      ∀ G : FpFormat, FpFormat.convert F G mode a = ⟨G.canonicalNaN, if A.isSignaling then flagNV else 0⟩) ∧
    (A.isInf = true → ∀ G : FpFormat, FpFormat.convert F G mode a = ⟨G.infinity (F.signOf a), 0⟩) ∧
    (A.isInf = true → B.isInf = true →
      F.add mode a b = (if F.signOf a = F.signOf b then ⟨F.infinity (F.signOf a), 0⟩ else nan true) ∧
      F.sub mode a b = (if F.signOf a ≠ F.signOf b then ⟨F.infinity (F.signOf a), 0⟩ else nan true) ∧
      F.mul mode a b = ⟨F.infinity sign, 0⟩ ∧ F.div mode a b = nan true) ∧
    (A.isInf = true → B.isFinite = true →
      F.add mode a b = ⟨F.infinity (F.signOf a), 0⟩ ∧ F.sub mode a b = ⟨F.infinity (F.signOf a), 0⟩ ∧
      F.mul mode a b = (if B.rat = 0 then nan true else ⟨F.infinity sign, 0⟩) ∧ F.div mode a b = ⟨F.infinity sign, 0⟩) ∧
    (A.isFinite = true → B.isInf = true →
      F.add mode a b = ⟨F.infinity (F.signOf b), 0⟩ ∧ F.sub mode a b = ⟨F.infinity (!F.signOf b), 0⟩ ∧
      F.mul mode a b = (if A.rat = 0 then nan true else ⟨F.infinity sign, 0⟩) ∧ F.div mode a b = ⟨F.zero sign, 0⟩) ∧
    (A.isFinite = true → B.isFinite = true → B.rat = 0 →
      F.div mode a b = if A.rat = 0 then nan true else ⟨F.infinity sign, flagDZ⟩) ∧
    (A.isFinite = true → A.rat < 0 → F.sqrt mode a = nan true) ∧
    (A.isInf = true → F.sqrt mode a = if F.signOf a then nan true else ⟨F.infinity false, 0⟩) ∧
    (let zeroInf := A.isInf = true ∧ B.isFinite = true ∧ B.rat = 0 ∨ B.isInf = true ∧ A.isFinite = true ∧ A.rat = 0
     let productInf := (A.isInf = true ∨ B.isInf = true) ∧ A.isNaN = false ∧ B.isNaN = false ∧ ¬ zeroInf
     (A.isSignaling = true ∨ B.isSignaling = true ∨ C.isSignaling = true ∨ zeroInf →
       F.fma np nc mode a b c = nan true) ∧
     (A.isNaN = true ∨ B.isNaN = true ∨ C.isNaN = true → A.isSignaling = false → B.isSignaling = false →
       C.isSignaling = false → ¬ zeroInf → F.fma np nc mode a b c = nan false) ∧
     (productInf → C.isInf = true → F.fma np nc mode a b c =
       if (sign ^^ np) = (F.signOf c ^^ nc) then ⟨F.infinity (sign ^^ np), 0⟩ else nan true) ∧
     (productInf → C.isFinite = true → F.fma np nc mode a b c = ⟨F.infinity (sign ^^ np), 0⟩) ∧
     (A.isFinite = true → B.isFinite = true → C.isInf = true → F.fma np nc mode a b c = ⟨F.infinity (F.signOf c ^^ nc), 0⟩))

/-- fmin and fmax return the smaller and the larger operand, -0 below +0, the other operand where exactly one is a NaN, and the canonical
NaN where both are, with NV for a signaling operand; feq, flt and fle answer =, < and <= of the numbers, never of a NaN, feq quiet and
the others signaling (R254, R255). -/
def Obligations.OrderOperations : Prop :=
  ∀ (F : FpFormat) (a b : Nat),
    let A := F.unpack a
    let B := F.unpack b
    let nv := fun (raised : Bool) => (if raised then flagNV else 0 : FFlags)
    let signaling := A.isSignaling || B.isSignaling
    let unordered := A.isNaN || B.isNaN
    (Below F b a → F.minimum a b = ⟨b, 0⟩ ∧ F.maximum a b = ⟨a, 0⟩) ∧
    (unordered = false → ¬ Below F b a → (F.minimum a b).bits = a ∧ (F.minimum a b).flags = 0) ∧
    (unordered = false → ¬ Below F a b → (F.maximum a b).bits = a ∧ (F.maximum a b).flags = 0) ∧
    (Below F a b → F.maximum a b = ⟨b, 0⟩) ∧
    (A.isNaN = true → B.isNaN = false → F.minimum a b = ⟨b, nv signaling⟩ ∧ F.maximum a b = ⟨b, nv signaling⟩) ∧
    (A.isNaN = false → B.isNaN = true → F.minimum a b = ⟨a, nv signaling⟩ ∧ F.maximum a b = ⟨a, nv signaling⟩) ∧
    (A.isNaN = true → B.isNaN = true →
      F.minimum a b = ⟨F.canonicalNaN, nv signaling⟩ ∧ F.maximum a b = ⟨F.canonicalNaN, nv signaling⟩) ∧
    ((F.eq a b).holds = true ↔ A.Equal B) ∧ (F.eq a b).flags = nv signaling ∧
    ((F.lt a b).holds = true ↔ A.Less B) ∧ (F.lt a b).flags = nv unordered ∧
    ((F.le a b).holds = true ↔ A.Less B ∨ A.Equal B) ∧ (F.le a b).flags = nv unordered

/-- fclass sets exactly the bit of the operand's class: the infinities, the normals (of a magnitude no less than the smallest normal), the
subnormals and the zeros of each sign, the signaling and the quiet NaN (R256). -/
def Obligations.Classification : Prop :=
  ∀ (F : FpFormat) (a : Nat), IsFormat F →
    let A := F.unpack a
    let bit := fun (k : Nat) => (F.classify a).toNat = 2 ^ k
    let normal := (2 : ℚ) ^ F.minExp
    (A.isInf = true → bit (if F.signOf a then 0 else 7)) ∧
    (A.isFinite = true → A.rat ≤ -normal → bit 1) ∧
    (A.isFinite = true → -normal < A.rat → A.rat < 0 → bit 2) ∧
    (A.isFinite = true → A.rat = 0 → bit (if F.signOf a then 3 else 4)) ∧
    (A.isFinite = true → 0 < A.rat → A.rat < normal → bit 5) ∧
    (A.isFinite = true → normal ≤ A.rat → bit 6) ∧
    (A.isNaN = true → bit (if A.isSignaling then 8 else 9))

/-- The two formats: the fields of a pattern, what each pattern stands for, and the patterns of the infinities, the largest finite
magnitudes, the zeros and the canonical NaN (R240, R241); the range of each integer kind of the conversions (R257) and the places of the
flags (10_state.md R29). The other statements name these values by the model's names. -/
def Obligations.FormatLayout : Prop :=
  (∀ v : BitVec 32, single.signOf v.toNat = v.msb ∧
    StandsFor (single.unpack v.toNat) v.msb (v.extractLsb' 23 8).toNat (v.extractLsb' 0 23).toNat 255 127 23) ∧
  (∀ v : BitVec 64, double.signOf v.toNat = v.msb ∧
    StandsFor (double.unpack v.toNat) v.msb (v.extractLsb' 52 11).toNat (v.extractLsb' 0 52).toNat 2047 1023 52) ∧
  (single.infinity false = 0x7F800000 ∧ single.infinity true = 0xFF800000 ∧ single.maxFinite false = 0x7F7FFFFF ∧
    single.maxFinite true = 0xFF7FFFFF ∧ single.zero false = 0 ∧ single.zero true = 0x80000000 ∧
    single.canonicalNaN = 0x7FC00000 ∧ single.fracBits = 23 ∧ single.bias = 127 ∧ single.minExp = -126 ∧ single.ulpExp = -149) ∧
  (double.infinity false = 0x7FF0000000000000 ∧ double.infinity true = 0xFFF0000000000000 ∧
    double.maxFinite false = 0x7FEFFFFFFFFFFFFF ∧ double.maxFinite true = 0xFFEFFFFFFFFFFFFF ∧ double.zero false = 0 ∧
    double.zero true = 0x8000000000000000 ∧ double.canonicalNaN = 0x7FF8000000000000 ∧ double.fracBits = 52 ∧
    double.bias = 1023 ∧ double.minExp = -1022 ∧ double.ulpExp = -1074) ∧
  (IntKind.w.least = -2147483648 ∧ IntKind.w.greatest = 2147483647 ∧ IntKind.wu.least = 0 ∧ IntKind.wu.greatest = 4294967295 ∧
    IntKind.l.least = -9223372036854775808 ∧ IntKind.l.greatest = 9223372036854775807 ∧ IntKind.lu.least = 0 ∧
    IntKind.lu.greatest = 18446744073709551615) ∧
  (flagNV = 0b10000#5 ∧ flagDZ = 0b01000#5 ∧ flagOF = 0b00100#5 ∧ flagUF = 0b00010#5 ∧ flagNX = 0b00001#5)
end

