-- ==== Sys2Proof/Laws/Decode.lean ====
section
/-! SUPPORT. The catalog is disjoint, so a row that hits a word is the row the decoder finds; and what each format of the
encoder puts where. -/

namespace Sys2Proof

/-! The catalog (30_encoding.md R104, R105). -/

/-- The table passes its construction checks (30_encoding.md R105). -/
theorem catalog_constructs : tableConstructs catalog = true := by decide +kernel

theorem catalog_length : catalog.length = 137 := by decide +kernel

theorem catalog_allDisjoint : allDisjoint catalog = true := by
  have h := catalog_constructs
  simp only [tableConstructs, Bool.and_eq_true] at h
  exact h.2

/-- Disjoint rows never hit one word (30_encoding.md R105 (c)). -/
theorem Row.not_both_hit {r q : Row} (h : r.disjoint q = true) {w : InstrWord} (hr : r.hits w = true) :
    q.hits w = false := by
  rw [Bool.eq_false_iff]
  intro hq
  simp only [Row.hits, beq_iff_eq] at hr hq
  simp only [Row.disjoint, bne_iff_ne, ne_eq] at h
  apply h
  rw [← hr, ← hq]
  ext i hi
  simp
  intro h1 h2
  simp_all

/-- In a list of pairwise disjoint rows, a row that hits a word is the one the search finds. -/
theorem find_of_mem_hits {rows : List Row} (hd : allDisjoint rows = true) {r : Row} (hr : r ∈ rows) {w : InstrWord}
    (hw : r.hits w = true) : rows.find? (fun q => q.hits w) = some r := by
  induction rows with
  | nil => cases hr
  | cons q qs ih =>
    simp only [allDisjoint, Bool.and_eq_true, List.all_eq_true] at hd
    rcases List.mem_cons.1 hr with rfl | hr'
    · exact List.find?_cons_of_pos (p := fun q => Row.hits q w) hw
    · have hq : q.hits w = false := by
        rw [Bool.eq_false_iff]
        intro hq
        have := Row.not_both_hit (hd.1 r hr') hq
        rw [this] at hw
        cases hw
      rw [List.find?_cons_of_neg (p := fun q => Row.hits q w) (by simp [hq]), ih hd.2 hr']

/-- The row that hits a word is the row of the lookup (30_encoding.md R104). -/
theorem findRow_of_hits {r : Row} (hr : r ∈ catalog) {w : InstrWord} (hw : r.hits w = true) : findRow w = some r :=
  find_of_mem_hits catalog_allDisjoint hr hw

theorem findRow_mem {w : InstrWord} {r : Row} (h : findRow w = some r) : r ∈ catalog ∧ r.hits w = true :=
  ⟨List.mem_of_find?_eq_some h, by simpa using List.find?_some h⟩

theorem decode_of_hits {r : Row} (hr : r ∈ catalog) {w : InstrWord} (hw : r.hits w = true) : decode w = some (r.instr w) := by
  simp [decode, findRow_of_hits hr hw]

/-- The lookup in terms of the row found. -/
theorem lookup_of_hits {r : Row} (hr : r ∈ catalog) {w : InstrWord} (hw : r.hits w = true) (x : XLen) :
    lookup x w = if r.appliesTo x then .descriptor (r.instr w) else .reserved (r.instr w) := by
  simp [lookup, findRow_of_hits hr hw]

/-! What each format holds (30_encoding.md R108). -/

section Fields

variable (f7 : BitVec 7) (rs3 rs2 rs1 : BitVec 5) (f2 : BitVec 2) (f3 : BitVec 3) (rd : BitVec 5) (op : BitVec 7)
variable (imm : BitVec 12) (imm20 : BitVec 20) (f6 sh : BitVec 6) (off : BitVec 13) (joff : BitVec 21)

@[simp] theorem encR_f7 : (encR f7 rs2 rs1 f3 rd op).extractLsb' 25 7 = f7 := by
  simp (disch := omega) only [encR, BitVec.extractLsb'_append_eq_of_le,
    BitVec.extractLsb'_eq_self, Nat.reduceSub]

@[simp] theorem encR_rs2 : (encR f7 rs2 rs1 f3 rd op).extractLsb' 20 5 = rs2 := by
  simp (disch := omega) only [encR, BitVec.extractLsb'_append_eq_of_le, BitVec.extractLsb'_append_eq_of_add_le,
    BitVec.extractLsb'_eq_self, Nat.reduceSub]

@[simp] theorem encR_rs1 : (encR f7 rs2 rs1 f3 rd op).extractLsb' 15 5 = rs1 := by
  simp (disch := omega) only [encR, BitVec.extractLsb'_append_eq_of_le, BitVec.extractLsb'_append_eq_of_add_le,
    BitVec.extractLsb'_eq_self, Nat.reduceSub]

@[simp] theorem encR_f3 : (encR f7 rs2 rs1 f3 rd op).extractLsb' 12 3 = f3 := by
  simp (disch := omega) only [encR, BitVec.extractLsb'_append_eq_of_le, BitVec.extractLsb'_append_eq_of_add_le,
    BitVec.extractLsb'_eq_self, Nat.reduceSub]

@[simp] theorem encR_rd : (encR f7 rs2 rs1 f3 rd op).extractLsb' 7 5 = rd := by
  simp (disch := omega) only [encR, BitVec.extractLsb'_append_eq_of_le, BitVec.extractLsb'_append_eq_of_add_le,
    BitVec.extractLsb'_eq_self, Nat.reduceSub]

@[simp] theorem encR4_rs3 : (encR4 rs3 f2 rs2 rs1 f3 rd op).extractLsb' 27 5 = rs3 := by
  simp (disch := omega) only [encR4, BitVec.extractLsb'_append_eq_of_le,
    BitVec.extractLsb'_eq_self, Nat.reduceSub]

@[simp] theorem encR4_rs2 : (encR4 rs3 f2 rs2 rs1 f3 rd op).extractLsb' 20 5 = rs2 := by
  simp (disch := omega) only [encR4, BitVec.extractLsb'_append_eq_of_le, BitVec.extractLsb'_append_eq_of_add_le,
    BitVec.extractLsb'_eq_self, Nat.reduceSub]

@[simp] theorem encR4_rs1 : (encR4 rs3 f2 rs2 rs1 f3 rd op).extractLsb' 15 5 = rs1 := by
  simp (disch := omega) only [encR4, BitVec.extractLsb'_append_eq_of_le, BitVec.extractLsb'_append_eq_of_add_le,
    BitVec.extractLsb'_eq_self, Nat.reduceSub]

@[simp] theorem encR4_f3 : (encR4 rs3 f2 rs2 rs1 f3 rd op).extractLsb' 12 3 = f3 := by
  simp (disch := omega) only [encR4, BitVec.extractLsb'_append_eq_of_le, BitVec.extractLsb'_append_eq_of_add_le,
    BitVec.extractLsb'_eq_self, Nat.reduceSub]

@[simp] theorem encR4_rd : (encR4 rs3 f2 rs2 rs1 f3 rd op).extractLsb' 7 5 = rd := by
  simp (disch := omega) only [encR4, BitVec.extractLsb'_append_eq_of_le, BitVec.extractLsb'_append_eq_of_add_le,
    BitVec.extractLsb'_eq_self, Nat.reduceSub]

@[simp] theorem encI_imm : (encI imm rs1 f3 rd op).extractLsb' 20 12 = imm := by
  simp (disch := omega) only [encI, BitVec.extractLsb'_append_eq_of_le,
    BitVec.extractLsb'_eq_self, Nat.reduceSub]

@[simp] theorem encI_rs1 : (encI imm rs1 f3 rd op).extractLsb' 15 5 = rs1 := by
  simp (disch := omega) only [encI, BitVec.extractLsb'_append_eq_of_le, BitVec.extractLsb'_append_eq_of_add_le,
    BitVec.extractLsb'_eq_self, Nat.reduceSub]

@[simp] theorem encI_rd : (encI imm rs1 f3 rd op).extractLsb' 7 5 = rd := by
  simp (disch := omega) only [encI, BitVec.extractLsb'_append_eq_of_le, BitVec.extractLsb'_append_eq_of_add_le,
    BitVec.extractLsb'_eq_self, Nat.reduceSub]

@[simp] theorem encSh_rs1 : (encSh f6 sh rs1 f3 rd op).extractLsb' 15 5 = rs1 := by
  simp (disch := omega) only [encSh, BitVec.extractLsb'_append_eq_of_le, BitVec.extractLsb'_append_eq_of_add_le,
    BitVec.extractLsb'_eq_self, Nat.reduceSub]

@[simp] theorem encSh_rd : (encSh f6 sh rs1 f3 rd op).extractLsb' 7 5 = rd := by
  simp (disch := omega) only [encSh, BitVec.extractLsb'_append_eq_of_le, BitVec.extractLsb'_append_eq_of_add_le,
    BitVec.extractLsb'_eq_self, Nat.reduceSub]

@[simp] theorem encU_imm20 : (encU imm20 rd op).extractLsb' 12 20 = imm20 := by
  simp (disch := omega) only [encU, BitVec.extractLsb'_append_eq_of_le,
    BitVec.extractLsb'_eq_self, Nat.reduceSub]

@[simp] theorem encU_rd : (encU imm20 rd op).extractLsb' 7 5 = rd := by
  simp (disch := omega) only [encU, BitVec.extractLsb'_append_eq_of_le, BitVec.extractLsb'_append_eq_of_add_le,
    BitVec.extractLsb'_eq_self, Nat.reduceSub]

@[simp] theorem encS_rs2 : (encS imm rs2 rs1 f3 op).extractLsb' 20 5 = rs2 := by
  simp (disch := omega) only [encS, BitVec.extractLsb'_append_eq_of_le, BitVec.extractLsb'_append_eq_of_add_le,
    BitVec.extractLsb'_eq_self, Nat.reduceSub]

@[simp] theorem encS_rs1 : (encS imm rs2 rs1 f3 op).extractLsb' 15 5 = rs1 := by
  simp (disch := omega) only [encS, BitVec.extractLsb'_append_eq_of_le, BitVec.extractLsb'_append_eq_of_add_le,
    BitVec.extractLsb'_eq_self, Nat.reduceSub]

@[simp] theorem encB_rs2 : (encB off rs2 rs1 f3 op).extractLsb' 20 5 = rs2 := by
  simp (disch := omega) only [encB, BitVec.extractLsb'_append_eq_of_le, BitVec.extractLsb'_append_eq_of_add_le,
    BitVec.extractLsb'_eq_self, Nat.reduceSub]

@[simp] theorem encB_rs1 : (encB off rs2 rs1 f3 op).extractLsb' 15 5 = rs1 := by
  simp (disch := omega) only [encB, BitVec.extractLsb'_append_eq_of_le, BitVec.extractLsb'_append_eq_of_add_le,
    BitVec.extractLsb'_eq_self, Nat.reduceSub]

@[simp] theorem encJ_rd : (encJ joff rd op).extractLsb' 7 5 = rd := by
  simp (disch := omega) only [encJ, BitVec.extractLsb'_append_eq_of_le, BitVec.extractLsb'_append_eq_of_add_le,
    BitVec.extractLsb'_eq_self, Nat.reduceSub]


/-- The pred field of a fence. -/
@[simp] theorem encI_pred (pred succ : BitVec 4) : (encI (0b0000#4 ++ pred ++ succ) rs1 f3 rd op).extractLsb' 24 4 = pred := by
  simp (disch := omega) only [encI, BitVec.extractLsb'_append_eq_of_le, BitVec.extractLsb'_append_eq_of_add_le,
    BitVec.extractLsb'_eq_self, Nat.reduceSub]

/-- The succ field of a fence. -/
@[simp] theorem encI_succ (pred succ : BitVec 4) : (encI (0b0000#4 ++ pred ++ succ) rs1 f3 rd op).extractLsb' 20 4 = succ := by
  simp (disch := omega) only [encI, BitVec.extractLsb'_append_eq_of_le, BitVec.extractLsb'_append_eq_of_add_le,
    BitVec.extractLsb'_eq_self, Nat.reduceSub]

/-! The other formats are the R format with their immediates cut at its fields. -/

theorem encI_eq_encR : encI imm rs1 f3 rd op = encR (imm.extractLsb' 5 7) (imm.extractLsb' 0 5) rs1 f3 rd op := by
  have h : imm.extractLsb' 5 7 ++ imm.extractLsb' 0 5 = imm := by
    rw [BitVec.extractLsb'_append_extractLsb'_eq_extractLsb' (by rfl), BitVec.extractLsb'_eq_self]
  simp only [encI, encR, h]

theorem encSh_eq_encR : encSh f6 sh rs1 f3 rd op = encR (f6 ++ sh.extractLsb' 5 1) (sh.extractLsb' 0 5) rs1 f3 rd op := by
  have h : f6 ++ sh.extractLsb' 5 1 ++ sh.extractLsb' 0 5 = f6 ++ sh := by
    refine BitVec.append_assoc.trans ?_
    rw [BitVec.extractLsb'_append_extractLsb'_eq_extractLsb' (by rfl), BitVec.extractLsb'_eq_self]
    rfl
  simp only [encSh, encR, h]

theorem encS_eq_encR : encS imm rs2 rs1 f3 op = encR (imm.extractLsb' 5 7) rs2 rs1 f3 (imm.extractLsb' 0 5) op := rfl

theorem encB_eq_encR : encB off rs2 rs1 f3 op =
    encR (off.extractLsb' 12 1 ++ off.extractLsb' 5 6) rs2 rs1 f3 (off.extractLsb' 1 4 ++ off.extractLsb' 11 1) op := by
  apply BitVec.eq_of_toNat_eq
  simp only [encB, encR, BitVec.toNat_append, Nat.shiftLeft_or_distrib, ← Nat.shiftLeft_add, Nat.or_assoc, Nat.add_assoc]

theorem encJ_eq_encU : encJ joff rd op =
    encU (joff.extractLsb' 20 1 ++ joff.extractLsb' 1 10 ++ joff.extractLsb' 11 1 ++ joff.extractLsb' 12 8) rd op := rfl

/-- The raw i field of two pieces is its pieces joined. -/
theorem ofNat_join (a : BitVec 7) (b : BitVec 5) : BitVec.ofNat 12 (a.toNat * 2 ^ 5 + b.toNat) = a ++ b := by
  apply BitVec.eq_of_toNat_eq
  have ha := a.isLt
  have hb := b.isLt
  rw [BitVec.toNat_append, ← Nat.shiftLeft_add_eq_or_of_lt hb, Nat.shiftLeft_eq, BitVec.toNat_ofNat,
    Nat.mod_eq_of_lt (by omega)]

theorem immS_join : imm.extractLsb' 5 7 ++ imm.extractLsb' 0 5 = imm := by
  rw [BitVec.extractLsb'_append_extractLsb'_eq_extractLsb' (by rfl), BitVec.extractLsb'_eq_self]

/-- The branch offset is put together from its pieces (30_encoding.md R110). -/
theorem immB_join (h : off.getLsbD 0 = false) :
    immB ((off.extractLsb' 12 1 ++ off.extractLsb' 5 6) ++ (off.extractLsb' 1 4 ++ off.extractLsb' 11 1)) = off := by
  have h' : off[0] = false := by simpa using h
  apply BitVec.eq_of_getLsbD_eq
  intro i hi
  simp only [immB, BitVec.getLsbD_append, BitVec.getLsbD_extractLsb', BitVec.getLsbD_zero]
  rcases (by omega : i = 0 ∨ i = 1 ∨ i = 2 ∨ i = 3 ∨ i = 4 ∨ i = 5 ∨ i = 6 ∨ i = 7 ∨ i = 8 ∨ i = 9 ∨ i = 10 ∨ i = 11 ∨
    i = 12) with rfl | rfl | rfl | rfl | rfl | rfl | rfl | rfl | rfl | rfl | rfl | rfl | rfl <;> simp [h']

/-- The jal offset is put together from its pieces (30_encoding.md R112). -/
theorem immJ_join (h : joff.getLsbD 0 = false) :
    immJ (joff.extractLsb' 20 1 ++ joff.extractLsb' 1 10 ++ joff.extractLsb' 11 1 ++ joff.extractLsb' 12 8) = joff := by
  have h' : joff[0] = false := by simpa using h
  apply BitVec.eq_of_getLsbD_eq
  intro i hi
  simp only [immJ, BitVec.getLsbD_append, BitVec.getLsbD_extractLsb', BitVec.getLsbD_zero]
  rcases (by omega : i = 0 ∨ i = 1 ∨ i = 2 ∨ i = 3 ∨ i = 4 ∨ i = 5 ∨ i = 6 ∨ i = 7 ∨ i = 8 ∨ i = 9 ∨ i = 10 ∨ i = 11 ∨
    i = 12 ∨ i = 13 ∨ i = 14 ∨ i = 15 ∨ i = 16 ∨ i = 17 ∨ i = 18 ∨ i = 19 ∨ i = 20) with
    rfl | rfl | rfl | rfl | rfl | rfl | rfl | rfl | rfl | rfl | rfl | rfl | rfl | rfl | rfl | rfl | rfl | rfl | rfl | rfl |
    rfl <;> simp [h']

/-! The shift amount is its bit 5 and its low bits (30_encoding.md R113). -/

theorem shamt_top (b : Bool) (h : sh.getLsbD 5 = b) : sh.extractLsb' 5 1 = BitVec.ofBool b := by
  subst h; ext i hi; simp [show i = 0 by omega]

theorem shamt_join (b : Bool) (h : sh.getLsbD 5 = b) : BitVec.ofBool b ++ sh.extractLsb' 0 5 = sh := by
  rw [← shamt_top sh b h, BitVec.extractLsb'_append_extractLsb'_eq_extractLsb' (by rfl), BitVec.extractLsb'_eq_self]

end Fields

/-! Which bits a mask keeps (30_encoding.md R101, R102). -/

theorem append6_and {n1 n2 n3 n4 n5 n6 : Nat} (a a' : BitVec n1) (b b' : BitVec n2) (c c' : BitVec n3) (d d' : BitVec n4)
    (e e' : BitVec n5) (f f' : BitVec n6) : (a ++ b ++ c ++ d ++ e ++ f) &&& (a' ++ b' ++ c' ++ d' ++ e' ++ f') =
      (a &&& a') ++ (b &&& b') ++ (c &&& c') ++ (d &&& d') ++ (e &&& e') ++ (f &&& f') := by
  simp only [BitVec.and_append]

theorem encR_and (f7 m7 : BitVec 7) (rs2 m2 rs1 m1 : BitVec 5) (f3 m3 : BitVec 3) (rd md : BitVec 5) (op mo : BitVec 7) :
    encR f7 rs2 rs1 f3 rd op &&& encR m7 m2 m1 m3 md mo =
      encR (f7 &&& m7) (rs2 &&& m2) (rs1 &&& m1) (f3 &&& m3) (rd &&& md) (op &&& mo) :=
  append6_and ..

theorem encR4_and (rs3 r3 : BitVec 5) (f2 m2 : BitVec 2) (rs2 r2 rs1 r1 : BitVec 5) (f3 m3 : BitVec 3) (rd md : BitVec 5)
    (op mo : BitVec 7) : encR4 rs3 f2 rs2 rs1 f3 rd op &&& encR4 r3 m2 r2 r1 m3 md mo =
      encR4 (rs3 &&& r3) (f2 &&& m2) (rs2 &&& r2) (rs1 &&& r1) (f3 &&& m3) (rd &&& md) (op &&& mo) := by
  simp only [encR4]
  exact BitVec.and_append.trans (congrArg (· ++ (op &&& mo)) (append6_and ..))
section Hits

variable {r : Row} {f7 : BitVec 7} {f3 : BitVec 3} {op : BitVec 7} {f2 : BitVec 2} {k2 : BitVec 5}
variable (rs3 rs2 rs1 rd : BitVec 5) (rm : BitVec 3) (hi : BitVec 7)

/-- opcode fixed. -/
theorem hits_op (hm : r.mask = 0x0000007F) (hv : r.value = encR 0 0 0 0 0 op) :
    r.hits (encR hi rs2 rs1 rm rd op) = true := by
  rw [show (0x0000007F : InstrWord) = encR 0#7 0#5 0#5 0#3 0#5 (BitVec.allOnes 7) from rfl] at hm
  rw [Row.hits, hm, hv, encR_and]
  simp only [BitVec.and_allOnes, BitVec.and_zero, BitVec.ofNat_eq_ofNat, beq_self_eq_true]

/-- funct3 and opcode fixed. -/
theorem hits_f3 (hm : r.mask = 0x0000707F) (hv : r.value = encR 0 0 0 f3 0 op) :
    r.hits (encR hi rs2 rs1 f3 rd op) = true := by
  rw [show (0x0000707F : InstrWord) = encR 0#7 0#5 0#5 (BitVec.allOnes 3) 0#5 (BitVec.allOnes 7) from rfl] at hm
  rw [Row.hits, hm, hv, encR_and]
  simp only [BitVec.and_allOnes, BitVec.and_zero, BitVec.ofNat_eq_ofNat, beq_self_eq_true]

/-- funct7, funct3 and opcode fixed. -/
theorem hits_f7f3 (hm : r.mask = 0xFE00707F) (hv : r.value = encR f7 0 0 f3 0 op) :
    r.hits (encR f7 rs2 rs1 f3 rd op) = true := by
  rw [show (0xFE00707F : InstrWord) = encR (BitVec.allOnes 7) 0#5 0#5 (BitVec.allOnes 3) 0#5 (BitVec.allOnes 7) from rfl] at hm
  rw [Row.hits, hm, hv, encR_and]
  simp only [BitVec.and_allOnes, BitVec.and_zero, BitVec.ofNat_eq_ofNat, beq_self_eq_true]

/-- funct7 and opcode fixed, rm free. -/
theorem hits_f7 (hm : r.mask = 0xFE00007F) (hv : r.value = encR f7 0 0 0 0 op) :
    r.hits (encR f7 rs2 rs1 rm rd op) = true := by
  rw [show (0xFE00007F : InstrWord) = encR (BitVec.allOnes 7) 0#5 0#5 0#3 0#5 (BitVec.allOnes 7) from rfl] at hm
  rw [Row.hits, hm, hv, encR_and]
  simp only [BitVec.and_allOnes, BitVec.and_zero, BitVec.ofNat_eq_ofNat, beq_self_eq_true]

/-- funct7, rs2 and opcode fixed, rm free. -/
theorem hits_f7k (hm : r.mask = 0xFFF0007F) (hv : r.value = encR f7 k2 0 0 0 op) :
    r.hits (encR f7 k2 rs1 rm rd op) = true := by
  rw [show (0xFFF0007F : InstrWord) = encR (BitVec.allOnes 7) (BitVec.allOnes 5) 0#5 0#3 0#5 (BitVec.allOnes 7) from rfl] at hm
  rw [Row.hits, hm, hv, encR_and]
  simp only [BitVec.and_allOnes, BitVec.and_zero, BitVec.ofNat_eq_ofNat, beq_self_eq_true]

/-- funct7, rs2, funct3 and opcode fixed. -/
theorem hits_f7kf3 (hm : r.mask = 0xFFF0707F) (hv : r.value = encR f7 k2 0 f3 0 op) :
    r.hits (encR f7 k2 rs1 f3 rd op) = true := by
  rw [show (0xFFF0707F : InstrWord) =
    encR (BitVec.allOnes 7) (BitVec.allOnes 5) 0#5 (BitVec.allOnes 3) 0#5 (BitVec.allOnes 7) from rfl] at hm
  rw [Row.hits, hm, hv, encR_and]
  simp only [BitVec.and_allOnes, BitVec.and_zero, BitVec.ofNat_eq_ofNat, beq_self_eq_true]

/-- fmt and opcode fixed, rm free (R4). -/
theorem hits_R4 (hm : r.mask = 0x0600007F) (hv : r.value = encR4 0 f2 0 0 0 0 op) :
    r.hits (encR4 rs3 f2 rs2 rs1 rm rd op) = true := by
  rw [show (0x0600007F : InstrWord) = encR4 0#5 (BitVec.allOnes 2) 0#5 0#5 0#3 0#5 (BitVec.allOnes 7) from rfl] at hm
  rw [Row.hits, hm, hv, encR4_and]
  simp only [BitVec.and_allOnes, BitVec.and_zero, BitVec.ofNat_eq_ofNat, beq_self_eq_true]

/-- All but pred and succ fixed (43_loadstore.md R197). -/
theorem hits_fence (pred succ : BitVec 4) (hm : r.mask = 0xF00FFFFF) (hv : r.value = 0x0000000F) :
    r.hits (encode (.fence pred succ)) = true := by
  have h : ∀ p q : BitVec 4, encode (.fence p q) &&& 0xF00FFFFF = 0x0000000F := by decide +kernel
  rw [Row.hits, hm, hv, h]
  rfl

end Hits

theorem encU_eq_encR (imm20 : BitVec 20) (rd : BitVec 5) (op : BitVec 7) : encU imm20 rd op =
    encR (imm20.extractLsb' 13 7) (imm20.extractLsb' 8 5) (imm20.extractLsb' 3 5) (imm20.extractLsb' 0 3) rd op := by
  have h : imm20.extractLsb' 13 7 ++ imm20.extractLsb' 8 5 ++ imm20.extractLsb' 3 5 ++ imm20.extractLsb' 0 3 = imm20 := by
    rw [BitVec.extractLsb'_append_extractLsb'_eq_extractLsb' (by rfl),
      BitVec.extractLsb'_append_extractLsb'_eq_extractLsb' (by rfl),
      BitVec.extractLsb'_append_extractLsb'_eq_extractLsb' (by rfl), BitVec.extractLsb'_eq_self]
  simp only [encU, encR, h]

end Sys2Proof
end

