-- ==== Sys2Proof/Laws/PerInstr.lean ====
section
/-! SUPPORT. Per instruction: its word is hit by a row of the catalog, and that row reads every operand back. -/

namespace Sys2Proof

set_option Elab.async false

/-- A well-formed instruction's word is hit by a row of the catalog that reads the instruction back
(30_encoding.md R102, R103). -/
def Laws.EncodedRow.Statement (i : Instr) : Prop :=
  i.wellFormed = true → ∃ r ∈ catalog, r.hits (encode i) = true ∧ r.instr (encode i) = i

namespace Laws.EncodedRow

theorem lui rd imm : Statement (Instr.lui rd imm) := by
  intro _
  refine ⟨_, List.mem_of_getElem? (i := 0) rfl, ?_, ?_⟩
  · rw [encode, encU_eq_encR]; exact hits_op _ _ _ _ _ rfl rfl
  · simp only [Row.instr, RawFields.reg, encode, decodeFields, rawFieldFrom, templateWidth, Piece.width, reduceCtorEq, if_true,
    if_false, Nat.zero_mul, Nat.zero_add, Nat.reduceAdd, BitVec.ofNat_toNat, BitVec.setWidth_eq, encU_imm20, encU_rd]

theorem auipc rd imm : Statement (Instr.auipc rd imm) := by
  intro _
  refine ⟨_, List.mem_of_getElem? (i := 1) rfl, ?_, ?_⟩
  · rw [encode, encU_eq_encR]; exact hits_op _ _ _ _ _ rfl rfl
  · simp only [Row.instr, RawFields.reg, encode, decodeFields, rawFieldFrom, templateWidth, Piece.width, reduceCtorEq, if_true,
    if_false, Nat.zero_mul, Nat.zero_add, Nat.reduceAdd, BitVec.ofNat_toNat, BitVec.setWidth_eq, encU_imm20, encU_rd]

theorem jal rd off : Statement (Instr.jal rd off) := by
  intro h
  have h0 : off.getLsbD 0 = false := by simpa [Instr.wellFormed] using h
  refine ⟨_, List.mem_of_getElem? (i := 33) rfl, ?_, ?_⟩
  · rw [encode, encJ_eq_encU, encU_eq_encR]; exact hits_op _ _ _ _ _ rfl rfl
  · simp only [Row.instr, RawFields.reg, encode, decodeFields, rawFieldFrom, templateWidth, Piece.width, reduceCtorEq, if_true,
    if_false, Nat.zero_mul, Nat.zero_add, Nat.reduceAdd, BitVec.ofNat_toNat, BitVec.setWidth_eq, encJ_eq_encU, encU_imm20, encU_rd, immJ_join off h0]

theorem jalr rd rs1 imm : Statement (Instr.jalr rd rs1 imm) := by
  intro _
  refine ⟨_, List.mem_of_getElem? (i := 34) rfl, ?_, ?_⟩
  · rw [encode, encI_eq_encR]; exact hits_f3 _ _ _ _ rfl rfl
  · simp only [Row.instr, RawFields.reg, encode, decodeFields, rawFieldFrom, templateWidth, Piece.width, reduceCtorEq, if_true,
    if_false, Nat.zero_mul, Nat.zero_add, Nat.reduceAdd, BitVec.ofNat_toNat, BitVec.setWidth_eq, encI_imm, encI_rs1, encI_rd]

theorem beq rs1 rs2 off : Statement (Instr.beq rs1 rs2 off) := by
  intro h
  have h0 : off.getLsbD 0 = false := by simpa [Instr.wellFormed] using h
  refine ⟨_, List.mem_of_getElem? (i := 35) rfl, ?_, ?_⟩
  · rw [encode, encB_eq_encR]; exact hits_f3 _ _ _ _ rfl rfl
  · simp only [Row.instr, RawFields.reg, encode, decodeFields, rawFieldFrom, templateWidth, Piece.width, reduceCtorEq, if_true,
    if_false, Nat.zero_mul, Nat.zero_add, Nat.reduceAdd, BitVec.ofNat_toNat, BitVec.setWidth_eq, encB_eq_encR, encR_f7, encR_rs2, encR_rs1, encR_rd, ofNat_join,
    immB_join off h0]

theorem bne rs1 rs2 off : Statement (Instr.bne rs1 rs2 off) := by
  intro h
  have h0 : off.getLsbD 0 = false := by simpa [Instr.wellFormed] using h
  refine ⟨_, List.mem_of_getElem? (i := 36) rfl, ?_, ?_⟩
  · rw [encode, encB_eq_encR]; exact hits_f3 _ _ _ _ rfl rfl
  · simp only [Row.instr, RawFields.reg, encode, decodeFields, rawFieldFrom, templateWidth, Piece.width, reduceCtorEq, if_true,
    if_false, Nat.zero_mul, Nat.zero_add, Nat.reduceAdd, BitVec.ofNat_toNat, BitVec.setWidth_eq, encB_eq_encR, encR_f7, encR_rs2, encR_rs1, encR_rd, ofNat_join,
    immB_join off h0]

theorem blt rs1 rs2 off : Statement (Instr.blt rs1 rs2 off) := by
  intro h
  have h0 : off.getLsbD 0 = false := by simpa [Instr.wellFormed] using h
  refine ⟨_, List.mem_of_getElem? (i := 37) rfl, ?_, ?_⟩
  · rw [encode, encB_eq_encR]; exact hits_f3 _ _ _ _ rfl rfl
  · simp only [Row.instr, RawFields.reg, encode, decodeFields, rawFieldFrom, templateWidth, Piece.width, reduceCtorEq, if_true,
    if_false, Nat.zero_mul, Nat.zero_add, Nat.reduceAdd, BitVec.ofNat_toNat, BitVec.setWidth_eq, encB_eq_encR, encR_f7, encR_rs2, encR_rs1, encR_rd, ofNat_join,
    immB_join off h0]

theorem bge rs1 rs2 off : Statement (Instr.bge rs1 rs2 off) := by
  intro h
  have h0 : off.getLsbD 0 = false := by simpa [Instr.wellFormed] using h
  refine ⟨_, List.mem_of_getElem? (i := 38) rfl, ?_, ?_⟩
  · rw [encode, encB_eq_encR]; exact hits_f3 _ _ _ _ rfl rfl
  · simp only [Row.instr, RawFields.reg, encode, decodeFields, rawFieldFrom, templateWidth, Piece.width, reduceCtorEq, if_true,
    if_false, Nat.zero_mul, Nat.zero_add, Nat.reduceAdd, BitVec.ofNat_toNat, BitVec.setWidth_eq, encB_eq_encR, encR_f7, encR_rs2, encR_rs1, encR_rd, ofNat_join,
    immB_join off h0]

theorem bltu rs1 rs2 off : Statement (Instr.bltu rs1 rs2 off) := by
  intro h
  have h0 : off.getLsbD 0 = false := by simpa [Instr.wellFormed] using h
  refine ⟨_, List.mem_of_getElem? (i := 39) rfl, ?_, ?_⟩
  · rw [encode, encB_eq_encR]; exact hits_f3 _ _ _ _ rfl rfl
  · simp only [Row.instr, RawFields.reg, encode, decodeFields, rawFieldFrom, templateWidth, Piece.width, reduceCtorEq, if_true,
    if_false, Nat.zero_mul, Nat.zero_add, Nat.reduceAdd, BitVec.ofNat_toNat, BitVec.setWidth_eq, encB_eq_encR, encR_f7, encR_rs2, encR_rs1, encR_rd, ofNat_join,
    immB_join off h0]

theorem bgeu rs1 rs2 off : Statement (Instr.bgeu rs1 rs2 off) := by
  intro h
  have h0 : off.getLsbD 0 = false := by simpa [Instr.wellFormed] using h
  refine ⟨_, List.mem_of_getElem? (i := 40) rfl, ?_, ?_⟩
  · rw [encode, encB_eq_encR]; exact hits_f3 _ _ _ _ rfl rfl
  · simp only [Row.instr, RawFields.reg, encode, decodeFields, rawFieldFrom, templateWidth, Piece.width, reduceCtorEq, if_true,
    if_false, Nat.zero_mul, Nat.zero_add, Nat.reduceAdd, BitVec.ofNat_toNat, BitVec.setWidth_eq, encB_eq_encR, encR_f7, encR_rs2, encR_rs1, encR_rd, ofNat_join,
    immB_join off h0]

theorem lb rd rs1 imm : Statement (Instr.lb rd rs1 imm) := by
  intro _
  refine ⟨_, List.mem_of_getElem? (i := 41) rfl, ?_, ?_⟩
  · rw [encode, encI_eq_encR]; exact hits_f3 _ _ _ _ rfl rfl
  · simp only [Row.instr, RawFields.reg, encode, decodeFields, rawFieldFrom, templateWidth, Piece.width, reduceCtorEq, if_true,
    if_false, Nat.zero_mul, Nat.zero_add, Nat.reduceAdd, BitVec.ofNat_toNat, BitVec.setWidth_eq, encI_imm, encI_rs1, encI_rd]

theorem lh rd rs1 imm : Statement (Instr.lh rd rs1 imm) := by
  intro _
  refine ⟨_, List.mem_of_getElem? (i := 42) rfl, ?_, ?_⟩
  · rw [encode, encI_eq_encR]; exact hits_f3 _ _ _ _ rfl rfl
  · simp only [Row.instr, RawFields.reg, encode, decodeFields, rawFieldFrom, templateWidth, Piece.width, reduceCtorEq, if_true,
    if_false, Nat.zero_mul, Nat.zero_add, Nat.reduceAdd, BitVec.ofNat_toNat, BitVec.setWidth_eq, encI_imm, encI_rs1, encI_rd]

theorem lw rd rs1 imm : Statement (Instr.lw rd rs1 imm) := by
  intro _
  refine ⟨_, List.mem_of_getElem? (i := 43) rfl, ?_, ?_⟩
  · rw [encode, encI_eq_encR]; exact hits_f3 _ _ _ _ rfl rfl
  · simp only [Row.instr, RawFields.reg, encode, decodeFields, rawFieldFrom, templateWidth, Piece.width, reduceCtorEq, if_true,
    if_false, Nat.zero_mul, Nat.zero_add, Nat.reduceAdd, BitVec.ofNat_toNat, BitVec.setWidth_eq, encI_imm, encI_rs1, encI_rd]

theorem lbu rd rs1 imm : Statement (Instr.lbu rd rs1 imm) := by
  intro _
  refine ⟨_, List.mem_of_getElem? (i := 44) rfl, ?_, ?_⟩
  · rw [encode, encI_eq_encR]; exact hits_f3 _ _ _ _ rfl rfl
  · simp only [Row.instr, RawFields.reg, encode, decodeFields, rawFieldFrom, templateWidth, Piece.width, reduceCtorEq, if_true,
    if_false, Nat.zero_mul, Nat.zero_add, Nat.reduceAdd, BitVec.ofNat_toNat, BitVec.setWidth_eq, encI_imm, encI_rs1, encI_rd]

theorem lhu rd rs1 imm : Statement (Instr.lhu rd rs1 imm) := by
  intro _
  refine ⟨_, List.mem_of_getElem? (i := 45) rfl, ?_, ?_⟩
  · rw [encode, encI_eq_encR]; exact hits_f3 _ _ _ _ rfl rfl
  · simp only [Row.instr, RawFields.reg, encode, decodeFields, rawFieldFrom, templateWidth, Piece.width, reduceCtorEq, if_true,
    if_false, Nat.zero_mul, Nat.zero_add, Nat.reduceAdd, BitVec.ofNat_toNat, BitVec.setWidth_eq, encI_imm, encI_rs1, encI_rd]

theorem lwu rd rs1 imm : Statement (Instr.lwu rd rs1 imm) := by
  intro _
  refine ⟨_, List.mem_of_getElem? (i := 46) rfl, ?_, ?_⟩
  · rw [encode, encI_eq_encR]; exact hits_f3 _ _ _ _ rfl rfl
  · simp only [Row.instr, RawFields.reg, encode, decodeFields, rawFieldFrom, templateWidth, Piece.width, reduceCtorEq, if_true,
    if_false, Nat.zero_mul, Nat.zero_add, Nat.reduceAdd, BitVec.ofNat_toNat, BitVec.setWidth_eq, encI_imm, encI_rs1, encI_rd]

theorem ld rd rs1 imm : Statement (Instr.ld rd rs1 imm) := by
  intro _
  refine ⟨_, List.mem_of_getElem? (i := 47) rfl, ?_, ?_⟩
  · rw [encode, encI_eq_encR]; exact hits_f3 _ _ _ _ rfl rfl
  · simp only [Row.instr, RawFields.reg, encode, decodeFields, rawFieldFrom, templateWidth, Piece.width, reduceCtorEq, if_true,
    if_false, Nat.zero_mul, Nat.zero_add, Nat.reduceAdd, BitVec.ofNat_toNat, BitVec.setWidth_eq, encI_imm, encI_rs1, encI_rd]

theorem sb rs1 rs2 imm : Statement (Instr.sb rs1 rs2 imm) := by
  intro _
  refine ⟨_, List.mem_of_getElem? (i := 48) rfl, hits_f3 _ _ _ _ rfl rfl, ?_⟩
  simp only [Row.instr, RawFields.reg, encode, decodeFields, rawFieldFrom, templateWidth, Piece.width, reduceCtorEq, if_true,
    if_false, Nat.zero_mul, Nat.zero_add, Nat.reduceAdd, BitVec.ofNat_toNat, BitVec.setWidth_eq, encS_eq_encR, encR_f7, encR_rs2, encR_rs1, encR_rd, ofNat_join, immS_join]

theorem sh rs1 rs2 imm : Statement (Instr.sh rs1 rs2 imm) := by
  intro _
  refine ⟨_, List.mem_of_getElem? (i := 49) rfl, hits_f3 _ _ _ _ rfl rfl, ?_⟩
  simp only [Row.instr, RawFields.reg, encode, decodeFields, rawFieldFrom, templateWidth, Piece.width, reduceCtorEq, if_true,
    if_false, Nat.zero_mul, Nat.zero_add, Nat.reduceAdd, BitVec.ofNat_toNat, BitVec.setWidth_eq, encS_eq_encR, encR_f7, encR_rs2, encR_rs1, encR_rd, ofNat_join, immS_join]

theorem sw rs1 rs2 imm : Statement (Instr.sw rs1 rs2 imm) := by
  intro _
  refine ⟨_, List.mem_of_getElem? (i := 50) rfl, hits_f3 _ _ _ _ rfl rfl, ?_⟩
  simp only [Row.instr, RawFields.reg, encode, decodeFields, rawFieldFrom, templateWidth, Piece.width, reduceCtorEq, if_true,
    if_false, Nat.zero_mul, Nat.zero_add, Nat.reduceAdd, BitVec.ofNat_toNat, BitVec.setWidth_eq, encS_eq_encR, encR_f7, encR_rs2, encR_rs1, encR_rd, ofNat_join, immS_join]

theorem sd rs1 rs2 imm : Statement (Instr.sd rs1 rs2 imm) := by
  intro _
  refine ⟨_, List.mem_of_getElem? (i := 51) rfl, hits_f3 _ _ _ _ rfl rfl, ?_⟩
  simp only [Row.instr, RawFields.reg, encode, decodeFields, rawFieldFrom, templateWidth, Piece.width, reduceCtorEq, if_true,
    if_false, Nat.zero_mul, Nat.zero_add, Nat.reduceAdd, BitVec.ofNat_toNat, BitVec.setWidth_eq, encS_eq_encR, encR_f7, encR_rs2, encR_rs1, encR_rd, ofNat_join, immS_join]

theorem addi rd rs1 imm : Statement (Instr.addi rd rs1 imm) := by
  intro _
  refine ⟨_, List.mem_of_getElem? (i := 2) rfl, ?_, ?_⟩
  · rw [encode, encI_eq_encR]; exact hits_f3 _ _ _ _ rfl rfl
  · simp only [Row.instr, RawFields.reg, encode, decodeFields, rawFieldFrom, templateWidth, Piece.width, reduceCtorEq, if_true,
    if_false, Nat.zero_mul, Nat.zero_add, Nat.reduceAdd, BitVec.ofNat_toNat, BitVec.setWidth_eq, encI_imm, encI_rs1, encI_rd]

theorem slti rd rs1 imm : Statement (Instr.slti rd rs1 imm) := by
  intro _
  refine ⟨_, List.mem_of_getElem? (i := 3) rfl, ?_, ?_⟩
  · rw [encode, encI_eq_encR]; exact hits_f3 _ _ _ _ rfl rfl
  · simp only [Row.instr, RawFields.reg, encode, decodeFields, rawFieldFrom, templateWidth, Piece.width, reduceCtorEq, if_true,
    if_false, Nat.zero_mul, Nat.zero_add, Nat.reduceAdd, BitVec.ofNat_toNat, BitVec.setWidth_eq, encI_imm, encI_rs1, encI_rd]

theorem sltiu rd rs1 imm : Statement (Instr.sltiu rd rs1 imm) := by
  intro _
  refine ⟨_, List.mem_of_getElem? (i := 4) rfl, ?_, ?_⟩
  · rw [encode, encI_eq_encR]; exact hits_f3 _ _ _ _ rfl rfl
  · simp only [Row.instr, RawFields.reg, encode, decodeFields, rawFieldFrom, templateWidth, Piece.width, reduceCtorEq, if_true,
    if_false, Nat.zero_mul, Nat.zero_add, Nat.reduceAdd, BitVec.ofNat_toNat, BitVec.setWidth_eq, encI_imm, encI_rs1, encI_rd]

theorem xori rd rs1 imm : Statement (Instr.xori rd rs1 imm) := by
  intro _
  refine ⟨_, List.mem_of_getElem? (i := 5) rfl, ?_, ?_⟩
  · rw [encode, encI_eq_encR]; exact hits_f3 _ _ _ _ rfl rfl
  · simp only [Row.instr, RawFields.reg, encode, decodeFields, rawFieldFrom, templateWidth, Piece.width, reduceCtorEq, if_true,
    if_false, Nat.zero_mul, Nat.zero_add, Nat.reduceAdd, BitVec.ofNat_toNat, BitVec.setWidth_eq, encI_imm, encI_rs1, encI_rd]

theorem ori rd rs1 imm : Statement (Instr.ori rd rs1 imm) := by
  intro _
  refine ⟨_, List.mem_of_getElem? (i := 6) rfl, ?_, ?_⟩
  · rw [encode, encI_eq_encR]; exact hits_f3 _ _ _ _ rfl rfl
  · simp only [Row.instr, RawFields.reg, encode, decodeFields, rawFieldFrom, templateWidth, Piece.width, reduceCtorEq, if_true,
    if_false, Nat.zero_mul, Nat.zero_add, Nat.reduceAdd, BitVec.ofNat_toNat, BitVec.setWidth_eq, encI_imm, encI_rs1, encI_rd]

theorem andi rd rs1 imm : Statement (Instr.andi rd rs1 imm) := by
  intro _
  refine ⟨_, List.mem_of_getElem? (i := 7) rfl, ?_, ?_⟩
  · rw [encode, encI_eq_encR]; exact hits_f3 _ _ _ _ rfl rfl
  · simp only [Row.instr, RawFields.reg, encode, decodeFields, rawFieldFrom, templateWidth, Piece.width, reduceCtorEq, if_true,
    if_false, Nat.zero_mul, Nat.zero_add, Nat.reduceAdd, BitVec.ofNat_toNat, BitVec.setWidth_eq, encI_imm, encI_rs1, encI_rd]

theorem slli rd rs1 shamt : Statement (Instr.slli rd rs1 shamt) := by
  intro h
  have h0 : shamt.getLsbD 5 = false := by simpa [Instr.wellFormed] using h
  have hs : 0#1 ++ shamt.extractLsb' 0 5 = shamt := shamt_join shamt false h0
  have h7 : shamt.extractLsb' 5 1 = 0#1 := shamt_top shamt false h0
  refine ⟨_, List.mem_of_getElem? (i := 8) rfl, ?_, ?_⟩
  · rw [encode, encSh_eq_encR, h7]; exact hits_f7f3 _ _ _ rfl rfl
  · simp only [Row.instr, RawFields.reg, encode, decodeFields, rawFieldFrom, templateWidth, Piece.width, reduceCtorEq, if_true,
    if_false, Nat.zero_mul, Nat.zero_add, Nat.reduceAdd, BitVec.ofNat_toNat, BitVec.setWidth_eq, encSh_eq_encR, encR_rs2, encR_rs1, encR_rd, hs]

theorem srli rd rs1 shamt : Statement (Instr.srli rd rs1 shamt) := by
  intro h
  have h0 : shamt.getLsbD 5 = false := by simpa [Instr.wellFormed] using h
  have hs : 0#1 ++ shamt.extractLsb' 0 5 = shamt := shamt_join shamt false h0
  have h7 : shamt.extractLsb' 5 1 = 0#1 := shamt_top shamt false h0
  refine ⟨_, List.mem_of_getElem? (i := 9) rfl, ?_, ?_⟩
  · rw [encode, encSh_eq_encR, h7]; exact hits_f7f3 _ _ _ rfl rfl
  · simp only [Row.instr, RawFields.reg, encode, decodeFields, rawFieldFrom, templateWidth, Piece.width, reduceCtorEq, if_true,
    if_false, Nat.zero_mul, Nat.zero_add, Nat.reduceAdd, BitVec.ofNat_toNat, BitVec.setWidth_eq, encSh_eq_encR, encR_rs2, encR_rs1, encR_rd, hs]

theorem srai rd rs1 shamt : Statement (Instr.srai rd rs1 shamt) := by
  intro h
  have h0 : shamt.getLsbD 5 = false := by simpa [Instr.wellFormed] using h
  have hs : 0#1 ++ shamt.extractLsb' 0 5 = shamt := shamt_join shamt false h0
  have h7 : shamt.extractLsb' 5 1 = 0#1 := shamt_top shamt false h0
  refine ⟨_, List.mem_of_getElem? (i := 10) rfl, ?_, ?_⟩
  · rw [encode, encSh_eq_encR, h7]; exact hits_f7f3 _ _ _ rfl rfl
  · simp only [Row.instr, RawFields.reg, encode, decodeFields, rawFieldFrom, templateWidth, Piece.width, reduceCtorEq, if_true,
    if_false, Nat.zero_mul, Nat.zero_add, Nat.reduceAdd, BitVec.ofNat_toNat, BitVec.setWidth_eq, encSh_eq_encR, encR_rs2, encR_rs1, encR_rd, hs]

theorem slliHi rd rs1 shamt : Statement (Instr.slliHi rd rs1 shamt) := by
  intro h
  have h0 : shamt.getLsbD 5 = true := by simpa [Instr.wellFormed] using h
  have hs : 1#1 ++ shamt.extractLsb' 0 5 = shamt := shamt_join shamt true h0
  have h7 : shamt.extractLsb' 5 1 = 1#1 := shamt_top shamt true h0
  refine ⟨_, List.mem_of_getElem? (i := 11) rfl, ?_, ?_⟩
  · rw [encode, encSh_eq_encR, h7]; exact hits_f7f3 _ _ _ rfl rfl
  · simp only [Row.instr, RawFields.reg, encode, decodeFields, rawFieldFrom, templateWidth, Piece.width, reduceCtorEq, if_true,
    if_false, Nat.zero_mul, Nat.zero_add, Nat.reduceAdd, BitVec.ofNat_toNat, BitVec.setWidth_eq, encSh_eq_encR, encR_rs2, encR_rs1, encR_rd, hs]

theorem srliHi rd rs1 shamt : Statement (Instr.srliHi rd rs1 shamt) := by
  intro h
  have h0 : shamt.getLsbD 5 = true := by simpa [Instr.wellFormed] using h
  have hs : 1#1 ++ shamt.extractLsb' 0 5 = shamt := shamt_join shamt true h0
  have h7 : shamt.extractLsb' 5 1 = 1#1 := shamt_top shamt true h0
  refine ⟨_, List.mem_of_getElem? (i := 12) rfl, ?_, ?_⟩
  · rw [encode, encSh_eq_encR, h7]; exact hits_f7f3 _ _ _ rfl rfl
  · simp only [Row.instr, RawFields.reg, encode, decodeFields, rawFieldFrom, templateWidth, Piece.width, reduceCtorEq, if_true,
    if_false, Nat.zero_mul, Nat.zero_add, Nat.reduceAdd, BitVec.ofNat_toNat, BitVec.setWidth_eq, encSh_eq_encR, encR_rs2, encR_rs1, encR_rd, hs]

theorem sraiHi rd rs1 shamt : Statement (Instr.sraiHi rd rs1 shamt) := by
  intro h
  have h0 : shamt.getLsbD 5 = true := by simpa [Instr.wellFormed] using h
  have hs : 1#1 ++ shamt.extractLsb' 0 5 = shamt := shamt_join shamt true h0
  have h7 : shamt.extractLsb' 5 1 = 1#1 := shamt_top shamt true h0
  refine ⟨_, List.mem_of_getElem? (i := 13) rfl, ?_, ?_⟩
  · rw [encode, encSh_eq_encR, h7]; exact hits_f7f3 _ _ _ rfl rfl
  · simp only [Row.instr, RawFields.reg, encode, decodeFields, rawFieldFrom, templateWidth, Piece.width, reduceCtorEq, if_true,
    if_false, Nat.zero_mul, Nat.zero_add, Nat.reduceAdd, BitVec.ofNat_toNat, BitVec.setWidth_eq, encSh_eq_encR, encR_rs2, encR_rs1, encR_rd, hs]

theorem add rd rs1 rs2 : Statement (Instr.add rd rs1 rs2) := by
  intro _
  refine ⟨_, List.mem_of_getElem? (i := 14) rfl, hits_f7f3 _ _ _ rfl rfl, ?_⟩
  simp only [Row.instr, RawFields.reg, encode, decodeFields, rawFieldFrom, templateWidth, Piece.width, reduceCtorEq, if_true,
    if_false, Nat.zero_mul, Nat.zero_add, Nat.reduceAdd, BitVec.ofNat_toNat, BitVec.setWidth_eq, encR_rs2, encR_rs1, encR_rd]

theorem sub rd rs1 rs2 : Statement (Instr.sub rd rs1 rs2) := by
  intro _
  refine ⟨_, List.mem_of_getElem? (i := 15) rfl, hits_f7f3 _ _ _ rfl rfl, ?_⟩
  simp only [Row.instr, RawFields.reg, encode, decodeFields, rawFieldFrom, templateWidth, Piece.width, reduceCtorEq, if_true,
    if_false, Nat.zero_mul, Nat.zero_add, Nat.reduceAdd, BitVec.ofNat_toNat, BitVec.setWidth_eq, encR_rs2, encR_rs1, encR_rd]

theorem sll rd rs1 rs2 : Statement (Instr.sll rd rs1 rs2) := by
  intro _
  refine ⟨_, List.mem_of_getElem? (i := 16) rfl, hits_f7f3 _ _ _ rfl rfl, ?_⟩
  simp only [Row.instr, RawFields.reg, encode, decodeFields, rawFieldFrom, templateWidth, Piece.width, reduceCtorEq, if_true,
    if_false, Nat.zero_mul, Nat.zero_add, Nat.reduceAdd, BitVec.ofNat_toNat, BitVec.setWidth_eq, encR_rs2, encR_rs1, encR_rd]

theorem slt rd rs1 rs2 : Statement (Instr.slt rd rs1 rs2) := by
  intro _
  refine ⟨_, List.mem_of_getElem? (i := 17) rfl, hits_f7f3 _ _ _ rfl rfl, ?_⟩
  simp only [Row.instr, RawFields.reg, encode, decodeFields, rawFieldFrom, templateWidth, Piece.width, reduceCtorEq, if_true,
    if_false, Nat.zero_mul, Nat.zero_add, Nat.reduceAdd, BitVec.ofNat_toNat, BitVec.setWidth_eq, encR_rs2, encR_rs1, encR_rd]

theorem sltu rd rs1 rs2 : Statement (Instr.sltu rd rs1 rs2) := by
  intro _
  refine ⟨_, List.mem_of_getElem? (i := 18) rfl, hits_f7f3 _ _ _ rfl rfl, ?_⟩
  simp only [Row.instr, RawFields.reg, encode, decodeFields, rawFieldFrom, templateWidth, Piece.width, reduceCtorEq, if_true,
    if_false, Nat.zero_mul, Nat.zero_add, Nat.reduceAdd, BitVec.ofNat_toNat, BitVec.setWidth_eq, encR_rs2, encR_rs1, encR_rd]

theorem xor rd rs1 rs2 : Statement (Instr.xor rd rs1 rs2) := by
  intro _
  refine ⟨_, List.mem_of_getElem? (i := 19) rfl, hits_f7f3 _ _ _ rfl rfl, ?_⟩
  simp only [Row.instr, RawFields.reg, encode, decodeFields, rawFieldFrom, templateWidth, Piece.width, reduceCtorEq, if_true,
    if_false, Nat.zero_mul, Nat.zero_add, Nat.reduceAdd, BitVec.ofNat_toNat, BitVec.setWidth_eq, encR_rs2, encR_rs1, encR_rd]

theorem srl rd rs1 rs2 : Statement (Instr.srl rd rs1 rs2) := by
  intro _
  refine ⟨_, List.mem_of_getElem? (i := 20) rfl, hits_f7f3 _ _ _ rfl rfl, ?_⟩
  simp only [Row.instr, RawFields.reg, encode, decodeFields, rawFieldFrom, templateWidth, Piece.width, reduceCtorEq, if_true,
    if_false, Nat.zero_mul, Nat.zero_add, Nat.reduceAdd, BitVec.ofNat_toNat, BitVec.setWidth_eq, encR_rs2, encR_rs1, encR_rd]

theorem sra rd rs1 rs2 : Statement (Instr.sra rd rs1 rs2) := by
  intro _
  refine ⟨_, List.mem_of_getElem? (i := 21) rfl, hits_f7f3 _ _ _ rfl rfl, ?_⟩
  simp only [Row.instr, RawFields.reg, encode, decodeFields, rawFieldFrom, templateWidth, Piece.width, reduceCtorEq, if_true,
    if_false, Nat.zero_mul, Nat.zero_add, Nat.reduceAdd, BitVec.ofNat_toNat, BitVec.setWidth_eq, encR_rs2, encR_rs1, encR_rd]

theorem or rd rs1 rs2 : Statement (Instr.or rd rs1 rs2) := by
  intro _
  refine ⟨_, List.mem_of_getElem? (i := 22) rfl, hits_f7f3 _ _ _ rfl rfl, ?_⟩
  simp only [Row.instr, RawFields.reg, encode, decodeFields, rawFieldFrom, templateWidth, Piece.width, reduceCtorEq, if_true,
    if_false, Nat.zero_mul, Nat.zero_add, Nat.reduceAdd, BitVec.ofNat_toNat, BitVec.setWidth_eq, encR_rs2, encR_rs1, encR_rd]

theorem and rd rs1 rs2 : Statement (Instr.and rd rs1 rs2) := by
  intro _
  refine ⟨_, List.mem_of_getElem? (i := 23) rfl, hits_f7f3 _ _ _ rfl rfl, ?_⟩
  simp only [Row.instr, RawFields.reg, encode, decodeFields, rawFieldFrom, templateWidth, Piece.width, reduceCtorEq, if_true,
    if_false, Nat.zero_mul, Nat.zero_add, Nat.reduceAdd, BitVec.ofNat_toNat, BitVec.setWidth_eq, encR_rs2, encR_rs1, encR_rd]

theorem fence pred succ : Statement (Instr.fence pred succ) := by
  intro _
  refine ⟨_, List.mem_of_getElem? (i := 52) rfl, ?_, ?_⟩
  · exact hits_fence pred succ rfl rfl
  · simp only [Row.instr, encode, decodeFields, rawFieldFrom, templateWidth, Piece.width, reduceCtorEq, if_true,
    if_false, Nat.zero_mul, Nat.zero_add, Nat.reduceAdd, BitVec.ofNat_toNat, BitVec.setWidth_eq, encI_pred, encI_succ]

theorem fenceI : Statement (Instr.fenceI) := fun _ =>
  ⟨_, List.mem_of_getElem? (i := 53) rfl, by decide, rfl⟩

theorem ecall : Statement (Instr.ecall) := fun _ =>
  ⟨_, List.mem_of_getElem? (i := 67) rfl, by decide, rfl⟩

theorem ebreak : Statement (Instr.ebreak) := fun _ =>
  ⟨_, List.mem_of_getElem? (i := 68) rfl, by decide, rfl⟩

theorem addiw rd rs1 imm : Statement (Instr.addiw rd rs1 imm) := by
  intro _
  refine ⟨_, List.mem_of_getElem? (i := 24) rfl, ?_, ?_⟩
  · rw [encode, encI_eq_encR]; exact hits_f3 _ _ _ _ rfl rfl
  · simp only [Row.instr, RawFields.reg, encode, decodeFields, rawFieldFrom, templateWidth, Piece.width, reduceCtorEq, if_true,
    if_false, Nat.zero_mul, Nat.zero_add, Nat.reduceAdd, BitVec.ofNat_toNat, BitVec.setWidth_eq, encI_imm, encI_rs1, encI_rd]

theorem slliw rd rs1 shamt : Statement (Instr.slliw rd rs1 shamt) := by
  intro _
  refine ⟨_, List.mem_of_getElem? (i := 25) rfl, hits_f7f3 _ _ _ rfl rfl, ?_⟩
  simp only [Row.instr, RawFields.reg, encode, decodeFields, rawFieldFrom, templateWidth, Piece.width, reduceCtorEq, if_true,
    if_false, Nat.zero_mul, Nat.zero_add, Nat.reduceAdd, BitVec.ofNat_toNat, BitVec.setWidth_eq, encR_rs2, encR_rs1, encR_rd]

theorem srliw rd rs1 shamt : Statement (Instr.srliw rd rs1 shamt) := by
  intro _
  refine ⟨_, List.mem_of_getElem? (i := 26) rfl, hits_f7f3 _ _ _ rfl rfl, ?_⟩
  simp only [Row.instr, RawFields.reg, encode, decodeFields, rawFieldFrom, templateWidth, Piece.width, reduceCtorEq, if_true,
    if_false, Nat.zero_mul, Nat.zero_add, Nat.reduceAdd, BitVec.ofNat_toNat, BitVec.setWidth_eq, encR_rs2, encR_rs1, encR_rd]

theorem sraiw rd rs1 shamt : Statement (Instr.sraiw rd rs1 shamt) := by
  intro _
  refine ⟨_, List.mem_of_getElem? (i := 27) rfl, hits_f7f3 _ _ _ rfl rfl, ?_⟩
  simp only [Row.instr, RawFields.reg, encode, decodeFields, rawFieldFrom, templateWidth, Piece.width, reduceCtorEq, if_true,
    if_false, Nat.zero_mul, Nat.zero_add, Nat.reduceAdd, BitVec.ofNat_toNat, BitVec.setWidth_eq, encR_rs2, encR_rs1, encR_rd]

theorem addw rd rs1 rs2 : Statement (Instr.addw rd rs1 rs2) := by
  intro _
  refine ⟨_, List.mem_of_getElem? (i := 28) rfl, hits_f7f3 _ _ _ rfl rfl, ?_⟩
  simp only [Row.instr, RawFields.reg, encode, decodeFields, rawFieldFrom, templateWidth, Piece.width, reduceCtorEq, if_true,
    if_false, Nat.zero_mul, Nat.zero_add, Nat.reduceAdd, BitVec.ofNat_toNat, BitVec.setWidth_eq, encR_rs2, encR_rs1, encR_rd]

theorem subw rd rs1 rs2 : Statement (Instr.subw rd rs1 rs2) := by
  intro _
  refine ⟨_, List.mem_of_getElem? (i := 29) rfl, hits_f7f3 _ _ _ rfl rfl, ?_⟩
  simp only [Row.instr, RawFields.reg, encode, decodeFields, rawFieldFrom, templateWidth, Piece.width, reduceCtorEq, if_true,
    if_false, Nat.zero_mul, Nat.zero_add, Nat.reduceAdd, BitVec.ofNat_toNat, BitVec.setWidth_eq, encR_rs2, encR_rs1, encR_rd]

theorem sllw rd rs1 rs2 : Statement (Instr.sllw rd rs1 rs2) := by
  intro _
  refine ⟨_, List.mem_of_getElem? (i := 30) rfl, hits_f7f3 _ _ _ rfl rfl, ?_⟩
  simp only [Row.instr, RawFields.reg, encode, decodeFields, rawFieldFrom, templateWidth, Piece.width, reduceCtorEq, if_true,
    if_false, Nat.zero_mul, Nat.zero_add, Nat.reduceAdd, BitVec.ofNat_toNat, BitVec.setWidth_eq, encR_rs2, encR_rs1, encR_rd]

theorem srlw rd rs1 rs2 : Statement (Instr.srlw rd rs1 rs2) := by
  intro _
  refine ⟨_, List.mem_of_getElem? (i := 31) rfl, hits_f7f3 _ _ _ rfl rfl, ?_⟩
  simp only [Row.instr, RawFields.reg, encode, decodeFields, rawFieldFrom, templateWidth, Piece.width, reduceCtorEq, if_true,
    if_false, Nat.zero_mul, Nat.zero_add, Nat.reduceAdd, BitVec.ofNat_toNat, BitVec.setWidth_eq, encR_rs2, encR_rs1, encR_rd]

theorem sraw rd rs1 rs2 : Statement (Instr.sraw rd rs1 rs2) := by
  intro _
  refine ⟨_, List.mem_of_getElem? (i := 32) rfl, hits_f7f3 _ _ _ rfl rfl, ?_⟩
  simp only [Row.instr, RawFields.reg, encode, decodeFields, rawFieldFrom, templateWidth, Piece.width, reduceCtorEq, if_true,
    if_false, Nat.zero_mul, Nat.zero_add, Nat.reduceAdd, BitVec.ofNat_toNat, BitVec.setWidth_eq, encR_rs2, encR_rs1, encR_rd]

theorem mul rd rs1 rs2 : Statement (Instr.mul rd rs1 rs2) := by
  intro _
  refine ⟨_, List.mem_of_getElem? (i := 54) rfl, hits_f7f3 _ _ _ rfl rfl, ?_⟩
  simp only [Row.instr, RawFields.reg, encode, decodeFields, rawFieldFrom, templateWidth, Piece.width, reduceCtorEq, if_true,
    if_false, Nat.zero_mul, Nat.zero_add, Nat.reduceAdd, BitVec.ofNat_toNat, BitVec.setWidth_eq, encR_rs2, encR_rs1, encR_rd]

theorem mulh rd rs1 rs2 : Statement (Instr.mulh rd rs1 rs2) := by
  intro _
  refine ⟨_, List.mem_of_getElem? (i := 55) rfl, hits_f7f3 _ _ _ rfl rfl, ?_⟩
  simp only [Row.instr, RawFields.reg, encode, decodeFields, rawFieldFrom, templateWidth, Piece.width, reduceCtorEq, if_true,
    if_false, Nat.zero_mul, Nat.zero_add, Nat.reduceAdd, BitVec.ofNat_toNat, BitVec.setWidth_eq, encR_rs2, encR_rs1, encR_rd]

theorem mulhsu rd rs1 rs2 : Statement (Instr.mulhsu rd rs1 rs2) := by
  intro _
  refine ⟨_, List.mem_of_getElem? (i := 56) rfl, hits_f7f3 _ _ _ rfl rfl, ?_⟩
  simp only [Row.instr, RawFields.reg, encode, decodeFields, rawFieldFrom, templateWidth, Piece.width, reduceCtorEq, if_true,
    if_false, Nat.zero_mul, Nat.zero_add, Nat.reduceAdd, BitVec.ofNat_toNat, BitVec.setWidth_eq, encR_rs2, encR_rs1, encR_rd]

theorem mulhu rd rs1 rs2 : Statement (Instr.mulhu rd rs1 rs2) := by
  intro _
  refine ⟨_, List.mem_of_getElem? (i := 57) rfl, hits_f7f3 _ _ _ rfl rfl, ?_⟩
  simp only [Row.instr, RawFields.reg, encode, decodeFields, rawFieldFrom, templateWidth, Piece.width, reduceCtorEq, if_true,
    if_false, Nat.zero_mul, Nat.zero_add, Nat.reduceAdd, BitVec.ofNat_toNat, BitVec.setWidth_eq, encR_rs2, encR_rs1, encR_rd]

theorem div rd rs1 rs2 : Statement (Instr.div rd rs1 rs2) := by
  intro _
  refine ⟨_, List.mem_of_getElem? (i := 58) rfl, hits_f7f3 _ _ _ rfl rfl, ?_⟩
  simp only [Row.instr, RawFields.reg, encode, decodeFields, rawFieldFrom, templateWidth, Piece.width, reduceCtorEq, if_true,
    if_false, Nat.zero_mul, Nat.zero_add, Nat.reduceAdd, BitVec.ofNat_toNat, BitVec.setWidth_eq, encR_rs2, encR_rs1, encR_rd]

theorem divu rd rs1 rs2 : Statement (Instr.divu rd rs1 rs2) := by
  intro _
  refine ⟨_, List.mem_of_getElem? (i := 59) rfl, hits_f7f3 _ _ _ rfl rfl, ?_⟩
  simp only [Row.instr, RawFields.reg, encode, decodeFields, rawFieldFrom, templateWidth, Piece.width, reduceCtorEq, if_true,
    if_false, Nat.zero_mul, Nat.zero_add, Nat.reduceAdd, BitVec.ofNat_toNat, BitVec.setWidth_eq, encR_rs2, encR_rs1, encR_rd]

theorem rem rd rs1 rs2 : Statement (Instr.rem rd rs1 rs2) := by
  intro _
  refine ⟨_, List.mem_of_getElem? (i := 60) rfl, hits_f7f3 _ _ _ rfl rfl, ?_⟩
  simp only [Row.instr, RawFields.reg, encode, decodeFields, rawFieldFrom, templateWidth, Piece.width, reduceCtorEq, if_true,
    if_false, Nat.zero_mul, Nat.zero_add, Nat.reduceAdd, BitVec.ofNat_toNat, BitVec.setWidth_eq, encR_rs2, encR_rs1, encR_rd]

theorem remu rd rs1 rs2 : Statement (Instr.remu rd rs1 rs2) := by
  intro _
  refine ⟨_, List.mem_of_getElem? (i := 61) rfl, hits_f7f3 _ _ _ rfl rfl, ?_⟩
  simp only [Row.instr, RawFields.reg, encode, decodeFields, rawFieldFrom, templateWidth, Piece.width, reduceCtorEq, if_true,
    if_false, Nat.zero_mul, Nat.zero_add, Nat.reduceAdd, BitVec.ofNat_toNat, BitVec.setWidth_eq, encR_rs2, encR_rs1, encR_rd]

theorem mulw rd rs1 rs2 : Statement (Instr.mulw rd rs1 rs2) := by
  intro _
  refine ⟨_, List.mem_of_getElem? (i := 62) rfl, hits_f7f3 _ _ _ rfl rfl, ?_⟩
  simp only [Row.instr, RawFields.reg, encode, decodeFields, rawFieldFrom, templateWidth, Piece.width, reduceCtorEq, if_true,
    if_false, Nat.zero_mul, Nat.zero_add, Nat.reduceAdd, BitVec.ofNat_toNat, BitVec.setWidth_eq, encR_rs2, encR_rs1, encR_rd]

theorem divw rd rs1 rs2 : Statement (Instr.divw rd rs1 rs2) := by
  intro _
  refine ⟨_, List.mem_of_getElem? (i := 63) rfl, hits_f7f3 _ _ _ rfl rfl, ?_⟩
  simp only [Row.instr, RawFields.reg, encode, decodeFields, rawFieldFrom, templateWidth, Piece.width, reduceCtorEq, if_true,
    if_false, Nat.zero_mul, Nat.zero_add, Nat.reduceAdd, BitVec.ofNat_toNat, BitVec.setWidth_eq, encR_rs2, encR_rs1, encR_rd]

theorem divuw rd rs1 rs2 : Statement (Instr.divuw rd rs1 rs2) := by
  intro _
  refine ⟨_, List.mem_of_getElem? (i := 64) rfl, hits_f7f3 _ _ _ rfl rfl, ?_⟩
  simp only [Row.instr, RawFields.reg, encode, decodeFields, rawFieldFrom, templateWidth, Piece.width, reduceCtorEq, if_true,
    if_false, Nat.zero_mul, Nat.zero_add, Nat.reduceAdd, BitVec.ofNat_toNat, BitVec.setWidth_eq, encR_rs2, encR_rs1, encR_rd]

theorem remw rd rs1 rs2 : Statement (Instr.remw rd rs1 rs2) := by
  intro _
  refine ⟨_, List.mem_of_getElem? (i := 65) rfl, hits_f7f3 _ _ _ rfl rfl, ?_⟩
  simp only [Row.instr, RawFields.reg, encode, decodeFields, rawFieldFrom, templateWidth, Piece.width, reduceCtorEq, if_true,
    if_false, Nat.zero_mul, Nat.zero_add, Nat.reduceAdd, BitVec.ofNat_toNat, BitVec.setWidth_eq, encR_rs2, encR_rs1, encR_rd]

theorem remuw rd rs1 rs2 : Statement (Instr.remuw rd rs1 rs2) := by
  intro _
  refine ⟨_, List.mem_of_getElem? (i := 66) rfl, hits_f7f3 _ _ _ rfl rfl, ?_⟩
  simp only [Row.instr, RawFields.reg, encode, decodeFields, rawFieldFrom, templateWidth, Piece.width, reduceCtorEq, if_true,
    if_false, Nat.zero_mul, Nat.zero_add, Nat.reduceAdd, BitVec.ofNat_toNat, BitVec.setWidth_eq, encR_rs2, encR_rs1, encR_rd]

theorem csrrw rd csr rs1 : Statement (Instr.csrrw rd csr rs1) := by
  intro _
  refine ⟨_, List.mem_of_getElem? (i := 69) rfl, ?_, ?_⟩
  · rw [encode, encI_eq_encR]; exact hits_f3 _ _ _ _ rfl rfl
  · simp only [Row.instr, RawFields.reg, encode, decodeFields, rawFieldFrom, templateWidth, Piece.width, reduceCtorEq, if_true,
    if_false, Nat.zero_mul, Nat.zero_add, Nat.reduceAdd, BitVec.ofNat_toNat, BitVec.setWidth_eq, encI_imm, encI_rs1, encI_rd]

theorem csrrs rd csr rs1 : Statement (Instr.csrrs rd csr rs1) := by
  intro _
  refine ⟨_, List.mem_of_getElem? (i := 70) rfl, ?_, ?_⟩
  · rw [encode, encI_eq_encR]; exact hits_f3 _ _ _ _ rfl rfl
  · simp only [Row.instr, RawFields.reg, encode, decodeFields, rawFieldFrom, templateWidth, Piece.width, reduceCtorEq, if_true,
    if_false, Nat.zero_mul, Nat.zero_add, Nat.reduceAdd, BitVec.ofNat_toNat, BitVec.setWidth_eq, encI_imm, encI_rs1, encI_rd]

theorem csrrc rd csr rs1 : Statement (Instr.csrrc rd csr rs1) := by
  intro _
  refine ⟨_, List.mem_of_getElem? (i := 71) rfl, ?_, ?_⟩
  · rw [encode, encI_eq_encR]; exact hits_f3 _ _ _ _ rfl rfl
  · simp only [Row.instr, RawFields.reg, encode, decodeFields, rawFieldFrom, templateWidth, Piece.width, reduceCtorEq, if_true,
    if_false, Nat.zero_mul, Nat.zero_add, Nat.reduceAdd, BitVec.ofNat_toNat, BitVec.setWidth_eq, encI_imm, encI_rs1, encI_rd]

theorem csrrwi rd csr uimm : Statement (Instr.csrrwi rd csr uimm) := by
  intro _
  refine ⟨_, List.mem_of_getElem? (i := 72) rfl, ?_, ?_⟩
  · rw [encode, encI_eq_encR]; exact hits_f3 _ _ _ _ rfl rfl
  · simp only [Row.instr, RawFields.reg, encode, decodeFields, rawFieldFrom, templateWidth, Piece.width, reduceCtorEq, if_true,
    if_false, Nat.zero_mul, Nat.zero_add, Nat.reduceAdd, BitVec.ofNat_toNat, BitVec.setWidth_eq, encI_imm, encI_rs1, encI_rd]

theorem csrrsi rd csr uimm : Statement (Instr.csrrsi rd csr uimm) := by
  intro _
  refine ⟨_, List.mem_of_getElem? (i := 73) rfl, ?_, ?_⟩
  · rw [encode, encI_eq_encR]; exact hits_f3 _ _ _ _ rfl rfl
  · simp only [Row.instr, RawFields.reg, encode, decodeFields, rawFieldFrom, templateWidth, Piece.width, reduceCtorEq, if_true,
    if_false, Nat.zero_mul, Nat.zero_add, Nat.reduceAdd, BitVec.ofNat_toNat, BitVec.setWidth_eq, encI_imm, encI_rs1, encI_rd]

theorem csrrci rd csr uimm : Statement (Instr.csrrci rd csr uimm) := by
  intro _
  refine ⟨_, List.mem_of_getElem? (i := 74) rfl, ?_, ?_⟩
  · rw [encode, encI_eq_encR]; exact hits_f3 _ _ _ _ rfl rfl
  · simp only [Row.instr, RawFields.reg, encode, decodeFields, rawFieldFrom, templateWidth, Piece.width, reduceCtorEq, if_true,
    if_false, Nat.zero_mul, Nat.zero_add, Nat.reduceAdd, BitVec.ofNat_toNat, BitVec.setWidth_eq, encI_imm, encI_rs1, encI_rd]

theorem flw rd rs1 imm : Statement (Instr.flw rd rs1 imm) := by
  intro _
  refine ⟨_, List.mem_of_getElem? (i := 75) rfl, ?_, ?_⟩
  · rw [encode, encI_eq_encR]; exact hits_f3 _ _ _ _ rfl rfl
  · simp only [Row.instr, RawFields.reg, encode, decodeFields, rawFieldFrom, templateWidth, Piece.width, reduceCtorEq, if_true,
    if_false, Nat.zero_mul, Nat.zero_add, Nat.reduceAdd, BitVec.ofNat_toNat, BitVec.setWidth_eq, encI_imm, encI_rs1, encI_rd]

theorem fsw rs1 rs2 imm : Statement (Instr.fsw rs1 rs2 imm) := by
  intro _
  refine ⟨_, List.mem_of_getElem? (i := 76) rfl, hits_f3 _ _ _ _ rfl rfl, ?_⟩
  simp only [Row.instr, RawFields.reg, encode, decodeFields, rawFieldFrom, templateWidth, Piece.width, reduceCtorEq, if_true,
    if_false, Nat.zero_mul, Nat.zero_add, Nat.reduceAdd, BitVec.ofNat_toNat, BitVec.setWidth_eq, encS_eq_encR, encR_f7, encR_rs2, encR_rs1, encR_rd, ofNat_join, immS_join]

theorem fmaddS rd rs1 rs2 rs3 rm : Statement (Instr.fmaddS rd rs1 rs2 rs3 rm) := by
  intro _
  refine ⟨_, List.mem_of_getElem? (i := 77) rfl, hits_R4 _ _ _ _ _ rfl rfl, ?_⟩
  simp only [Row.instr, RawFields.reg, encode, decodeFields, rawFieldFrom, templateWidth, Piece.width, reduceCtorEq, if_true,
    if_false, Nat.zero_mul, Nat.zero_add, Nat.reduceAdd, BitVec.ofNat_toNat, BitVec.setWidth_eq, encR4_rs3, encR4_rs2, encR4_rs1, encR4_f3, encR4_rd]

theorem fmsubS rd rs1 rs2 rs3 rm : Statement (Instr.fmsubS rd rs1 rs2 rs3 rm) := by
  intro _
  refine ⟨_, List.mem_of_getElem? (i := 78) rfl, hits_R4 _ _ _ _ _ rfl rfl, ?_⟩
  simp only [Row.instr, RawFields.reg, encode, decodeFields, rawFieldFrom, templateWidth, Piece.width, reduceCtorEq, if_true,
    if_false, Nat.zero_mul, Nat.zero_add, Nat.reduceAdd, BitVec.ofNat_toNat, BitVec.setWidth_eq, encR4_rs3, encR4_rs2, encR4_rs1, encR4_f3, encR4_rd]

theorem fnmsubS rd rs1 rs2 rs3 rm : Statement (Instr.fnmsubS rd rs1 rs2 rs3 rm) := by
  intro _
  refine ⟨_, List.mem_of_getElem? (i := 79) rfl, hits_R4 _ _ _ _ _ rfl rfl, ?_⟩
  simp only [Row.instr, RawFields.reg, encode, decodeFields, rawFieldFrom, templateWidth, Piece.width, reduceCtorEq, if_true,
    if_false, Nat.zero_mul, Nat.zero_add, Nat.reduceAdd, BitVec.ofNat_toNat, BitVec.setWidth_eq, encR4_rs3, encR4_rs2, encR4_rs1, encR4_f3, encR4_rd]

theorem fnmaddS rd rs1 rs2 rs3 rm : Statement (Instr.fnmaddS rd rs1 rs2 rs3 rm) := by
  intro _
  refine ⟨_, List.mem_of_getElem? (i := 80) rfl, hits_R4 _ _ _ _ _ rfl rfl, ?_⟩
  simp only [Row.instr, RawFields.reg, encode, decodeFields, rawFieldFrom, templateWidth, Piece.width, reduceCtorEq, if_true,
    if_false, Nat.zero_mul, Nat.zero_add, Nat.reduceAdd, BitVec.ofNat_toNat, BitVec.setWidth_eq, encR4_rs3, encR4_rs2, encR4_rs1, encR4_f3, encR4_rd]

theorem faddS rd rs1 rs2 rm : Statement (Instr.faddS rd rs1 rs2 rm) := by
  intro _
  refine ⟨_, List.mem_of_getElem? (i := 81) rfl, hits_f7 _ _ _ _ rfl rfl, ?_⟩
  simp only [Row.instr, RawFields.reg, encode, decodeFields, rawFieldFrom, templateWidth, Piece.width, reduceCtorEq, if_true,
    if_false, Nat.zero_mul, Nat.zero_add, Nat.reduceAdd, BitVec.ofNat_toNat, BitVec.setWidth_eq, encR_rs2, encR_rs1, encR_f3, encR_rd]

theorem fsubS rd rs1 rs2 rm : Statement (Instr.fsubS rd rs1 rs2 rm) := by
  intro _
  refine ⟨_, List.mem_of_getElem? (i := 82) rfl, hits_f7 _ _ _ _ rfl rfl, ?_⟩
  simp only [Row.instr, RawFields.reg, encode, decodeFields, rawFieldFrom, templateWidth, Piece.width, reduceCtorEq, if_true,
    if_false, Nat.zero_mul, Nat.zero_add, Nat.reduceAdd, BitVec.ofNat_toNat, BitVec.setWidth_eq, encR_rs2, encR_rs1, encR_f3, encR_rd]

theorem fmulS rd rs1 rs2 rm : Statement (Instr.fmulS rd rs1 rs2 rm) := by
  intro _
  refine ⟨_, List.mem_of_getElem? (i := 83) rfl, hits_f7 _ _ _ _ rfl rfl, ?_⟩
  simp only [Row.instr, RawFields.reg, encode, decodeFields, rawFieldFrom, templateWidth, Piece.width, reduceCtorEq, if_true,
    if_false, Nat.zero_mul, Nat.zero_add, Nat.reduceAdd, BitVec.ofNat_toNat, BitVec.setWidth_eq, encR_rs2, encR_rs1, encR_f3, encR_rd]

theorem fdivS rd rs1 rs2 rm : Statement (Instr.fdivS rd rs1 rs2 rm) := by
  intro _
  refine ⟨_, List.mem_of_getElem? (i := 84) rfl, hits_f7 _ _ _ _ rfl rfl, ?_⟩
  simp only [Row.instr, RawFields.reg, encode, decodeFields, rawFieldFrom, templateWidth, Piece.width, reduceCtorEq, if_true,
    if_false, Nat.zero_mul, Nat.zero_add, Nat.reduceAdd, BitVec.ofNat_toNat, BitVec.setWidth_eq, encR_rs2, encR_rs1, encR_f3, encR_rd]

theorem fsqrtS rd rs1 rm : Statement (Instr.fsqrtS rd rs1 rm) := by
  intro _
  refine ⟨_, List.mem_of_getElem? (i := 85) rfl, hits_f7k _ _ _ rfl rfl, ?_⟩
  simp only [Row.instr, RawFields.reg, encode, decodeFields, rawFieldFrom, templateWidth, Piece.width, reduceCtorEq, if_true,
    if_false, Nat.zero_mul, Nat.zero_add, Nat.reduceAdd, BitVec.ofNat_toNat, BitVec.setWidth_eq, encR_rs1, encR_f3, encR_rd]

theorem fsgnjS rd rs1 rs2 : Statement (Instr.fsgnjS rd rs1 rs2) := by
  intro _
  refine ⟨_, List.mem_of_getElem? (i := 86) rfl, hits_f7f3 _ _ _ rfl rfl, ?_⟩
  simp only [Row.instr, RawFields.reg, encode, decodeFields, rawFieldFrom, templateWidth, Piece.width, reduceCtorEq, if_true,
    if_false, Nat.zero_mul, Nat.zero_add, Nat.reduceAdd, BitVec.ofNat_toNat, BitVec.setWidth_eq, encR_rs2, encR_rs1, encR_rd]

theorem fsgnjnS rd rs1 rs2 : Statement (Instr.fsgnjnS rd rs1 rs2) := by
  intro _
  refine ⟨_, List.mem_of_getElem? (i := 87) rfl, hits_f7f3 _ _ _ rfl rfl, ?_⟩
  simp only [Row.instr, RawFields.reg, encode, decodeFields, rawFieldFrom, templateWidth, Piece.width, reduceCtorEq, if_true,
    if_false, Nat.zero_mul, Nat.zero_add, Nat.reduceAdd, BitVec.ofNat_toNat, BitVec.setWidth_eq, encR_rs2, encR_rs1, encR_rd]

theorem fsgnjxS rd rs1 rs2 : Statement (Instr.fsgnjxS rd rs1 rs2) := by
  intro _
  refine ⟨_, List.mem_of_getElem? (i := 88) rfl, hits_f7f3 _ _ _ rfl rfl, ?_⟩
  simp only [Row.instr, RawFields.reg, encode, decodeFields, rawFieldFrom, templateWidth, Piece.width, reduceCtorEq, if_true,
    if_false, Nat.zero_mul, Nat.zero_add, Nat.reduceAdd, BitVec.ofNat_toNat, BitVec.setWidth_eq, encR_rs2, encR_rs1, encR_rd]

theorem fminS rd rs1 rs2 : Statement (Instr.fminS rd rs1 rs2) := by
  intro _
  refine ⟨_, List.mem_of_getElem? (i := 89) rfl, hits_f7f3 _ _ _ rfl rfl, ?_⟩
  simp only [Row.instr, RawFields.reg, encode, decodeFields, rawFieldFrom, templateWidth, Piece.width, reduceCtorEq, if_true,
    if_false, Nat.zero_mul, Nat.zero_add, Nat.reduceAdd, BitVec.ofNat_toNat, BitVec.setWidth_eq, encR_rs2, encR_rs1, encR_rd]

theorem fmaxS rd rs1 rs2 : Statement (Instr.fmaxS rd rs1 rs2) := by
  intro _
  refine ⟨_, List.mem_of_getElem? (i := 90) rfl, hits_f7f3 _ _ _ rfl rfl, ?_⟩
  simp only [Row.instr, RawFields.reg, encode, decodeFields, rawFieldFrom, templateWidth, Piece.width, reduceCtorEq, if_true,
    if_false, Nat.zero_mul, Nat.zero_add, Nat.reduceAdd, BitVec.ofNat_toNat, BitVec.setWidth_eq, encR_rs2, encR_rs1, encR_rd]

theorem feqS rd rs1 rs2 : Statement (Instr.feqS rd rs1 rs2) := by
  intro _
  refine ⟨_, List.mem_of_getElem? (i := 91) rfl, hits_f7f3 _ _ _ rfl rfl, ?_⟩
  simp only [Row.instr, RawFields.reg, encode, decodeFields, rawFieldFrom, templateWidth, Piece.width, reduceCtorEq, if_true,
    if_false, Nat.zero_mul, Nat.zero_add, Nat.reduceAdd, BitVec.ofNat_toNat, BitVec.setWidth_eq, encR_rs2, encR_rs1, encR_rd]

theorem fltS rd rs1 rs2 : Statement (Instr.fltS rd rs1 rs2) := by
  intro _
  refine ⟨_, List.mem_of_getElem? (i := 92) rfl, hits_f7f3 _ _ _ rfl rfl, ?_⟩
  simp only [Row.instr, RawFields.reg, encode, decodeFields, rawFieldFrom, templateWidth, Piece.width, reduceCtorEq, if_true,
    if_false, Nat.zero_mul, Nat.zero_add, Nat.reduceAdd, BitVec.ofNat_toNat, BitVec.setWidth_eq, encR_rs2, encR_rs1, encR_rd]

theorem fleS rd rs1 rs2 : Statement (Instr.fleS rd rs1 rs2) := by
  intro _
  refine ⟨_, List.mem_of_getElem? (i := 93) rfl, hits_f7f3 _ _ _ rfl rfl, ?_⟩
  simp only [Row.instr, RawFields.reg, encode, decodeFields, rawFieldFrom, templateWidth, Piece.width, reduceCtorEq, if_true,
    if_false, Nat.zero_mul, Nat.zero_add, Nat.reduceAdd, BitVec.ofNat_toNat, BitVec.setWidth_eq, encR_rs2, encR_rs1, encR_rd]

theorem fclassS rd rs1 : Statement (Instr.fclassS rd rs1) := by
  intro _
  refine ⟨_, List.mem_of_getElem? (i := 94) rfl, hits_f7kf3 _ _ rfl rfl, ?_⟩
  simp only [Row.instr, RawFields.reg, encode, decodeFields, rawFieldFrom, templateWidth, Piece.width, reduceCtorEq, if_true,
    if_false, Nat.zero_mul, Nat.zero_add, Nat.reduceAdd, BitVec.ofNat_toNat, BitVec.setWidth_eq, encR_rs1, encR_rd]

theorem fcvtWS rd rs1 rm : Statement (Instr.fcvtWS rd rs1 rm) := by
  intro _
  refine ⟨_, List.mem_of_getElem? (i := 95) rfl, hits_f7k _ _ _ rfl rfl, ?_⟩
  simp only [Row.instr, RawFields.reg, encode, decodeFields, rawFieldFrom, templateWidth, Piece.width, reduceCtorEq, if_true,
    if_false, Nat.zero_mul, Nat.zero_add, Nat.reduceAdd, BitVec.ofNat_toNat, BitVec.setWidth_eq, encR_rs1, encR_f3, encR_rd]

theorem fcvtWuS rd rs1 rm : Statement (Instr.fcvtWuS rd rs1 rm) := by
  intro _
  refine ⟨_, List.mem_of_getElem? (i := 96) rfl, hits_f7k _ _ _ rfl rfl, ?_⟩
  simp only [Row.instr, RawFields.reg, encode, decodeFields, rawFieldFrom, templateWidth, Piece.width, reduceCtorEq, if_true,
    if_false, Nat.zero_mul, Nat.zero_add, Nat.reduceAdd, BitVec.ofNat_toNat, BitVec.setWidth_eq, encR_rs1, encR_f3, encR_rd]

theorem fcvtLS rd rs1 rm : Statement (Instr.fcvtLS rd rs1 rm) := by
  intro _
  refine ⟨_, List.mem_of_getElem? (i := 97) rfl, hits_f7k _ _ _ rfl rfl, ?_⟩
  simp only [Row.instr, RawFields.reg, encode, decodeFields, rawFieldFrom, templateWidth, Piece.width, reduceCtorEq, if_true,
    if_false, Nat.zero_mul, Nat.zero_add, Nat.reduceAdd, BitVec.ofNat_toNat, BitVec.setWidth_eq, encR_rs1, encR_f3, encR_rd]

theorem fcvtLuS rd rs1 rm : Statement (Instr.fcvtLuS rd rs1 rm) := by
  intro _
  refine ⟨_, List.mem_of_getElem? (i := 98) rfl, hits_f7k _ _ _ rfl rfl, ?_⟩
  simp only [Row.instr, RawFields.reg, encode, decodeFields, rawFieldFrom, templateWidth, Piece.width, reduceCtorEq, if_true,
    if_false, Nat.zero_mul, Nat.zero_add, Nat.reduceAdd, BitVec.ofNat_toNat, BitVec.setWidth_eq, encR_rs1, encR_f3, encR_rd]

theorem fcvtSW rd rs1 rm : Statement (Instr.fcvtSW rd rs1 rm) := by
  intro _
  refine ⟨_, List.mem_of_getElem? (i := 99) rfl, hits_f7k _ _ _ rfl rfl, ?_⟩
  simp only [Row.instr, RawFields.reg, encode, decodeFields, rawFieldFrom, templateWidth, Piece.width, reduceCtorEq, if_true,
    if_false, Nat.zero_mul, Nat.zero_add, Nat.reduceAdd, BitVec.ofNat_toNat, BitVec.setWidth_eq, encR_rs1, encR_f3, encR_rd]

theorem fcvtSWu rd rs1 rm : Statement (Instr.fcvtSWu rd rs1 rm) := by
  intro _
  refine ⟨_, List.mem_of_getElem? (i := 100) rfl, hits_f7k _ _ _ rfl rfl, ?_⟩
  simp only [Row.instr, RawFields.reg, encode, decodeFields, rawFieldFrom, templateWidth, Piece.width, reduceCtorEq, if_true,
    if_false, Nat.zero_mul, Nat.zero_add, Nat.reduceAdd, BitVec.ofNat_toNat, BitVec.setWidth_eq, encR_rs1, encR_f3, encR_rd]

theorem fcvtSL rd rs1 rm : Statement (Instr.fcvtSL rd rs1 rm) := by
  intro _
  refine ⟨_, List.mem_of_getElem? (i := 101) rfl, hits_f7k _ _ _ rfl rfl, ?_⟩
  simp only [Row.instr, RawFields.reg, encode, decodeFields, rawFieldFrom, templateWidth, Piece.width, reduceCtorEq, if_true,
    if_false, Nat.zero_mul, Nat.zero_add, Nat.reduceAdd, BitVec.ofNat_toNat, BitVec.setWidth_eq, encR_rs1, encR_f3, encR_rd]

theorem fcvtSLu rd rs1 rm : Statement (Instr.fcvtSLu rd rs1 rm) := by
  intro _
  refine ⟨_, List.mem_of_getElem? (i := 102) rfl, hits_f7k _ _ _ rfl rfl, ?_⟩
  simp only [Row.instr, RawFields.reg, encode, decodeFields, rawFieldFrom, templateWidth, Piece.width, reduceCtorEq, if_true,
    if_false, Nat.zero_mul, Nat.zero_add, Nat.reduceAdd, BitVec.ofNat_toNat, BitVec.setWidth_eq, encR_rs1, encR_f3, encR_rd]

theorem fmvXW rd rs1 : Statement (Instr.fmvXW rd rs1) := by
  intro _
  refine ⟨_, List.mem_of_getElem? (i := 103) rfl, hits_f7kf3 _ _ rfl rfl, ?_⟩
  simp only [Row.instr, RawFields.reg, encode, decodeFields, rawFieldFrom, templateWidth, Piece.width, reduceCtorEq, if_true,
    if_false, Nat.zero_mul, Nat.zero_add, Nat.reduceAdd, BitVec.ofNat_toNat, BitVec.setWidth_eq, encR_rs1, encR_rd]

theorem fmvWX rd rs1 : Statement (Instr.fmvWX rd rs1) := by
  intro _
  refine ⟨_, List.mem_of_getElem? (i := 104) rfl, hits_f7kf3 _ _ rfl rfl, ?_⟩
  simp only [Row.instr, RawFields.reg, encode, decodeFields, rawFieldFrom, templateWidth, Piece.width, reduceCtorEq, if_true,
    if_false, Nat.zero_mul, Nat.zero_add, Nat.reduceAdd, BitVec.ofNat_toNat, BitVec.setWidth_eq, encR_rs1, encR_rd]

theorem fld rd rs1 imm : Statement (Instr.fld rd rs1 imm) := by
  intro _
  refine ⟨_, List.mem_of_getElem? (i := 105) rfl, ?_, ?_⟩
  · rw [encode, encI_eq_encR]; exact hits_f3 _ _ _ _ rfl rfl
  · simp only [Row.instr, RawFields.reg, encode, decodeFields, rawFieldFrom, templateWidth, Piece.width, reduceCtorEq, if_true,
    if_false, Nat.zero_mul, Nat.zero_add, Nat.reduceAdd, BitVec.ofNat_toNat, BitVec.setWidth_eq, encI_imm, encI_rs1, encI_rd]

theorem fsd rs1 rs2 imm : Statement (Instr.fsd rs1 rs2 imm) := by
  intro _
  refine ⟨_, List.mem_of_getElem? (i := 106) rfl, hits_f3 _ _ _ _ rfl rfl, ?_⟩
  simp only [Row.instr, RawFields.reg, encode, decodeFields, rawFieldFrom, templateWidth, Piece.width, reduceCtorEq, if_true,
    if_false, Nat.zero_mul, Nat.zero_add, Nat.reduceAdd, BitVec.ofNat_toNat, BitVec.setWidth_eq, encS_eq_encR, encR_f7, encR_rs2, encR_rs1, encR_rd, ofNat_join, immS_join]

theorem fmaddD rd rs1 rs2 rs3 rm : Statement (Instr.fmaddD rd rs1 rs2 rs3 rm) := by
  intro _
  refine ⟨_, List.mem_of_getElem? (i := 107) rfl, hits_R4 _ _ _ _ _ rfl rfl, ?_⟩
  simp only [Row.instr, RawFields.reg, encode, decodeFields, rawFieldFrom, templateWidth, Piece.width, reduceCtorEq, if_true,
    if_false, Nat.zero_mul, Nat.zero_add, Nat.reduceAdd, BitVec.ofNat_toNat, BitVec.setWidth_eq, encR4_rs3, encR4_rs2, encR4_rs1, encR4_f3, encR4_rd]

theorem fmsubD rd rs1 rs2 rs3 rm : Statement (Instr.fmsubD rd rs1 rs2 rs3 rm) := by
  intro _
  refine ⟨_, List.mem_of_getElem? (i := 108) rfl, hits_R4 _ _ _ _ _ rfl rfl, ?_⟩
  simp only [Row.instr, RawFields.reg, encode, decodeFields, rawFieldFrom, templateWidth, Piece.width, reduceCtorEq, if_true,
    if_false, Nat.zero_mul, Nat.zero_add, Nat.reduceAdd, BitVec.ofNat_toNat, BitVec.setWidth_eq, encR4_rs3, encR4_rs2, encR4_rs1, encR4_f3, encR4_rd]

theorem fnmsubD rd rs1 rs2 rs3 rm : Statement (Instr.fnmsubD rd rs1 rs2 rs3 rm) := by
  intro _
  refine ⟨_, List.mem_of_getElem? (i := 109) rfl, hits_R4 _ _ _ _ _ rfl rfl, ?_⟩
  simp only [Row.instr, RawFields.reg, encode, decodeFields, rawFieldFrom, templateWidth, Piece.width, reduceCtorEq, if_true,
    if_false, Nat.zero_mul, Nat.zero_add, Nat.reduceAdd, BitVec.ofNat_toNat, BitVec.setWidth_eq, encR4_rs3, encR4_rs2, encR4_rs1, encR4_f3, encR4_rd]

theorem fnmaddD rd rs1 rs2 rs3 rm : Statement (Instr.fnmaddD rd rs1 rs2 rs3 rm) := by
  intro _
  refine ⟨_, List.mem_of_getElem? (i := 110) rfl, hits_R4 _ _ _ _ _ rfl rfl, ?_⟩
  simp only [Row.instr, RawFields.reg, encode, decodeFields, rawFieldFrom, templateWidth, Piece.width, reduceCtorEq, if_true,
    if_false, Nat.zero_mul, Nat.zero_add, Nat.reduceAdd, BitVec.ofNat_toNat, BitVec.setWidth_eq, encR4_rs3, encR4_rs2, encR4_rs1, encR4_f3, encR4_rd]

theorem faddD rd rs1 rs2 rm : Statement (Instr.faddD rd rs1 rs2 rm) := by
  intro _
  refine ⟨_, List.mem_of_getElem? (i := 111) rfl, hits_f7 _ _ _ _ rfl rfl, ?_⟩
  simp only [Row.instr, RawFields.reg, encode, decodeFields, rawFieldFrom, templateWidth, Piece.width, reduceCtorEq, if_true,
    if_false, Nat.zero_mul, Nat.zero_add, Nat.reduceAdd, BitVec.ofNat_toNat, BitVec.setWidth_eq, encR_rs2, encR_rs1, encR_f3, encR_rd]

theorem fsubD rd rs1 rs2 rm : Statement (Instr.fsubD rd rs1 rs2 rm) := by
  intro _
  refine ⟨_, List.mem_of_getElem? (i := 112) rfl, hits_f7 _ _ _ _ rfl rfl, ?_⟩
  simp only [Row.instr, RawFields.reg, encode, decodeFields, rawFieldFrom, templateWidth, Piece.width, reduceCtorEq, if_true,
    if_false, Nat.zero_mul, Nat.zero_add, Nat.reduceAdd, BitVec.ofNat_toNat, BitVec.setWidth_eq, encR_rs2, encR_rs1, encR_f3, encR_rd]

theorem fmulD rd rs1 rs2 rm : Statement (Instr.fmulD rd rs1 rs2 rm) := by
  intro _
  refine ⟨_, List.mem_of_getElem? (i := 113) rfl, hits_f7 _ _ _ _ rfl rfl, ?_⟩
  simp only [Row.instr, RawFields.reg, encode, decodeFields, rawFieldFrom, templateWidth, Piece.width, reduceCtorEq, if_true,
    if_false, Nat.zero_mul, Nat.zero_add, Nat.reduceAdd, BitVec.ofNat_toNat, BitVec.setWidth_eq, encR_rs2, encR_rs1, encR_f3, encR_rd]

theorem fdivD rd rs1 rs2 rm : Statement (Instr.fdivD rd rs1 rs2 rm) := by
  intro _
  refine ⟨_, List.mem_of_getElem? (i := 114) rfl, hits_f7 _ _ _ _ rfl rfl, ?_⟩
  simp only [Row.instr, RawFields.reg, encode, decodeFields, rawFieldFrom, templateWidth, Piece.width, reduceCtorEq, if_true,
    if_false, Nat.zero_mul, Nat.zero_add, Nat.reduceAdd, BitVec.ofNat_toNat, BitVec.setWidth_eq, encR_rs2, encR_rs1, encR_f3, encR_rd]

theorem fsqrtD rd rs1 rm : Statement (Instr.fsqrtD rd rs1 rm) := by
  intro _
  refine ⟨_, List.mem_of_getElem? (i := 115) rfl, hits_f7k _ _ _ rfl rfl, ?_⟩
  simp only [Row.instr, RawFields.reg, encode, decodeFields, rawFieldFrom, templateWidth, Piece.width, reduceCtorEq, if_true,
    if_false, Nat.zero_mul, Nat.zero_add, Nat.reduceAdd, BitVec.ofNat_toNat, BitVec.setWidth_eq, encR_rs1, encR_f3, encR_rd]

theorem fsgnjD rd rs1 rs2 : Statement (Instr.fsgnjD rd rs1 rs2) := by
  intro _
  refine ⟨_, List.mem_of_getElem? (i := 116) rfl, hits_f7f3 _ _ _ rfl rfl, ?_⟩
  simp only [Row.instr, RawFields.reg, encode, decodeFields, rawFieldFrom, templateWidth, Piece.width, reduceCtorEq, if_true,
    if_false, Nat.zero_mul, Nat.zero_add, Nat.reduceAdd, BitVec.ofNat_toNat, BitVec.setWidth_eq, encR_rs2, encR_rs1, encR_rd]

theorem fsgnjnD rd rs1 rs2 : Statement (Instr.fsgnjnD rd rs1 rs2) := by
  intro _
  refine ⟨_, List.mem_of_getElem? (i := 117) rfl, hits_f7f3 _ _ _ rfl rfl, ?_⟩
  simp only [Row.instr, RawFields.reg, encode, decodeFields, rawFieldFrom, templateWidth, Piece.width, reduceCtorEq, if_true,
    if_false, Nat.zero_mul, Nat.zero_add, Nat.reduceAdd, BitVec.ofNat_toNat, BitVec.setWidth_eq, encR_rs2, encR_rs1, encR_rd]

theorem fsgnjxD rd rs1 rs2 : Statement (Instr.fsgnjxD rd rs1 rs2) := by
  intro _
  refine ⟨_, List.mem_of_getElem? (i := 118) rfl, hits_f7f3 _ _ _ rfl rfl, ?_⟩
  simp only [Row.instr, RawFields.reg, encode, decodeFields, rawFieldFrom, templateWidth, Piece.width, reduceCtorEq, if_true,
    if_false, Nat.zero_mul, Nat.zero_add, Nat.reduceAdd, BitVec.ofNat_toNat, BitVec.setWidth_eq, encR_rs2, encR_rs1, encR_rd]

theorem fminD rd rs1 rs2 : Statement (Instr.fminD rd rs1 rs2) := by
  intro _
  refine ⟨_, List.mem_of_getElem? (i := 119) rfl, hits_f7f3 _ _ _ rfl rfl, ?_⟩
  simp only [Row.instr, RawFields.reg, encode, decodeFields, rawFieldFrom, templateWidth, Piece.width, reduceCtorEq, if_true,
    if_false, Nat.zero_mul, Nat.zero_add, Nat.reduceAdd, BitVec.ofNat_toNat, BitVec.setWidth_eq, encR_rs2, encR_rs1, encR_rd]

theorem fmaxD rd rs1 rs2 : Statement (Instr.fmaxD rd rs1 rs2) := by
  intro _
  refine ⟨_, List.mem_of_getElem? (i := 120) rfl, hits_f7f3 _ _ _ rfl rfl, ?_⟩
  simp only [Row.instr, RawFields.reg, encode, decodeFields, rawFieldFrom, templateWidth, Piece.width, reduceCtorEq, if_true,
    if_false, Nat.zero_mul, Nat.zero_add, Nat.reduceAdd, BitVec.ofNat_toNat, BitVec.setWidth_eq, encR_rs2, encR_rs1, encR_rd]

theorem feqD rd rs1 rs2 : Statement (Instr.feqD rd rs1 rs2) := by
  intro _
  refine ⟨_, List.mem_of_getElem? (i := 121) rfl, hits_f7f3 _ _ _ rfl rfl, ?_⟩
  simp only [Row.instr, RawFields.reg, encode, decodeFields, rawFieldFrom, templateWidth, Piece.width, reduceCtorEq, if_true,
    if_false, Nat.zero_mul, Nat.zero_add, Nat.reduceAdd, BitVec.ofNat_toNat, BitVec.setWidth_eq, encR_rs2, encR_rs1, encR_rd]

theorem fltD rd rs1 rs2 : Statement (Instr.fltD rd rs1 rs2) := by
  intro _
  refine ⟨_, List.mem_of_getElem? (i := 122) rfl, hits_f7f3 _ _ _ rfl rfl, ?_⟩
  simp only [Row.instr, RawFields.reg, encode, decodeFields, rawFieldFrom, templateWidth, Piece.width, reduceCtorEq, if_true,
    if_false, Nat.zero_mul, Nat.zero_add, Nat.reduceAdd, BitVec.ofNat_toNat, BitVec.setWidth_eq, encR_rs2, encR_rs1, encR_rd]

theorem fleD rd rs1 rs2 : Statement (Instr.fleD rd rs1 rs2) := by
  intro _
  refine ⟨_, List.mem_of_getElem? (i := 123) rfl, hits_f7f3 _ _ _ rfl rfl, ?_⟩
  simp only [Row.instr, RawFields.reg, encode, decodeFields, rawFieldFrom, templateWidth, Piece.width, reduceCtorEq, if_true,
    if_false, Nat.zero_mul, Nat.zero_add, Nat.reduceAdd, BitVec.ofNat_toNat, BitVec.setWidth_eq, encR_rs2, encR_rs1, encR_rd]

theorem fclassD rd rs1 : Statement (Instr.fclassD rd rs1) := by
  intro _
  refine ⟨_, List.mem_of_getElem? (i := 124) rfl, hits_f7kf3 _ _ rfl rfl, ?_⟩
  simp only [Row.instr, RawFields.reg, encode, decodeFields, rawFieldFrom, templateWidth, Piece.width, reduceCtorEq, if_true,
    if_false, Nat.zero_mul, Nat.zero_add, Nat.reduceAdd, BitVec.ofNat_toNat, BitVec.setWidth_eq, encR_rs1, encR_rd]

theorem fcvtWD rd rs1 rm : Statement (Instr.fcvtWD rd rs1 rm) := by
  intro _
  refine ⟨_, List.mem_of_getElem? (i := 125) rfl, hits_f7k _ _ _ rfl rfl, ?_⟩
  simp only [Row.instr, RawFields.reg, encode, decodeFields, rawFieldFrom, templateWidth, Piece.width, reduceCtorEq, if_true,
    if_false, Nat.zero_mul, Nat.zero_add, Nat.reduceAdd, BitVec.ofNat_toNat, BitVec.setWidth_eq, encR_rs1, encR_f3, encR_rd]

theorem fcvtWuD rd rs1 rm : Statement (Instr.fcvtWuD rd rs1 rm) := by
  intro _
  refine ⟨_, List.mem_of_getElem? (i := 126) rfl, hits_f7k _ _ _ rfl rfl, ?_⟩
  simp only [Row.instr, RawFields.reg, encode, decodeFields, rawFieldFrom, templateWidth, Piece.width, reduceCtorEq, if_true,
    if_false, Nat.zero_mul, Nat.zero_add, Nat.reduceAdd, BitVec.ofNat_toNat, BitVec.setWidth_eq, encR_rs1, encR_f3, encR_rd]

theorem fcvtLD rd rs1 rm : Statement (Instr.fcvtLD rd rs1 rm) := by
  intro _
  refine ⟨_, List.mem_of_getElem? (i := 127) rfl, hits_f7k _ _ _ rfl rfl, ?_⟩
  simp only [Row.instr, RawFields.reg, encode, decodeFields, rawFieldFrom, templateWidth, Piece.width, reduceCtorEq, if_true,
    if_false, Nat.zero_mul, Nat.zero_add, Nat.reduceAdd, BitVec.ofNat_toNat, BitVec.setWidth_eq, encR_rs1, encR_f3, encR_rd]

theorem fcvtLuD rd rs1 rm : Statement (Instr.fcvtLuD rd rs1 rm) := by
  intro _
  refine ⟨_, List.mem_of_getElem? (i := 128) rfl, hits_f7k _ _ _ rfl rfl, ?_⟩
  simp only [Row.instr, RawFields.reg, encode, decodeFields, rawFieldFrom, templateWidth, Piece.width, reduceCtorEq, if_true,
    if_false, Nat.zero_mul, Nat.zero_add, Nat.reduceAdd, BitVec.ofNat_toNat, BitVec.setWidth_eq, encR_rs1, encR_f3, encR_rd]

theorem fcvtDW rd rs1 rm : Statement (Instr.fcvtDW rd rs1 rm) := by
  intro _
  refine ⟨_, List.mem_of_getElem? (i := 129) rfl, hits_f7k _ _ _ rfl rfl, ?_⟩
  simp only [Row.instr, RawFields.reg, encode, decodeFields, rawFieldFrom, templateWidth, Piece.width, reduceCtorEq, if_true,
    if_false, Nat.zero_mul, Nat.zero_add, Nat.reduceAdd, BitVec.ofNat_toNat, BitVec.setWidth_eq, encR_rs1, encR_f3, encR_rd]

theorem fcvtDWu rd rs1 rm : Statement (Instr.fcvtDWu rd rs1 rm) := by
  intro _
  refine ⟨_, List.mem_of_getElem? (i := 130) rfl, hits_f7k _ _ _ rfl rfl, ?_⟩
  simp only [Row.instr, RawFields.reg, encode, decodeFields, rawFieldFrom, templateWidth, Piece.width, reduceCtorEq, if_true,
    if_false, Nat.zero_mul, Nat.zero_add, Nat.reduceAdd, BitVec.ofNat_toNat, BitVec.setWidth_eq, encR_rs1, encR_f3, encR_rd]

theorem fcvtDL rd rs1 rm : Statement (Instr.fcvtDL rd rs1 rm) := by
  intro _
  refine ⟨_, List.mem_of_getElem? (i := 131) rfl, hits_f7k _ _ _ rfl rfl, ?_⟩
  simp only [Row.instr, RawFields.reg, encode, decodeFields, rawFieldFrom, templateWidth, Piece.width, reduceCtorEq, if_true,
    if_false, Nat.zero_mul, Nat.zero_add, Nat.reduceAdd, BitVec.ofNat_toNat, BitVec.setWidth_eq, encR_rs1, encR_f3, encR_rd]

theorem fcvtDLu rd rs1 rm : Statement (Instr.fcvtDLu rd rs1 rm) := by
  intro _
  refine ⟨_, List.mem_of_getElem? (i := 132) rfl, hits_f7k _ _ _ rfl rfl, ?_⟩
  simp only [Row.instr, RawFields.reg, encode, decodeFields, rawFieldFrom, templateWidth, Piece.width, reduceCtorEq, if_true,
    if_false, Nat.zero_mul, Nat.zero_add, Nat.reduceAdd, BitVec.ofNat_toNat, BitVec.setWidth_eq, encR_rs1, encR_f3, encR_rd]

theorem fcvtSD rd rs1 rm : Statement (Instr.fcvtSD rd rs1 rm) := by
  intro _
  refine ⟨_, List.mem_of_getElem? (i := 133) rfl, hits_f7k _ _ _ rfl rfl, ?_⟩
  simp only [Row.instr, RawFields.reg, encode, decodeFields, rawFieldFrom, templateWidth, Piece.width, reduceCtorEq, if_true,
    if_false, Nat.zero_mul, Nat.zero_add, Nat.reduceAdd, BitVec.ofNat_toNat, BitVec.setWidth_eq, encR_rs1, encR_f3, encR_rd]

theorem fcvtDS rd rs1 rm : Statement (Instr.fcvtDS rd rs1 rm) := by
  intro _
  refine ⟨_, List.mem_of_getElem? (i := 134) rfl, hits_f7k _ _ _ rfl rfl, ?_⟩
  simp only [Row.instr, RawFields.reg, encode, decodeFields, rawFieldFrom, templateWidth, Piece.width, reduceCtorEq, if_true,
    if_false, Nat.zero_mul, Nat.zero_add, Nat.reduceAdd, BitVec.ofNat_toNat, BitVec.setWidth_eq, encR_rs1, encR_f3, encR_rd]

theorem fmvXD rd rs1 : Statement (Instr.fmvXD rd rs1) := by
  intro _
  refine ⟨_, List.mem_of_getElem? (i := 135) rfl, hits_f7kf3 _ _ rfl rfl, ?_⟩
  simp only [Row.instr, RawFields.reg, encode, decodeFields, rawFieldFrom, templateWidth, Piece.width, reduceCtorEq, if_true,
    if_false, Nat.zero_mul, Nat.zero_add, Nat.reduceAdd, BitVec.ofNat_toNat, BitVec.setWidth_eq, encR_rs1, encR_rd]

theorem fmvDX rd rs1 : Statement (Instr.fmvDX rd rs1) := by
  intro _
  refine ⟨_, List.mem_of_getElem? (i := 136) rfl, hits_f7kf3 _ _ rfl rfl, ?_⟩
  simp only [Row.instr, RawFields.reg, encode, decodeFields, rawFieldFrom, templateWidth, Piece.width, reduceCtorEq, if_true,
    if_false, Nat.zero_mul, Nat.zero_add, Nat.reduceAdd, BitVec.ofNat_toNat, BitVec.setWidth_eq, encR_rs1, encR_rd]

end Laws.EncodedRow

end Sys2Proof
end

