-- ==== Sys2Proof/Laws/Encode.lean ====
section
/-! SUPPORT. The other direction of the codec: every word that a row of the catalog hits is the encoding of a well-formed
instruction. -/

namespace Sys2Proof

section Split

variable {r : Row} (w : InstrWord)

/-- A field the mask fixes has its value. -/
theorem fixed_field {m v w : InstrWord} (h : (w &&& m) = v) (k n : Nat) (hm : m.extractLsb' k n = BitVec.allOnes n) :
    w.extractLsb' k n = v.extractLsb' k n := by
  rw [← h, BitVec.extractLsb'_and, hm, BitVec.and_allOnes]

/-- A word is its R-format fields. -/
theorem word_encR : w = encR (w.extractLsb' 25 7) (w.extractLsb' 20 5) (w.extractLsb' 15 5) (w.extractLsb' 12 3)
    (w.extractLsb' 7 5) (w.extractLsb' 0 7) := by
  simp only [encR]
  rw [BitVec.extractLsb'_append_extractLsb'_eq_extractLsb' (by rfl),
    BitVec.extractLsb'_append_extractLsb'_eq_extractLsb' (by rfl),
    BitVec.extractLsb'_append_extractLsb'_eq_extractLsb' (by rfl),
    BitVec.extractLsb'_append_extractLsb'_eq_extractLsb' (by rfl),
    BitVec.extractLsb'_append_extractLsb'_eq_extractLsb' (by rfl), BitVec.extractLsb'_eq_self]

/-- A word is its R4-format fields. -/
theorem word_encR4 : w = encR4 (w.extractLsb' 27 5) (w.extractLsb' 25 2) (w.extractLsb' 20 5) (w.extractLsb' 15 5)
    (w.extractLsb' 12 3) (w.extractLsb' 7 5) (w.extractLsb' 0 7) := by
  simp only [encR4]
  rw [BitVec.extractLsb'_append_extractLsb'_eq_extractLsb' (by rfl),
    BitVec.extractLsb'_append_extractLsb'_eq_extractLsb' (by rfl),
    BitVec.extractLsb'_append_extractLsb'_eq_extractLsb' (by rfl),
    BitVec.extractLsb'_append_extractLsb'_eq_extractLsb' (by rfl),
    BitVec.extractLsb'_append_extractLsb'_eq_extractLsb' (by rfl),
    BitVec.extractLsb'_append_extractLsb'_eq_extractLsb' (by rfl), BitVec.extractLsb'_eq_self]

theorem and_of_hits {m v : InstrWord} (hm : r.mask = m) (hv : r.value = v) (h : r.hits w = true) : (w &&& m) = v := by
  rw [← hm, ← hv]; simpa [Row.hits] using h

theorem split_op {v : InstrWord} (hm : r.mask = 0x0000007F) (hv : r.value = v) (h : r.hits w = true) :
    ∃ f7 rs2 rs1 f3 rd, w = encR f7 rs2 rs1 f3 rd (v.extractLsb' 0 7) := by
  have ha := and_of_hits w hm hv h
  have e := word_encR w
  rw [fixed_field ha 0 7 (by decide)] at e
  exact ⟨_, _, _, _, _, e⟩

theorem split_f3 {v : InstrWord} (hm : r.mask = 0x0000707F) (hv : r.value = v) (h : r.hits w = true) :
    ∃ f7 rs2 rs1 rd, w = encR f7 rs2 rs1 (v.extractLsb' 12 3) rd (v.extractLsb' 0 7) := by
  have ha := and_of_hits w hm hv h
  have e := word_encR w
  rw [fixed_field ha 0 7 (by decide), fixed_field ha 12 3 (by decide)] at e
  exact ⟨_, _, _, _, e⟩

theorem split_f7f3 {v : InstrWord} (hm : r.mask = 0xFE00707F) (hv : r.value = v) (h : r.hits w = true) :
    ∃ rs2 rs1 rd, w = encR (v.extractLsb' 25 7) rs2 rs1 (v.extractLsb' 12 3) rd (v.extractLsb' 0 7) := by
  have ha := and_of_hits w hm hv h
  have e := word_encR w
  rw [fixed_field ha 0 7 (by decide), fixed_field ha 12 3 (by decide), fixed_field ha 25 7 (by decide)] at e
  exact ⟨_, _, _, e⟩

theorem split_f7 {v : InstrWord} (hm : r.mask = 0xFE00007F) (hv : r.value = v) (h : r.hits w = true) :
    ∃ rs2 rs1 rm rd, w = encR (v.extractLsb' 25 7) rs2 rs1 rm rd (v.extractLsb' 0 7) := by
  have ha := and_of_hits w hm hv h
  have e := word_encR w
  rw [fixed_field ha 0 7 (by decide), fixed_field ha 25 7 (by decide)] at e
  exact ⟨_, _, _, _, e⟩

theorem split_f7k {v : InstrWord} (hm : r.mask = 0xFFF0007F) (hv : r.value = v) (h : r.hits w = true) :
    ∃ rs1 rm rd, w = encR (v.extractLsb' 25 7) (v.extractLsb' 20 5) rs1 rm rd (v.extractLsb' 0 7) := by
  have ha := and_of_hits w hm hv h
  have e := word_encR w
  rw [fixed_field ha 0 7 (by decide), fixed_field ha 25 7 (by decide), fixed_field ha 20 5 (by decide)] at e
  exact ⟨_, _, _, e⟩

theorem split_f7kf3 {v : InstrWord} (hm : r.mask = 0xFFF0707F) (hv : r.value = v) (h : r.hits w = true) :
    ∃ rs1 rd, w = encR (v.extractLsb' 25 7) (v.extractLsb' 20 5) rs1 (v.extractLsb' 12 3) rd (v.extractLsb' 0 7) := by
  have ha := and_of_hits w hm hv h
  have e := word_encR w
  rw [fixed_field ha 0 7 (by decide), fixed_field ha 25 7 (by decide), fixed_field ha 20 5 (by decide),
    fixed_field ha 12 3 (by decide)] at e
  exact ⟨_, _, e⟩

theorem split_R4 {v : InstrWord} (hm : r.mask = 0x0600007F) (hv : r.value = v) (h : r.hits w = true) :
    ∃ rs3 rs2 rs1 rm rd, w = encR4 rs3 (v.extractLsb' 25 2) rs2 rs1 rm rd (v.extractLsb' 0 7) := by
  have ha := and_of_hits w hm hv h
  have e := word_encR4 w
  rw [fixed_field ha 0 7 (by decide), fixed_field ha 25 2 (by decide)] at e
  exact ⟨_, _, _, _, _, e⟩

theorem split_all {v : InstrWord} (hm : r.mask = 0xFFFFFFFF) (hv : r.value = v) (h : r.hits w = true) : w = v := by
  rw [← and_of_hits w hm hv h]
  exact (BitVec.and_allOnes (x := w)).symm

theorem split_fence (hm : r.mask = 0xF00FFFFF) (hv : r.value = 0x0000000F) (h : r.hits w = true) :
    ∃ pred succ, w = encode (.fence pred succ) := by
  have ha := and_of_hits w hm hv h
  refine ⟨w.extractLsb' 24 4, w.extractLsb' 20 4, ?_⟩
  have h1 : w = w.extractLsb' 28 4 ++ w.extractLsb' 24 4 ++ w.extractLsb' 20 4 ++ w.extractLsb' 0 20 := by
    rw [BitVec.extractLsb'_append_extractLsb'_eq_extractLsb' (by rfl),
      BitVec.extractLsb'_append_extractLsb'_eq_extractLsb' (by rfl),
      BitVec.extractLsb'_append_extractLsb'_eq_extractLsb' (by rfl), BitVec.extractLsb'_eq_self]
  refine h1.trans ?_
  rw [fixed_field ha 28 4 (by decide), fixed_field ha 0 20 (by decide)]
  have : ∀ p q : BitVec 4, 0#4 ++ p ++ q ++ 15#20 = encode (.fence p q) := by decide +kernel
  exact this _ _

end Split

section Joins

variable (f7 : BitVec 7) (rs2 rs1 rd : BitVec 5) (f3 : BitVec 3) (op : BitVec 7)

theorem encS_join : encS (f7 ++ rd) rs2 rs1 f3 op = encR f7 rs2 rs1 f3 rd op := by
  rw [encS_eq_encR]
  congr 1
  · exact BitVec.extractLsb'_append_eq_left
  · exact BitVec.extractLsb'_append_eq_right

theorem encB_join : encB (immB (f7 ++ rd)) rs2 rs1 f3 op = encR f7 rs2 rs1 f3 rd op := by
  have h : ∀ raw : BitVec 12, (immB raw).extractLsb' 12 1 ++ (immB raw).extractLsb' 5 6 = raw.extractLsb' 5 7 ∧
      (immB raw).extractLsb' 1 4 ++ (immB raw).extractLsb' 11 1 = raw.extractLsb' 0 5 := by decide +kernel
  have h1 : (f7 ++ rd).extractLsb' 5 7 = f7 := BitVec.extractLsb'_append_eq_left
  have h2 : (f7 ++ rd).extractLsb' 0 5 = rd := BitVec.extractLsb'_append_eq_right
  rw [encB_eq_encR, (h _).1, (h _).2, h1, h2]

theorem immB_even (raw : BitVec 12) : ((immB raw).getLsbD 0 == false) = true := by revert raw; decide +kernel

theorem immJ_even (raw : BitVec 20) : ((immJ raw).getLsbD 0 == false) = true := by
  have h : (immJ raw).extractLsb' 0 1 = 0#1 := BitVec.extractLsb'_append_eq_right
  have h' : (immJ raw).getLsbD 0 = ((immJ raw).extractLsb' 0 1).getLsbD 0 := by simp
  rw [h', h]; rfl

theorem encJ_join (raw : BitVec 20) : encJ (immJ raw) rd op = encU raw rd op := by
  have h1 : (immJ raw).extractLsb' 20 1 = raw.extractLsb' 19 1 := by
    simp (disch := omega) only [immJ, BitVec.extractLsb'_append_eq_of_le, BitVec.extractLsb'_eq_self, Nat.reduceSub]
  have h2 : (immJ raw).extractLsb' 1 10 = raw.extractLsb' 9 10 := by
    simp (disch := omega) only [immJ, BitVec.extractLsb'_append_eq_of_le, BitVec.extractLsb'_append_eq_of_add_le,
      BitVec.extractLsb'_eq_self, Nat.reduceSub]
  have h3 : (immJ raw).extractLsb' 11 1 = raw.extractLsb' 8 1 := by
    simp (disch := omega) only [immJ, BitVec.extractLsb'_append_eq_of_le, BitVec.extractLsb'_append_eq_of_add_le,
      BitVec.extractLsb'_eq_self, Nat.reduceSub]
  have h4 : (immJ raw).extractLsb' 12 8 = raw.extractLsb' 0 8 := by
    simp (disch := omega) only [immJ, BitVec.extractLsb'_append_eq_of_le, BitVec.extractLsb'_append_eq_of_add_le,
      BitVec.extractLsb'_eq_self, Nat.reduceSub]
  rw [encJ_eq_encU, h1, h2, h3, h4, BitVec.extractLsb'_append_extractLsb'_eq_extractLsb' (by rfl),
    BitVec.extractLsb'_append_extractLsb'_eq_extractLsb' (by rfl),
    BitVec.extractLsb'_append_extractLsb'_eq_extractLsb' (by rfl), BitVec.extractLsb'_eq_self]

theorem encSh_join (f6 : BitVec 6) (b : BitVec 1) :
    encSh f6 (b ++ rs2) rs1 f3 rd op = encR (f6 ++ b) rs2 rs1 f3 rd op := by
  have h1 : (b ++ rs2).extractLsb' 5 1 = b := BitVec.extractLsb'_append_eq_left
  have h2 : (b ++ rs2).extractLsb' 0 5 = rs2 := BitVec.extractLsb'_append_eq_right
  rw [encSh_eq_encR, h1, h2]

theorem shamt0_bit : ((0#1 ++ rs2).getLsbD 5 == false) = true := by revert rs2; decide +kernel

theorem shamt1_bit : ((1#1 ++ rs2).getLsbD 5 == true) = true := by revert rs2; decide +kernel

end Joins

set_option Elab.async false

/-! Every row (30_encoding.md section 8). -/

theorem rowsInteger_covered : ∀ r ∈ rowsInteger, ∀ w, r.hits w = true → ∃ i : Instr, i.wellFormed = true ∧ encode i = w := by
  simp only [rowsInteger, List.forall_mem_cons, List.not_mem_nil, false_implies, implies_true, and_true]
  refine ⟨?_, ?_, ?_, ?_, ?_, ?_, ?_, ?_, ?_, ?_, ?_, ?_, ?_, ?_, ?_, ?_, ?_, ?_, ?_, ?_, ?_, ?_, ?_, ?_, ?_, ?_, ?_, ?_, ?_, ?_, ?_, ?_, ?_⟩ <;> intro w h
  · obtain ⟨f7, rs2, rs1, f3, rd, rfl⟩ := split_op w rfl rfl h
    exact ⟨.lui rd (f7 ++ rs2 ++ rs1 ++ f3), rfl, rfl⟩
  · obtain ⟨f7, rs2, rs1, f3, rd, rfl⟩ := split_op w rfl rfl h
    exact ⟨.auipc rd (f7 ++ rs2 ++ rs1 ++ f3), rfl, rfl⟩
  · obtain ⟨f7, rs2, rs1, rd, rfl⟩ := split_f3 w rfl rfl h
    exact ⟨.addi rd rs1 (f7 ++ rs2), rfl, rfl⟩
  · obtain ⟨f7, rs2, rs1, rd, rfl⟩ := split_f3 w rfl rfl h
    exact ⟨.slti rd rs1 (f7 ++ rs2), rfl, rfl⟩
  · obtain ⟨f7, rs2, rs1, rd, rfl⟩ := split_f3 w rfl rfl h
    exact ⟨.sltiu rd rs1 (f7 ++ rs2), rfl, rfl⟩
  · obtain ⟨f7, rs2, rs1, rd, rfl⟩ := split_f3 w rfl rfl h
    exact ⟨.xori rd rs1 (f7 ++ rs2), rfl, rfl⟩
  · obtain ⟨f7, rs2, rs1, rd, rfl⟩ := split_f3 w rfl rfl h
    exact ⟨.ori rd rs1 (f7 ++ rs2), rfl, rfl⟩
  · obtain ⟨f7, rs2, rs1, rd, rfl⟩ := split_f3 w rfl rfl h
    exact ⟨.andi rd rs1 (f7 ++ rs2), rfl, rfl⟩
  · obtain ⟨rs2, rs1, rd, rfl⟩ := split_f7f3 w rfl rfl h
    exact ⟨.slli rd rs1 (0#1 ++ rs2), shamt0_bit _, encSh_join _ _ _ _ _ _ _⟩
  · obtain ⟨rs2, rs1, rd, rfl⟩ := split_f7f3 w rfl rfl h
    exact ⟨.srli rd rs1 (0#1 ++ rs2), shamt0_bit _, encSh_join _ _ _ _ _ _ _⟩
  · obtain ⟨rs2, rs1, rd, rfl⟩ := split_f7f3 w rfl rfl h
    exact ⟨.srai rd rs1 (0#1 ++ rs2), shamt0_bit _, encSh_join _ _ _ _ _ _ _⟩
  · obtain ⟨rs2, rs1, rd, rfl⟩ := split_f7f3 w rfl rfl h
    exact ⟨.slliHi rd rs1 (1#1 ++ rs2), shamt1_bit _, encSh_join _ _ _ _ _ _ _⟩
  · obtain ⟨rs2, rs1, rd, rfl⟩ := split_f7f3 w rfl rfl h
    exact ⟨.srliHi rd rs1 (1#1 ++ rs2), shamt1_bit _, encSh_join _ _ _ _ _ _ _⟩
  · obtain ⟨rs2, rs1, rd, rfl⟩ := split_f7f3 w rfl rfl h
    exact ⟨.sraiHi rd rs1 (1#1 ++ rs2), shamt1_bit _, encSh_join _ _ _ _ _ _ _⟩
  · obtain ⟨rs2, rs1, rd, rfl⟩ := split_f7f3 w rfl rfl h
    exact ⟨.add rd rs1 rs2, rfl, rfl⟩
  · obtain ⟨rs2, rs1, rd, rfl⟩ := split_f7f3 w rfl rfl h
    exact ⟨.sub rd rs1 rs2, rfl, rfl⟩
  · obtain ⟨rs2, rs1, rd, rfl⟩ := split_f7f3 w rfl rfl h
    exact ⟨.sll rd rs1 rs2, rfl, rfl⟩
  · obtain ⟨rs2, rs1, rd, rfl⟩ := split_f7f3 w rfl rfl h
    exact ⟨.slt rd rs1 rs2, rfl, rfl⟩
  · obtain ⟨rs2, rs1, rd, rfl⟩ := split_f7f3 w rfl rfl h
    exact ⟨.sltu rd rs1 rs2, rfl, rfl⟩
  · obtain ⟨rs2, rs1, rd, rfl⟩ := split_f7f3 w rfl rfl h
    exact ⟨.xor rd rs1 rs2, rfl, rfl⟩
  · obtain ⟨rs2, rs1, rd, rfl⟩ := split_f7f3 w rfl rfl h
    exact ⟨.srl rd rs1 rs2, rfl, rfl⟩
  · obtain ⟨rs2, rs1, rd, rfl⟩ := split_f7f3 w rfl rfl h
    exact ⟨.sra rd rs1 rs2, rfl, rfl⟩
  · obtain ⟨rs2, rs1, rd, rfl⟩ := split_f7f3 w rfl rfl h
    exact ⟨.or rd rs1 rs2, rfl, rfl⟩
  · obtain ⟨rs2, rs1, rd, rfl⟩ := split_f7f3 w rfl rfl h
    exact ⟨.and rd rs1 rs2, rfl, rfl⟩
  · obtain ⟨f7, rs2, rs1, rd, rfl⟩ := split_f3 w rfl rfl h
    exact ⟨.addiw rd rs1 (f7 ++ rs2), rfl, rfl⟩
  · obtain ⟨rs2, rs1, rd, rfl⟩ := split_f7f3 w rfl rfl h
    exact ⟨.slliw rd rs1 rs2, rfl, rfl⟩
  · obtain ⟨rs2, rs1, rd, rfl⟩ := split_f7f3 w rfl rfl h
    exact ⟨.srliw rd rs1 rs2, rfl, rfl⟩
  · obtain ⟨rs2, rs1, rd, rfl⟩ := split_f7f3 w rfl rfl h
    exact ⟨.sraiw rd rs1 rs2, rfl, rfl⟩
  · obtain ⟨rs2, rs1, rd, rfl⟩ := split_f7f3 w rfl rfl h
    exact ⟨.addw rd rs1 rs2, rfl, rfl⟩
  · obtain ⟨rs2, rs1, rd, rfl⟩ := split_f7f3 w rfl rfl h
    exact ⟨.subw rd rs1 rs2, rfl, rfl⟩
  · obtain ⟨rs2, rs1, rd, rfl⟩ := split_f7f3 w rfl rfl h
    exact ⟨.sllw rd rs1 rs2, rfl, rfl⟩
  · obtain ⟨rs2, rs1, rd, rfl⟩ := split_f7f3 w rfl rfl h
    exact ⟨.srlw rd rs1 rs2, rfl, rfl⟩
  · obtain ⟨rs2, rs1, rd, rfl⟩ := split_f7f3 w rfl rfl h
    exact ⟨.sraw rd rs1 rs2, rfl, rfl⟩

theorem rowsControl_covered : ∀ r ∈ rowsControl, ∀ w, r.hits w = true → ∃ i : Instr, i.wellFormed = true ∧ encode i = w := by
  simp only [rowsControl, List.forall_mem_cons, List.not_mem_nil, false_implies, implies_true, and_true]
  refine ⟨?_, ?_, ?_, ?_, ?_, ?_, ?_, ?_⟩ <;> intro w h
  · obtain ⟨f7, rs2, rs1, f3, rd, rfl⟩ := split_op w rfl rfl h
    exact ⟨.jal rd (immJ (f7 ++ rs2 ++ rs1 ++ f3)), immJ_even _, encJ_join _ _ _⟩
  · obtain ⟨f7, rs2, rs1, rd, rfl⟩ := split_f3 w rfl rfl h
    exact ⟨.jalr rd rs1 (f7 ++ rs2), rfl, rfl⟩
  · obtain ⟨f7, rs2, rs1, rd, rfl⟩ := split_f3 w rfl rfl h
    exact ⟨.beq rs1 rs2 (immB (f7 ++ rd)), immB_even _, encB_join _ _ _ _ _ _⟩
  · obtain ⟨f7, rs2, rs1, rd, rfl⟩ := split_f3 w rfl rfl h
    exact ⟨.bne rs1 rs2 (immB (f7 ++ rd)), immB_even _, encB_join _ _ _ _ _ _⟩
  · obtain ⟨f7, rs2, rs1, rd, rfl⟩ := split_f3 w rfl rfl h
    exact ⟨.blt rs1 rs2 (immB (f7 ++ rd)), immB_even _, encB_join _ _ _ _ _ _⟩
  · obtain ⟨f7, rs2, rs1, rd, rfl⟩ := split_f3 w rfl rfl h
    exact ⟨.bge rs1 rs2 (immB (f7 ++ rd)), immB_even _, encB_join _ _ _ _ _ _⟩
  · obtain ⟨f7, rs2, rs1, rd, rfl⟩ := split_f3 w rfl rfl h
    exact ⟨.bltu rs1 rs2 (immB (f7 ++ rd)), immB_even _, encB_join _ _ _ _ _ _⟩
  · obtain ⟨f7, rs2, rs1, rd, rfl⟩ := split_f3 w rfl rfl h
    exact ⟨.bgeu rs1 rs2 (immB (f7 ++ rd)), immB_even _, encB_join _ _ _ _ _ _⟩

theorem rowsLoadStore_covered : ∀ r ∈ rowsLoadStore, ∀ w, r.hits w = true → ∃ i : Instr, i.wellFormed = true ∧ encode i = w := by
  simp only [rowsLoadStore, List.forall_mem_cons, List.not_mem_nil, false_implies, implies_true, and_true]
  refine ⟨?_, ?_, ?_, ?_, ?_, ?_, ?_, ?_, ?_, ?_, ?_, ?_, ?_⟩ <;> intro w h
  · obtain ⟨f7, rs2, rs1, rd, rfl⟩ := split_f3 w rfl rfl h
    exact ⟨.lb rd rs1 (f7 ++ rs2), rfl, rfl⟩
  · obtain ⟨f7, rs2, rs1, rd, rfl⟩ := split_f3 w rfl rfl h
    exact ⟨.lh rd rs1 (f7 ++ rs2), rfl, rfl⟩
  · obtain ⟨f7, rs2, rs1, rd, rfl⟩ := split_f3 w rfl rfl h
    exact ⟨.lw rd rs1 (f7 ++ rs2), rfl, rfl⟩
  · obtain ⟨f7, rs2, rs1, rd, rfl⟩ := split_f3 w rfl rfl h
    exact ⟨.lbu rd rs1 (f7 ++ rs2), rfl, rfl⟩
  · obtain ⟨f7, rs2, rs1, rd, rfl⟩ := split_f3 w rfl rfl h
    exact ⟨.lhu rd rs1 (f7 ++ rs2), rfl, rfl⟩
  · obtain ⟨f7, rs2, rs1, rd, rfl⟩ := split_f3 w rfl rfl h
    exact ⟨.lwu rd rs1 (f7 ++ rs2), rfl, rfl⟩
  · obtain ⟨f7, rs2, rs1, rd, rfl⟩ := split_f3 w rfl rfl h
    exact ⟨.ld rd rs1 (f7 ++ rs2), rfl, rfl⟩
  · obtain ⟨f7, rs2, rs1, rd, rfl⟩ := split_f3 w rfl rfl h
    exact ⟨.sb rs1 rs2 (f7 ++ rd), rfl, encS_join _ _ _ _ _ _⟩
  · obtain ⟨f7, rs2, rs1, rd, rfl⟩ := split_f3 w rfl rfl h
    exact ⟨.sh rs1 rs2 (f7 ++ rd), rfl, encS_join _ _ _ _ _ _⟩
  · obtain ⟨f7, rs2, rs1, rd, rfl⟩ := split_f3 w rfl rfl h
    exact ⟨.sw rs1 rs2 (f7 ++ rd), rfl, encS_join _ _ _ _ _ _⟩
  · obtain ⟨f7, rs2, rs1, rd, rfl⟩ := split_f3 w rfl rfl h
    exact ⟨.sd rs1 rs2 (f7 ++ rd), rfl, encS_join _ _ _ _ _ _⟩
  · obtain ⟨pred, succ, rfl⟩ := split_fence w rfl rfl h
    exact ⟨.fence pred succ, rfl, rfl⟩
  · exact ⟨.fenceI, rfl, (split_all w rfl rfl h).symm⟩

theorem rowsMulDiv_covered : ∀ r ∈ rowsMulDiv, ∀ w, r.hits w = true → ∃ i : Instr, i.wellFormed = true ∧ encode i = w := by
  simp only [rowsMulDiv, List.forall_mem_cons, List.not_mem_nil, false_implies, implies_true, and_true]
  refine ⟨?_, ?_, ?_, ?_, ?_, ?_, ?_, ?_, ?_, ?_, ?_, ?_, ?_⟩ <;> intro w h
  · obtain ⟨rs2, rs1, rd, rfl⟩ := split_f7f3 w rfl rfl h
    exact ⟨.mul rd rs1 rs2, rfl, rfl⟩
  · obtain ⟨rs2, rs1, rd, rfl⟩ := split_f7f3 w rfl rfl h
    exact ⟨.mulh rd rs1 rs2, rfl, rfl⟩
  · obtain ⟨rs2, rs1, rd, rfl⟩ := split_f7f3 w rfl rfl h
    exact ⟨.mulhsu rd rs1 rs2, rfl, rfl⟩
  · obtain ⟨rs2, rs1, rd, rfl⟩ := split_f7f3 w rfl rfl h
    exact ⟨.mulhu rd rs1 rs2, rfl, rfl⟩
  · obtain ⟨rs2, rs1, rd, rfl⟩ := split_f7f3 w rfl rfl h
    exact ⟨.div rd rs1 rs2, rfl, rfl⟩
  · obtain ⟨rs2, rs1, rd, rfl⟩ := split_f7f3 w rfl rfl h
    exact ⟨.divu rd rs1 rs2, rfl, rfl⟩
  · obtain ⟨rs2, rs1, rd, rfl⟩ := split_f7f3 w rfl rfl h
    exact ⟨.rem rd rs1 rs2, rfl, rfl⟩
  · obtain ⟨rs2, rs1, rd, rfl⟩ := split_f7f3 w rfl rfl h
    exact ⟨.remu rd rs1 rs2, rfl, rfl⟩
  · obtain ⟨rs2, rs1, rd, rfl⟩ := split_f7f3 w rfl rfl h
    exact ⟨.mulw rd rs1 rs2, rfl, rfl⟩
  · obtain ⟨rs2, rs1, rd, rfl⟩ := split_f7f3 w rfl rfl h
    exact ⟨.divw rd rs1 rs2, rfl, rfl⟩
  · obtain ⟨rs2, rs1, rd, rfl⟩ := split_f7f3 w rfl rfl h
    exact ⟨.divuw rd rs1 rs2, rfl, rfl⟩
  · obtain ⟨rs2, rs1, rd, rfl⟩ := split_f7f3 w rfl rfl h
    exact ⟨.remw rd rs1 rs2, rfl, rfl⟩
  · obtain ⟨rs2, rs1, rd, rfl⟩ := split_f7f3 w rfl rfl h
    exact ⟨.remuw rd rs1 rs2, rfl, rfl⟩

theorem rowsSystem_covered : ∀ r ∈ rowsSystem, ∀ w, r.hits w = true → ∃ i : Instr, i.wellFormed = true ∧ encode i = w := by
  simp only [rowsSystem, List.forall_mem_cons, List.not_mem_nil, false_implies, implies_true, and_true]
  refine ⟨?_, ?_, ?_, ?_, ?_, ?_, ?_, ?_⟩ <;> intro w h
  · exact ⟨.ecall, rfl, (split_all w rfl rfl h).symm⟩
  · exact ⟨.ebreak, rfl, (split_all w rfl rfl h).symm⟩
  · obtain ⟨f7, rs2, rs1, rd, rfl⟩ := split_f3 w rfl rfl h
    exact ⟨.csrrw rd (f7 ++ rs2) rs1, rfl, rfl⟩
  · obtain ⟨f7, rs2, rs1, rd, rfl⟩ := split_f3 w rfl rfl h
    exact ⟨.csrrs rd (f7 ++ rs2) rs1, rfl, rfl⟩
  · obtain ⟨f7, rs2, rs1, rd, rfl⟩ := split_f3 w rfl rfl h
    exact ⟨.csrrc rd (f7 ++ rs2) rs1, rfl, rfl⟩
  · obtain ⟨f7, rs2, rs1, rd, rfl⟩ := split_f3 w rfl rfl h
    exact ⟨.csrrwi rd (f7 ++ rs2) rs1, rfl, rfl⟩
  · obtain ⟨f7, rs2, rs1, rd, rfl⟩ := split_f3 w rfl rfl h
    exact ⟨.csrrsi rd (f7 ++ rs2) rs1, rfl, rfl⟩
  · obtain ⟨f7, rs2, rs1, rd, rfl⟩ := split_f3 w rfl rfl h
    exact ⟨.csrrci rd (f7 ++ rs2) rs1, rfl, rfl⟩

theorem rowsFloatSingle_covered : ∀ r ∈ rowsFloatSingle, ∀ w, r.hits w = true → ∃ i : Instr, i.wellFormed = true ∧ encode i = w := by
  simp only [rowsFloatSingle, List.forall_mem_cons, List.not_mem_nil, false_implies, implies_true, and_true]
  refine ⟨?_, ?_, ?_, ?_, ?_, ?_, ?_, ?_, ?_, ?_, ?_, ?_, ?_, ?_, ?_, ?_, ?_, ?_, ?_, ?_, ?_, ?_, ?_, ?_, ?_, ?_, ?_, ?_, ?_, ?_⟩ <;> intro w h
  · obtain ⟨f7, rs2, rs1, rd, rfl⟩ := split_f3 w rfl rfl h
    exact ⟨.flw rd rs1 (f7 ++ rs2), rfl, rfl⟩
  · obtain ⟨f7, rs2, rs1, rd, rfl⟩ := split_f3 w rfl rfl h
    exact ⟨.fsw rs1 rs2 (f7 ++ rd), rfl, encS_join _ _ _ _ _ _⟩
  · obtain ⟨rs3, rs2, rs1, rm, rd, rfl⟩ := split_R4 w rfl rfl h
    exact ⟨.fmaddS rd rs1 rs2 rs3 rm, rfl, rfl⟩
  · obtain ⟨rs3, rs2, rs1, rm, rd, rfl⟩ := split_R4 w rfl rfl h
    exact ⟨.fmsubS rd rs1 rs2 rs3 rm, rfl, rfl⟩
  · obtain ⟨rs3, rs2, rs1, rm, rd, rfl⟩ := split_R4 w rfl rfl h
    exact ⟨.fnmsubS rd rs1 rs2 rs3 rm, rfl, rfl⟩
  · obtain ⟨rs3, rs2, rs1, rm, rd, rfl⟩ := split_R4 w rfl rfl h
    exact ⟨.fnmaddS rd rs1 rs2 rs3 rm, rfl, rfl⟩
  · obtain ⟨rs2, rs1, rm, rd, rfl⟩ := split_f7 w rfl rfl h
    exact ⟨.faddS rd rs1 rs2 rm, rfl, rfl⟩
  · obtain ⟨rs2, rs1, rm, rd, rfl⟩ := split_f7 w rfl rfl h
    exact ⟨.fsubS rd rs1 rs2 rm, rfl, rfl⟩
  · obtain ⟨rs2, rs1, rm, rd, rfl⟩ := split_f7 w rfl rfl h
    exact ⟨.fmulS rd rs1 rs2 rm, rfl, rfl⟩
  · obtain ⟨rs2, rs1, rm, rd, rfl⟩ := split_f7 w rfl rfl h
    exact ⟨.fdivS rd rs1 rs2 rm, rfl, rfl⟩
  · obtain ⟨rs1, rm, rd, rfl⟩ := split_f7k w rfl rfl h
    exact ⟨.fsqrtS rd rs1 rm, rfl, rfl⟩
  · obtain ⟨rs2, rs1, rd, rfl⟩ := split_f7f3 w rfl rfl h
    exact ⟨.fsgnjS rd rs1 rs2, rfl, rfl⟩
  · obtain ⟨rs2, rs1, rd, rfl⟩ := split_f7f3 w rfl rfl h
    exact ⟨.fsgnjnS rd rs1 rs2, rfl, rfl⟩
  · obtain ⟨rs2, rs1, rd, rfl⟩ := split_f7f3 w rfl rfl h
    exact ⟨.fsgnjxS rd rs1 rs2, rfl, rfl⟩
  · obtain ⟨rs2, rs1, rd, rfl⟩ := split_f7f3 w rfl rfl h
    exact ⟨.fminS rd rs1 rs2, rfl, rfl⟩
  · obtain ⟨rs2, rs1, rd, rfl⟩ := split_f7f3 w rfl rfl h
    exact ⟨.fmaxS rd rs1 rs2, rfl, rfl⟩
  · obtain ⟨rs2, rs1, rd, rfl⟩ := split_f7f3 w rfl rfl h
    exact ⟨.feqS rd rs1 rs2, rfl, rfl⟩
  · obtain ⟨rs2, rs1, rd, rfl⟩ := split_f7f3 w rfl rfl h
    exact ⟨.fltS rd rs1 rs2, rfl, rfl⟩
  · obtain ⟨rs2, rs1, rd, rfl⟩ := split_f7f3 w rfl rfl h
    exact ⟨.fleS rd rs1 rs2, rfl, rfl⟩
  · obtain ⟨rs1, rd, rfl⟩ := split_f7kf3 w rfl rfl h
    exact ⟨.fclassS rd rs1, rfl, rfl⟩
  · obtain ⟨rs1, rm, rd, rfl⟩ := split_f7k w rfl rfl h
    exact ⟨.fcvtWS rd rs1 rm, rfl, rfl⟩
  · obtain ⟨rs1, rm, rd, rfl⟩ := split_f7k w rfl rfl h
    exact ⟨.fcvtWuS rd rs1 rm, rfl, rfl⟩
  · obtain ⟨rs1, rm, rd, rfl⟩ := split_f7k w rfl rfl h
    exact ⟨.fcvtLS rd rs1 rm, rfl, rfl⟩
  · obtain ⟨rs1, rm, rd, rfl⟩ := split_f7k w rfl rfl h
    exact ⟨.fcvtLuS rd rs1 rm, rfl, rfl⟩
  · obtain ⟨rs1, rm, rd, rfl⟩ := split_f7k w rfl rfl h
    exact ⟨.fcvtSW rd rs1 rm, rfl, rfl⟩
  · obtain ⟨rs1, rm, rd, rfl⟩ := split_f7k w rfl rfl h
    exact ⟨.fcvtSWu rd rs1 rm, rfl, rfl⟩
  · obtain ⟨rs1, rm, rd, rfl⟩ := split_f7k w rfl rfl h
    exact ⟨.fcvtSL rd rs1 rm, rfl, rfl⟩
  · obtain ⟨rs1, rm, rd, rfl⟩ := split_f7k w rfl rfl h
    exact ⟨.fcvtSLu rd rs1 rm, rfl, rfl⟩
  · obtain ⟨rs1, rd, rfl⟩ := split_f7kf3 w rfl rfl h
    exact ⟨.fmvXW rd rs1, rfl, rfl⟩
  · obtain ⟨rs1, rd, rfl⟩ := split_f7kf3 w rfl rfl h
    exact ⟨.fmvWX rd rs1, rfl, rfl⟩

theorem rowsFloatDouble_covered : ∀ r ∈ rowsFloatDouble, ∀ w, r.hits w = true → ∃ i : Instr, i.wellFormed = true ∧ encode i = w := by
  simp only [rowsFloatDouble, List.forall_mem_cons, List.not_mem_nil, false_implies, implies_true, and_true]
  refine ⟨?_, ?_, ?_, ?_, ?_, ?_, ?_, ?_, ?_, ?_, ?_, ?_, ?_, ?_, ?_, ?_, ?_, ?_, ?_, ?_, ?_, ?_, ?_, ?_, ?_, ?_, ?_, ?_, ?_, ?_, ?_, ?_⟩ <;> intro w h
  · obtain ⟨f7, rs2, rs1, rd, rfl⟩ := split_f3 w rfl rfl h
    exact ⟨.fld rd rs1 (f7 ++ rs2), rfl, rfl⟩
  · obtain ⟨f7, rs2, rs1, rd, rfl⟩ := split_f3 w rfl rfl h
    exact ⟨.fsd rs1 rs2 (f7 ++ rd), rfl, encS_join _ _ _ _ _ _⟩
  · obtain ⟨rs3, rs2, rs1, rm, rd, rfl⟩ := split_R4 w rfl rfl h
    exact ⟨.fmaddD rd rs1 rs2 rs3 rm, rfl, rfl⟩
  · obtain ⟨rs3, rs2, rs1, rm, rd, rfl⟩ := split_R4 w rfl rfl h
    exact ⟨.fmsubD rd rs1 rs2 rs3 rm, rfl, rfl⟩
  · obtain ⟨rs3, rs2, rs1, rm, rd, rfl⟩ := split_R4 w rfl rfl h
    exact ⟨.fnmsubD rd rs1 rs2 rs3 rm, rfl, rfl⟩
  · obtain ⟨rs3, rs2, rs1, rm, rd, rfl⟩ := split_R4 w rfl rfl h
    exact ⟨.fnmaddD rd rs1 rs2 rs3 rm, rfl, rfl⟩
  · obtain ⟨rs2, rs1, rm, rd, rfl⟩ := split_f7 w rfl rfl h
    exact ⟨.faddD rd rs1 rs2 rm, rfl, rfl⟩
  · obtain ⟨rs2, rs1, rm, rd, rfl⟩ := split_f7 w rfl rfl h
    exact ⟨.fsubD rd rs1 rs2 rm, rfl, rfl⟩
  · obtain ⟨rs2, rs1, rm, rd, rfl⟩ := split_f7 w rfl rfl h
    exact ⟨.fmulD rd rs1 rs2 rm, rfl, rfl⟩
  · obtain ⟨rs2, rs1, rm, rd, rfl⟩ := split_f7 w rfl rfl h
    exact ⟨.fdivD rd rs1 rs2 rm, rfl, rfl⟩
  · obtain ⟨rs1, rm, rd, rfl⟩ := split_f7k w rfl rfl h
    exact ⟨.fsqrtD rd rs1 rm, rfl, rfl⟩
  · obtain ⟨rs2, rs1, rd, rfl⟩ := split_f7f3 w rfl rfl h
    exact ⟨.fsgnjD rd rs1 rs2, rfl, rfl⟩
  · obtain ⟨rs2, rs1, rd, rfl⟩ := split_f7f3 w rfl rfl h
    exact ⟨.fsgnjnD rd rs1 rs2, rfl, rfl⟩
  · obtain ⟨rs2, rs1, rd, rfl⟩ := split_f7f3 w rfl rfl h
    exact ⟨.fsgnjxD rd rs1 rs2, rfl, rfl⟩
  · obtain ⟨rs2, rs1, rd, rfl⟩ := split_f7f3 w rfl rfl h
    exact ⟨.fminD rd rs1 rs2, rfl, rfl⟩
  · obtain ⟨rs2, rs1, rd, rfl⟩ := split_f7f3 w rfl rfl h
    exact ⟨.fmaxD rd rs1 rs2, rfl, rfl⟩
  · obtain ⟨rs2, rs1, rd, rfl⟩ := split_f7f3 w rfl rfl h
    exact ⟨.feqD rd rs1 rs2, rfl, rfl⟩
  · obtain ⟨rs2, rs1, rd, rfl⟩ := split_f7f3 w rfl rfl h
    exact ⟨.fltD rd rs1 rs2, rfl, rfl⟩
  · obtain ⟨rs2, rs1, rd, rfl⟩ := split_f7f3 w rfl rfl h
    exact ⟨.fleD rd rs1 rs2, rfl, rfl⟩
  · obtain ⟨rs1, rd, rfl⟩ := split_f7kf3 w rfl rfl h
    exact ⟨.fclassD rd rs1, rfl, rfl⟩
  · obtain ⟨rs1, rm, rd, rfl⟩ := split_f7k w rfl rfl h
    exact ⟨.fcvtWD rd rs1 rm, rfl, rfl⟩
  · obtain ⟨rs1, rm, rd, rfl⟩ := split_f7k w rfl rfl h
    exact ⟨.fcvtWuD rd rs1 rm, rfl, rfl⟩
  · obtain ⟨rs1, rm, rd, rfl⟩ := split_f7k w rfl rfl h
    exact ⟨.fcvtLD rd rs1 rm, rfl, rfl⟩
  · obtain ⟨rs1, rm, rd, rfl⟩ := split_f7k w rfl rfl h
    exact ⟨.fcvtLuD rd rs1 rm, rfl, rfl⟩
  · obtain ⟨rs1, rm, rd, rfl⟩ := split_f7k w rfl rfl h
    exact ⟨.fcvtDW rd rs1 rm, rfl, rfl⟩
  · obtain ⟨rs1, rm, rd, rfl⟩ := split_f7k w rfl rfl h
    exact ⟨.fcvtDWu rd rs1 rm, rfl, rfl⟩
  · obtain ⟨rs1, rm, rd, rfl⟩ := split_f7k w rfl rfl h
    exact ⟨.fcvtDL rd rs1 rm, rfl, rfl⟩
  · obtain ⟨rs1, rm, rd, rfl⟩ := split_f7k w rfl rfl h
    exact ⟨.fcvtDLu rd rs1 rm, rfl, rfl⟩
  · obtain ⟨rs1, rm, rd, rfl⟩ := split_f7k w rfl rfl h
    exact ⟨.fcvtSD rd rs1 rm, rfl, rfl⟩
  · obtain ⟨rs1, rm, rd, rfl⟩ := split_f7k w rfl rfl h
    exact ⟨.fcvtDS rd rs1 rm, rfl, rfl⟩
  · obtain ⟨rs1, rd, rfl⟩ := split_f7kf3 w rfl rfl h
    exact ⟨.fmvXD rd rs1, rfl, rfl⟩
  · obtain ⟨rs1, rd, rfl⟩ := split_f7kf3 w rfl rfl h
    exact ⟨.fmvDX rd rs1, rfl, rfl⟩

/-- A word that a row hits is the encoding of the well-formed instruction it decodes to. -/
theorem encode_of_decode {w : InstrWord} {i : Instr} (h : decode w = some i) : ∃ j : Instr, j.wellFormed = true ∧ encode j = w := by
  obtain ⟨r, hr, -⟩ := Option.map_eq_some_iff.1 h
  obtain ⟨hm, hh⟩ := findRow_mem hr
  simp only [catalog, List.mem_append] at hm
  rcases hm with (((((hm | hm) | hm) | hm) | hm) | hm) | hm
  · exact rowsInteger_covered r hm w hh
  · exact rowsControl_covered r hm w hh
  · exact rowsLoadStore_covered r hm w hh
  · exact rowsMulDiv_covered r hm w hh
  · exact rowsSystem_covered r hm w hh
  · exact rowsFloatSingle_covered r hm w hh
  · exact rowsFloatDouble_covered r hm w hh

end Sys2Proof
end

