-- ==== Sys2Proof/Laws/Memory.lean ====
section
/-! SUPPORT. Memory: every operation keeps the canonical form, a read after a write, and what a write leaves alone. -/

namespace Sys2Proof.Machine

/-! One byte. -/

theorem Memory.byte?_write_same (m : Memory) (a : Nat) (b : Byte) : (m.write a b).byte? a = some b := by
  induction m with
  | nil => simp [Memory.write, Memory.byte?]
  | cons c cs ih =>
    simp only [Memory.write]
    split
    · simp [Memory.byte?]
    · split
      · simp [Memory.byte?]
      · rename_i h; simp [Memory.byte?, Ne.symm h, ih]

theorem Memory.byte?_write_ne (m : Memory) {a p : Nat} (b : Byte) (h : p ≠ a) : (m.write a b).byte? p = m.byte? p := by
  induction m with
  | nil => simp [Memory.write, Memory.byte?, Ne.symm h]
  | cons c cs ih =>
    simp only [Memory.write]
    split
    · simp [Memory.byte?, Ne.symm h]
    · split
      · rename_i e; simp [Memory.byte?, ← e, Ne.symm h]
      · simp [Memory.byte?, ih]

/-! The canonical form. -/

theorem Memory.risesFrom_write (m : Memory) {lo a : Nat} (b : Byte) (h : m.risesFrom lo = true) (ha : lo < a) :
    (m.write a b).risesFrom lo = true := by
  induction m generalizing lo with
  | nil => simp [Memory.write, Memory.risesFrom, ha]
  | cons c cs ih =>
    simp only [Memory.risesFrom, Bool.and_eq_true, decide_eq_true_eq] at h
    simp only [Memory.write]
    split
    · rename_i h1; simp [Memory.risesFrom, ha, h1, h.2]
    · split
      · rename_i e; simp [Memory.risesFrom, ha]; exact e ▸ h.2
      · simp [Memory.risesFrom, h.1, ih h.2 (by omega)]

/-- A write keeps the canonical form. -/
theorem Memory.write_wf (m : Memory) (a : Nat) (b : Byte) (h : m.wf = true) : (m.write a b).wf = true := by
  cases m with
  | nil => rfl
  | cons c cs =>
    have h' : Memory.risesFrom c.1 cs = true := h
    simp only [Memory.write]
    split
    · rename_i h1; simp [Memory.wf, Memory.risesFrom, h1, h']
    · split
      · rename_i e; simp [Memory.wf, e, h']
      · exact Memory.risesFrom_write cs b h' (by omega)

/-- A store keeps the canonical form. -/
theorem Memory.store_wf (m : Memory) (a : Nat) (v : BitVec 64) (n : Nat) (h : m.wf = true) : (m.store a v n).wf = true := by
  induction n with
  | zero => exact h
  | succ n ih => exact Memory.write_wf _ _ _ ih

/-- Building a memory from cells gives the canonical form. -/
theorem Memory.ofCells_wf (cs : List Host.Cell) : (Memory.ofCells cs).wf = true := by
  suffices h : ∀ m : Memory, m.wf = true → (cs.foldl (fun m c => m.write c.1 c.2) m).wf = true from h [] rfl
  induction cs with
  | nil => intro m hm; exact hm
  | cons c cs ih => intro m hm; exact ih _ (Memory.write_wf _ _ _ hm)

/-- The memory of State.reset is in the canonical form. -/
theorem State.reset_mem_wf : State.reset.mem.wf = true := Memory.ofCells_wf _

/-! Several bytes. -/

theorem Memory.byte?_store_out (m : Memory) (a : Nat) (v : BitVec 64) (n : Nat) {p : Nat} (h : p < a ∨ a + n ≤ p) :
    (m.store a v n).byte? p = m.byte? p := by
  induction n with
  | zero => rfl
  | succ n ih => rw [Memory.store, Memory.byte?_write_ne _ _ (by omega), ih (by omega)]

theorem Memory.byte?_store_in (m : Memory) (a : Nat) (v : BitVec 64) (n : Nat) {k : Nat} (h : k < n) :
    (m.store a v n).byte? (a + k) = some (v.extractLsb' (8 * k) 8) := by
  induction n with
  | zero => omega
  | succ n ih =>
    by_cases e : k = n
    · rw [Memory.store, e, Memory.byte?_write_same]
    · rw [Memory.store, Memory.byte?_write_ne _ _ (by omega), ih (by omega)]

theorem Memory.byte_store_out (m : Memory) (a : Nat) (v : BitVec 64) (n : Nat) {p : Nat} (h : p < a ∨ a + n ≤ p) :
    (m.store a v n).byte p = m.byte p := by simp [Memory.byte, Memory.byte?_store_out m a v n h]

theorem Memory.byte_store_in (m : Memory) (a : Nat) (v : BitVec 64) (n : Nat) {k : Nat} (h : k < n) :
    (m.store a v n).byte (a + k) = v.extractLsb' (8 * k) 8 := by simp [Memory.byte, Memory.byte?_store_in m a v n h]

/-- A load reads only its n bytes. -/
theorem Memory.load_congr {m m' : Memory} {a : Nat} (n : Nat) (h : ∀ k, k < n → m'.byte (a + k) = m.byte (a + k)) :
    m'.load a n = m.load a n := by
  induction n with
  | zero => rfl
  | succ n ih => rw [Memory.load, Memory.load, ih (fun k hk => h k (by omega)), h n (by omega)]

/-- Bit i of a loaded value is a bit of byte i / 8 (20_memory.md R71). -/
theorem Memory.getLsbD_load (m : Memory) (a n i : Nat) :
    (m.load a n).getLsbD i = (decide (i < 64) && decide (i < 8 * n) && (m.byte (a + i / 8)).getLsbD (i % 8)) := by
  induction n with
  | zero => simp [Memory.load]
  | succ n ih =>
    simp only [Memory.load, BitVec.getLsbD_or, ih, BitVec.getLsbD_shiftLeft, BitVec.getLsbD_setWidth]
    by_cases h64 : i < 64
    · by_cases h1 : i < 8 * n
      · simp [h64, h1, show i < 8 * (n + 1) by omega]
      · by_cases h2 : i < 8 * (n + 1)
        · have hd : i / 8 = n := by omega
          have hm : i - 8 * n = i % 8 := by omega
          simp [h64, h1, h2, hd, hm]
          omega
        · have h8 : ¬ i - 8 * n < 8 := by omega
          simp only [h64, h1, h2, decide_true, decide_false, Bool.and_false, Bool.false_and, Bool.false_or, Bool.true_and,
            Bool.not_false]
          rw [BitVec.getLsbD_of_ge _ _ (by omega)]
          simp
    · simp [h64]

/-- A read of the bytes just written gives the value written, cut to their width (20_memory.md R71). -/
theorem Memory.load_store_same (m : Memory) (a : Nat) (v : BitVec 64) (n : Nat) :
    (m.store a v n).load a n = (v.setWidth (8 * n)).setWidth 64 := by
  apply BitVec.eq_of_getLsbD_eq
  intro i hi
  rw [Memory.getLsbD_load]
  by_cases h1 : i < 8 * n
  · rw [Memory.byte_store_in m a v n (k := i / 8) (by omega)]
    simp [hi, h1, show i % 8 < 8 by omega, show 8 * (i / 8) + i % 8 = i by omega]
  · simp [h1]

end Sys2Proof.Machine
end

