-- ==== Sys2Proof/Laws/State.lean ====
section
/-! SUPPORT. One lemma per field per update of State: each update leaves every other field as it was; then what the
updates and accessors give. -/

namespace Sys2Proof.Machine

variable (s : State)

/-! `writeX` -/

@[simp] theorem State.writeX_cfg (r : XReg) (v : Word) : (s.writeX r v).cfg = s.cfg := by unfold State.writeX; split <;> rfl
@[simp] theorem State.writeX_f (r : XReg) (v : Word) : (s.writeX r v).f = s.f := by unfold State.writeX; split <;> rfl
@[simp] theorem State.writeX_frm (r : XReg) (v : Word) : (s.writeX r v).frm = s.frm := by unfold State.writeX; split <;> rfl
@[simp] theorem State.writeX_fflags (r : XReg) (v : Word) : (s.writeX r v).fflags = s.fflags := by unfold State.writeX; split <;> rfl
@[simp] theorem State.writeX_pc (r : XReg) (v : Word) : (s.writeX r v).pc = s.pc := by unfold State.writeX; split <;> rfl
@[simp] theorem State.writeX_instret (r : XReg) (v : Word) : (s.writeX r v).instret = s.instret := by unfold State.writeX; split <;> rfl
@[simp] theorem State.writeX_mem (r : XReg) (v : Word) : (s.writeX r v).mem = s.mem := by unfold State.writeX; split <;> rfl
@[simp] theorem State.writeX_ctl (r : XReg) (v : Word) : (s.writeX r v).ctl = s.ctl := by unfold State.writeX; split <;> rfl
@[simp] theorem State.writeX_steps (r : XReg) (v : Word) : (s.writeX r v).steps = s.steps := by unfold State.writeX; split <;> rfl
@[simp] theorem State.writeX_budget (r : XReg) (v : Word) : (s.writeX r v).budget = s.budget := by unfold State.writeX; split <;> rfl
@[simp] theorem State.writeX_bpSkip (r : XReg) (v : Word) : (s.writeX r v).bpSkip = s.bpSkip := by unfold State.writeX; split <;> rfl
@[simp] theorem State.writeX_bp (r : XReg) (v : Word) : (s.writeX r v).bp = s.bp := by unfold State.writeX; split <;> rfl
@[simp] theorem State.writeX_fault (r : XReg) (v : Word) : (s.writeX r v).fault = s.fault := by unfold State.writeX; split <;> rfl
@[simp] theorem State.writeX_exitCode (r : XReg) (v : Word) : (s.writeX r v).exitCode = s.exitCode := by unfold State.writeX; split <;> rfl
@[simp] theorem State.writeX_svc (r : XReg) (v : Word) : (s.writeX r v).svc = s.svc := by unfold State.writeX; split <;> rfl
@[simp] theorem State.writeX_draws (r : XReg) (v : Word) : (s.writeX r v).draws = s.draws := by unfold State.writeX; split <;> rfl
@[simp] theorem State.writeX_cancel (r : XReg) (v : Word) : (s.writeX r v).cancel = s.cancel := by unfold State.writeX; split <;> rfl
@[simp] theorem State.writeX_host (r : XReg) (v : Word) : (s.writeX r v).host = s.host := by unfold State.writeX; split <;> rfl
@[simp] theorem State.writeX_reply (r : XReg) (v : Word) : (s.writeX r v).reply = s.reply := by unfold State.writeX; split <;> rfl

/-! `writeF` -/

@[simp] theorem State.writeF_cfg (r : FReg) (v : BitVec 64) : (s.writeF r v).cfg = s.cfg := rfl
@[simp] theorem State.writeF_x (r : FReg) (v : BitVec 64) : (s.writeF r v).x = s.x := rfl
@[simp] theorem State.writeF_frm (r : FReg) (v : BitVec 64) : (s.writeF r v).frm = s.frm := rfl
@[simp] theorem State.writeF_fflags (r : FReg) (v : BitVec 64) : (s.writeF r v).fflags = s.fflags := rfl
@[simp] theorem State.writeF_pc (r : FReg) (v : BitVec 64) : (s.writeF r v).pc = s.pc := rfl
@[simp] theorem State.writeF_instret (r : FReg) (v : BitVec 64) : (s.writeF r v).instret = s.instret := rfl
@[simp] theorem State.writeF_mem (r : FReg) (v : BitVec 64) : (s.writeF r v).mem = s.mem := rfl
@[simp] theorem State.writeF_ctl (r : FReg) (v : BitVec 64) : (s.writeF r v).ctl = s.ctl := rfl
@[simp] theorem State.writeF_steps (r : FReg) (v : BitVec 64) : (s.writeF r v).steps = s.steps := rfl
@[simp] theorem State.writeF_budget (r : FReg) (v : BitVec 64) : (s.writeF r v).budget = s.budget := rfl
@[simp] theorem State.writeF_bpSkip (r : FReg) (v : BitVec 64) : (s.writeF r v).bpSkip = s.bpSkip := rfl
@[simp] theorem State.writeF_bp (r : FReg) (v : BitVec 64) : (s.writeF r v).bp = s.bp := rfl
@[simp] theorem State.writeF_fault (r : FReg) (v : BitVec 64) : (s.writeF r v).fault = s.fault := rfl
@[simp] theorem State.writeF_exitCode (r : FReg) (v : BitVec 64) : (s.writeF r v).exitCode = s.exitCode := rfl
@[simp] theorem State.writeF_svc (r : FReg) (v : BitVec 64) : (s.writeF r v).svc = s.svc := rfl
@[simp] theorem State.writeF_draws (r : FReg) (v : BitVec 64) : (s.writeF r v).draws = s.draws := rfl
@[simp] theorem State.writeF_cancel (r : FReg) (v : BitVec 64) : (s.writeF r v).cancel = s.cancel := rfl
@[simp] theorem State.writeF_host (r : FReg) (v : BitVec 64) : (s.writeF r v).host = s.host := rfl
@[simp] theorem State.writeF_reply (r : FReg) (v : BitVec 64) : (s.writeF r v).reply = s.reply := rfl

/-! `writeS` -/

@[simp] theorem State.writeS_cfg (r : FReg) (v : BitVec 32) : (s.writeS r v).cfg = s.cfg := rfl
@[simp] theorem State.writeS_x (r : FReg) (v : BitVec 32) : (s.writeS r v).x = s.x := rfl
@[simp] theorem State.writeS_frm (r : FReg) (v : BitVec 32) : (s.writeS r v).frm = s.frm := rfl
@[simp] theorem State.writeS_fflags (r : FReg) (v : BitVec 32) : (s.writeS r v).fflags = s.fflags := rfl
@[simp] theorem State.writeS_pc (r : FReg) (v : BitVec 32) : (s.writeS r v).pc = s.pc := rfl
@[simp] theorem State.writeS_instret (r : FReg) (v : BitVec 32) : (s.writeS r v).instret = s.instret := rfl
@[simp] theorem State.writeS_mem (r : FReg) (v : BitVec 32) : (s.writeS r v).mem = s.mem := rfl
@[simp] theorem State.writeS_ctl (r : FReg) (v : BitVec 32) : (s.writeS r v).ctl = s.ctl := rfl
@[simp] theorem State.writeS_steps (r : FReg) (v : BitVec 32) : (s.writeS r v).steps = s.steps := rfl
@[simp] theorem State.writeS_budget (r : FReg) (v : BitVec 32) : (s.writeS r v).budget = s.budget := rfl
@[simp] theorem State.writeS_bpSkip (r : FReg) (v : BitVec 32) : (s.writeS r v).bpSkip = s.bpSkip := rfl
@[simp] theorem State.writeS_bp (r : FReg) (v : BitVec 32) : (s.writeS r v).bp = s.bp := rfl
@[simp] theorem State.writeS_fault (r : FReg) (v : BitVec 32) : (s.writeS r v).fault = s.fault := rfl
@[simp] theorem State.writeS_exitCode (r : FReg) (v : BitVec 32) : (s.writeS r v).exitCode = s.exitCode := rfl
@[simp] theorem State.writeS_svc (r : FReg) (v : BitVec 32) : (s.writeS r v).svc = s.svc := rfl
@[simp] theorem State.writeS_draws (r : FReg) (v : BitVec 32) : (s.writeS r v).draws = s.draws := rfl
@[simp] theorem State.writeS_cancel (r : FReg) (v : BitVec 32) : (s.writeS r v).cancel = s.cancel := rfl
@[simp] theorem State.writeS_host (r : FReg) (v : BitVec 32) : (s.writeS r v).host = s.host := rfl
@[simp] theorem State.writeS_reply (r : FReg) (v : BitVec 32) : (s.writeS r v).reply = s.reply := rfl

/-! `writeD` -/

@[simp] theorem State.writeD_cfg (r : FReg) (v : BitVec 64) : (s.writeD r v).cfg = s.cfg := rfl
@[simp] theorem State.writeD_x (r : FReg) (v : BitVec 64) : (s.writeD r v).x = s.x := rfl
@[simp] theorem State.writeD_frm (r : FReg) (v : BitVec 64) : (s.writeD r v).frm = s.frm := rfl
@[simp] theorem State.writeD_fflags (r : FReg) (v : BitVec 64) : (s.writeD r v).fflags = s.fflags := rfl
@[simp] theorem State.writeD_pc (r : FReg) (v : BitVec 64) : (s.writeD r v).pc = s.pc := rfl
@[simp] theorem State.writeD_instret (r : FReg) (v : BitVec 64) : (s.writeD r v).instret = s.instret := rfl
@[simp] theorem State.writeD_mem (r : FReg) (v : BitVec 64) : (s.writeD r v).mem = s.mem := rfl
@[simp] theorem State.writeD_ctl (r : FReg) (v : BitVec 64) : (s.writeD r v).ctl = s.ctl := rfl
@[simp] theorem State.writeD_steps (r : FReg) (v : BitVec 64) : (s.writeD r v).steps = s.steps := rfl
@[simp] theorem State.writeD_budget (r : FReg) (v : BitVec 64) : (s.writeD r v).budget = s.budget := rfl
@[simp] theorem State.writeD_bpSkip (r : FReg) (v : BitVec 64) : (s.writeD r v).bpSkip = s.bpSkip := rfl
@[simp] theorem State.writeD_bp (r : FReg) (v : BitVec 64) : (s.writeD r v).bp = s.bp := rfl
@[simp] theorem State.writeD_fault (r : FReg) (v : BitVec 64) : (s.writeD r v).fault = s.fault := rfl
@[simp] theorem State.writeD_exitCode (r : FReg) (v : BitVec 64) : (s.writeD r v).exitCode = s.exitCode := rfl
@[simp] theorem State.writeD_svc (r : FReg) (v : BitVec 64) : (s.writeD r v).svc = s.svc := rfl
@[simp] theorem State.writeD_draws (r : FReg) (v : BitVec 64) : (s.writeD r v).draws = s.draws := rfl
@[simp] theorem State.writeD_cancel (r : FReg) (v : BitVec 64) : (s.writeD r v).cancel = s.cancel := rfl
@[simp] theorem State.writeD_host (r : FReg) (v : BitVec 64) : (s.writeD r v).host = s.host := rfl
@[simp] theorem State.writeD_reply (r : FReg) (v : BitVec 64) : (s.writeD r v).reply = s.reply := rfl

/-! `accrue` -/

@[simp] theorem State.accrue_cfg (e : FFlags) : (s.accrue e).cfg = s.cfg := rfl
@[simp] theorem State.accrue_x (e : FFlags) : (s.accrue e).x = s.x := rfl
@[simp] theorem State.accrue_f (e : FFlags) : (s.accrue e).f = s.f := rfl
@[simp] theorem State.accrue_frm (e : FFlags) : (s.accrue e).frm = s.frm := rfl
@[simp] theorem State.accrue_pc (e : FFlags) : (s.accrue e).pc = s.pc := rfl
@[simp] theorem State.accrue_instret (e : FFlags) : (s.accrue e).instret = s.instret := rfl
@[simp] theorem State.accrue_mem (e : FFlags) : (s.accrue e).mem = s.mem := rfl
@[simp] theorem State.accrue_ctl (e : FFlags) : (s.accrue e).ctl = s.ctl := rfl
@[simp] theorem State.accrue_steps (e : FFlags) : (s.accrue e).steps = s.steps := rfl
@[simp] theorem State.accrue_budget (e : FFlags) : (s.accrue e).budget = s.budget := rfl
@[simp] theorem State.accrue_bpSkip (e : FFlags) : (s.accrue e).bpSkip = s.bpSkip := rfl
@[simp] theorem State.accrue_bp (e : FFlags) : (s.accrue e).bp = s.bp := rfl
@[simp] theorem State.accrue_fault (e : FFlags) : (s.accrue e).fault = s.fault := rfl
@[simp] theorem State.accrue_exitCode (e : FFlags) : (s.accrue e).exitCode = s.exitCode := rfl
@[simp] theorem State.accrue_svc (e : FFlags) : (s.accrue e).svc = s.svc := rfl
@[simp] theorem State.accrue_draws (e : FFlags) : (s.accrue e).draws = s.draws := rfl
@[simp] theorem State.accrue_cancel (e : FFlags) : (s.accrue e).cancel = s.cancel := rfl
@[simp] theorem State.accrue_host (e : FFlags) : (s.accrue e).host = s.host := rfl
@[simp] theorem State.accrue_reply (e : FFlags) : (s.accrue e).reply = s.reply := rfl

/-! `commit` -/

@[simp] theorem State.commit_cfg (p : Word) : (s.commit p).cfg = s.cfg := rfl
@[simp] theorem State.commit_x (p : Word) : (s.commit p).x = s.x := rfl
@[simp] theorem State.commit_f (p : Word) : (s.commit p).f = s.f := rfl
@[simp] theorem State.commit_frm (p : Word) : (s.commit p).frm = s.frm := rfl
@[simp] theorem State.commit_fflags (p : Word) : (s.commit p).fflags = s.fflags := rfl
@[simp] theorem State.commit_mem (p : Word) : (s.commit p).mem = s.mem := rfl
@[simp] theorem State.commit_ctl (p : Word) : (s.commit p).ctl = s.ctl := rfl
@[simp] theorem State.commit_budget (p : Word) : (s.commit p).budget = s.budget := rfl
@[simp] theorem State.commit_bpSkip (p : Word) : (s.commit p).bpSkip = s.bpSkip := rfl
@[simp] theorem State.commit_bp (p : Word) : (s.commit p).bp = s.bp := rfl
@[simp] theorem State.commit_fault (p : Word) : (s.commit p).fault = s.fault := rfl
@[simp] theorem State.commit_exitCode (p : Word) : (s.commit p).exitCode = s.exitCode := rfl
@[simp] theorem State.commit_svc (p : Word) : (s.commit p).svc = s.svc := rfl
@[simp] theorem State.commit_draws (p : Word) : (s.commit p).draws = s.draws := rfl
@[simp] theorem State.commit_cancel (p : Word) : (s.commit p).cancel = s.cancel := rfl
@[simp] theorem State.commit_host (p : Word) : (s.commit p).host = s.host := rfl
@[simp] theorem State.commit_reply (p : Word) : (s.commit p).reply = s.reply := rfl

/-! `advance` -/

@[simp] theorem State.advance_cfg : (s.advance).cfg = s.cfg := rfl
@[simp] theorem State.advance_x : (s.advance).x = s.x := rfl
@[simp] theorem State.advance_f : (s.advance).f = s.f := rfl
@[simp] theorem State.advance_frm : (s.advance).frm = s.frm := rfl
@[simp] theorem State.advance_fflags : (s.advance).fflags = s.fflags := rfl
@[simp] theorem State.advance_mem : (s.advance).mem = s.mem := rfl
@[simp] theorem State.advance_ctl : (s.advance).ctl = s.ctl := rfl
@[simp] theorem State.advance_budget : (s.advance).budget = s.budget := rfl
@[simp] theorem State.advance_bpSkip : (s.advance).bpSkip = s.bpSkip := rfl
@[simp] theorem State.advance_bp : (s.advance).bp = s.bp := rfl
@[simp] theorem State.advance_fault : (s.advance).fault = s.fault := rfl
@[simp] theorem State.advance_exitCode : (s.advance).exitCode = s.exitCode := rfl
@[simp] theorem State.advance_svc : (s.advance).svc = s.svc := rfl
@[simp] theorem State.advance_draws : (s.advance).draws = s.draws := rfl
@[simp] theorem State.advance_cancel : (s.advance).cancel = s.cancel := rfl
@[simp] theorem State.advance_host : (s.advance).host = s.host := rfl
@[simp] theorem State.advance_reply : (s.advance).reply = s.reply := rfl

/-! `storeRaw` -/

@[simp] theorem State.storeRaw_cfg (a : Word) (v : BitVec 64) (n : Nat) : (s.storeRaw a v n).cfg = s.cfg := rfl
@[simp] theorem State.storeRaw_x (a : Word) (v : BitVec 64) (n : Nat) : (s.storeRaw a v n).x = s.x := rfl
@[simp] theorem State.storeRaw_f (a : Word) (v : BitVec 64) (n : Nat) : (s.storeRaw a v n).f = s.f := rfl
@[simp] theorem State.storeRaw_frm (a : Word) (v : BitVec 64) (n : Nat) : (s.storeRaw a v n).frm = s.frm := rfl
@[simp] theorem State.storeRaw_fflags (a : Word) (v : BitVec 64) (n : Nat) : (s.storeRaw a v n).fflags = s.fflags := rfl
@[simp] theorem State.storeRaw_pc (a : Word) (v : BitVec 64) (n : Nat) : (s.storeRaw a v n).pc = s.pc := rfl
@[simp] theorem State.storeRaw_instret (a : Word) (v : BitVec 64) (n : Nat) : (s.storeRaw a v n).instret = s.instret := rfl
@[simp] theorem State.storeRaw_ctl (a : Word) (v : BitVec 64) (n : Nat) : (s.storeRaw a v n).ctl = s.ctl := rfl
@[simp] theorem State.storeRaw_steps (a : Word) (v : BitVec 64) (n : Nat) : (s.storeRaw a v n).steps = s.steps := rfl
@[simp] theorem State.storeRaw_budget (a : Word) (v : BitVec 64) (n : Nat) : (s.storeRaw a v n).budget = s.budget := rfl
@[simp] theorem State.storeRaw_bpSkip (a : Word) (v : BitVec 64) (n : Nat) : (s.storeRaw a v n).bpSkip = s.bpSkip := rfl
@[simp] theorem State.storeRaw_bp (a : Word) (v : BitVec 64) (n : Nat) : (s.storeRaw a v n).bp = s.bp := rfl
@[simp] theorem State.storeRaw_fault (a : Word) (v : BitVec 64) (n : Nat) : (s.storeRaw a v n).fault = s.fault := rfl
@[simp] theorem State.storeRaw_exitCode (a : Word) (v : BitVec 64) (n : Nat) : (s.storeRaw a v n).exitCode = s.exitCode := rfl
@[simp] theorem State.storeRaw_svc (a : Word) (v : BitVec 64) (n : Nat) : (s.storeRaw a v n).svc = s.svc := rfl
@[simp] theorem State.storeRaw_draws (a : Word) (v : BitVec 64) (n : Nat) : (s.storeRaw a v n).draws = s.draws := rfl
@[simp] theorem State.storeRaw_cancel (a : Word) (v : BitVec 64) (n : Nat) : (s.storeRaw a v n).cancel = s.cancel := rfl
@[simp] theorem State.storeRaw_host (a : Word) (v : BitVec 64) (n : Nat) : (s.storeRaw a v n).host = s.host := rfl
@[simp] theorem State.storeRaw_reply (a : Word) (v : BitVec 64) (n : Nat) : (s.storeRaw a v n).reply = s.reply := rfl

/-! `afterCsrRead` -/

@[simp] theorem State.afterCsrRead_cfg (c : Csr) : (s.afterCsrRead c).cfg = s.cfg := by unfold State.afterCsrRead; split <;> rfl
@[simp] theorem State.afterCsrRead_x (c : Csr) : (s.afterCsrRead c).x = s.x := by unfold State.afterCsrRead; split <;> rfl
@[simp] theorem State.afterCsrRead_f (c : Csr) : (s.afterCsrRead c).f = s.f := by unfold State.afterCsrRead; split <;> rfl
@[simp] theorem State.afterCsrRead_frm (c : Csr) : (s.afterCsrRead c).frm = s.frm := by unfold State.afterCsrRead; split <;> rfl
@[simp] theorem State.afterCsrRead_fflags (c : Csr) : (s.afterCsrRead c).fflags = s.fflags := by unfold State.afterCsrRead; split <;> rfl
@[simp] theorem State.afterCsrRead_pc (c : Csr) : (s.afterCsrRead c).pc = s.pc := by unfold State.afterCsrRead; split <;> rfl
@[simp] theorem State.afterCsrRead_instret (c : Csr) : (s.afterCsrRead c).instret = s.instret := by unfold State.afterCsrRead; split <;> rfl
@[simp] theorem State.afterCsrRead_mem (c : Csr) : (s.afterCsrRead c).mem = s.mem := by unfold State.afterCsrRead; split <;> rfl
@[simp] theorem State.afterCsrRead_ctl (c : Csr) : (s.afterCsrRead c).ctl = s.ctl := by unfold State.afterCsrRead; split <;> rfl
@[simp] theorem State.afterCsrRead_steps (c : Csr) : (s.afterCsrRead c).steps = s.steps := by unfold State.afterCsrRead; split <;> rfl
@[simp] theorem State.afterCsrRead_budget (c : Csr) : (s.afterCsrRead c).budget = s.budget := by unfold State.afterCsrRead; split <;> rfl
@[simp] theorem State.afterCsrRead_bpSkip (c : Csr) : (s.afterCsrRead c).bpSkip = s.bpSkip := by unfold State.afterCsrRead; split <;> rfl
@[simp] theorem State.afterCsrRead_bp (c : Csr) : (s.afterCsrRead c).bp = s.bp := by unfold State.afterCsrRead; split <;> rfl
@[simp] theorem State.afterCsrRead_fault (c : Csr) : (s.afterCsrRead c).fault = s.fault := by unfold State.afterCsrRead; split <;> rfl
@[simp] theorem State.afterCsrRead_exitCode (c : Csr) : (s.afterCsrRead c).exitCode = s.exitCode := by unfold State.afterCsrRead; split <;> rfl
@[simp] theorem State.afterCsrRead_svc (c : Csr) : (s.afterCsrRead c).svc = s.svc := by unfold State.afterCsrRead; split <;> rfl
@[simp] theorem State.afterCsrRead_cancel (c : Csr) : (s.afterCsrRead c).cancel = s.cancel := by unfold State.afterCsrRead; split <;> rfl
@[simp] theorem State.afterCsrRead_host (c : Csr) : (s.afterCsrRead c).host = s.host := by unfold State.afterCsrRead; split <;> rfl
@[simp] theorem State.afterCsrRead_reply (c : Csr) : (s.afterCsrRead c).reply = s.reply := by unfold State.afterCsrRead; split <;> rfl

/-! `writeCsr` -/

@[simp] theorem State.writeCsr_cfg (c : Csr) (v : Word) : (s.writeCsr c v).cfg = s.cfg := by cases c <;> rfl
@[simp] theorem State.writeCsr_x (c : Csr) (v : Word) : (s.writeCsr c v).x = s.x := by cases c <;> rfl
@[simp] theorem State.writeCsr_f (c : Csr) (v : Word) : (s.writeCsr c v).f = s.f := by cases c <;> rfl
@[simp] theorem State.writeCsr_pc (c : Csr) (v : Word) : (s.writeCsr c v).pc = s.pc := by cases c <;> rfl
@[simp] theorem State.writeCsr_instret (c : Csr) (v : Word) : (s.writeCsr c v).instret = s.instret := by cases c <;> rfl
@[simp] theorem State.writeCsr_mem (c : Csr) (v : Word) : (s.writeCsr c v).mem = s.mem := by cases c <;> rfl
@[simp] theorem State.writeCsr_ctl (c : Csr) (v : Word) : (s.writeCsr c v).ctl = s.ctl := by cases c <;> rfl
@[simp] theorem State.writeCsr_steps (c : Csr) (v : Word) : (s.writeCsr c v).steps = s.steps := by cases c <;> rfl
@[simp] theorem State.writeCsr_budget (c : Csr) (v : Word) : (s.writeCsr c v).budget = s.budget := by cases c <;> rfl
@[simp] theorem State.writeCsr_bpSkip (c : Csr) (v : Word) : (s.writeCsr c v).bpSkip = s.bpSkip := by cases c <;> rfl
@[simp] theorem State.writeCsr_bp (c : Csr) (v : Word) : (s.writeCsr c v).bp = s.bp := by cases c <;> rfl
@[simp] theorem State.writeCsr_fault (c : Csr) (v : Word) : (s.writeCsr c v).fault = s.fault := by cases c <;> rfl
@[simp] theorem State.writeCsr_exitCode (c : Csr) (v : Word) : (s.writeCsr c v).exitCode = s.exitCode := by cases c <;> rfl
@[simp] theorem State.writeCsr_svc (c : Csr) (v : Word) : (s.writeCsr c v).svc = s.svc := by cases c <;> rfl
@[simp] theorem State.writeCsr_draws (c : Csr) (v : Word) : (s.writeCsr c v).draws = s.draws := by cases c <;> rfl
@[simp] theorem State.writeCsr_cancel (c : Csr) (v : Word) : (s.writeCsr c v).cancel = s.cancel := by cases c <;> rfl
@[simp] theorem State.writeCsr_host (c : Csr) (v : Word) : (s.writeCsr c v).host = s.host := by cases c <;> rfl
@[simp] theorem State.writeCsr_reply (c : Csr) (v : Word) : (s.writeCsr c v).reply = s.reply := by cases c <;> rfl

/-! `csrEffect` -/

@[simp] theorem State.csrEffect_cfg (c : Csr) (rd : XReg) (wr : Bool) (op : Word → Word) :
    (s.csrEffect c rd wr op).cfg = s.cfg := by simp only [State.csrEffect, State.writeX_cfg]; split <;> simp
@[simp] theorem State.csrEffect_f (c : Csr) (rd : XReg) (wr : Bool) (op : Word → Word) :
    (s.csrEffect c rd wr op).f = s.f := by simp only [State.csrEffect, State.writeX_f]; split <;> simp
@[simp] theorem State.csrEffect_pc (c : Csr) (rd : XReg) (wr : Bool) (op : Word → Word) :
    (s.csrEffect c rd wr op).pc = s.pc := by simp only [State.csrEffect, State.writeX_pc]; split <;> simp
@[simp] theorem State.csrEffect_instret (c : Csr) (rd : XReg) (wr : Bool) (op : Word → Word) :
    (s.csrEffect c rd wr op).instret = s.instret := by simp only [State.csrEffect, State.writeX_instret]; split <;> simp
@[simp] theorem State.csrEffect_mem (c : Csr) (rd : XReg) (wr : Bool) (op : Word → Word) :
    (s.csrEffect c rd wr op).mem = s.mem := by simp only [State.csrEffect, State.writeX_mem]; split <;> simp
@[simp] theorem State.csrEffect_ctl (c : Csr) (rd : XReg) (wr : Bool) (op : Word → Word) :
    (s.csrEffect c rd wr op).ctl = s.ctl := by simp only [State.csrEffect, State.writeX_ctl]; split <;> simp
@[simp] theorem State.csrEffect_steps (c : Csr) (rd : XReg) (wr : Bool) (op : Word → Word) :
    (s.csrEffect c rd wr op).steps = s.steps := by simp only [State.csrEffect, State.writeX_steps]; split <;> simp
@[simp] theorem State.csrEffect_budget (c : Csr) (rd : XReg) (wr : Bool) (op : Word → Word) :
    (s.csrEffect c rd wr op).budget = s.budget := by simp only [State.csrEffect, State.writeX_budget]; split <;> simp
@[simp] theorem State.csrEffect_bpSkip (c : Csr) (rd : XReg) (wr : Bool) (op : Word → Word) :
    (s.csrEffect c rd wr op).bpSkip = s.bpSkip := by simp only [State.csrEffect, State.writeX_bpSkip]; split <;> simp
@[simp] theorem State.csrEffect_bp (c : Csr) (rd : XReg) (wr : Bool) (op : Word → Word) :
    (s.csrEffect c rd wr op).bp = s.bp := by simp only [State.csrEffect, State.writeX_bp]; split <;> simp
@[simp] theorem State.csrEffect_fault (c : Csr) (rd : XReg) (wr : Bool) (op : Word → Word) :
    (s.csrEffect c rd wr op).fault = s.fault := by simp only [State.csrEffect, State.writeX_fault]; split <;> simp
@[simp] theorem State.csrEffect_exitCode (c : Csr) (rd : XReg) (wr : Bool) (op : Word → Word) :
    (s.csrEffect c rd wr op).exitCode = s.exitCode := by simp only [State.csrEffect, State.writeX_exitCode]; split <;> simp
@[simp] theorem State.csrEffect_svc (c : Csr) (rd : XReg) (wr : Bool) (op : Word → Word) :
    (s.csrEffect c rd wr op).svc = s.svc := by simp only [State.csrEffect, State.writeX_svc]; split <;> simp
@[simp] theorem State.csrEffect_cancel (c : Csr) (rd : XReg) (wr : Bool) (op : Word → Word) :
    (s.csrEffect c rd wr op).cancel = s.cancel := by simp only [State.csrEffect, State.writeX_cancel]; split <;> simp
@[simp] theorem State.csrEffect_host (c : Csr) (rd : XReg) (wr : Bool) (op : Word → Word) :
    (s.csrEffect c rd wr op).host = s.host := by simp only [State.csrEffect, State.writeX_host]; split <;> simp
@[simp] theorem State.csrEffect_reply (c : Csr) (rd : XReg) (wr : Bool) (op : Word → Word) :
    (s.csrEffect c rd wr op).reply = s.reply := by simp only [State.csrEffect, State.writeX_reply]; split <;> simp

/-! `answer` -/

@[simp] theorem State.answer_cfg (q : HostReply) : (s.answer q).cfg = s.cfg := rfl
@[simp] theorem State.answer_x (q : HostReply) : (s.answer q).x = s.x := rfl
@[simp] theorem State.answer_f (q : HostReply) : (s.answer q).f = s.f := rfl
@[simp] theorem State.answer_frm (q : HostReply) : (s.answer q).frm = s.frm := rfl
@[simp] theorem State.answer_fflags (q : HostReply) : (s.answer q).fflags = s.fflags := rfl
@[simp] theorem State.answer_pc (q : HostReply) : (s.answer q).pc = s.pc := rfl
@[simp] theorem State.answer_instret (q : HostReply) : (s.answer q).instret = s.instret := rfl
@[simp] theorem State.answer_mem (q : HostReply) : (s.answer q).mem = s.mem := rfl
@[simp] theorem State.answer_ctl (q : HostReply) : (s.answer q).ctl = s.ctl := rfl
@[simp] theorem State.answer_steps (q : HostReply) : (s.answer q).steps = s.steps := rfl
@[simp] theorem State.answer_budget (q : HostReply) : (s.answer q).budget = s.budget := rfl
@[simp] theorem State.answer_bpSkip (q : HostReply) : (s.answer q).bpSkip = s.bpSkip := rfl
@[simp] theorem State.answer_bp (q : HostReply) : (s.answer q).bp = s.bp := rfl
@[simp] theorem State.answer_fault (q : HostReply) : (s.answer q).fault = s.fault := rfl
@[simp] theorem State.answer_exitCode (q : HostReply) : (s.answer q).exitCode = s.exitCode := rfl
@[simp] theorem State.answer_svc (q : HostReply) : (s.answer q).svc = s.svc := rfl
@[simp] theorem State.answer_draws (q : HostReply) : (s.answer q).draws = s.draws := rfl
@[simp] theorem State.answer_cancel (q : HostReply) : (s.answer q).cancel = s.cancel := rfl
@[simp] theorem State.answer_host (q : HostReply) : (s.answer q).host = s.host := rfl

/-! The fields an update does change. -/

@[simp] theorem State.writeF_f (r : FReg) (v : BitVec 64) : (s.writeF r v).f = s.f.set r.toNat v := rfl
@[simp] theorem State.accrue_fflags (e : FFlags) : (s.accrue e).fflags = s.fflags ||| e := rfl
@[simp] theorem State.commit_pc (p : Word) : (s.commit p).pc = s.xlen.trunc p := rfl
@[simp] theorem State.commit_steps (p : Word) : (s.commit p).steps = s.steps + 1 := rfl
@[simp] theorem State.commit_instret (p : Word) : (s.commit p).instret = s.instret + 1 := rfl
@[simp] theorem State.advance_pc : s.advance.pc = s.xlen.trunc (s.readPc + ilenBytes) := rfl
@[simp] theorem State.advance_steps : s.advance.steps = s.steps + 1 := rfl
@[simp] theorem State.advance_instret : s.advance.instret = s.instret + 1 := rfl
@[simp] theorem State.storeRaw_mem (a : Word) (v : BitVec 64) (n : Nat) :
    (s.storeRaw a v n).mem = s.mem.store a.toNat v n := rfl
@[simp] theorem State.answer_reply (q : HostReply) : (s.answer q).reply = some q := rfl

/-! Widths (00_scope.md R9). -/

@[simp] theorem trunc_trunc (x : XLen) (v : Word) : x.trunc (x.trunc v) = x.trunc v := by
  cases x <;> simp [XLen.trunc]

@[simp] theorem trunc_zero (x : XLen) : x.trunc 0#64 = 0#64 := by cases x <;> rfl

@[simp] theorem trunc_x64 (v : Word) : XLen.x64.trunc v = v := rfl

@[simp] theorem fits_trunc (x : XLen) (v : Word) : fits x (x.trunc v) = true := by simp [fits]

theorem trunc_eq_of_fits {x : XLen} {v : Word} (h : fits x v = true) : x.trunc v = v := by simpa [fits] using h

/-- Truncation keeps the two low bits, so it keeps alignment. -/
@[simp] theorem aligned4_trunc (x : XLen) (v : Word) : aligned4 (x.trunc v) = aligned4 v := by
  cases x
  · simp only [aligned4, XLen.trunc]
    congr 1
    ext i hi
    simp [show i < 32 by omega]
    omega
  · rfl

/-- Four more is still aligned. -/
@[simp] theorem aligned4_add_four (v : Word) : aligned4 (v + 4#64) = aligned4 v := by
  have h : (v + 4).extractLsb' 0 2 = v.extractLsb' 0 2 := by
    apply BitVec.eq_of_toNat_eq
    simp only [BitVec.extractLsb'_toNat, BitVec.toNat_add]
    simp
  simp only [aligned4]
  rw [show (4#64 : Word) = 4 from rfl, h]

/-! The register files' accessors (10_state.md R21 to R28). -/

theorem reg_lt (r : BitVec 5) : r.toNat < 32 := r.isLt

@[simp] theorem State.readX_zero : s.readX 0#5 = 0#64 := rfl

@[simp] theorem State.writeX_zero (v : Word) : s.writeX 0#5 v = s := rfl

/-- A register read has XLEN bits. -/
@[simp] theorem State.trunc_readX (r : XReg) : s.xlen.trunc (s.readX r) = s.readX r := by
  unfold State.readX; split
  · exact trunc_zero _
  · exact trunc_trunc _ _

@[simp] theorem State.trunc_readPc : s.xlen.trunc s.readPc = s.readPc := trunc_trunc _ _

theorem State.readX_writeX_same {r : XReg} (h : r ≠ 0) (v : Word) : (s.writeX r v).readX r = s.xlen.trunc v := by
  simp only [State.readX, State.writeX, if_neg h, State.xlen, Vector.getElem_set_self, trunc_trunc]

theorem State.readX_writeX_ne {r q : XReg} (h : q ≠ r) (v : Word) : (s.writeX r v).readX q = s.readX q := by
  have hq : r.toNat ≠ q.toNat := fun e => h (BitVec.eq_of_toNat_eq e.symm)
  unfold State.writeX; split
  · rfl
  · simp only [State.readX, State.xlen, Vector.getElem_set_ne _ _ hq]

@[simp] theorem State.readF_writeF_same (r : FReg) (v : BitVec 64) : (s.writeF r v).readF r = v := by
  simp [State.readF]

theorem State.readF_writeF_ne {r q : FReg} (h : q ≠ r) (v : BitVec 64) : (s.writeF r v).readF q = s.readF q := by
  have hq : r.toNat ≠ q.toNat := fun e => h (BitVec.eq_of_toNat_eq e.symm)
  simp [State.readF, hq]

@[simp] theorem unbox_box (v : BitVec 32) : unbox (box v) = v := by
  have hi : (boxBits ++ v).extractLsb' 32 32 = boxBits := BitVec.extractLsb'_append_eq_left
  have lo : (boxBits ++ v).extractLsb' 0 32 = v := BitVec.extractLsb'_append_eq_right
  simp only [unbox, box, hi, lo, if_true]

@[simp] theorem State.readS_writeS_same (r : FReg) (v : BitVec 32) : (s.writeS r v).readS r = v := by
  simp [State.readS, State.writeS]

/-- The accessors read only their own fields: an update of others does not change them. -/
theorem State.readX_congr {s t : State} (hc : t.cfg = s.cfg) (hx : t.x = s.x) (r : XReg) : t.readX r = s.readX r := by
  simp [State.readX, State.xlen, hc, hx]

/-- The pc after a commit has XLEN bits, and falling through keeps its alignment. -/
@[simp] theorem State.fits_commit_pc (p : Word) : fits s.cfg.xlen (s.commit p).pc = true := fits_trunc _ _

@[simp] theorem State.fits_advance_pc : fits s.cfg.xlen s.advance.pc = true := fits_trunc _ _

@[simp] theorem State.aligned_advance_pc : aligned4 s.advance.pc = aligned4 s.pc := by
  simp [State.readPc]

theorem State.readF_congr {s t : State} (hf : t.f = s.f) (r : FReg) : t.readF r = s.readF r := by
  simp [State.readF, hf]

theorem State.readPc_congr {s t : State} (hc : t.cfg = s.cfg) (hp : t.pc = s.pc) : t.readPc = s.readPc := by
  simp [State.readPc, State.xlen, hc, hp]

end Sys2Proof.Machine
end

