-- ==== Sys2Proof/Laws/Ops.lean ====
section
/-! SUPPORT. What each shared operation answers, in the words of Claims: one lemma per operation. -/

namespace Sys2Proof.Machine

variable (s : State)

/-! Values of words. -/

theorem XLen.trunc_toNat (x : XLen) (v : Word) : (x.trunc v).toNat = v.toNat % 2 ^ x.bits := by
  cases x
  · simp only [XLen.trunc, BitVec.toNat_setWidth, XLen.bits]
    have := v.isLt
    omega
  · simp only [XLen.trunc, XLen.bits]
    exact (Nat.mod_eq_of_lt v.isLt).symm

theorem bits_pos (x : XLen) : 0 < x.bits := by cases x <;> decide

theorem two_pow_bits_pos (x : XLen) : 0 < 2 ^ x.bits := by positivity

theorem toNat_trunc_int (x : XLen) (v : Word) : ((x.trunc v).toNat : Int) = (v.toNat : Int) % 2 ^ x.bits := by
  rw [XLen.trunc_toNat]; push_cast; rfl

/-- 2^XLEN divides 2^64. -/
theorem pow_bits_dvd (x : XLen) : (2 : Int) ^ x.bits ∣ 2 ^ 64 := by cases x <;> decide

/-- An integer that the 64-bit word stands for modulo 2^64 is, modulo 2^XLEN, what the word truncates to. -/
theorem wrap_of_emod {v : Word} {n : Int} (h : (v.toNat : Int) = n % 2 ^ 64) : wrap s v.toNat = wrap s n := by
  simp only [wrap, h]
  exact Int.emod_emod_of_dvd n (pow_bits_dvd s.xlen)

theorem wrap_wrap (v : Int) : wrap s (wrap s v) = wrap s v := Int.emod_emod_of_dvd v (dvd_refl _)

theorem pcval_lt : pcval s < 2 ^ s.xlen.bits := by
  rw [pcval, State.readPc, toNat_trunc_int]
  exact Int.emod_lt_of_pos _ (by have := two_pow_bits_pos s.xlen; positivity)

theorem uval_lt (r : XReg) : uval s r < 2 ^ s.xlen.bits := by
  rw [uval, ← State.trunc_readX, toNat_trunc_int]
  exact Int.emod_lt_of_pos _ (by have := two_pow_bits_pos s.xlen; positivity)

theorem uval_nonneg (r : XReg) : 0 ≤ uval s r := Int.natCast_nonneg _

/-! Commit. -/

theorem State.readPc_commit (p : Word) : (s.commit p).readPc = s.xlen.trunc p := by
  simp [State.readPc, State.xlen, State.commit]

theorem committed_commit {u : State} (hc : u.cfg = s.cfg) (hi : u.instret = s.instret) (hs : u.steps = s.steps) (p : Word) :
    Committed s (u.commit p) (wrap s p.toNat) where
  pc := by rw [pcval, State.readPc_commit, State.xlen, hc, toNat_trunc_int]; rfl
  steps := by simp [hs]
  instret := by simp [hi]

theorem add_toNat_emod (a b : Word) : ((a + b).toNat : Int) = ((a.toNat : Int) + b.toNat) % 2 ^ 64 := by
  rw [BitVec.toNat_add]; push_cast; rfl

theorem wrap_pc_four : wrap s (s.readPc + ilenBytes).toNat = wrap s (pcval s + 4) :=
  wrap_of_emod s (add_toNat_emod _ _)

/-- A completing instruction that falls through. -/
theorem committed_advance {u : State} (hc : u.cfg = s.cfg) (hp : u.pc = s.pc) (hi : u.instret = s.instret)
    (hs : u.steps = s.steps) : Committed s u.advance (wrap s (pcval s + 4)) := by
  have h := committed_commit s hc hi hs (s.readPc + ilenBytes)
  rw [wrap_pc_four] at h
  rwa [State.advance, State.readPc_congr hc hp]

theorem retire_spec : ∃ t, retire s = .next t ∧ OnlyPc s t (wrap s (pcval s + 4)) :=
  ⟨_, rfl, fun _ => rfl, fun _ => rfl, ⟨rfl, rfl⟩, fun _ => rfl, rfl, committed_advance s rfl rfl rfl rfl,
    ⟨rfl, rfl, rfl, rfl, rfl, rfl, rfl, rfl, rfl, rfl, rfl⟩⟩

/-! Results in registers. -/

/-- An integer result commits, with the flags raised beside it. -/
theorem retireX_spec (rd : XReg) (v : Word) (e : FFlags) :
    ∃ t, retireX rd v (s.accrue e) = .next t ∧ XResult s t rd v.toNat e := by
  refine ⟨_, rfl, ?_, ?_, ?_, ?_, ?_, ?_, ?_, ?_, ?_⟩
  · intro h
    change ((((s.accrue e).writeX rd v).readX rd).toNat : Int) = _
    rw [State.readX_writeX_same _ h, toNat_trunc_int]; rfl
  · refine ⟨rfl, fun r h => ?_⟩
    change ((s.accrue e).writeX rd v).readX r = _
    rw [State.readX_writeX_ne _ h]; rfl
  · intro r
    exact State.readF_congr (by simp) r
  · simp
  · simp
  · intro a; simp
  · simp
  · exact committed_advance s (by simp) (by simp) (by simp) (by simp)
  · constructor <;> simp

theorem retireX_spec' (rd : XReg) (v : Word) : ∃ t, retireX rd v s = .next t ∧ XResult s t rd v.toNat 0 := by
  have h := retireX_spec s rd v 0
  rwa [show s.accrue 0 = s by simp [State.accrue]] at h

/-- A floating-point result commits, with the flags raised beside it. -/
theorem retireD_spec (rd : FReg) (v : BitVec 64) (e : FFlags) :
    ∃ t, retireD rd v (s.accrue e) = .next t ∧ FResult s t rd v e := by
  refine ⟨_, rfl, ?_, ?_, ?_, ?_, ?_, ?_, ?_, ?_, ?_⟩
  · exact State.readF_writeF_same _ _ _
  · intro r h
    change ((s.accrue e).writeF rd v).readF r = _
    rw [State.readF_writeF_ne _ h]; rfl
  · intro r; rfl
  · rfl
  · rfl
  · intro a; rfl
  · rfl
  · exact committed_advance s rfl rfl rfl rfl
  · exact ⟨rfl, rfl, rfl, rfl, rfl, rfl, rfl, rfl, rfl, rfl, rfl⟩

theorem retireD_spec' (rd : FReg) (v : BitVec 64) : ∃ t, retireD rd v s = .next t ∧ FResult s t rd v 0 := by
  have h := retireD_spec s rd v 0
  rwa [show s.accrue 0 = s by simp [State.accrue]] at h

theorem retireS_spec (rd : FReg) (v : BitVec 32) (e : FFlags) :
    ∃ t, retireS rd v (s.accrue e) = .next t ∧ FResult s t rd (box v) e := retireD_spec s rd (box v) e

theorem retireS_spec' (rd : FReg) (v : BitVec 32) : ∃ t, retireS rd v s = .next t ∧ FResult s t rd (box v) 0 :=
  retireD_spec' s rd (box v)

theorem retireFpS_spec (rd : FReg) (r : FpResult) : ∃ t, retireFpS rd r s = .next t ∧ SingleResult s t rd r :=
  retireS_spec s rd _ _

theorem retireFpD_spec (rd : FReg) (r : FpResult) : ∃ t, retireFpD rd r s = .next t ∧ DoubleResult s t rd r :=
  retireD_spec s rd _ _

/-- The value of a result matters modulo 2^XLEN only. -/
theorem XResult.of_wrap {s t : State} {rd : XReg} {v v' : Int} {e : FFlags} (h : XResult s t rd v e)
    (hv : wrap s v = wrap s v') : XResult s t rd v' e :=
  { h with value := fun hr => (h.value hr).trans hv }

theorem retireCmp_spec (rd : XReg) (r : CmpResult) : ∃ t, retireCmp rd r s = .next t ∧ TruthResult s t rd r := by
  obtain ⟨t, h1, h2⟩ := retireX_spec s rd (if r.holds then 1 else 0) r.flags
  exact ⟨t, h1, XResult.of_wrap h2 (by cases r.holds <;> rfl)⟩

/-! Faults. -/

@[simp] theorem recorded_decode (a : Word) : FaultSite.decode.recorded a = some a := rfl
@[simp] theorem recorded_ownCheck (a : Word) : FaultSite.ownCheck.recorded a = none := rfl
@[simp] theorem recorded_target (a : Word) : FaultSite.target.recorded a = some a := rfl
@[simp] theorem recorded_access (a : Word) : FaultSite.access.recorded a = some a := rfl

theorem raise_spec (c : Cause) (site : FaultSite) (i : Instr) (a : Word) (k : Option Access) :
    ∃ t, raise c site i a k s = .next t ∧ Faults s t ⟨c, s.readPc, some (encode i), site.recorded a, k⟩ := ⟨_, rfl, rfl⟩

theorem rv64Only_x64 {s : State} (h : s.xlen = .x64) (i : Instr) (go : Result) : rv64Only i s go = go := by
  simp [rv64Only, h]

theorem rv64Only_x32 {s : State} (h : s.xlen = .x32) (i : Instr) (go : Result) :
    rv64Only i s go = raise .reservedInstruction .decode i s.readPc none s := by
  simp [rv64Only, h]

theorem withRound_some {s : State} {rm : BitVec 3} {m : RoundMode} (h : s.roundMode rm = some m) (i : Instr)
    (go : RoundMode → Result) : withRound i rm s go = go m := by
  simp [withRound, h]

theorem withRound_none {s : State} {rm : BitVec 3} (h : s.roundMode rm = none) (i : Instr) (go : RoundMode → Result) :
    withRound i rm s go = raiseIllegal i s := by
  simp [withRound, h]

/-! Control transfer. -/

theorem transfer_aligned {t : Word} (h : aligned4 t = true) (i : Instr) (u : State) :
    transfer i t s u = .next (u.commit t) := by simp [transfer, h]

theorem transfer_misaligned {t : Word} (h : aligned4 t = false) (i : Instr) (u : State) :
    transfer i t s u = raise .addressAlignment .target i t (some .fetch) s := by simp [transfer, h]

/-- Alignment is a property of the number. -/
theorem aligned4_iff (a : Word) : aligned4 a = true ↔ a.toNat % 4 = 0 := by
  rw [aligned4, beq_iff_eq, ← BitVec.toNat_inj]
  simp

theorem onlyPc_commit (p : Word) : OnlyPc s (s.commit p) (wrap s p.toNat) :=
  ⟨fun _ => rfl, fun _ => rfl, ⟨rfl, rfl⟩, fun _ => rfl, rfl, committed_commit s rfl rfl rfl p,
    ⟨rfl, rfl, rfl, rfl, rfl, rfl, rfl, rfl, rfl, rfl, rfl⟩⟩

theorem linkResult_commit (rd : XReg) (p : Word) :
    LinkResult s ((s.writeX rd (s.readPc + ilenBytes)).commit p) rd (wrap s p.toNat) := by
  refine ⟨?_, ?_, ?_, ?_, ?_, ?_, ?_, ?_⟩
  · intro h
    change (((s.writeX rd (s.readPc + ilenBytes)).readX rd).toNat : Int) = _
    rw [State.readX_writeX_same _ h, toNat_trunc_int]
    exact wrap_pc_four s
  · refine ⟨rfl, fun r h => ?_⟩
    change (s.writeX rd _).readX r = _
    rw [State.readX_writeX_ne _ h]
  · intro r; exact State.readF_congr (by simp) r
  · simp
  · intro a; simp
  · simp
  · exact committed_commit s (by simp) (by simp) (by simp) p
  · constructor <;> simp

/-! Memory. -/

/-- `Seg(a, n)` is found exactly where one segment holds the bytes (20_memory.md R76). -/
theorem segOf_isSome {cfg : Config} (hs : segmentsAccepted cfg.xlen cfg.segments = true) (a n : Nat) :
    (segOf cfg a n).isSome = true ↔ Mapped cfg a n := by
  have top : ∀ (gs : List Segment), segmentsAccepted cfg.xlen gs = true → ∀ g ∈ gs, g.top < 2 ^ cfg.xlen.bits := by
    intro gs
    induction gs with
    | nil => intro _ g hg; cases hg
    | cons q qs ih =>
      intro h g hg
      simp only [segmentsAccepted, Bool.and_eq_true, decide_eq_true_eq] at h
      rcases List.mem_cons.1 hg with rfl | hg
      · exact h.1.1.2
      · exact ih h.2 g hg
  constructor
  · intro h
    unfold segOf at h
    split at h
    · obtain ⟨g, hg⟩ := Option.isSome_iff_exists.1 h
      have h1 := List.find?_some hg
      simp only [Bool.and_eq_true, decide_eq_true_eq] at h1
      exact ⟨g, List.mem_of_find?_eq_some hg, h1⟩
    · cases h
  · rintro ⟨g, hg, h1, h2⟩
    have h3 := top _ hs g hg
    rw [segOf, if_pos (by omega), List.find?_isSome]
    exact ⟨g, hg, by simp [h1, h2]⟩

/-- Two accepted segments that hold a common byte are one. -/
theorem segment_unique {x : XLen} {gs : List Segment} (hs : segmentsAccepted x gs = true) {g h : Segment} (hg : g ∈ gs)
    (hh : h ∈ gs) {a : Nat} (ga : g.base ≤ a ∧ a ≤ g.top) (ha : h.base ≤ a ∧ a ≤ h.top) : g = h := by
  induction gs with
  | nil => cases hg
  | cons q qs ih =>
    simp only [segmentsAccepted, Bool.and_eq_true, decide_eq_true_eq, List.all_eq_true] at hs
    have apart : ∀ k ∈ qs, k.base ≤ a ∧ a ≤ k.top → q.base ≤ a ∧ a ≤ q.top → False := by
      intro k hk ka qa
      have := hs.1.2 k hk
      simp only [segmentsApart, Bool.or_eq_true, decide_eq_true_eq] at this
      omega
    rcases List.mem_cons.1 hg with hgq | hgq <;> rcases List.mem_cons.1 hh with hhq | hhq
    · rw [hgq, hhq]
    · exact (apart h hhq ha (hgq ▸ ga)).elim
    · exact (apart g hgq ga (hhq ▸ ha)).elim
    · exact ih hs.2 hgq hhq

/-- The segment found holds the bytes, and any segment that holds their first byte is it. -/
theorem segOf_spec {cfg : Config} (hs : segmentsAccepted cfg.xlen cfg.segments = true) {a n : Nat} (hn : 0 < n)
    {g : Segment} (h : segOf cfg a n = some g) :
    g ∈ cfg.segments ∧ Holds g a n ∧ ∀ k ∈ cfg.segments, k.base ≤ a ∧ a ≤ k.top → k = g := by
  unfold segOf at h
  split at h
  · have h1 := List.find?_some h
    simp only [Bool.and_eq_true, decide_eq_true_eq] at h1
    have hm := List.mem_of_find?_eq_some h
    exact ⟨hm, h1, fun k hk ka => segment_unique hs hk hm ka ⟨h1.1, by omega⟩⟩
  · cases h

/-- An access of at most a word passes its checks exactly where it is aligned and mapped, a store where it may write
(20_memory.md R78, R79). -/
theorem accessFaultWord_none {cfg : Config} (hs : segmentsAccepted cfg.xlen cfg.segments = true) (k : Access) (a : Word)
    {n : Nat} (hn : 0 < n) :
    accessFaultWord cfg k a n = none ↔
      a.toNat % n = 0 ∧ (if k = .store then Writable cfg a.toNat n else Mapped cfg a.toNat n) := by
  unfold accessFaultWord
  by_cases ha : a.toNat % n = 0
  · simp only [ha, ne_eq, not_true_eq_false, if_false, true_and]
    have hm := segOf_isSome hs a.toNat n
    cases hseg : segOf cfg a.toNat n with
    | none =>
      rw [hseg] at hm
      have hno : ¬ Mapped cfg a.toNat n := fun h => by simpa using hm.2 h
      have hno' : ¬ Writable cfg a.toNat n := fun ⟨g, hg, hh, _⟩ => hno ⟨g, hg, hh⟩
      simp only [reduceCtorEq, false_iff]
      split <;> assumption
    | some g =>
      obtain ⟨h1, h2, h3⟩ := segOf_spec hs hn hseg
      by_cases hk : k = .store
      · simp only [hk, true_and, if_true]
        constructor
        · intro h
          refine ⟨g, h1, h2, fun ht => ?_⟩
          by_contra hsmc
          simp [ht, hsmc] at h
        · rintro ⟨q, hq, hq2, hq3⟩
          have hqe : q = g := h3 q hq ⟨hq2.1, by have := hq2.2; omega⟩
          subst hqe
          rw [if_neg]
          rintro ⟨ht, hsm⟩
          simp [hq3 ht] at hsm
      · simp only [hk, false_and, if_false, true_iff]
        exact ⟨g, h1, h2⟩
  · simp [ha]

theorem word_add_four {a : Word} (h : a.toNat % 8 = 0) : (a + 4).toNat = a.toNat + 4 := by
  rw [BitVec.toNat_add]
  have := a.isLt
  simp
  omega

/-- A load passes its checks exactly where it completes. -/
theorem accessFault_load {cfg : Config} (hs : segmentsAccepted cfg.xlen cfg.segments = true) (a : Word) (sz : MemSize) :
    accessFault cfg .load a sz = none ↔ Loads cfg a.toNat sz := by
  cases sz
  · simp [accessFault, accessFaultWord_none hs, Loads, Nat.mod_one]
  · simp [accessFault, accessFaultWord_none hs, Loads]
  · simp [accessFault, accessFaultWord_none hs, Loads]
  · simp only [accessFault, accessFaultDouble, Loads]
    by_cases h : a.toNat % 8 = 0
    · have h4 : a.toNat % 4 = 0 := by omega
      have h4' : (a.toNat + 4) % 4 = 0 := by omega
      simp only [h, ne_eq, not_true_eq_false, if_false, true_and]
      cases h1 : accessFaultWord cfg .load a 4 with
      | none =>
        have := (accessFaultWord_none hs .load a (by decide : 0 < 4)).1 h1
        rw [accessFaultWord_none hs _ _ (by decide), word_add_four h]
        simp_all
      | some e =>
        have : ¬ Mapped cfg a.toNat 4 := fun hm => by
          have := (accessFaultWord_none hs .load a (by decide : 0 < 4)).2 ⟨h4, by simpa using hm⟩
          rw [h1] at this; cases this
        simp [this]
    · simp [h]

/-- A store passes its checks exactly where it completes. -/
theorem accessFault_store {cfg : Config} (hs : segmentsAccepted cfg.xlen cfg.segments = true) (a : Word) (sz : MemSize) :
    accessFault cfg .store a sz = none ↔ Stores cfg a.toNat sz := by
  cases sz
  · simp [accessFault, accessFaultWord_none hs, Stores, Nat.mod_one]
  · simp [accessFault, accessFaultWord_none hs, Stores]
  · simp [accessFault, accessFaultWord_none hs, Stores]
  · simp only [accessFault, accessFaultDouble, Stores]
    by_cases h : a.toNat % 8 = 0
    · have h4 : a.toNat % 4 = 0 := by omega
      have h4' : (a.toNat + 4) % 4 = 0 := by omega
      simp only [h, ne_eq, not_true_eq_false, if_false, true_and]
      cases h1 : accessFaultWord cfg .store a 4 with
      | none =>
        have := (accessFaultWord_none hs .store a (by decide : 0 < 4)).1 h1
        rw [accessFaultWord_none hs _ _ (by decide), word_add_four h]
        simp_all
      | some e =>
        have : ¬ Writable cfg a.toNat 4 := fun hm => by
          have := (accessFaultWord_none hs .store a (by decide : 0 < 4)).2 ⟨h4, by simpa using hm⟩
          rw [h1] at this; cases this
        simp [this]
    · simp [h]

/-- The value loaded is the little-endian number of the bytes. -/
theorem load_toNat (m : Memory) (a n : Nat) (hn : n ≤ 8) : (m.load a n).toNat = leValue m a n := by
  have lt : ∀ k b, leValue m b k < 256 ^ k := by
    intro k
    induction k with
    | zero => intro b; simp [leValue]
    | succ k ih =>
      intro b
      have h1 := (m.byte b).isLt
      have h2 := ih (b + 1)
      simp only [leValue, pow_succ]
      omega
  have snoc : ∀ k b, leValue m b (k + 1) = leValue m b k + (m.byte (b + k)).toNat * 256 ^ k := by
    intro k
    induction k with
    | zero => intro b; simp [leValue]
    | succ k ih =>
      intro b
      rw [leValue, ih (b + 1), leValue, pow_succ]
      rw [show b + 1 + k = b + (k + 1) by omega]
      ring
  induction n with
  | zero => rfl
  | succ k ih =>
    have hk := ih (by omega)
    have h1 := lt k a
    have h2 := (m.byte (a + k)).isLt
    have hp : 2 ^ (8 * k) = 256 ^ k := by rw [pow_mul]; norm_num
    have hb : ((m.byte (a + k)).setWidth 64).toNat = (m.byte (a + k)).toNat := by
      rw [BitVec.toNat_setWidth]; omega
    have hlt : (m.byte (a + k)).toNat * 256 ^ k < 2 ^ 64 := by
      calc (m.byte (a + k)).toNat * 256 ^ k < 256 * 256 ^ k := Nat.mul_lt_mul_of_pos_right h2 (by positivity)
        _ = 256 ^ (k + 1) := by rw [pow_succ]; ring
        _ ≤ 256 ^ 8 := Nat.pow_le_pow_right (by omega) hn
        _ = 2 ^ 64 := by norm_num
    rw [Memory.load, BitVec.toNat_or, BitVec.toNat_shiftLeft, hk, hb, Nat.shiftLeft_eq, hp, Nat.mod_eq_of_lt hlt, snoc,
      Nat.or_comm, Nat.mul_comm, ← hp, ← Nat.two_pow_add_eq_or_of_lt (by rwa [hp])]
    omega

theorem extractLsb'_byte (v : BitVec 64) (k : Nat) : v.extractLsb' (8 * k) 8 = .ofNat 8 (v.toNat / 256 ^ k % 256) := by
  apply BitVec.eq_of_toNat_eq
  rw [BitVec.extractLsb'_toNat, BitVec.toNat_ofNat, Nat.shiftRight_eq_div_pow, pow_mul]
  simp

/-- A load whose checks pass. -/
theorem loadThen_ok {s : State} {rs1 : XReg} {imm : BitVec 12} {sz : MemSize}
    (hs : segmentsAccepted s.xlen s.cfg.segments = true) (h : Loads s.cfg (s.ea rs1 imm).toNat sz) (i : Instr)
    (fin : BitVec 64 → Result) :
    loadThen i sz rs1 imm s fin = fin (s.mem.load (s.ea rs1 imm).toNat sz.bytes) := by
  rw [loadThen, State.memRead, (accessFault_load hs _ _).2 h]

/-- A store whose checks pass. -/
theorem storeAt_ok {s : State} {rs1 : XReg} {imm : BitVec 12} {sz : MemSize}
    (hs : segmentsAccepted s.xlen s.cfg.segments = true) (h : Stores s.cfg (s.ea rs1 imm).toNat sz) (i : Instr)
    (v : BitVec 64) :
    ∃ t, storeAt i sz rs1 imm v s = .next t ∧ StoreResult s t (s.ea rs1 imm).toNat sz.bytes v.toNat := by
  refine ⟨_, by rw [storeAt, State.memWrite, (accessFault_store hs _ _).2 h]; rfl, ?_, ?_, ?_, ?_, ?_, ?_, ?_, ?_⟩
  · intro k hk
    change (s.mem.store _ _ _).byte? _ = _
    rw [Memory.byte?_store_in _ _ _ _ hk, extractLsb'_byte]
  · intro p hp
    exact Memory.byte?_store_out _ _ _ _ hp
  · intro r; rfl
  · intro r; rfl
  · exact ⟨rfl, rfl⟩
  · rfl
  · exact committed_advance s rfl rfl rfl rfl
  · exact ⟨rfl, rfl, rfl, rfl, rfl, rfl, rfl, rfl, rfl, rfl, rfl⟩

/-- A load that fails a check faults with it. -/
theorem loadThen_error {s : State} {rs1 : XReg} {imm : BitVec 12} {sz : MemSize} {e : MemFault}
    (h : s.memRead (s.ea rs1 imm) sz = .error e) (i : Instr) (fin : BitVec 64 → Result) :
    loadThen i sz rs1 imm s fin = raise e.cause .access i e.addr (some e.access) s := by
  rw [loadThen, h]; rfl

/-- A store that fails a check faults with it. -/
theorem storeAt_error {s : State} {rs1 : XReg} {imm : BitVec 12} {sz : MemSize} {v : BitVec 64} {e : MemFault}
    (h : s.memWrite (s.ea rs1 imm) sz v = .error e) (i : Instr) :
    storeAt i sz rs1 imm v s = raise e.cause .access i e.addr (some e.access) s := by
  rw [storeAt, h]; rfl

/-! CSRs. -/

theorem xlen_afterCsrRead (c : Csr) : (s.afterCsrRead c).xlen = s.xlen := by unfold State.afterCsrRead; split <;> rfl

/-- A CSR instruction that passes its checks. -/
theorem csrAccess_ok {a : BitVec 12} {c : Csr} {wr : Bool} (hc : Csr.ofAddr s.xlen a = some c)
    (hw : (wr && csrReadOnly a) = false) (i : Instr) (rd : XReg) (op : Word → Word) :
    csrAccess i rd a wr op s = retire (s.csrEffect c rd wr op) := by
  rw [csrAccess, hc]; simp only [hw, Bool.false_eq_true, if_false]

end Sys2Proof.Machine
end

