-- ==== Sys2Proof/Laws/Exec.lean ====
section
/-! SUPPORT. Everything an instruction can do, said once: exec answers a next state, and that state has one of the shapes of
Effect. The laws about all instructions follow from `exec_runs` by cases on the shape, without unfolding a meaning. -/

namespace Sys2Proof.Machine

/-- The shapes of the state after the instruction i on the state s. -/
inductive Effect (i : Instr) (s : State) : State → Prop
  /-- a fault of the instruction's kind, or of a 64-bit-only instruction with XLEN = 32 (60_exceptions.md R342) -/
  | fault (r : FaultRecord) (hpc : r.pc = s.readPc) (hword : r.word = some (encode i))
      (hcause : r.cause ∈ i.kind.causes ∨ r.cause = .reservedInstruction ∧ i.rv64Only = true ∧ s.xlen = .x32) :
      Effect i s { s with ctl := .faulted, fault := some r }
  /-- an integer result, and flags -/
  | writeX (rd : XReg) (v : Word) (e : FFlags) (hk : i.kind ≠ .store) : Effect i s ((s.accrue e).writeX rd v).advance
  /-- an FP result, and flags -/
  | writeF (rd : FReg) (v : BitVec 64) (e : FFlags) (hk : i.kind ≠ .store) : Effect i s ((s.accrue e).writeF rd v).advance
  /-- nothing but the pc -/
  | advance (hk : i.kind ≠ .store) : Effect i s s.advance
  /-- a branch taken to an aligned target -/
  | jump (p : Word) (hp : aligned4 p = true) (hk : i.kind ≠ .store) : Effect i s (s.commit p)
  /-- a jump to an aligned target, with its link -/
  | link (rd : XReg) (v p : Word) (hp : aligned4 p = true) (hk : i.kind ≠ .store) : Effect i s ((s.writeX rd v).commit p)
  /-- a store whose checks pass -/
  | store (a : Word) (sz : MemSize) (v : BitVec 64) (ha : accessFault s.cfg .store a sz = none) (hk : i.kind = .store) :
      Effect i s (s.storeRaw a v sz.bytes).advance
  /-- a CSR access -/
  | csr (c : Csr) (rd : XReg) (wr : Bool) (op : Word → Word) (hk : i.kind = .csr) : Effect i s (s.csrEffect c rd wr op).advance
  /-- an exit environment call -/
  | exit (code : Word) (hk : i.kind ≠ .store) :
      Effect i s { s.advance with ctl := .exited, exitCode := some code }
  /-- an environment call that waits for the host -/
  | service (n : Word) (hk : i.kind ≠ .store) : Effect i s { s with ctl := .service, svc := some ⟨s.readPc, n⟩ }
  /-- a breakpoint instruction -/
  | ebreak (hk : i.kind ≠ .store) : Effect i s { s.advance with ctl := .breakpoint, bpSkip := false }

/-- The result r is a next state of one of the shapes. -/
def Runs (i : Instr) (s : State) (r : Result) : Prop := ∃ t, r = .next t ∧ Effect i s t

variable {i : Instr} {s : State}

theorem not_store (h : decide (i.kind = .store) = false) : i.kind ≠ .store := of_decide_eq_false h

theorem accrue_zero (s : State) : s.accrue 0 = s := by simp [State.accrue]

theorem runs_raise {c : Cause} (h : c ∈ i.kind.causes) (site : FaultSite) (a : Word) (k : Option Access) :
    Runs i s (raise c site i a k s) :=
  ⟨_, rfl, .fault _ rfl rfl (.inl h)⟩

theorem runs_rv64Only (h : i.rv64Only = true) {go : Result} (hg : Runs i s go) : Runs i s (rv64Only i s go) := by
  unfold rv64Only
  split
  · next hx => exact ⟨_, rfl, .fault _ rfl rfl (.inr ⟨rfl, h, hx⟩)⟩
  · exact hg

theorem runs_withRound (hk : i.kind = .rounding) (rm : BitVec 3) {go : RoundMode → Result} (hg : ∀ m, Runs i s (go m)) :
    Runs i s (withRound i rm s go) := by
  unfold withRound
  split
  · exact runs_raise (by simp [hk, Kind.causes]) _ _ _
  · exact hg _

theorem runs_retire (hk : i.kind ≠ .store) : Runs i s (retire s) := ⟨_, rfl, .advance hk⟩

theorem runs_retireX_accrue (hk : i.kind ≠ .store) (rd : XReg) (v : Word) (e : FFlags) :
    Runs i s (retireX rd v (s.accrue e)) := ⟨_, rfl, .writeX rd v e hk⟩

theorem runs_retireX (hk : i.kind ≠ .store) (rd : XReg) (v : Word) : Runs i s (retireX rd v s) := by
  have h := runs_retireX_accrue (s := s) hk rd v 0
  rwa [accrue_zero] at h

theorem runs_retireD_accrue (hk : i.kind ≠ .store) (rd : FReg) (v : BitVec 64) (e : FFlags) :
    Runs i s (retireD rd v (s.accrue e)) := ⟨_, rfl, .writeF rd v e hk⟩

theorem runs_retireD (hk : i.kind ≠ .store) (rd : FReg) (v : BitVec 64) : Runs i s (retireD rd v s) := by
  have h := runs_retireD_accrue (s := s) hk rd v 0
  rwa [accrue_zero] at h

theorem runs_retireS (hk : i.kind ≠ .store) (rd : FReg) (v : BitVec 32) : Runs i s (retireS rd v s) :=
  runs_retireD hk rd (box v)

theorem runs_retireFpS (hk : i.kind ≠ .store) (rd : FReg) (r : FpResult) : Runs i s (retireFpS rd r s) :=
  runs_retireD_accrue hk rd (box _) _

theorem runs_retireFpD (hk : i.kind ≠ .store) (rd : FReg) (r : FpResult) : Runs i s (retireFpD rd r s) :=
  runs_retireD_accrue hk rd _ _

theorem runs_retireCmp (hk : i.kind ≠ .store) (rd : XReg) (r : CmpResult) : Runs i s (retireCmp rd r s) :=
  runs_retireX_accrue hk rd _ _

theorem runs_fpS (hk : i.kind = .rounding) (rd : FReg) (rm : BitVec 3) (op : RoundMode → FpResult) :
    Runs i s (fpS i rd rm s op) := runs_withRound hk rm fun _ => runs_retireFpS (by simp [hk]) rd _

theorem runs_fpD (hk : i.kind = .rounding) (rd : FReg) (rm : BitVec 3) (op : RoundMode → FpResult) :
    Runs i s (fpD i rd rm s op) := runs_withRound hk rm fun _ => runs_retireFpD (by simp [hk]) rd _

theorem runs_fpToInt (hk : i.kind = .rounding) (rd : XReg) (rm : BitVec 3) (op : RoundMode → CvtResult) :
    Runs i s (fpToInt i rd rm s op) := runs_withRound hk rm fun _ => runs_retireX_accrue (by simp [hk]) rd _ _

theorem runs_fpToLong (hk : i.kind = .rounding) (rd : XReg) (rm : BitVec 3) (op : RoundMode → CvtResult) :
    Runs i s (fpToLong i rd rm s op) := runs_withRound hk rm fun _ => runs_retireX_accrue (by simp [hk]) rd _ _

theorem runs_branch (hk : i.kind = .transfer) (taken : Bool) (off : BitVec 13) : Runs i s (branch i taken off s) := by
  unfold branch
  split
  · unfold transfer
    split
    · next hp => exact ⟨_, rfl, .jump _ hp (by simp [hk])⟩
    · exact runs_raise (by simp [hk, Kind.causes]) _ _ _
  · exact runs_retire (by simp [hk])

theorem runs_link (hk : i.kind = .transfer) (rd : XReg) (v p : Word) : Runs i s (transfer i p s (s.writeX rd v)) := by
  unfold transfer
  split
  · next hp => exact ⟨_, rfl, .link rd v _ hp (by simp [hk])⟩
  · exact runs_raise (by simp [hk, Kind.causes]) _ _ _

/-- A failed check of a load is an alignment or a range condition (20_memory.md R78). -/
theorem accessFaultWord_cause {cfg : Config} {k : Access} {a : Word} {n : Nat} {e : MemFault}
    (h : accessFaultWord cfg k a n = some e) :
    e.cause = .addressAlignment ∨ e.cause = .addressOutOfRange ∨ k = .store ∧ e.cause = .writeProtection := by
  unfold accessFaultWord at h
  repeat' split at h
  all_goals (cases h <;> simp_all)

theorem accessFault_cause {cfg : Config} {k : Access} {a : Word} {sz : MemSize} {e : MemFault}
    (h : accessFault cfg k a sz = some e) :
    e.cause = .addressAlignment ∨ e.cause = .addressOutOfRange ∨ k = .store ∧ e.cause = .writeProtection := by
  cases sz
  · exact accessFaultWord_cause h
  · exact accessFaultWord_cause h
  · exact accessFaultWord_cause h
  · simp only [accessFault, accessFaultDouble] at h
    split at h
    · cases h; simp
    · split at h
      · next h1 => cases h; exact accessFaultWord_cause h1
      · exact accessFaultWord_cause h

theorem runs_load (hk : i.kind = .load) (sz : MemSize) (rs1 : XReg) (imm : BitVec 12) {fin : BitVec 64 → Result}
    (hf : ∀ v, Runs i s (fin v)) : Runs i s (loadThen i sz rs1 imm s fin) := by
  cases hm : accessFault s.cfg .load (s.ea rs1 imm) sz with
  | none =>
    simp only [loadThen, State.memRead, hm]
    exact hf _
  | some e =>
    simp only [loadThen, State.memRead, hm]
    exact runs_raise (by have := accessFault_cause hm; simpa [hk, Kind.causes] using this) _ _ _

theorem runs_store (hk : i.kind = .store) (sz : MemSize) (rs1 : XReg) (imm : BitVec 12) (v : BitVec 64) :
    Runs i s (storeAt i sz rs1 imm v s) := by
  cases hm : accessFault s.cfg .store (s.ea rs1 imm) sz with
  | none =>
    simp only [storeAt, State.memWrite, hm]
    exact ⟨_, rfl, .store _ sz v hm hk⟩
  | some e =>
    simp only [storeAt, State.memWrite, hm]
    exact runs_raise (by have := accessFault_cause hm; simpa [hk, Kind.causes] using this) _ _ _

theorem runs_csr (hk : i.kind = .csr) (rd : XReg) (a : BitVec 12) (wr : Bool) (op : Word → Word) :
    Runs i s (csrAccess i rd a wr op s) := by
  unfold csrAccess
  split
  · exact runs_raise (by simp [hk, Kind.causes]) _ _ _
  · split
    · exact runs_raise (by simp [hk, Kind.causes]) _ _ _
    · exact ⟨_, rfl, .csr _ rd wr op hk⟩

theorem runs_ecall (hk : i.kind = .plain) : Runs i s (environmentCall s) := by
  unfold environmentCall
  simp only
  split
  · exact ⟨_, rfl, .exit _ (by simp [hk])⟩
  · exact ⟨_, rfl, .service _ (by simp [hk])⟩

theorem runs_ebreak (hk : i.kind = .plain) : Runs i s (execEbreak s) := ⟨_, rfl, .ebreak (by simp [hk])⟩

/-- Every instruction answers a next state, of one of the shapes of Effect. -/
theorem exec_runs (i : Instr) (s : State) : Runs i s (exec i s) := by
  cases i with
  | lui => exact runs_retireX (not_store rfl) _ _
  | auipc => exact runs_retireX (not_store rfl) _ _
  | jal => exact runs_link rfl _ _ _
  | jalr => exact runs_link rfl _ _ _
  | beq => exact runs_branch rfl _ _
  | bne => exact runs_branch rfl _ _
  | blt => exact runs_branch rfl _ _
  | bge => exact runs_branch rfl _ _
  | bltu => exact runs_branch rfl _ _
  | bgeu => exact runs_branch rfl _ _
  | lb => exact runs_load rfl _ _ _ fun _ => runs_retireX (not_store rfl) _ _
  | lh => exact runs_load rfl _ _ _ fun _ => runs_retireX (not_store rfl) _ _
  | lw => exact runs_load rfl _ _ _ fun _ => runs_retireX (not_store rfl) _ _
  | lbu => exact runs_load rfl _ _ _ fun _ => runs_retireX (not_store rfl) _ _
  | lhu => exact runs_load rfl _ _ _ fun _ => runs_retireX (not_store rfl) _ _
  | lwu => exact runs_rv64Only rfl (runs_load rfl _ _ _ fun _ => runs_retireX (not_store rfl) _ _)
  | ld => exact runs_rv64Only rfl (runs_load rfl _ _ _ fun _ => runs_retireX (not_store rfl) _ _)
  | sb => exact runs_store rfl _ _ _ _
  | sh => exact runs_store rfl _ _ _ _
  | sw => exact runs_store rfl _ _ _ _
  | sd => exact runs_rv64Only rfl (runs_store rfl _ _ _ _)
  | addi => exact runs_retireX (not_store rfl) _ _
  | slti => exact runs_retireX (not_store rfl) _ _
  | sltiu => exact runs_retireX (not_store rfl) _ _
  | xori => exact runs_retireX (not_store rfl) _ _
  | ori => exact runs_retireX (not_store rfl) _ _
  | andi => exact runs_retireX (not_store rfl) _ _
  | slli => exact runs_retireX (not_store rfl) _ _
  | srli => exact runs_retireX (not_store rfl) _ _
  | srai => exact runs_retireX (not_store rfl) _ _
  | slliHi => exact runs_rv64Only rfl (runs_retireX (not_store rfl) _ _)
  | srliHi => exact runs_rv64Only rfl (runs_retireX (not_store rfl) _ _)
  | sraiHi => exact runs_rv64Only rfl (runs_retireX (not_store rfl) _ _)
  | add => exact runs_retireX (not_store rfl) _ _
  | sub => exact runs_retireX (not_store rfl) _ _
  | sll => exact runs_retireX (not_store rfl) _ _
  | slt => exact runs_retireX (not_store rfl) _ _
  | sltu => exact runs_retireX (not_store rfl) _ _
  | xor => exact runs_retireX (not_store rfl) _ _
  | srl => exact runs_retireX (not_store rfl) _ _
  | sra => exact runs_retireX (not_store rfl) _ _
  | or => exact runs_retireX (not_store rfl) _ _
  | and => exact runs_retireX (not_store rfl) _ _
  | fence => exact runs_retire (not_store rfl)
  | fenceI => exact runs_retire (not_store rfl)
  | ecall => exact runs_ecall rfl
  | ebreak => exact runs_ebreak rfl
  | addiw => exact runs_rv64Only rfl (runs_retireX (not_store rfl) _ _)
  | slliw => exact runs_rv64Only rfl (runs_retireX (not_store rfl) _ _)
  | srliw => exact runs_rv64Only rfl (runs_retireX (not_store rfl) _ _)
  | sraiw => exact runs_rv64Only rfl (runs_retireX (not_store rfl) _ _)
  | addw => exact runs_rv64Only rfl (runs_retireX (not_store rfl) _ _)
  | subw => exact runs_rv64Only rfl (runs_retireX (not_store rfl) _ _)
  | sllw => exact runs_rv64Only rfl (runs_retireX (not_store rfl) _ _)
  | srlw => exact runs_rv64Only rfl (runs_retireX (not_store rfl) _ _)
  | sraw => exact runs_rv64Only rfl (runs_retireX (not_store rfl) _ _)
  | mul => exact runs_retireX (not_store rfl) _ _
  | mulh => exact runs_retireX (not_store rfl) _ _
  | mulhsu => exact runs_retireX (not_store rfl) _ _
  | mulhu => exact runs_retireX (not_store rfl) _ _
  | div => exact runs_retireX (not_store rfl) _ _
  | divu => exact runs_retireX (not_store rfl) _ _
  | rem => exact runs_retireX (not_store rfl) _ _
  | remu => exact runs_retireX (not_store rfl) _ _
  | mulw => exact runs_rv64Only rfl (runs_retireX (not_store rfl) _ _)
  | divw => exact runs_rv64Only rfl (runs_retireX (not_store rfl) _ _)
  | divuw => exact runs_rv64Only rfl (runs_retireX (not_store rfl) _ _)
  | remw => exact runs_rv64Only rfl (runs_retireX (not_store rfl) _ _)
  | remuw => exact runs_rv64Only rfl (runs_retireX (not_store rfl) _ _)
  | csrrw => exact runs_csr rfl _ _ _ _
  | csrrs => exact runs_csr rfl _ _ _ _
  | csrrc => exact runs_csr rfl _ _ _ _
  | csrrwi => exact runs_csr rfl _ _ _ _
  | csrrsi => exact runs_csr rfl _ _ _ _
  | csrrci => exact runs_csr rfl _ _ _ _
  | flw => exact runs_load rfl _ _ _ fun _ => runs_retireS (not_store rfl) _ _
  | fsw => exact runs_store rfl _ _ _ _
  | fmaddS => exact runs_fpS rfl _ _ _
  | fmsubS => exact runs_fpS rfl _ _ _
  | fnmsubS => exact runs_fpS rfl _ _ _
  | fnmaddS => exact runs_fpS rfl _ _ _
  | faddS => exact runs_fpS rfl _ _ _
  | fsubS => exact runs_fpS rfl _ _ _
  | fmulS => exact runs_fpS rfl _ _ _
  | fdivS => exact runs_fpS rfl _ _ _
  | fsqrtS => exact runs_fpS rfl _ _ _
  | fsgnjS => exact runs_retireS (not_store rfl) _ _
  | fsgnjnS => exact runs_retireS (not_store rfl) _ _
  | fsgnjxS => exact runs_retireS (not_store rfl) _ _
  | fminS => exact runs_retireFpS (not_store rfl) _ _
  | fmaxS => exact runs_retireFpS (not_store rfl) _ _
  | feqS => exact runs_retireCmp (not_store rfl) _ _
  | fltS => exact runs_retireCmp (not_store rfl) _ _
  | fleS => exact runs_retireCmp (not_store rfl) _ _
  | fclassS => exact runs_retireX (not_store rfl) _ _
  | fcvtWS => exact runs_fpToInt rfl _ _ _
  | fcvtWuS => exact runs_fpToInt rfl _ _ _
  | fcvtLS => exact runs_rv64Only rfl (runs_fpToLong rfl _ _ _)
  | fcvtLuS => exact runs_rv64Only rfl (runs_fpToLong rfl _ _ _)
  | fcvtSW => exact runs_fpS rfl _ _ _
  | fcvtSWu => exact runs_fpS rfl _ _ _
  | fcvtSL => exact runs_rv64Only rfl (runs_fpS rfl _ _ _)
  | fcvtSLu => exact runs_rv64Only rfl (runs_fpS rfl _ _ _)
  | fmvXW => exact runs_retireX (not_store rfl) _ _
  | fmvWX => exact runs_retireS (not_store rfl) _ _
  | fld => exact runs_load rfl _ _ _ fun _ => runs_retireD (not_store rfl) _ _
  | fsd => exact runs_store rfl _ _ _ _
  | fmaddD => exact runs_fpD rfl _ _ _
  | fmsubD => exact runs_fpD rfl _ _ _
  | fnmsubD => exact runs_fpD rfl _ _ _
  | fnmaddD => exact runs_fpD rfl _ _ _
  | faddD => exact runs_fpD rfl _ _ _
  | fsubD => exact runs_fpD rfl _ _ _
  | fmulD => exact runs_fpD rfl _ _ _
  | fdivD => exact runs_fpD rfl _ _ _
  | fsqrtD => exact runs_fpD rfl _ _ _
  | fsgnjD => exact runs_retireD (not_store rfl) _ _
  | fsgnjnD => exact runs_retireD (not_store rfl) _ _
  | fsgnjxD => exact runs_retireD (not_store rfl) _ _
  | fminD => exact runs_retireFpD (not_store rfl) _ _
  | fmaxD => exact runs_retireFpD (not_store rfl) _ _
  | feqD => exact runs_retireCmp (not_store rfl) _ _
  | fltD => exact runs_retireCmp (not_store rfl) _ _
  | fleD => exact runs_retireCmp (not_store rfl) _ _
  | fclassD => exact runs_retireX (not_store rfl) _ _
  | fcvtWD => exact runs_fpToInt rfl _ _ _
  | fcvtWuD => exact runs_fpToInt rfl _ _ _
  | fcvtLD => exact runs_rv64Only rfl (runs_fpToLong rfl _ _ _)
  | fcvtLuD => exact runs_rv64Only rfl (runs_fpToLong rfl _ _ _)
  | fcvtDW => exact runs_fpD rfl _ _ _
  | fcvtDWu => exact runs_fpD rfl _ _ _
  | fcvtDL => exact runs_rv64Only rfl (runs_fpD rfl _ _ _)
  | fcvtDLu => exact runs_rv64Only rfl (runs_fpD rfl _ _ _)
  | fcvtSD => exact runs_fpS rfl _ _ _
  | fcvtDS => exact runs_fpD rfl _ _ _
  | fmvXD => exact runs_rv64Only rfl (runs_retireX (not_store rfl) _ _)
  | fmvDX => exact runs_rv64Only rfl (runs_retireD (not_store rfl) _ _)

/-- What exec answers has one of the shapes of Effect. -/
theorem exec_effect {i : Instr} {s t : State} (h : exec i s = .next t) : Effect i s t := by
  obtain ⟨u, h1, h2⟩ := exec_runs i s
  rw [h1] at h
  cases h
  exact h2

end Sys2Proof.Machine
end

