-- ==== Sys2Proof/Laws/Float.lean ====
section
/-! SUPPORT. Correct rounding: what `roundAt` and `FpFormat.round` deliver of a real number (46_float_single.md R244 to R246). -/

namespace Sys2Proof.Machine
open Sys2Proof

/-- A real of the sign and magnitude. -/
def signedReal (sign : Bool) (y : ℝ) : ℝ := if sign then -y else y

/-- The rounding decision on a magnitude y with integer part q, from the comparison of its fraction with one half. -/
theorem roundsUp_spec (mode : RoundMode) (sign : Bool) {y : ℝ} {q : Nat} {half : Ordering} {inexact : Bool}
    (h0 : (q : ℝ) ≤ y) (h1 : y < q + 1) (hx : inexact = true ↔ (q : ℝ) ≠ y)
    (hh : match half with | .lt => y - q < 1 / 2 | .eq => y - q = 1 / 2 | .gt => 1 / 2 < y - q) :
    RoundsTo mode (signedReal sign y) (signedMag sign (if mode.roundsUp sign q half inexact then q + 1 else q)) := by
  have hfl : ⌊y⌋ = (q : Int) := Int.floor_eq_iff.2 ⟨by exact_mod_cast h0, by exact_mod_cast h1⟩
  have hce : ⌈y⌉ = if inexact then (q : Int) + 1 else q := by
    cases inexact
    · have : (q : ℝ) = y := by by_contra h; exact absurd (hx.2 h) (by simp)
      rw [← this]; simp
    · have hne : (q : ℝ) ≠ y := hx.1 rfl
      have : (q : ℝ) < y := lt_of_le_of_ne h0 hne
      simp only [if_true]
      rw [Int.ceil_eq_iff]
      push_cast
      constructor <;> linarith
  have hy : 0 ≤ y := le_trans (Nat.cast_nonneg q) h0
  cases mode
  · -- nearest, ties to even
    have key : ∀ u : Bool, (u = (half == .gt || (half == .eq && q % 2 == 1))) →
        |(((if u then q + 1 else q : Nat) : ℝ)) - y| ≤ 1 / 2 ∧
        (|(((if u then q + 1 else q : Nat) : ℝ)) - y| = 1 / 2 → (if u then q + 1 else q) % 2 = 0) := by
      intro u hu
      cases half
      · simp at hu; subst hu; simp
        rw [abs_of_nonpos (by linarith)]
        constructor
        · linarith
        · intro h; linarith
      · simp at hu hh
        rcases Nat.mod_two_eq_zero_or_one q with hq | hq
        · rw [hq] at hu; simp at hu; subst hu
          simp [hq]
          rw [abs_of_nonpos (by linarith)]; linarith
        · rw [hq] at hu; simp at hu; subst hu
          simp
          rw [abs_of_nonneg (by linarith)]
          exact ⟨by linarith, fun _ => by omega⟩
      · simp at hu hh; subst hu; simp
        rw [abs_of_nonneg (by linarith)]
        constructor
        · linarith
        · intro h; linarith
    have k := key (RoundMode.rne.roundsUp sign q half inexact) rfl
    simp only [RoundsTo]
    generalize (if RoundMode.rne.roundsUp sign q half inexact = true then q + 1 else q) = n at k ⊢
    cases sign
    · simp only [signedReal, signedMag]
      simp only [Bool.false_eq_true, if_false]
      refine ⟨by exact_mod_cast k.1, fun h => ?_⟩
      have := k.2 (by exact_mod_cast h)
      omega
    · simp only [signedReal, signedMag, if_true]
      push_cast
      have e : |(-(n : ℝ)) - -y| = |(n : ℝ) - y| := by rw [← abs_neg]; congr 1; ring
      rw [e]
      refine ⟨k.1, fun h => ?_⟩
      have := k.2 h
      omega
  · -- toward zero
    simp only [RoundsTo, RoundMode.roundsUp, Bool.false_eq_true, if_false]
    cases sign
    · simp [signedReal, signedMag, hy, hfl]
    · simp only [signedReal, signedMag, if_true]
      split
      · have : y = 0 := by linarith
        have hq : q = 0 := by
          have : (q : ℝ) ≤ 0 := by linarith
          exact Nat.le_zero.1 (by exact_mod_cast this)
        subst hq; simp [this]
      · rw [Int.ceil_neg, hfl]
  · -- down
    cases sign
    · simp [RoundsTo, RoundMode.roundsUp, signedReal, signedMag, hfl]
    · simp only [RoundsTo, RoundMode.roundsUp, signedReal, signedMag, if_true, Bool.and_true]
      rw [Int.floor_neg, hce]
      cases inexact <;> simp
  · -- up
    cases sign
    · simp only [RoundsTo, RoundMode.roundsUp, signedReal, signedMag, Bool.not_false, Bool.and_true, Bool.false_eq_true, if_false]
      rw [hce]
      cases inexact <;> simp
    · simp only [RoundsTo, RoundMode.roundsUp, signedReal, signedMag, if_true, Bool.not_true, Bool.and_false, Bool.false_eq_true, if_false]
      rw [Int.ceil_neg, hfl]
  · -- nearest, ties away
    have key : ∀ u : Bool, (u = (half == .gt || half == .eq)) →
        |(((if u then q + 1 else q : Nat) : ℝ)) - y| ≤ 1 / 2 ∧
        (|(((if u then q + 1 else q : Nat) : ℝ)) - y| = 1 / 2 → y < ((if u then q + 1 else q : Nat) : ℝ)) := by
      intro u hu
      cases half
      · simp at hu; subst hu; simp
        rw [abs_of_nonpos (by linarith)]
        constructor
        · linarith
        · intro h; linarith
      · simp at hu hh; subst hu; simp
        rw [abs_of_nonneg (by linarith)]
        constructor
        · linarith
        · intro h; linarith
      · simp at hu hh; subst hu; simp
        rw [abs_of_nonneg (by linarith)]
        constructor
        · linarith
        · intro h; linarith
    have k := key (RoundMode.rmm.roundsUp sign q half inexact) rfl
    simp only [RoundsTo]
    generalize (if RoundMode.rmm.roundsUp sign q half inexact = true then q + 1 else q) = n at k ⊢
    cases sign
    · simp only [signedReal, signedMag]
      simp only [Bool.false_eq_true, if_false]
      refine ⟨by exact_mod_cast k.1, fun h => ?_⟩
      have := k.2 (by exact_mod_cast h)
      rw [abs_of_nonneg hy, abs_of_nonneg (by positivity)]
      exact_mod_cast this
    · simp only [signedReal, signedMag, if_true]
      push_cast
      have e : |(-(n : ℝ)) - -y| = |(n : ℝ) - y| := by rw [← abs_neg]; congr 1; ring
      have en : |(-(n : ℝ))| = n := by rw [abs_neg, abs_of_nonneg (Nat.cast_nonneg n)]
      have ey : |(-y)| = y := by rw [abs_neg, abs_of_nonneg hy]
      rw [e, en, ey]
      exact k

/-- The real x lies where a magnitude m * 2^e with the sticky bit st says: at it, or strictly between it and the next. -/
def Within (m : Nat) (e : Int) (st : Bool) (x : ℝ) : Prop :=
  if st then (m : ℝ) * 2 ^ e < x ∧ x < ((m : ℝ) + 1) * 2 ^ e else x = (m : ℝ) * 2 ^ e

theorem roundShift_spec (mode : RoundMode) (sign : Bool) (m sh : Nat) (st : Bool) {x : ℝ} (h : Within m 0 st x)
    (hs : st = true → 1 ≤ sh) :
    RoundsTo mode (signedReal sign (x / 2 ^ sh)) (signedMag sign (roundShift mode sign m sh st).1) ∧
    ((roundShift mode sign m sh st).2 = false → ((roundShift mode sign m sh st).1 : ℝ) = x / 2 ^ sh) ∧
    ((roundShift mode sign m sh st).2 = true → ((m / 2 ^ sh : Nat) : ℝ) < x / 2 ^ sh) := by
  have hp : (0 : ℝ) < 2 ^ sh := by positivity
  have hdm : (2 ^ sh) * (m / 2 ^ sh) + m % 2 ^ sh = m := Nat.div_add_mod m (2 ^ sh)
  have hr : m % 2 ^ sh < 2 ^ sh := Nat.mod_lt _ (by positivity)
  generalize hq : m / 2 ^ sh = q at *
  generalize hr' : m % 2 ^ sh = r at *
  have hm : (m : ℝ) = 2 ^ sh * q + r := by rw [← hdm]; push_cast; ring
  have hrR : (r : ℝ) + 1 ≤ 2 ^ sh := by exact_mod_cast hr
  have bounds : (r : ℝ) ≤ x - 2 ^ sh * q ∧ x - 2 ^ sh * q < r + 1 ∧ (st = false → x - 2 ^ sh * q = r) ∧
      (st = true → (r : ℝ) < x - 2 ^ sh * q) := by
    cases st
    · simp [Within] at h
      simp [h, hm]
    · simp [Within] at h
      rw [hm] at h
      refine ⟨by linarith, by linarith, by simp, fun _ => by linarith⟩
  obtain ⟨b1, b2, b3, b4⟩ := bounds
  have hdiv : x / 2 ^ sh - q = (x - 2 ^ sh * q) / 2 ^ sh := by field_simp
  have h0 : (q : ℝ) ≤ x / 2 ^ sh := by
    have : 0 ≤ (x - 2 ^ sh * q) / 2 ^ sh := div_nonneg (le_trans (Nat.cast_nonneg r) b1) hp.le
    linarith
  have h1 : x / 2 ^ sh < q + 1 := by
    have : (x - 2 ^ sh * q) / 2 ^ sh < 1 := by rw [div_lt_one hp]; linarith
    linarith
  have hx : (r != 0 || st) = true ↔ (q : ℝ) ≠ x / 2 ^ sh := by
    have e : (q : ℝ) ≠ x / 2 ^ sh ↔ x - 2 ^ sh * q ≠ 0 := by
      rw [not_iff_not, eq_div_iff hp.ne']
      constructor <;> intro h <;> linarith
    rw [e]
    cases st
    · rw [b3 rfl]; simp
    · have := b4 rfl
      have h0 : (0 : ℝ) ≤ r := Nat.cast_nonneg r
      simp
      intro hc; linarith
  have hh : ∀ half, half = (match compare (2 * r) (2 ^ sh) with
        | .lt => Ordering.lt
        | .eq => if st then .gt else .eq
        | .gt => .gt) →
      match half with
      | .lt => x / 2 ^ sh - q < 1 / 2
      | .eq => x / 2 ^ sh - q = 1 / 2
      | .gt => 1 / 2 < x / 2 ^ sh - q := by
    intro half hhalf
    rw [hdiv]
    rcases lt_trichotomy (2 * r) (2 ^ sh) with hc | hc | hc
    · rw [Nat.compare_eq_lt.2 hc] at hhalf; subst hhalf
      show _ < _
      rw [div_lt_div_iff₀ hp (by norm_num)]
      cases st
      · rw [b3 rfl]
        have : (2 * r : ℝ) < 2 ^ sh := by exact_mod_cast hc
        linarith
      · have h1 := hs rfl
        obtain ⟨k, rfl⟩ : ∃ k, sh = k + 1 := ⟨sh - 1, by omega⟩
        have : r + 1 ≤ 2 ^ k := by rw [pow_succ] at hc; omega
        have hk : (r : ℝ) + 1 ≤ 2 ^ k := by exact_mod_cast this
        rw [pow_succ] at *
        linarith
    · rw [Nat.compare_eq_eq.2 hc] at hhalf
      have hc' : (2 * r : ℝ) = 2 ^ sh := by exact_mod_cast hc
      cases st
      · simp at hhalf; subst hhalf
        show _ = _
        rw [b3 rfl, div_eq_div_iff hp.ne' (by norm_num)]
        linarith
      · simp at hhalf; subst hhalf
        show _ < _
        rw [div_lt_div_iff₀ (by norm_num) hp]
        have := b4 rfl
        linarith
    · rw [Nat.compare_eq_gt.2 hc] at hhalf; subst hhalf
      show _ < _
      have hc' : (2 ^ sh : ℝ) < 2 * r := by exact_mod_cast hc
      rw [div_lt_div_iff₀ (by norm_num) hp]
      linarith
  have main := roundsUp_spec mode sign h0 h1 hx (hh _ rfl)
  have e1 : roundShift mode sign m sh st = (if mode.roundsUp sign q (match compare (2 * r) (2 ^ sh) with
        | .lt => Ordering.lt
        | .eq => if st then .gt else .eq
        | .gt => .gt) (r != 0 || st) then q + 1 else q, r != 0 || st) := by
    simp only [roundShift, hq, hr'] <;> rfl
  rw [e1]
  refine ⟨main, fun hi => ?_, fun hi => lt_of_le_of_ne h0 (hx.1 hi)⟩
  simp only at hi
  have hqe : (q : ℝ) = x / 2 ^ sh := by
    by_contra hne
    rw [hx.2 hne] at hi
    cases hi
  -- exact: nothing is added
  have : mode.roundsUp sign q (match compare (2 * r) (2 ^ sh) with
        | .lt => Ordering.lt
        | .eq => if st then .gt else .eq
        | .gt => .gt) (r != 0 || st) = false := by
    rw [hi]
    simp only [Bool.or_eq_false_iff, bne_eq_false_iff_eq] at hi
    have hlt : compare (2 * r) (2 ^ sh) = .lt := by
      rw [hi.1]; exact Nat.compare_eq_lt.2 (by positivity)
    rw [hlt]
    cases mode <;> simp [RoundMode.roundsUp]
  rw [this]
  simpa using hqe


/-! What the modes have in common. -/

theorem RoundsTo_intCast (mode : RoundMode) (n : Int) : RoundsTo mode (n : ℝ) n := by
  cases mode <;> simp [RoundsTo]

/-- A rounded integer is less than one away. -/
theorem RoundsTo.abs_sub_lt {mode : RoundMode} {v : ℝ} {n : Int} (h : RoundsTo mode v n) : |(n : ℝ) - v| < 1 := by
  have hf1 := Int.floor_le v
  have hf2 := Int.lt_floor_add_one v
  have hc1 := Int.le_ceil v
  have hc2 := Int.ceil_lt_add_one v
  cases mode
  · exact lt_of_le_of_lt h.1 (by norm_num)
  · simp only [RoundsTo] at h
    rw [abs_lt]
    split at h <;> subst h <;> constructor <;> linarith
  · simp only [RoundsTo] at h
    subst h; rw [abs_lt]; constructor <;> linarith
  · simp only [RoundsTo] at h
    subst h; rw [abs_lt]; constructor <;> linarith
  · exact lt_of_le_of_lt h.1 (by norm_num)

/-- Rounding to an integer has one answer. -/
theorem RoundsTo.unique {mode : RoundMode} {v : ℝ} {n n' : Int} (h : RoundsTo mode v n) (h' : RoundsTo mode v n') :
    n = n' := by
  have near : ∀ a b : Int, |(a : ℝ) - v| ≤ 1 / 2 → |(b : ℝ) - v| ≤ 1 / 2 → a < b →
      b = a + 1 ∧ |(a : ℝ) - v| = 1 / 2 ∧ |(b : ℝ) - v| = 1 / 2 ∧ v = a + 1 / 2 := by
    intro a b ha hb hab
    have ha' := abs_le.1 ha
    have hb' := abs_le.1 hb
    have h1 : (b : ℝ) ≤ a + 1 := by linarith [ha'.1, hb'.2]
    have h2 : b ≤ a + 1 := by exact_mod_cast h1
    have hb1 : b = a + 1 := by omega
    subst hb1
    push_cast at *
    have hv : v = a + 1 / 2 := by linarith [ha'.1, hb'.2]
    subst hv
    refine ⟨rfl, ?_, ?_, rfl⟩
    · rw [show (a : ℝ) - (a + 1 / 2) = -(1 / 2) by ring, abs_neg, abs_of_pos (by norm_num)]
    · rw [show (a : ℝ) + 1 - (a + 1 / 2) = 1 / 2 by ring, abs_of_pos (by norm_num)]
  cases mode
  · rcases lt_trichotomy n n' with hl | he | hl
    · obtain ⟨e, t1, t2, -⟩ := near n n' h.1 h'.1 hl
      have := h.2 t1; have := h'.2 t2; omega
    · exact he
    · obtain ⟨e, t1, t2, -⟩ := near n' n h'.1 h.1 hl
      have := h'.2 t1; have := h.2 t2; omega
  · exact h.trans h'.symm
  · exact h.trans h'.symm
  · exact h.trans h'.symm
  · have away : ∀ a b : Int, RoundsTo .rmm v a → RoundsTo .rmm v b → ¬ a < b := by
      intro a b ha hb hl
      obtain ⟨e, t1, t2, hv⟩ := near a b ha.1 hb.1 hl
      have u1 := ha.2 t1
      have u2 := hb.2 t2
      subst e
      rw [hv] at u1 u2
      push_cast at u2
      rcases le_or_gt 0 a with h0 | h0
      · have : (0 : ℝ) ≤ a := by exact_mod_cast h0
        rw [abs_of_nonneg (by linarith), abs_of_nonneg this] at u1
        linarith
      · have : (a : ℝ) + 1 ≤ 0 := by exact_mod_cast h0
        rw [abs_of_nonpos (by linarith : (a : ℝ) + 1 / 2 ≤ 0), abs_of_nonpos this] at u2
        linarith
    rcases lt_trichotomy n n' with hl | he | hl
    · exact absurd hl (away n n' h h')
    · exact he
    · exact absurd hl (away n' n h' h)

theorem signedReal_div (sign : Bool) (x y : ℝ) : signedReal sign (x / y) = signedReal sign x / y := by
  cases sign <;> simp [signedReal, neg_div]

theorem abs_signedReal (sign : Bool) {x : ℝ} (h : 0 ≤ x) : |signedReal sign x| = x := by
  cases sign <;> simp [signedReal, abs_of_nonneg h]

theorem abs_signedMag (sign : Bool) (q : Nat) : |((signedMag sign q : Int) : ℝ)| = q := by
  cases sign <;> simp [signedMag]

theorem signedMag_cast (sign : Bool) (q : Nat) : ((signedMag sign q : Int) : ℝ) = signedReal sign q := by
  cases sign <;> simp [signedMag, signedReal]

/-- Rounding a magnitude to a multiple of 2^ue, and whether that was exact. -/
theorem roundAt_spec (mode : RoundMode) (sign : Bool) {m : Nat} {e ue : Int} {st : Bool} {x : ℝ} (h : Within m e st x)
    (hs : st = true → e < ue) :
    RoundsTo mode (signedReal sign x / 2 ^ ue) (signedMag sign (roundAt mode sign m e ue st).1) ∧
    ((roundAt mode sign m e ue st).2 = false ↔ ((roundAt mode sign m e ue st).1 : ℝ) * 2 ^ ue = x) := by
  have h2 : (0 : ℝ) < 2 ^ ue := by positivity
  unfold roundAt
  split
  · rename_i hle
    have hst : st = false := by
      cases st
      · rfl
      · have := hs rfl; omega
    subst hst
    simp only [Within, Bool.false_eq_true, if_false] at h
    have hpow : (2 : ℝ) ^ e = 2 ^ (e - ue).toNat * 2 ^ ue := by
      rw [← zpow_natCast, ← zpow_add₀ (by norm_num)]; congr 1; omega
    have hx : ((m * 2 ^ (e - ue).toNat : Nat) : ℝ) * 2 ^ ue = x := by
      rw [h, hpow]; push_cast; ring
    refine ⟨?_, by simpa using hx⟩
    have hv : signedReal sign x / 2 ^ ue = ((signedMag sign (m * 2 ^ (e - ue).toNat) : Int) : ℝ) := by
      rw [signedMag_cast, ← hx, ← signedReal_div, mul_div_cancel_right₀ _ h2.ne']
    rw [hv]
    exact RoundsTo_intCast _ _
  · rename_i hlt
    have he : (0 : ℝ) < 2 ^ e := by positivity
    have hw : Within m 0 st (x / 2 ^ e) := by
      cases st
      · simp only [Within, Bool.false_eq_true, if_false] at h ⊢
        rw [h]; field_simp
      · simp only [Within, if_true] at h ⊢
        simp only [zpow_zero, mul_one]
        exact ⟨by rw [lt_div_iff₀ he]; exact h.1, by rw [div_lt_iff₀ he]; exact h.2⟩
    have hsh : (2 : ℝ) ^ ue = 2 ^ e * 2 ^ (ue - e).toNat := by
      rw [← zpow_natCast, ← zpow_add₀ (by norm_num)]; congr 1; omega
    have hdiv : x / 2 ^ e / 2 ^ (ue - e).toNat = x / 2 ^ ue := by rw [hsh, div_div]
    obtain ⟨s1, s2, s3⟩ := roundShift_spec mode sign m (ue - e).toNat st hw (fun hst => by have := hs hst; omega)
    rw [hdiv] at s1 s2 s3
    rw [signedReal_div] at s1
    refine ⟨s1, fun hi => ?_, fun hi => ?_⟩
    · rw [s2 hi, div_mul_cancel₀ _ h2.ne']
    · by_contra hc
      have hb : (roundShift mode sign m (ue - e).toNat st).2 = true := by
        cases hq : (roundShift mode sign m (ue - e).toNat st).2
        · exact absurd hq hc
        · rfl
      -- inexact, so x / 2^ue is no integer
      have l1 := s3 hb
      have l2 : x / 2 ^ ue < ((m / 2 ^ (ue - e).toNat : Nat) : ℝ) + 1 := by
        rw [← hdiv]
        have hp : (0 : ℝ) < 2 ^ (ue - e).toNat := by positivity
        rw [div_lt_iff₀ hp]
        have hdm := Nat.div_add_mod m (2 ^ (ue - e).toNat)
        have hr : m % 2 ^ (ue - e).toNat < 2 ^ (ue - e).toNat := Nat.mod_lt _ (by positivity)
        have hmR : (m : ℝ) + 1 ≤ (((m / 2 ^ (ue - e).toNat : Nat) : ℝ) + 1) * 2 ^ (ue - e).toNat := by
          have : m + 1 ≤ (m / 2 ^ (ue - e).toNat + 1) * 2 ^ (ue - e).toNat := by
            rw [Nat.add_mul, Nat.mul_comm (m / _)]; omega
          exact_mod_cast this
        have : x / 2 ^ e < (m : ℝ) + 1 := by
          cases st
          · simp only [Within, Bool.false_eq_true, if_false, zpow_zero, mul_one] at hw
            rw [hw]; linarith
          · simp only [Within, if_true, zpow_zero, mul_one] at hw
            exact hw.2
        linarith
      have hi' : x / 2 ^ ue = ((roundShift mode sign m (ue - e).toNat st).1 : ℝ) := by
        rw [← hi, mul_div_cancel_right₀ _ h2.ne']
      rw [hi'] at l1 l2
      have l1' : m / 2 ^ (ue - e).toNat < (roundShift mode sign m (ue - e).toNat st).1 := by exact_mod_cast l1
      have l2' : (roundShift mode sign m (ue - e).toNat st).1 < m / 2 ^ (ue - e).toNat + 1 := by exact_mod_cast l2
      omega

theorem bitLength_spec {m : Nat} (h : 0 < m) : 2 ^ (bitLength m - 1) ≤ m ∧ m < 2 ^ bitLength m ∧ 1 ≤ bitLength m := by
  have hm : m ≠ 0 := by omega
  simp only [bitLength, hm, if_false, Nat.add_sub_cancel]
  exact ⟨Nat.log2_self_le hm, Nat.lt_log2_self, by omega⟩


/-! Patterns (46_float_single.md R240). -/

/-- The facts of a format that rounding to it needs. -/
structure FpFormat.Regular (F : FpFormat) : Prop where
  expMax : F.expMax = 2 * F.bias + 1
  bias   : 1 ≤ F.bias
  exp    : F.expMax + 1 = 2 ^ F.expBits
  frac   : 1 ≤ F.fracBits

theorem regular_of_isFormat {F : FpFormat} (h : IsFormat F) : F.Regular := by
  rcases h with rfl | rfl <;> constructor <;> decide

section Patterns

variable {F : FpFormat} {ef fr : Nat}

theorem FpFormat.fracOf_pattern (s : Bool) (hf : fr < 2 ^ F.fracBits) : F.fracOf (F.pattern s ef fr) = fr := by
  rw [FpFormat.fracOf, FpFormat.pattern, Nat.pow_add, ← Nat.mul_assoc, ← Nat.add_mul, Nat.add_comm, Nat.add_mul_mod_self_right,
    Nat.mod_eq_of_lt hf]

theorem FpFormat.pattern_div (s : Bool) (hf : fr < 2 ^ F.fracBits) :
    F.pattern s ef fr / 2 ^ F.fracBits = s.toNat * 2 ^ F.expBits + ef := by
  rw [FpFormat.pattern, Nat.pow_add, ← Nat.mul_assoc, ← Nat.add_mul, Nat.add_comm,
    Nat.add_mul_div_right _ _ (by positivity), Nat.div_eq_of_lt hf, Nat.zero_add]

theorem FpFormat.expOf_pattern (s : Bool) (he : ef < 2 ^ F.expBits) (hf : fr < 2 ^ F.fracBits) :
    F.expOf (F.pattern s ef fr) = ef := by
  rw [FpFormat.expOf, FpFormat.pattern_div s hf, Nat.add_comm, Nat.add_mul_mod_self_right, Nat.mod_eq_of_lt he]

theorem FpFormat.signOf_pattern (s : Bool) (he : ef < 2 ^ F.expBits) (hf : fr < 2 ^ F.fracBits) :
    F.signOf (F.pattern s ef fr) = s := by
  rw [FpFormat.signOf, Nat.pow_add, Nat.mul_comm, ← Nat.div_div_eq_div_mul, FpFormat.pattern_div s hf, Nat.add_comm,
    Nat.add_mul_div_right _ _ (by positivity), Nat.div_eq_of_lt he]
  cases s <;> simp

theorem FpFormat.pattern_lt (s : Bool) (he : ef < 2 ^ F.expBits) (hf : fr < 2 ^ F.fracBits) :
    F.pattern s ef fr < 2 ^ (1 + F.expBits + F.fracBits) := by
  have h1 : (ef + 1) * 2 ^ F.fracBits ≤ 2 ^ F.expBits * 2 ^ F.fracBits := Nat.mul_le_mul_right _ he
  have h2 : s.toNat ≤ 1 := Bool.toNat_le s
  have h3 : s.toNat * (2 ^ F.expBits * 2 ^ F.fracBits) ≤ 1 * (2 ^ F.expBits * 2 ^ F.fracBits) := Nat.mul_le_mul_right _ h2
  rw [FpFormat.pattern, Nat.pow_add, show 1 + F.expBits + F.fracBits = 1 + (F.expBits + F.fracBits) by omega, Nat.pow_add 2 1,
    Nat.pow_add 2 F.expBits]
  rw [Nat.add_mul] at h1
  omega

end Patterns

/-- The pattern of a subnormal or zero, or of a normal, and what it stands for. -/
theorem FpFormat.unpack_subnormal {F : FpFormat} (hF : F.Regular) (s : Bool) {q : Nat} (hq : q < 2 ^ F.fracBits) :
    F.unpack (F.pattern s 0 q) = .fin s q F.ulpExp := by
  have he : 0 < 2 ^ F.expBits := by positivity
  have hm : ¬ 0 = F.expMax := by have := hF.expMax; omega
  rw [FpFormat.unpack, FpFormat.expOf_pattern s he hq, FpFormat.fracOf_pattern s hq, FpFormat.signOf_pattern s he hq]
  simp [hm]

theorem FpFormat.unpack_normal {F : FpFormat} (s : Bool) {ef fr : Nat} (h1 : 1 ≤ ef) (h2 : ef < F.expMax)
    (hfr : fr < 2 ^ F.fracBits) (hF : F.Regular) :
    F.unpack (F.pattern s ef fr) = .fin s (2 ^ F.fracBits + fr) (F.ulpExp + (ef - 1 : Nat)) := by
  have he : ef < 2 ^ F.expBits := by have := hF.exp; omega
  rw [FpFormat.unpack, FpFormat.expOf_pattern s he hfr, FpFormat.fracOf_pattern s hfr, FpFormat.signOf_pattern s he hfr]
  simp [show ¬ ef = F.expMax by omega, show ¬ ef = 0 by omega]

/-! Rounding to a format (46_float_single.md R244 to R246). -/

theorem LastPlace.unique {F : FpFormat} {v : ℝ} {k k' : Int} (h : LastPlace F v k) (h' : LastPlace F v k') : k = k' := by
  have no : ∀ a b : Int, LastPlace F v a → LastPlace F v b → ¬ a < b := by
    intro a b ha hb hl
    have hP : (0 : ℝ) < 2 ^ F.fracBits := by positivity
    have h1 : (2 : ℝ) ^ (a + 1) ≤ 2 ^ b := zpow_le_zpow_right₀ (by norm_num) (by omega)
    have h2 : (2 : ℝ) ^ (F.fracBits + 1) * 2 ^ a = 2 ^ F.fracBits * 2 ^ (a + 1) := by
      rw [zpow_add₀ (by norm_num), pow_succ, zpow_one]; ring
    have h3 := ha.2
    rw [h2] at h3
    have h4 := mul_le_mul_of_nonneg_left h1 hP.le
    linarith [hb.1]
  rcases lt_trichotomy k k' with hl | he | hl
  · exact absurd hl (no k k' h h')
  · exact he
  · exact absurd hl (no k' k h' h)

section Rounding

variable {F : FpFormat} {m : Nat} {e : Int} {st : Bool} {x : ℝ}

theorem Within.nonneg (h : Within m e st x) : 0 ≤ x := by
  have he : (0 : ℝ) < 2 ^ e := by positivity
  have hm : (0 : ℝ) ≤ m := Nat.cast_nonneg m
  cases st
  · simp only [Within, Bool.false_eq_true, if_false] at h; rw [h]; positivity
  · simp only [Within, if_true] at h
    have : 0 ≤ (m : ℝ) * 2 ^ e := by positivity
    linarith [h.1]

theorem Within.lastPlace (F : FpFormat) (sign : Bool) (hm : 0 < m) (h : Within m e st x) :
    LastPlace F (signedReal sign x) (e + bitLength m - (F.fracBits + 1)) := by
  obtain ⟨l1, l2, l3⟩ := bitLength_spec hm
  have he : (0 : ℝ) < 2 ^ e := by positivity
  have b1 : (m : ℝ) * 2 ^ e ≤ x ∧ x < ((m : ℝ) + 1) * 2 ^ e := by
    cases st
    · simp only [Within, Bool.false_eq_true, if_false] at h
      rw [h]; exact ⟨le_refl _, by nlinarith⟩
    · simp only [Within, if_true] at h
      exact ⟨h.1.le, h.2⟩
  rw [LastPlace, abs_signedReal sign h.nonneg]
  constructor
  · have : (2 : ℝ) ^ F.fracBits * 2 ^ (e + bitLength m - (F.fracBits + 1)) = 2 ^ (bitLength m - 1) * 2 ^ e := by
      rw [← zpow_natCast, ← zpow_natCast, ← zpow_add₀ (by norm_num), ← zpow_add₀ (by norm_num)]
      congr 1; omega
    rw [this]
    have : ((2 ^ (bitLength m - 1) : Nat) : ℝ) ≤ m := by exact_mod_cast l1
    push_cast at this
    exact le_trans (mul_le_mul_of_nonneg_right this he.le) b1.1
  · have : (2 : ℝ) ^ (F.fracBits + 1) * 2 ^ (e + bitLength m - (F.fracBits + 1)) = 2 ^ bitLength m * 2 ^ e := by
      rw [← zpow_natCast, ← zpow_natCast, ← zpow_add₀ (by norm_num), ← zpow_add₀ (by norm_num)]
      congr 1; push_cast; omega
    rw [this]
    have : ((m + 1 : Nat) : ℝ) ≤ ((2 ^ bitLength m : Nat) : ℝ) := by exact_mod_cast l2
    push_cast at this
    exact lt_of_lt_of_le b1.2 (mul_le_mul_of_nonneg_right this he.le)

/-- The rounded multiple is within one of the scaled magnitude. -/
theorem roundAt_near (mode : RoundMode) (sign : Bool) {ue : Int} (h : Within m e st x) (hs : st = true → e < ue) :
    ((roundAt mode sign m e ue st).1 : ℝ) < x / 2 ^ ue + 1 ∧ x / 2 ^ ue - 1 < ((roundAt mode sign m e ue st).1 : ℝ) := by
  have r := RoundsTo.abs_sub_lt (roundAt_spec mode sign h hs).1
  rw [signedMag_cast, ← signedReal_div] at r
  have : |signedReal sign ((roundAt mode sign m e ue st).1 : ℝ) - signedReal sign (x / 2 ^ ue)| =
      |((roundAt mode sign m e ue st).1 : ℝ) - x / 2 ^ ue| := by
    cases sign
    · simp [signedReal]
    · simp only [signedReal, if_true]; rw [← abs_neg]; congr 1; ring
  rw [this, abs_lt] at r
  constructor <;> linarith [r.1, r.2]

theorem tiny_iff (mode : RoundMode) (sign : Bool) (hm : 0 < m) (h : Within m e st x)
    (hs : st = true → F.fracBits + 1 < bitLength m) :
    F.tiny mode sign m e st = true ↔ TinyAfterRounding F mode (signedReal sign x) := by
  have hl := h.lastPlace F sign hm
  have hse : st = true → e < e + bitLength m - (F.fracBits + 1) := fun hst => by have := hs hst; omega
  have hr := (roundAt_spec mode sign h hse).1
  have hn := roundAt_near mode sign h hse
  have ht : F.tiny mode sign m e st = true ↔ e + bitLength m - (F.fracBits + 1) < F.minExp ∧
      (roundAt mode sign m e (e + bitLength m - (F.fracBits + 1)) st).1 <
        2 ^ (F.minExp - (e + bitLength m - (F.fracBits + 1))).toNat := by
    rw [FpFormat.tiny, Bool.and_eq_true, decide_eq_true_eq, decide_eq_true_eq]; rfl
  rw [ht]
  clear ht
  clear hse
  generalize hk : e + (bitLength m : Int) - (F.fracBits + 1) = k at hl hr hn ⊢
  generalize hq : (roundAt mode sign m e k st).1 = q at hr hn ⊢
  have h2 : (0 : ℝ) < 2 ^ k := by positivity
  have hlow : k < F.minExp ∨ ¬ k < F.minExp := by omega
  have small : |((signedMag sign q : Int) : ℝ) * 2 ^ k| = q * 2 ^ k := by
    rw [abs_mul, abs_signedMag, abs_of_pos h2]
  have cmp : (k < F.minExp ∧ q < 2 ^ (F.minExp - k).toNat) ↔ (q : ℝ) * 2 ^ k < 2 ^ F.minExp := by
    rcases hlow with hlt | hge
    · have hp : (2 : ℝ) ^ F.minExp = 2 ^ (F.minExp - k).toNat * 2 ^ k := by
        rw [← zpow_natCast, ← zpow_add₀ (by norm_num)]; congr 1; omega
      rw [hp, mul_lt_mul_iff_left₀ h2]
      constructor
      · intro hh; exact_mod_cast hh.2
      · intro hh; exact ⟨hlt, by exact_mod_cast hh⟩
    · constructor
      · intro hh; exact absurd hh.1 hge
      · intro hh
        exfalso
        have h1 : (2 : ℝ) ^ F.minExp ≤ 2 ^ k := zpow_le_zpow_right₀ (by norm_num) (by omega)
        have hx1 := hl.1
        rw [abs_signedReal sign h.nonneg] at hx1
        have hq1 : (1 : ℝ) ≤ x / 2 ^ k := by
          rw [le_div_iff₀ h2]
          have : (1 : ℝ) ≤ 2 ^ F.fracBits := one_le_pow₀ (by norm_num)
          nlinarith
        have : (0 : ℝ) < q := by linarith [hn.2]
        have : 1 ≤ q := by
          have : 0 < q := by exact_mod_cast this
          omega
        have : (1 : ℝ) ≤ q := by exact_mod_cast this
        nlinarith
  rw [cmp]
  constructor
  · intro hh
    exact ⟨k, signedMag sign q, hl, hr, by rw [small]; exact hh⟩
  · rintro ⟨k', n', hl', hr', hn'⟩
    have hkk := LastPlace.unique hl hl'
    subst hkk
    have hnn := RoundsTo.unique hr hr'
    subst hnn
    rw [small] at hn'
    exact hn'

/-- The bits delivered on overflow are those of R246 (46_float_single.md). -/
theorem FpFormat.overflowBits_eq (mode : RoundMode) (sign : Bool) : F.overflowBits mode sign = overflowResult F mode sign := by
  cases mode <;> cases sign <;> rfl

/-- `round` delivers the magnitude x of the sign, correctly rounded, with its flags (46_float_single.md R244 to R246, R250). A
sticky magnitude has more bits than the format keeps. -/
theorem FpFormat.round_correct (hF : F.Regular) (mode : RoundMode) (sign : Bool) (hm : 0 < m) (hx0 : 0 < x)
    (h : Within m e st x) (hs : st = true → F.fracBits + 1 < bitLength m) :
    CorrectlyRounded F mode (signedReal sign x) (F.round mode sign m e st) := by
  have hl := h.lastPlace F sign hm
  have ht := tiny_iff (F := F) mode sign hm h hs
  have hsign : (signedReal sign x < 0) ↔ sign = true := by
    cases sign
    · simp [signedReal]; linarith
    · simp [signedReal]; linarith
  have hdec : decide (signedReal sign x < 0) = sign := by
    cases sign <;> simp_all
  generalize hk : e + (bitLength m : Int) - (F.fracBits + 1) = k0 at hl
  have hue : st = true → e < max k0 F.ulpExp := fun hst => by have := hs hst; omega
  obtain ⟨hr, hex⟩ := roundAt_spec mode sign h hue
  obtain ⟨hn1, hn2⟩ := roundAt_near mode sign h hue
  generalize hu : max k0 F.ulpExp = ue at hr hex hn1 hn2
  have h2 : (0 : ℝ) < 2 ^ ue := by positivity
  have hround : F.round mode sign m e st = 
      (let r := roundAt mode sign m e ue st
       let carry := decide (2 ^ (F.fracBits + 1) ≤ r.1)
       let q := if carry then r.1 / 2 else r.1
       let ue' := if carry then ue + 1 else ue
       let expField := (ue' - F.ulpExp).toNat + 1
       if q < 2 ^ F.fracBits then
         ⟨F.pattern sign 0 q, flagIf r.2 flagNX ||| flagIf (r.2 && F.tiny mode sign m e st) flagUF⟩
       else if F.expMax ≤ expField then ⟨F.overflowBits mode sign, flagOF ||| flagNX⟩
       else ⟨F.pattern sign expField (q - 2 ^ F.fracBits),
         flagIf r.2 flagNX ||| flagIf (r.2 && F.tiny mode sign m e st) flagUF⟩) := by
    subst hu hk; rfl
  rw [hround]
  clear hround
  generalize hrr : roundAt mode sign m e ue st = r at hr hex hn1 hn2
  obtain ⟨q0, ix⟩ := r
  simp only at hr hex hn1 hn2 ⊢
  -- the size of the scaled magnitude
  have habs := abs_signedReal sign h.nonneg
  have hplace : LastPlace F (signedReal sign x) ue ∧ F.ulpExp ≤ ue ∨
      ue = F.ulpExp ∧ |signedReal sign x| < 2 ^ F.fracBits * (2 : ℝ) ^ ue := by
    rcases le_or_gt F.ulpExp k0 with hge | hlt
    · left
      have : ue = k0 := by omega
      rw [this]; exact ⟨hl, hge⟩
    · right
      have e1 : ue = F.ulpExp := by omega
      refine ⟨e1, ?_⟩
      have h3 : (2 : ℝ) ^ (F.fracBits + 1) * 2 ^ k0 ≤ 2 ^ F.fracBits * 2 ^ ue := by
        have : (2 : ℝ) ^ (F.fracBits + 1) * 2 ^ k0 = 2 ^ F.fracBits * 2 ^ (k0 + 1) := by
          rw [zpow_add₀ (by norm_num), pow_succ, zpow_one]; ring
        rw [this]
        exact mul_le_mul_of_nonneg_left (zpow_le_zpow_right₀ (by norm_num) (by omega)) (by positivity)
      exact lt_of_lt_of_le hl.2 h3
  have hupper : x / 2 ^ ue < 2 ^ (F.fracBits + 1) := by
    rw [div_lt_iff₀ h2]
    rcases hplace with hp | hp
    · have := hp.1.2; rwa [habs] at this
    · have := hp.2; rw [habs] at this
      have h4 : (2 : ℝ) ^ F.fracBits * 2 ^ ue ≤ 2 ^ (F.fracBits + 1) * 2 ^ ue :=
        mul_le_mul_of_nonneg_right (pow_le_pow_right₀ (by norm_num) (by omega)) h2.le
      linarith
  have hq0 : q0 ≤ 2 ^ (F.fracBits + 1) := by
    have : (q0 : ℝ) < 2 ^ (F.fracBits + 1) + 1 := by linarith
    have : q0 < 2 ^ (F.fracBits + 1) + 1 := by exact_mod_cast this
    omega
  have hpow2 : 2 ^ (F.fracBits + 1) = 2 * 2 ^ F.fracBits := by rw [pow_succ]; ring
  have habsq : |((signedMag sign q0 : Int) : ℝ) * 2 ^ ue| = q0 * 2 ^ ue := by
    rw [abs_mul, abs_signedMag, abs_of_pos h2]
  have hvalue : ((signedMag sign q0 : Int) : ℝ) * 2 ^ ue = signedReal sign (q0 * 2 ^ ue) := by
    rw [signedMag_cast]; cases sign <;> simp [signedReal]
  have heq : ((signedMag sign q0 : Int) : ℝ) * 2 ^ ue = signedReal sign x ↔ ix = false := by
    rw [hvalue, hex]
    cases sign <;> simp [signedReal]
  -- flags of a delivered result
  have flags : ∀ fl, fl = flagIf ix flagNX ||| flagIf (ix && F.tiny mode sign m e st) flagUF →
      (((signedMag sign q0 : Int) : ℝ) * 2 ^ ue = signedReal sign x → fl = 0) ∧
      (((signedMag sign q0 : Int) : ℝ) * 2 ^ ue ≠ signedReal sign x → TinyAfterRounding F mode (signedReal sign x) →
        fl = flagUF ||| flagNX) ∧
      (((signedMag sign q0 : Int) : ℝ) * 2 ^ ue ≠ signedReal sign x → ¬ TinyAfterRounding F mode (signedReal sign x) →
        fl = flagNX) := by
    intro fl hfl
    rw [← ht, Ne, heq]
    subst hfl
    cases ix <;> cases F.tiny mode sign m e st <;> simp [flagIf]
  -- a value below the overflow threshold
  have hulp : F.ulpExp = 1 - (F.bias : Int) - F.fracBits := rfl
  have lowbound : F.ulpExp ≤ ue := by omega
  refine ⟨ue, signedMag sign q0, hplace, hr, ?_⟩
  rw [habsq, hdec]
  by_cases hc : 2 ^ (F.fracBits + 1) ≤ q0
  · -- a carry
    have hq : q0 = 2 ^ (F.fracBits + 1) := by omega
    have hhalf : q0 / 2 = 2 ^ F.fracBits := by omega
    simp only [hc, decide_true, if_true, hhalf, lt_irrefl, if_false, Nat.sub_self]
    have hval : (q0 : ℝ) * 2 ^ ue = 2 ^ F.fracBits * 2 ^ (ue + 1) := by
      rw [hq]; push_cast; rw [zpow_add₀ (by norm_num), pow_succ, zpow_one]; ring
    have hval2 : (q0 : ℝ) * 2 ^ ue = 2 ^ ((F.fracBits : Int) + (ue + 1)) := by
      rw [hval, zpow_add₀ (two_ne_zero (α := ℝ)) (F.fracBits : Int) (ue + 1), zpow_natCast]
    have hover : F.expMax ≤ (ue + 1 - F.ulpExp).toNat + 1 ↔ (2 : ℝ) ^ (F.bias + 1) ≤ q0 * 2 ^ ue := by
      rw [hval2, ← zpow_natCast, zpow_le_zpow_iff_right₀ (by norm_num)]
      have := hF.expMax
      push_cast
      omega
    by_cases ho : F.expMax ≤ (ue + 1 - F.ulpExp).toNat + 1
    · rw [if_pos ho, if_pos (hover.1 ho)]
      exact ⟨F.overflowBits_eq mode sign, rfl⟩
    · rw [if_neg ho, if_neg (fun hh => ho (hover.2 hh))]
      have hef : (ue + 1 - F.ulpExp).toNat + 1 < F.expMax := by omega
      have hfr : 0 < 2 ^ F.fracBits := by positivity
      have hun := FpFormat.unpack_normal sign (by omega) hef hfr hF
      refine ⟨by rw [hun]; rfl, ?_, ?_, flags _ rfl⟩
      · rw [hun, hvalue, hval, FpVal.rat]
        have : F.ulpExp + (((ue + 1 - F.ulpExp).toNat + 1 - 1 : Nat) : Int) = ue + 1 := by omega
        rw [this]
        cases sign <;> simp [signedReal]
      · exact FpFormat.signOf_pattern sign (by have := hF.exp; omega) hfr
  · simp only [hc, decide_false, Bool.false_eq_true, if_false]
    by_cases hsub : q0 < 2 ^ F.fracBits
    · -- subnormal or zero
      rw [if_pos hsub]
      have hue' : ue = F.ulpExp := by
        rcases hplace with hp | hp
        · exfalso
          have h5 := hp.1.1
          rw [habs] at h5
          have : (2 : ℝ) ^ F.fracBits ≤ x / 2 ^ ue := by rw [le_div_iff₀ h2]; exact h5
          have : (2 : ℝ) ^ F.fracBits < q0 + 1 := by linarith
          have : 2 ^ F.fracBits < q0 + 1 := by exact_mod_cast this
          omega
        · exact hp.1
      have hno : ¬ (2 : ℝ) ^ (F.bias + 1) ≤ q0 * 2 ^ ue := by
        have h6 : (q0 : ℝ) < 2 ^ F.fracBits := by exact_mod_cast hsub
        have h7 : (q0 : ℝ) * 2 ^ ue < 2 ^ F.fracBits * 2 ^ ue := mul_lt_mul_of_pos_right h6 h2
        have h8 : (2 : ℝ) ^ F.fracBits * 2 ^ ue ≤ 2 ^ (F.bias + 1) := by
          rw [← zpow_natCast, ← zpow_natCast, ← zpow_add₀ (by norm_num)]
          apply zpow_le_zpow_right₀ (by norm_num)
          push_cast; omega
        linarith
      rw [if_neg hno]
      have hun := FpFormat.unpack_subnormal hF sign hsub
      refine ⟨by rw [hun]; rfl, ?_, ?_, flags _ rfl⟩
      · rw [hun, hvalue, hue', FpVal.rat]
        cases sign <;> simp [signedReal]
      · exact FpFormat.signOf_pattern sign (by positivity) hsub
    · -- normal
      rw [if_neg hsub]
      have hover : F.expMax ≤ (ue - F.ulpExp).toNat + 1 ↔ (2 : ℝ) ^ (F.bias + 1) ≤ q0 * 2 ^ ue := by
        have hq1 : (2 : ℝ) ^ F.fracBits ≤ q0 := by exact_mod_cast Nat.le_of_not_lt hsub
        have hq2 : (q0 : ℝ) < 2 ^ (F.fracBits + 1) := by exact_mod_cast Nat.lt_of_not_le hc
        have hem := hF.expMax
        constructor
        · intro ho
          have h8 : (2 : ℝ) ^ (F.bias + 1) ≤ 2 ^ F.fracBits * 2 ^ ue := by
            rw [← zpow_natCast, ← zpow_natCast, ← zpow_add₀ (by norm_num)]
            apply zpow_le_zpow_right₀ (by norm_num)
            push_cast; omega
          exact le_trans h8 (mul_le_mul_of_nonneg_right hq1 h2.le)
        · intro ho
          by_contra hno
          have h8 : (2 : ℝ) ^ (F.fracBits + 1) * 2 ^ ue ≤ 2 ^ (F.bias + 1) := by
            rw [← zpow_natCast, ← zpow_natCast, ← zpow_add₀ (by norm_num)]
            apply zpow_le_zpow_right₀ (by norm_num)
            push_cast; omega
          have := mul_lt_mul_of_pos_right hq2 h2
          linarith
      by_cases ho : F.expMax ≤ (ue - F.ulpExp).toNat + 1
      · rw [if_pos ho, if_pos (hover.1 ho)]
        exact ⟨F.overflowBits_eq mode sign, rfl⟩
      · rw [if_neg ho, if_neg (fun hh => ho (hover.2 hh))]
        have hef : (ue - F.ulpExp).toNat + 1 < F.expMax := by omega
        have hfr : q0 - 2 ^ F.fracBits < 2 ^ F.fracBits := by omega
        have hun := FpFormat.unpack_normal sign (by omega) hef hfr hF
        refine ⟨by rw [hun]; rfl, ?_, ?_, flags _ rfl⟩
        · rw [hun, hvalue, FpVal.rat]
          have : F.ulpExp + (((ue - F.ulpExp).toNat + 1 - 1 : Nat) : Int) = ue := by omega
          rw [this, show 2 ^ F.fracBits + (q0 - 2 ^ F.fracBits) = q0 by omega]
          cases sign <;> simp [signedReal]
        · exact FpFormat.signOf_pattern sign (by have := hF.exp; omega) hfr

end Rounding

/-! The exact results the operations round. -/

theorem isqrtFrom_spec (n : Nat) (k : Nat) (r : Nat) (h1 : r * r ≤ n) (h2 : n < (r + 2 ^ k) * (r + 2 ^ k)) :
    isqrtFrom n k r * isqrtFrom n k r ≤ n ∧ n < (isqrtFrom n k r + 1) * (isqrtFrom n k r + 1) := by
  induction k generalizing r with
  | zero => exact ⟨h1, by simpa [isqrtFrom] using h2⟩
  | succ k ih =>
    rw [isqrtFrom]
    split
    · rename_i h
      exact ih _ h (by rw [pow_succ] at h2; convert h2 using 2 <;> ring)
    · rename_i h
      exact ih _ h1 (by omega)

/-- The square root rounded down (46_float_single.md R253). -/
theorem isqrt_spec (n : Nat) : isqrt n * isqrt n ≤ n ∧ n < (isqrt n + 1) * (isqrt n + 1) := by
  refine isqrtFrom_spec n _ 0 (by simp) ?_
  have hb : n < 2 ^ bitLength n := by
    rcases Nat.eq_zero_or_pos n with h | h
    · subst h; positivity
    · exact (bitLength_spec h).2.1
  refine lt_of_lt_of_le hb ?_
  rw [Nat.zero_add, ← pow_add]
  exact Nat.pow_le_pow_right (by norm_num) (by omega)

/-! Finite values as numbers (46_float_single.md R240). -/

theorem unpack_fin {F : FpFormat} {a : Nat} (h : (F.unpack a).isFinite = true) : 
    ∃ m e, F.unpack a = .fin (F.signOf a) m e := by
  unfold FpFormat.unpack at h ⊢
  split
  · split at h <;> split at h <;> simp_all [FpVal.isFinite]
  · split
    · exact ⟨_, _, rfl⟩
    · exact ⟨_, _, rfl⟩

theorem rat_cast (s : Bool) (m : Nat) (e : Int) : (((FpVal.fin s m e).rat : ℚ) : ℝ) = signedReal s (m * 2 ^ e) := by
  cases s <;> simp [FpVal.rat, signedReal]

theorem rat_zero (s : Bool) (m : Nat) (e : Int) : (FpVal.fin s m e).rat = 0 ↔ m = 0 := by
  have h : (2 : ℚ) ^ e ≠ 0 := zpow_ne_zero _ (by norm_num)
  cases s <;> simp [FpVal.rat, h]

theorem within_exact (m : Nat) (e : Int) : Within m e false (m * 2 ^ e) := by simp [Within]

/-- The exact sum of two finite terms, rounded once; the sign of an exact zero (46_float_single.md R244, R251). -/
theorem roundSum_spec {F : FpFormat} (hF : F.Regular) (mode s1 m1 e1 s2 m2 e2) :
    let v := (FpVal.fin s1 m1 e1).rat + (FpVal.fin s2 m2 e2).rat
    (v ≠ 0 → CorrectlyRounded F mode (v : ℝ) (F.roundSum mode s1 m1 e1 s2 m2 e2)) ∧
    (v = 0 → F.roundSum mode s1 m1 e1 s2 m2 e2 = ⟨F.zero (if m1 = 0 ∧ s1 = s2 then s1 else decide (mode = .rdn)), 0⟩) := by
  intro v
  set e := min e1 e2 with he
  set w := signedMag s1 (m1 * 2 ^ (e1 - e).toNat) + signedMag s2 (m2 * 2 ^ (e2 - e).toNat) with hw
  have hv : (v : ℝ) = w * 2 ^ e := by
    have key : ∀ s m (f : Int), e ≤ f →
        (((FpVal.fin s m f).rat : ℚ) : ℝ) = ((signedMag s (m * 2 ^ (f - e).toNat) : Int) : ℝ) * 2 ^ e := by
      intro s m f hf
      rw [rat_cast, signedMag_cast]
      have : (2 : ℝ) ^ f = 2 ^ (f - e).toNat * 2 ^ e := by
        rw [← zpow_natCast, ← zpow_add₀ (by norm_num)]; congr 1; omega
      rw [this]; cases s <;> simp [signedReal] <;> ring
    simp only [v, hw]; push_cast
    rw [key s1 m1 e1 (by omega), key s2 m2 e2 (by omega)]; ring
  have h2 : (0 : ℝ) < 2 ^ e := by positivity
  have hz : v = 0 ↔ w = 0 := by
    rw [← Rat.cast_eq_zero (α := ℝ), hv]
    simp [h2.ne']
  have hr : F.roundSum mode s1 m1 e1 s2 m2 e2 = if w = 0 then
    ⟨F.zero (if m1 = 0 ∧ m2 = 0 ∧ s1 = s2 then s1 else mode.zeroSumSign), 0⟩
  else F.round mode (decide (w < 0)) w.natAbs e false := rfl
  rw [hr]
  constructor
  · intro h
    rw [if_neg (fun hh => h (hz.2 hh))]
    have hw0 : w ≠ 0 := fun hh => h (hz.2 hh)
    have hm : 0 < w.natAbs := by omega
    have := FpFormat.round_correct hF mode (decide (w < 0)) hm (x := w.natAbs * 2 ^ e) (by positivity) (within_exact _ _) (by simp)
    convert this using 1
    rw [hv]
    rcases lt_or_gt_of_ne hw0 with hlt | hgt
    · simp only [hlt, decide_true, signedReal, if_true]
      rw [Nat.cast_natAbs, abs_of_neg hlt]; push_cast; ring
    · simp only [not_lt.2 hgt.le, decide_false, signedReal, Bool.false_eq_true, if_false]
      rw [Nat.cast_natAbs, abs_of_pos hgt]
  · intro h
    rw [if_pos (hz.1 h)]
    have : m1 = 0 → m2 = 0 := by
      intro h1
      have e1 := (rat_zero s1 m1 e1).2 h1
      simp only [v, e1, zero_add] at h
      exact (rat_zero s2 m2 e2).1 h
    congr 2
    have e3 : (m1 = 0 ∧ m2 = 0 ∧ s1 = s2) ↔ (m1 = 0 ∧ s1 = s2) := ⟨fun h => ⟨h.1, h.2.2⟩, fun h => ⟨h.1, this h.1, h.2⟩⟩
    simp only [e3, RoundMode.zeroSumSign]
    rfl

/-- A pattern stands for a NaN, or for an infinity or a finite number of its sign bit. -/
theorem unpack_cases (F : FpFormat) (a : Nat) :
    (∃ g, F.unpack a = .nan g) ∨ F.unpack a = .inf (F.signOf a) ∨ ∃ m e, F.unpack a = .fin (F.signOf a) m e := by
  unfold FpFormat.unpack
  split
  · split
    · exact .inr (.inl rfl)
    · exact .inl ⟨_, rfl⟩
  · split <;> exact .inr (.inr ⟨_, _, rfl⟩)

/-- The comparison of two finite values is that of their numbers (46_float_single.md R255). -/
theorem compareFin_spec (sa : Bool) (ma : Nat) (ea : Int) (sb : Bool) (mb : Nat) (eb : Int) :
    (compareFin sa ma ea sb mb eb = .lt ↔ (FpVal.fin sa ma ea).rat < (FpVal.fin sb mb eb).rat) ∧
    (compareFin sa ma ea sb mb eb = .eq ↔ (FpVal.fin sa ma ea).rat = (FpVal.fin sb mb eb).rat) := by
  have key : ∀ s m (e f : Int), e ≤ f →
      (FpVal.fin s m f).rat = ((signedMag s (m * 2 ^ (f - e).toNat) : Int) : ℚ) * 2 ^ e := by
    intro s m e f hf
    have : (2 : ℚ) ^ f = 2 ^ (f - e).toNat * 2 ^ e := by
      rw [← zpow_natCast, ← zpow_add₀ (by norm_num)]; congr 1; omega
    rw [FpVal.rat, this]; cases s <;> simp [signedMag] <;> ring
  rw [key sa ma (min ea eb) ea (by omega), key sb mb (min ea eb) eb (by omega)]
  have h2 : (0 : ℚ) < 2 ^ (min ea eb) := by positivity
  unfold compareFin
  rw [mul_lt_mul_iff_left₀ h2, mul_left_inj' h2.ne', compare_lt_iff_lt, compare_eq_iff_eq]
  constructor <;> norm_cast

end Sys2Proof.Machine
end

