-- ==== Sys2Proof/Laws/Step.lean ====
section
/-! SUPPORT. The step where an instruction is attempted, what the fetch reads, and everything a step can do. -/

namespace Sys2Proof.Machine

/-- A running block under an idle host iterates. -/
theorem tick_of_idle {s : State} (h : HostIdle s) (hr : s.ctl = .running) : step s = iterate {s with host := s.host.tail} := by
  rcases h with h | ⟨rest, h⟩
  · simp only [step, transition, h, tick, hr, List.tail_nil]
    congr 1
    cases s; simp_all
  · simp only [step, transition, h, onEvent, tick, hr, List.tail_cons]

/-- Where an instruction is attempted, the step executes at the pc (10_state.md R53). -/
theorem step_attempts {s : State} (h : Attempts s) : step s = executeAtPc (begun s) := by
  rw [tick_of_idle h.idle h.running, iterate]
  have hb := h.budget
  have hp : State.readPc {s with host := s.host.tail} = s.readPc := rfl
  rw [if_neg h.budget, if_neg (by simp [h.cancel]), if_neg]
  · rfl
  · rintro ⟨h1, h2⟩
    have := h.breakpoint h1
    simp_all

/-- The fetch reads the word at a pc in text (10_state.md R54). -/
theorem fetchWord_text {s : State} (hs : segmentsAccepted s.xlen s.cfg.segments = true) (h : InText s) :
    s.fetchWord = some (wordAtPc s) := by
  obtain ⟨g, hg, hk, hh⟩ := h
  have hm : Mapped s.cfg s.readPc.toNat 4 := ⟨g, hg, hh⟩
  obtain ⟨q, hq⟩ := Option.isSome_iff_exists.1 ((segOf_isSome hs _ _).2 hm)
  obtain ⟨h1, h2, h3⟩ := segOf_spec hs (by decide) hq
  have hgq : g = q := h3 g hg ⟨hh.1, by have := hh.2; omega⟩
  subst hgq
  rw [State.fetchWord, hq]
  simp only [hk, if_true]
  congr 1
  apply BitVec.eq_of_toNat_eq
  have b0 := (s.mem.byte s.readPc.toNat).isLt
  have b1 := (s.mem.byte (s.readPc.toNat+1)).isLt
  have b2 := (s.mem.byte (s.readPc.toNat+2)).isLt
  have b3 := (s.mem.byte (s.readPc.toNat+3)).isLt
  rw [BitVec.toNat_setWidth, load_toNat _ _ _ (by decide)]
  simp only [wordAtPc, wordOfBytes, BitVec.toNat_append, leValue]
  rw [← Nat.shiftLeft_add_eq_or_of_lt b2, ← Nat.shiftLeft_add_eq_or_of_lt b1, ← Nat.shiftLeft_add_eq_or_of_lt b0]
  simp only [Nat.shiftLeft_eq, Nat.add_assoc, Nat.reduceAdd] at *
  omega

/-- A pc outside text has no word (10_state.md R54). -/
theorem fetchWord_none {s : State} (hs : segmentsAccepted s.xlen s.cfg.segments = true) (h : ¬ InText s) :
    s.fetchWord = none := by
  rw [State.fetchWord]
  cases hq : segOf s.cfg s.readPc.toNat 4 with
  | none => rfl
  | some g =>
    obtain ⟨h1, h2, h3⟩ := segOf_spec hs (by decide) hq
    simp only
    rw [if_neg]
    intro hk
    exact h ⟨g, h1, hk, h2⟩


set_option Elab.async false in
/-- A row is 64-bit-only exactly where its instruction is listed so (30_encoding.md R106). -/
theorem rv64Only_instr : ∀ r ∈ catalog, ∀ w, (r.instr w).rv64Only = r.rv64 := by
  simp only [catalog, rowsInteger, rowsControl, rowsLoadStore, rowsMulDiv, rowsSystem, rowsFloatSingle, rowsFloatDouble,
    List.cons_append, List.nil_append, List.forall_mem_cons, List.not_mem_nil, false_implies, implies_true, and_true]
  repeat' apply And.intro
  all_goals intro w; rfl

/-- The lookup of a word that decodes (30_encoding.md R104, R106). -/
theorem lookup_of_decode {w : InstrWord} {i : Instr} (h : decode w = some i) (x : XLen) :
    lookup x w = if i.rv64Only = true ∧ x = .x32 then .reserved i else .descriptor i := by
  obtain ⟨r, hr, hi⟩ := Option.map_eq_some_iff.1 h
  subst hi
  rw [rv64Only_instr r (findRow_mem hr).1, lookup, hr]
  simp only [Row.appliesTo]
  by_cases hq : r.rv64 = true <;> cases x <;> simp [hq]

theorem lookup_of_decode_none {w : InstrWord} (h : decode w = none) (x : XLen) : lookup x w = .illegal := by
  have : findRow w = none := by simpa [decode] using h
  rw [lookup, this]

/-- Everything an iteration can do: run an instruction, stop with a reason, or fault in the fetch (10_state.md R53, R54). -/
theorem iterate_cases {s t : State} (h : iterate s = .next t) :
    (∃ i, exec i {s with bpSkip := false} = .next t) ∨ 
    (∃ c b, t = {s with ctl := c, bpSkip := b} ∧ (c = .maxSteps ∨ c = .cancelled ∨ c = .breakpoint ∨ c = .cliff)) ∨
    (∃ r : FaultRecord, r.pc = s.readPc ∧ t = {s with ctl := .faulted, fault := some r, bpSkip := false}) := by
  have hn : ∀ w, noInstruction w {s with bpSkip := false} = .next t → 
    (∃ c b, t = {s with ctl := c, bpSkip := b} ∧ (c = .maxSteps ∨ c = .cancelled ∨ c = .breakpoint ∨ c = .cliff)) ∨
    (∃ r : FaultRecord, r.pc = s.readPc ∧ t = {s with ctl := .faulted, fault := some r, bpSkip := false}) := by
    intro w h
    unfold noInstruction takeFault at h
    split at h <;> cases h
    · exact .inl ⟨.cliff, _, rfl, by simp⟩
    · exact .inr ⟨_, rfl, rfl⟩
  unfold iterate at h
  split at h
  · cases h; exact .inr (.inl ⟨.maxSteps, _, rfl, by simp⟩)
  split at h
  · cases h; exact .inr (.inl ⟨.cancelled, _, rfl, by simp⟩)
  split at h
  · cases h; exact .inr (.inl ⟨.breakpoint, _, rfl, by simp⟩)
  unfold executeAtPc at h
  split at h
  · split at h
    · exact .inr (hn _ h)
    · split at h
      · exact .inl ⟨_, h⟩
      · cases h; exact .inr (.inr ⟨_, rfl, rfl⟩)
      · exact .inr (hn _ h)
  · cases h; exact .inr (.inr ⟨_, rfl, rfl⟩)

/-- Everything a step can do: an iteration, nothing, or a host event (10_state.md R48 to R53; log 5). -/
theorem step_cases {s t : State} (h : step s = .next t) :
    (s.ctl = .running ∧ HostIdle s ∧ iterate {s with host := s.host.tail} = .next t) ∨
    (s.ctl ≠ .running ∧ HostIdle s ∧ t = {s with host := s.host.tail}) ∨
    (∃ l rest, s.host = .driveCancel l :: rest ∧ t = {s with host := rest, cancel := l}) ∨
    (∃ c rest, s.host = .command c :: rest ∧ t = ({s with host := rest} : State).onCommand c) := by
  unfold step transition at h
  split at h
  · next hh =>
    unfold tick at h
    split at h
    · next hc => exact .inl ⟨hc, .inl hh, by convert h using 2; cases s; simp_all⟩
    all_goals next hc => cases h; exact .inr (.inl ⟨by simp [hc], .inl hh, by cases s; simp_all⟩)
  · next e rest hh =>
    unfold onEvent at h
    split at h
    · unfold tick at h
      split at h
      · next hc => exact .inl ⟨hc, .inr ⟨_, hh⟩, by rw [hh]; exact h⟩
      all_goals next hc => cases h; exact .inr (.inl ⟨by rw [show s.ctl = _ from hc]; simp, .inr ⟨_, hh⟩, by rw [hh]; rfl⟩)
    · cases h; exact .inr (.inr (.inl ⟨_, _, hh, rfl⟩))
    · cases h; exact .inr (.inr (.inr ⟨_, _, hh, rfl⟩))

end Sys2Proof.Machine
end

