-- ==== Sys2Proof/Laws/Values.lean ====
section
/-! SUPPORT. The operands as integers: the registers at the active width, the effective address and the targets, and what an
operation at width w gives the destination. -/

namespace Sys2Proof.Machine

variable (s : State)

/-- Reducing to 64 signed bits does not matter modulo 2^XLEN. -/
theorem bmod64_emod (v : Int) (x : XLen) : Int.bmod v (2 ^ 64) % 2 ^ x.bits = v % 2 ^ x.bits := by
  rw [← Int.emod_emod_of_dvd _ (pow_bits_dvd x), show ((2 : Int) ^ 64) = ((2 ^ 64 : Nat) : Int) by norm_cast, Int.bmod_emod,
    show ((2 ^ 64 : Nat) : Int) = ((2 : Int) ^ 64) by norm_cast, Int.emod_emod_of_dvd _ (pow_bits_dvd x)]

/-- A bit vector's two readings agree modulo its size. -/
theorem toNat_emod_toInt {w : Nat} (b : BitVec w) : (b.toNat : Int) = b.toInt % 2 ^ w := by
  rw [BitVec.toInt_eq_toNat_bmod, show ((2 : Int) ^ w) = ((2 ^ w : Nat) : Int) by norm_cast, Int.bmod_emod]
  exact (Int.emod_eq_of_lt (Int.natCast_nonneg _) (by exact_mod_cast b.isLt)).symm

/-- A sign extension, modulo 2^XLEN, is the signed value. -/
theorem signExtend_emod {n : Nat} (v : BitVec n) (hn : n ≤ 64) (x : XLen) :
    (((v.signExtend 64).toNat : Int)) % 2 ^ x.bits = v.toInt % 2 ^ x.bits := by
  rw [← BitVec.toInt_signExtend_of_le hn, toNat_emod_toInt, Int.emod_emod_of_dvd _ (pow_bits_dvd x)]

theorem sext_val {n : Nat} (v : BitVec n) (hn : n ≤ 64) : ((s.xlen.sext v).toNat : Int) = wrap s v.toInt := by
  rw [XLen.sext, toNat_trunc_int, signExtend_emod v hn]; rfl

/-- A control-transfer target or `auipc` sum as an integer (42_control.md R171). -/
theorem pcPlus_val {n : Nat} (off : BitVec n) (hn : n ≤ 64) :
    ((s.pcPlus off).toNat : Int) = wrap s (pcval s + off.toInt) := by
  unfold State.pcPlus wrap
  rw [toNat_trunc_int, add_toNat_emod, Int.emod_emod_of_dvd _ (pow_bits_dvd _), sext_val s off hn]
  simp [wrap, pcval]

/-- The effective address as an integer (43_loadstore.md R185). -/
theorem ea_val (r : XReg) (imm : BitVec 12) : ((s.ea r imm).toNat : Int) = wrap s (uval s r + imm.toInt) := by
  unfold State.ea wrap State.imm12
  rw [toNat_trunc_int, add_toNat_emod, Int.emod_emod_of_dvd _ (pow_bits_dvd _), sext_val s imm (by decide)]
  simp [wrap, uval]

theorem wrap_of_toNat {p : Word} {v : Int} (h : (p.toNat : Int) = wrap s v) : wrap s p.toNat = wrap s v := by
  rw [h, wrap_wrap]

theorem aligned4_of_val {p : Word} {v : Int} (h : (p.toNat : Int) = v) : aligned4 p = decide (v % 4 = 0) := by
  rw [Bool.eq_iff_iff, aligned4_iff, decide_eq_true_eq]; omega

/-- Clearing bit 0 (42_control.md R174). -/
theorem and_not_one (v : Word) : (v &&& ~~~(1#64)).toNat = v.toNat / 2 * 2 := by
  have h : v &&& ~~~(1#64) = (v >>> 1) <<< 1 := by
    ext i hi
    rcases i with _ | i
    · simp
    · rw [BitVec.getElem_and, BitVec.getElem_not, BitVec.getElem_one]
      simp [show 1 + i = i + 1 by omega, BitVec.getLsbD_eq_getElem hi]
  rw [h, BitVec.toNat_shiftLeft, BitVec.toNat_ushiftRight, Nat.shiftLeft_eq, Nat.shiftRight_eq_div_pow]
  have := v.isLt
  omega

/-- A register at the active width, unsigned. -/
theorem readX_unsigned (r : XReg) {w : Nat} (hw : w = s.xlen.bits) : (((s.readX r).setWidth w).toNat : Int) = uval s r := by
  subst hw
  have := uval_lt s r
  unfold uval at *
  rw [BitVec.toNat_setWidth]
  push_cast
  exact Int.emod_eq_of_lt (by positivity) this

/-- A register at the active width, signed. -/
theorem readX_signed (r : XReg) {w : Nat} (hw : w = s.xlen.bits) : ((s.readX r).setWidth w).toInt = sval s r := by
  have h := readX_unsigned s r hw
  subst hw
  rw [BitVec.toInt_eq_toNat_bmod, h, sval]

theorem signed_readX (r : XReg) : s.xlen.signed (s.readX r) = sval s r := by
  rw [sval, uval]
  have := uval_lt s r
  cases hx : s.xlen <;> rw [hx] at this
  · rw [XLen.signed, BitVec.toInt_eq_toNat_bmod, BitVec.toNat_setWidth, Nat.mod_eq_of_lt (by rw [uval] at this; exact_mod_cast this)]
  · rw [XLen.signed, BitVec.toInt_eq_toNat_bmod]

/-- The low 32 bits of a register, unsigned and signed. -/
theorem readX_unsigned32 (r : XReg) : (((s.readX r).setWidth 32).toNat : Int) = uval32 s r := by
  rw [BitVec.toNat_setWidth]; rfl

theorem readX_signed32 (r : XReg) : ((s.readX r).setWidth 32).toInt = sval32 s r := by
  rw [BitVec.toInt_eq_toNat_bmod, readX_unsigned32, uval32, sval32]
  exact Int.emod_bmod _ (2 ^ 32)

/-- An operation at the active width: its integer value modulo 2^XLEN is the result (41_integer.md R130). -/
theorem lift2_result (op : (w : Nat) → BitVec w → BitVec w → BitVec w) (a b : Word) (rd : XReg) (v : Int)
    (h : ∀ w, w = s.xlen.bits → ((op w (a.setWidth w) (b.setWidth w)).toNat : Int) = v % 2 ^ w) :
    ∃ t, retireX rd (s.xlen.lift2 op a b) s = .next t ∧ XResult s t rd v 0 := by
  obtain ⟨t, h1, h2⟩ := retireX_spec' s rd (s.xlen.lift2 op a b)
  refine ⟨t, h1, XResult.of_wrap h2 ?_⟩
  have h3 := h _ rfl
  unfold wrap
  cases hx : s.xlen
  · rw [hx] at h3
    simp only [XLen.lift2, XLen.bits] at *
    rw [BitVec.toNat_setWidth,
      Nat.mod_eq_of_lt (by have := (op 32 (BitVec.setWidth 32 a) (BitVec.setWidth 32 b)).isLt; omega), h3]
    simp
  · rw [hx] at h3
    simp only [XLen.lift2, XLen.bits, BitVec.setWidth_eq] at *
    rw [h3]; simp

/-- A word operation: its signed value is the result (41_integer.md R131). -/
theorem liftW_result (op : (w : Nat) → BitVec w → BitVec w → BitVec w) (a b : Word) (rd : XReg) (v : Int)
    (h : (op 32 (a.setWidth 32) (b.setWidth 32)).toInt = v) :
    ∃ t, retireX rd (s.xlen.liftW op a b) s = .next t ∧ XResult s t rd v 0 := by
  obtain ⟨t, h1, h2⟩ := retireX_spec' s rd (s.xlen.liftW op a b)
  refine ⟨t, h1, XResult.of_wrap h2 ?_⟩
  rw [XLen.liftW, sext_val s _ (by decide), wrap_wrap, h]

end Sys2Proof.Machine
end

