-- ==== Sys2Proof/Tests/Slice0.lean ====
section
/-! SUPPORT. Tests: ill-formed terms, decoding, one step of each instruction on the vectors of 95_test_vectors.md, faults and the
control states, and for each obligation with hypotheses a theorem `witness_…` that meets them, clause by clause. -/

set_option Elab.async false

namespace Sys2Proof.Tests

open Machine

/-! Small states. -/

/-- The state after reset with the configuration EX at a width, registers 0. -/
def idle (x : XLen) : State := State.ofConfig { Config.initial with xlen := x, xInit := Vector.replicate 32 0 }

/-- The same, running. -/
def running (x : XLen) : State := { idle x with ctl := .running }

/-- s with a word at its pc. -/
def placed (s : State) (w : InstrWord) : State := { s with mem := s.mem.store s.readPc.toNat (w.setWidth 64) 4 }

/-- Registers, bytes and the latch set. -/
def setup (x : XLen) (xs fs : List (Nat × BitVec 64)) (mem : List Host.Cell) (fl : BitVec 5) (rm : BitVec 3) : State :=
  let s := xs.foldl (fun s p => s.writeX (.ofNat 5 p.1) p.2) { running x with fflags := fl, frm := rm }
  let s := fs.foldl (fun s p => s.writeF (.ofNat 5 p.1) p.2) s
  mem.foldl (fun s p => { s with mem := s.mem.write p.1 p.2 }) s

/-- The state an outcome goes on in. -/
def nextOf (s : State) : Result → State
  | .next t => t
  | .fault _ | .refused _ => s

/-- Whether an outcome is a next state. -/
def isNext : Result → Bool
  | .next _ => true
  | .fault _ | .refused _ => false

/-- One step. -/
def after (s : State) : State := nextOf s (step s)

theorem eq_nextOf {s : State} {r : Result} (h : isNext r = true) : r = .next (nextOf s r) := by
  cases r with
  | next t => rfl
  | fault e => cases h
  | refused e => cases h

theorem step_after {s : State} (h : isNext (step s) = true) : step s = .next (after s) := eq_nextOf h

/-- The state after the word w, run as the next instruction of such a state. -/
def ran (x : XLen) (w : Nat) (xs fs : List (Nat × BitVec 64)) (mem : List Host.Cell) (fl : BitVec 5) (rm : BitVec 3) : State :=
  after ((setup x xs fs mem fl rm).withFetchWord 32 w)

/-! Ill-formed terms (30_encoding.md R110, R112, R113). -/

theorem test_ill_formed_jal : (Instr.jal 1 3).wellFormed = false := by decide
theorem test_ill_formed_beq : (Instr.beq 1 2 5).wellFormed = false := by decide
theorem test_ill_formed_bne : (Instr.bne 1 2 5).wellFormed = false := by decide
theorem test_ill_formed_blt : (Instr.blt 1 2 5).wellFormed = false := by decide
theorem test_ill_formed_bge : (Instr.bge 1 2 5).wellFormed = false := by decide
theorem test_ill_formed_bltu : (Instr.bltu 1 2 5).wellFormed = false := by decide
theorem test_ill_formed_bgeu : (Instr.bgeu 1 2 5).wellFormed = false := by decide
theorem test_ill_formed_slli : (Instr.slli 1 2 32).wellFormed = false := by decide
theorem test_ill_formed_srli : (Instr.srli 1 2 32).wellFormed = false := by decide
theorem test_ill_formed_srai : (Instr.srai 1 2 32).wellFormed = false := by decide
theorem test_ill_formed_slliHi : (Instr.slliHi 1 2 31).wellFormed = false := by decide
theorem test_ill_formed_srliHi : (Instr.srliHi 1 2 31).wellFormed = false := by decide
theorem test_ill_formed_sraiHi : (Instr.sraiHi 1 2 31).wellFormed = false := by decide

/-! Decoding: one word per instruction, written out from its row of the encoding tables (30_encoding.md R108 to R121). -/

theorem test_decode_integer_1 :
    decode 0b10001010110011100001000110110111 = some (.lui 3 0x8ACE1) ∧
    decode 0b10001010110011100001000110010111 = some (.auipc 3 0x8ACE1) ∧
    decode 0b10101011110110001000000110010011 = some (.addi 3 17 (-1347)) ∧
    decode 0b10101011110110001010000110010011 = some (.slti 3 17 (-1347)) ∧
    decode 0b10101011110110001011000110010011 = some (.sltiu 3 17 (-1347)) ∧
    decode 0b10101011110110001100000110010011 = some (.xori 3 17 (-1347)) ∧
    decode 0b10101011110110001110000110010011 = some (.ori 3 17 (-1347)) ∧
    decode 0b10101011110110001111000110010011 = some (.andi 3 17 (-1347)) ∧
    decode 0b00000001010110001001000110010011 = some (.slli 3 17 21) ∧
    decode 0b00000001010110001101000110010011 = some (.srli 3 17 21) ∧
    decode 0b01000001010110001101000110010011 = some (.srai 3 17 21) ∧
    decode 0b00000011010110001001000110010011 = some (.slliHi 3 17 53) ∧
    decode 0b00000011010110001101000110010011 = some (.srliHi 3 17 53) ∧
    decode 0b01000011010110001101000110010011 = some (.sraiHi 3 17 53) ∧
    decode 0b00000000101010001000000110110011 = some (.add 3 17 10) := by
  decide +kernel

theorem test_decode_integer_2 :
    decode 0b01000000101010001000000110110011 = some (.sub 3 17 10) ∧
    decode 0b00000000101010001001000110110011 = some (.sll 3 17 10) ∧
    decode 0b00000000101010001010000110110011 = some (.slt 3 17 10) ∧
    decode 0b00000000101010001011000110110011 = some (.sltu 3 17 10) ∧
    decode 0b00000000101010001100000110110011 = some (.xor 3 17 10) ∧
    decode 0b00000000101010001101000110110011 = some (.srl 3 17 10) ∧
    decode 0b01000000101010001101000110110011 = some (.sra 3 17 10) ∧
    decode 0b00000000101010001110000110110011 = some (.or 3 17 10) ∧
    decode 0b00000000101010001111000110110011 = some (.and 3 17 10) ∧
    decode 0b10101011110110001000000110011011 = some (.addiw 3 17 (-1347)) ∧
    decode 0b00000001010110001001000110011011 = some (.slliw 3 17 21) ∧
    decode 0b00000001010110001101000110011011 = some (.srliw 3 17 21) ∧
    decode 0b01000001010110001101000110011011 = some (.sraiw 3 17 21) ∧
    decode 0b00000000101010001000000110111011 = some (.addw 3 17 10) ∧
    decode 0b01000000101010001000000110111011 = some (.subw 3 17 10) := by
  decide +kernel

theorem test_decode_integer_3 :
    decode 0b00000000101010001001000110111011 = some (.sllw 3 17 10) ∧
    decode 0b00000000101010001101000110111011 = some (.srlw 3 17 10) ∧
    decode 0b01000000101010001101000110111011 = some (.sraw 3 17 10) := by
  decide +kernel

theorem test_decode_control :
    decode 0b11000001101101010101000111101111 = some (.jal 3 (-697318)) ∧
    decode 0b10101011110110001000000111100111 = some (.jalr 3 17 (-1347)) ∧
    decode 0b11010100101010001000110101100011 = some (.beq 17 10 (-2726)) ∧
    decode 0b11010100101010001001110101100011 = some (.bne 17 10 (-2726)) ∧
    decode 0b11010100101010001100110101100011 = some (.blt 17 10 (-2726)) ∧
    decode 0b11010100101010001101110101100011 = some (.bge 17 10 (-2726)) ∧
    decode 0b11010100101010001110110101100011 = some (.bltu 17 10 (-2726)) ∧
    decode 0b11010100101010001111110101100011 = some (.bgeu 17 10 (-2726)) := by
  decide +kernel

theorem test_decode_load_store :
    decode 0b10101011110110001000000110000011 = some (.lb 3 17 (-1347)) ∧
    decode 0b10101011110110001001000110000011 = some (.lh 3 17 (-1347)) ∧
    decode 0b10101011110110001010000110000011 = some (.lw 3 17 (-1347)) ∧
    decode 0b10101011110110001100000110000011 = some (.lbu 3 17 (-1347)) ∧
    decode 0b10101011110110001101000110000011 = some (.lhu 3 17 (-1347)) ∧
    decode 0b10101011110110001110000110000011 = some (.lwu 3 17 (-1347)) ∧
    decode 0b10101011110110001011000110000011 = some (.ld 3 17 (-1347)) ∧
    decode 0b10101010101010001000111010100011 = some (.sb 17 10 (-1347)) ∧
    decode 0b10101010101010001001111010100011 = some (.sh 17 10 (-1347)) ∧
    decode 0b10101010101010001010111010100011 = some (.sw 17 10 (-1347)) ∧
    decode 0b10101010101010001011111010100011 = some (.sd 17 10 (-1347)) ∧
    decode 0b00001001011000000000000000001111 = some (.fence 9 6) ∧
    decode 0b00000000000000000001000000001111 = some (.fenceI) := by
  decide +kernel

theorem test_decode_system :
    decode 0b00000000000000000000000001110011 = some (.ecall) ∧
    decode 0b00000000000100000000000001110011 = some (.ebreak) ∧
    decode 0b00110100001010001001000111110011 = some (.csrrw 3 0x342 17) ∧
    decode 0b00110100001010001010000111110011 = some (.csrrs 3 0x342 17) ∧
    decode 0b00110100001010001011000111110011 = some (.csrrc 3 0x342 17) ∧
    decode 0b00110100001010011101000111110011 = some (.csrrwi 3 0x342 19) ∧
    decode 0b00110100001010011110000111110011 = some (.csrrsi 3 0x342 19) ∧
    decode 0b00110100001010011111000111110011 = some (.csrrci 3 0x342 19) := by
  decide +kernel

theorem test_decode_muldiv :
    decode 0b00000010101010001000000110110011 = some (.mul 3 17 10) ∧
    decode 0b00000010101010001001000110110011 = some (.mulh 3 17 10) ∧
    decode 0b00000010101010001010000110110011 = some (.mulhsu 3 17 10) ∧
    decode 0b00000010101010001011000110110011 = some (.mulhu 3 17 10) ∧
    decode 0b00000010101010001100000110110011 = some (.div 3 17 10) ∧
    decode 0b00000010101010001101000110110011 = some (.divu 3 17 10) ∧
    decode 0b00000010101010001110000110110011 = some (.rem 3 17 10) ∧
    decode 0b00000010101010001111000110110011 = some (.remu 3 17 10) ∧
    decode 0b00000010101010001000000110111011 = some (.mulw 3 17 10) ∧
    decode 0b00000010101010001100000110111011 = some (.divw 3 17 10) ∧
    decode 0b00000010101010001101000110111011 = some (.divuw 3 17 10) ∧
    decode 0b00000010101010001110000110111011 = some (.remw 3 17 10) ∧
    decode 0b00000010101010001111000110111011 = some (.remuw 3 17 10) := by
  decide +kernel

theorem test_decode_float_single_1 :
    decode 0b10101011110110001010000110000111 = some (.flw 3 17 (-1347)) ∧
    decode 0b10101010101010001010111010100111 = some (.fsw 17 10 (-1347)) ∧
    decode 0b11001000101010001100000111000011 = some (.fmaddS 3 17 10 25 4) ∧
    decode 0b11001000101010001100000111000111 = some (.fmsubS 3 17 10 25 4) ∧
    decode 0b11001000101010001100000111001011 = some (.fnmsubS 3 17 10 25 4) ∧
    decode 0b11001000101010001100000111001111 = some (.fnmaddS 3 17 10 25 4) ∧
    decode 0b00000000101010001100000111010011 = some (.faddS 3 17 10 4) ∧
    decode 0b00001000101010001100000111010011 = some (.fsubS 3 17 10 4) ∧
    decode 0b00010000101010001100000111010011 = some (.fmulS 3 17 10 4) ∧
    decode 0b00011000101010001100000111010011 = some (.fdivS 3 17 10 4) ∧
    decode 0b01011000000010001100000111010011 = some (.fsqrtS 3 17 4) ∧
    decode 0b00100000101010001000000111010011 = some (.fsgnjS 3 17 10) ∧
    decode 0b00100000101010001001000111010011 = some (.fsgnjnS 3 17 10) ∧
    decode 0b00100000101010001010000111010011 = some (.fsgnjxS 3 17 10) ∧
    decode 0b00101000101010001000000111010011 = some (.fminS 3 17 10) := by
  decide +kernel

theorem test_decode_float_single_2 :
    decode 0b00101000101010001001000111010011 = some (.fmaxS 3 17 10) ∧
    decode 0b10100000101010001010000111010011 = some (.feqS 3 17 10) ∧
    decode 0b10100000101010001001000111010011 = some (.fltS 3 17 10) ∧
    decode 0b10100000101010001000000111010011 = some (.fleS 3 17 10) ∧
    decode 0b11100000000010001001000111010011 = some (.fclassS 3 17) ∧
    decode 0b11000000000010001100000111010011 = some (.fcvtWS 3 17 4) ∧
    decode 0b11000000000110001100000111010011 = some (.fcvtWuS 3 17 4) ∧
    decode 0b11000000001010001100000111010011 = some (.fcvtLS 3 17 4) ∧
    decode 0b11000000001110001100000111010011 = some (.fcvtLuS 3 17 4) ∧
    decode 0b11010000000010001100000111010011 = some (.fcvtSW 3 17 4) ∧
    decode 0b11010000000110001100000111010011 = some (.fcvtSWu 3 17 4) ∧
    decode 0b11010000001010001100000111010011 = some (.fcvtSL 3 17 4) ∧
    decode 0b11010000001110001100000111010011 = some (.fcvtSLu 3 17 4) ∧
    decode 0b11100000000010001000000111010011 = some (.fmvXW 3 17) ∧
    decode 0b11110000000010001000000111010011 = some (.fmvWX 3 17) := by
  decide +kernel

theorem test_decode_float_double_1 :
    decode 0b10101011110110001011000110000111 = some (.fld 3 17 (-1347)) ∧
    decode 0b10101010101010001011111010100111 = some (.fsd 17 10 (-1347)) ∧
    decode 0b11001010101010001100000111000011 = some (.fmaddD 3 17 10 25 4) ∧
    decode 0b11001010101010001100000111000111 = some (.fmsubD 3 17 10 25 4) ∧
    decode 0b11001010101010001100000111001011 = some (.fnmsubD 3 17 10 25 4) ∧
    decode 0b11001010101010001100000111001111 = some (.fnmaddD 3 17 10 25 4) ∧
    decode 0b00000010101010001100000111010011 = some (.faddD 3 17 10 4) ∧
    decode 0b00001010101010001100000111010011 = some (.fsubD 3 17 10 4) ∧
    decode 0b00010010101010001100000111010011 = some (.fmulD 3 17 10 4) ∧
    decode 0b00011010101010001100000111010011 = some (.fdivD 3 17 10 4) ∧
    decode 0b01011010000010001100000111010011 = some (.fsqrtD 3 17 4) ∧
    decode 0b00100010101010001000000111010011 = some (.fsgnjD 3 17 10) ∧
    decode 0b00100010101010001001000111010011 = some (.fsgnjnD 3 17 10) ∧
    decode 0b00100010101010001010000111010011 = some (.fsgnjxD 3 17 10) ∧
    decode 0b00101010101010001000000111010011 = some (.fminD 3 17 10) := by
  decide +kernel

theorem test_decode_float_double_2 :
    decode 0b00101010101010001001000111010011 = some (.fmaxD 3 17 10) ∧
    decode 0b10100010101010001010000111010011 = some (.feqD 3 17 10) ∧
    decode 0b10100010101010001001000111010011 = some (.fltD 3 17 10) ∧
    decode 0b10100010101010001000000111010011 = some (.fleD 3 17 10) ∧
    decode 0b11100010000010001001000111010011 = some (.fclassD 3 17) ∧
    decode 0b11000010000010001100000111010011 = some (.fcvtWD 3 17 4) ∧
    decode 0b11000010000110001100000111010011 = some (.fcvtWuD 3 17 4) ∧
    decode 0b11000010001010001100000111010011 = some (.fcvtLD 3 17 4) ∧
    decode 0b11000010001110001100000111010011 = some (.fcvtLuD 3 17 4) ∧
    decode 0b11010010000010001100000111010011 = some (.fcvtDW 3 17 4) ∧
    decode 0b11010010000110001100000111010011 = some (.fcvtDWu 3 17 4) ∧
    decode 0b11010010001010001100000111010011 = some (.fcvtDL 3 17 4) ∧
    decode 0b11010010001110001100000111010011 = some (.fcvtDLu 3 17 4) ∧
    decode 0b01000000000110001100000111010011 = some (.fcvtSD 3 17 4) ∧
    decode 0b01000010000010001100000111010011 = some (.fcvtDS 3 17 4) := by
  decide +kernel

theorem test_decode_float_double_3 :
    decode 0b11100010000010001000000111010011 = some (.fmvXD 3 17) ∧
    decode 0b11110010000010001000000111010011 = some (.fmvDX 3 17) := by
  decide +kernel

/-! One step of each instruction. -/

/-- `addi`, `lui`, `auipc`, `slti`, `sltiu`, `xori`, `ori`, `andi` (95_test_vectors.md). -/
theorem test_step_integer_1 :
    (let t := ran .x32 0xFF908113 [(1, 0x5)] [] [] 0 0;
      t.readX 2 = 0xFFFFFFFE ∧ t.fflags = 0) ∧
    (let t := ran .x64 0x800002B7 [] [] [] 0 0;
      t.readX 5 = 0xFFFFFFFF80000000 ∧ t.fflags = 0) ∧
    (let t := ran .x32 0x00001317 [] [] [] 0 0;
      t.readX 6 = 0x00401000 ∧ t.fflags = 0) ∧
    (let t := ran .x32 0xFFE0A113 [(1, 0xFFFFFFFD)] [] [] 0 0;
      t.readX 2 = 0x00000001 ∧ t.fflags = 0) ∧
    (let t := ran .x32 0x0010B113 [(1, 0x0)] [] [] 0 0;
      t.readX 2 = 0x00000001 ∧ t.fflags = 0) ∧
    (let t := ran .x32 0xFFF0C113 [(1, 0xF0F0F0F)] [] [] 0 0;
      t.readX 2 = 0xF0F0F0F0 ∧ t.fflags = 0) ∧
    (let t := ran .x32 0x0FF0E113 [(1, 0x100)] [] [] 0 0;
      t.readX 2 = 0x000001FF ∧ t.fflags = 0) ∧
    (let t := ran .x32 0x0FF0F113 [(1, 0x12345678)] [] [] 0 0;
      t.readX 2 = 0x00000078 ∧ t.fflags = 0) := by
  decide +kernel

/-- `slli`, `srli`, `srai`, `add`, `sub`, `sll`, `slt`, `sltu` (95_test_vectors.md). -/
theorem test_step_integer_2 :
    (let t := ran .x32 0x01F09113 [(1, 0x1)] [] [] 0 0;
      t.readX 2 = 0x80000000 ∧ t.fflags = 0) ∧
    (let t := ran .x32 0x0040D113 [(1, 0x80000000)] [] [] 0 0;
      t.readX 2 = 0x08000000 ∧ t.fflags = 0) ∧
    (let t := ran .x32 0x4040D113 [(1, 0x80000000)] [] [] 0 0;
      t.readX 2 = 0xF8000000 ∧ t.fflags = 0) ∧
    (let t := ran .x64 0x002081B3 [(1, 0xFFFFFFFFFFFFFFFF), (2, 0x1)] [] [] 0 0;
      t.readX 3 = 0x0000000000000000 ∧ t.fflags = 0) ∧
    (let t := ran .x32 0x402081B3 [(1, 0x3), (2, 0x5)] [] [] 0 0;
      t.readX 3 = 0xFFFFFFFE ∧ t.fflags = 0) ∧
    (let t := ran .x32 0x002091B3 [(1, 0x3), (2, 0x21)] [] [] 0 0;
      t.readX 3 = 0x00000006 ∧ t.fflags = 0) ∧
    (let t := ran .x32 0x0020A1B3 [(1, 0xFFFFFFFF), (2, 0x1)] [] [] 0 0;
      t.readX 3 = 0x00000001 ∧ t.fflags = 0) ∧
    (let t := ran .x32 0x0020B1B3 [(1, 0xFFFFFFFF), (2, 0x1)] [] [] 0 0;
      t.readX 3 = 0x00000000 ∧ t.fflags = 0) := by
  decide +kernel

/-- `xor`, `srl`, `sra`, `or`, `and`, `addiw`, `slliw`, `srliw` (95_test_vectors.md). -/
theorem test_step_integer_3 :
    (let t := ran .x32 0x0020C1B3 [(1, 0xFF00FF00), (2, 0xFF00FF0)] [] [] 0 0;
      t.readX 3 = 0xF0F0F0F0 ∧ t.fflags = 0) ∧
    (let t := ran .x32 0x0020D1B3 [(1, 0x80000000), (2, 0x1F)] [] [] 0 0;
      t.readX 3 = 0x00000001 ∧ t.fflags = 0) ∧
    (let t := ran .x32 0x4020D1B3 [(1, 0x80000000), (2, 0x1F)] [] [] 0 0;
      t.readX 3 = 0xFFFFFFFF ∧ t.fflags = 0) ∧
    (let t := ran .x32 0x0020E1B3 [(1, 0xF), (2, 0xF0)] [] [] 0 0;
      t.readX 3 = 0x000000FF ∧ t.fflags = 0) ∧
    (let t := ran .x32 0x0020F1B3 [(1, 0xFF), (2, 0xF)] [] [] 0 0;
      t.readX 3 = 0x0000000F ∧ t.fflags = 0) ∧
    (let t := ran .x64 0x0010811B [(1, 0x7FFFFFFF)] [] [] 0 0;
      t.readX 2 = 0xFFFFFFFF80000000 ∧ t.fflags = 0) ∧
    (let t := ran .x64 0x01F0911B [(1, 0x1)] [] [] 0 0;
      t.readX 2 = 0xFFFFFFFF80000000 ∧ t.fflags = 0) ∧
    (let t := ran .x64 0x0000D11B [(1, 0x80000000)] [] [] 0 0;
      t.readX 2 = 0xFFFFFFFF80000000 ∧ t.fflags = 0) := by
  decide +kernel

/-- `sraiw`, `addw`, `subw`, `sllw`, `srlw`, `sraw` (95_test_vectors.md). -/
theorem test_step_integer_4 :
    (let t := ran .x64 0x4040D11B [(1, 0xF0000000)] [] [] 0 0;
      t.readX 2 = 0xFFFFFFFFFF000000 ∧ t.fflags = 0) ∧
    (let t := ran .x64 0x002081BB [(1, 0x7FFFFFFF), (2, 0x1)] [] [] 0 0;
      t.readX 3 = 0xFFFFFFFF80000000 ∧ t.fflags = 0) ∧
    (let t := ran .x64 0x402081BB [(2, 0x1)] [] [] 0 0;
      t.readX 3 = 0xFFFFFFFFFFFFFFFF ∧ t.fflags = 0) ∧
    (let t := ran .x64 0x002091BB [(1, 0xFFFFFFFF), (2, 0x4)] [] [] 0 0;
      t.readX 3 = 0xFFFFFFFFFFFFFFF0 ∧ t.fflags = 0) ∧
    (let t := ran .x64 0x0020D1BB [(1, 0xFFFFFFFF80000000), (2, 0x4)] [] [] 0 0;
      t.readX 3 = 0x0000000008000000 ∧ t.fflags = 0) ∧
    (let t := ran .x64 0x4020D1BB [(1, 0x80000000), (2, 0x4)] [] [] 0 0;
      t.readX 3 = 0xFFFFFFFFF8000000 ∧ t.fflags = 0) := by
  decide +kernel

/-- `jal`, `jalr`, `beq`, `bne`, `blt`, `bge`, `bltu`, `bgeu` (95_test_vectors.md). -/
theorem test_step_control_1 :
    (let t := ran .x32 0x008000EF [] [] [] 0 0;
      t.readX 1 = 0x00400004 ∧ t.readPc = 0x00400008 ∧ t.fflags = 0) ∧
    (let t := ran .x32 0x000280E7 [(5, 0x400005)] [] [] 0 0;
      t.readX 1 = 0x00400004 ∧ t.readPc = 0x00400004 ∧ t.fflags = 0) ∧
    (let t := ran .x32 0x00208363 [(1, 0x1)] [] [] 0 0;
      t.readPc = 0x00400004 ∧ t.fflags = 0) ∧
    (let t := ran .x32 0x00209663 [(1, 0x1)] [] [] 0 0;
      t.readPc = 0x0040000C ∧ t.fflags = 0) ∧
    (let t := ran .x32 0x0020C463 [(1, 0xFFFFFFFF)] [] [] 0 0;
      t.readPc = 0x00400008 ∧ t.fflags = 0) ∧
    (let t := ran .x32 0x0020D463 [(2, 0xFFFFFFFF)] [] [] 0 0;
      t.readPc = 0x00400008 ∧ t.fflags = 0) ∧
    (let t := ran .x32 0x0020E463 [(1, 0xFFFFFFFF)] [] [] 0 0;
      t.readPc = 0x00400004 ∧ t.fflags = 0) ∧
    (let t := ran .x32 0x0020F463 [(1, 0xFFFFFFFF)] [] [] 0 0;
      t.readPc = 0x00400008 ∧ t.fflags = 0) := by
  decide +kernel

/-- `lh`, `lhu`, `lb`, `lbu`, `lw`, `lwu`, `ld`, `sb` (95_test_vectors.md). -/
theorem test_step_load_store_1 :
    (let t := ran .x32 0x00009103 [(1, 0x10010000)] [] [(0x10010000, 0x34), (0x10010001, 0x92)] 0 0;
      t.readX 2 = 0xFFFF9234 ∧ t.fflags = 0) ∧
    (let t := ran .x32 0x0000D103 [(1, 0x10010000)] [] [(0x10010000, 0x34), (0x10010001, 0x92)] 0 0;
      t.readX 2 = 0x00009234 ∧ t.fflags = 0) ∧
    (let t := ran .x32 0x00008103 [(1, 0x10010000)] [] [(0x10010000, 0x80)] 0 0;
      t.readX 2 = 0xFFFFFF80 ∧ t.fflags = 0) ∧
    (let t := ran .x32 0x0000C103 [(1, 0x10010000)] [] [(0x10010000, 0x80)] 0 0;
      t.readX 2 = 0x00000080 ∧ t.fflags = 0) ∧
    (let t := ran .x64 0x0040A103 [(1, 0x10010000)] [] [(0x10010004, 0x01), (0x10010007, 0x80)] 0 0;
      t.readX 2 = 0xFFFFFFFF80000001 ∧ t.fflags = 0) ∧
    (let t := ran .x64 0x0040E103 [(1, 0x10010000)] [] [(0x10010004, 0x01), (0x10010007, 0x80)] 0 0;
      t.readX 2 = 0x0000000080000001 ∧ t.fflags = 0) ∧
    (let t := ran .x64 0x0000B103 [(1, 0x10010000)] [] [(0x10010000, 0xEF), (0x10010001, 0xCD), (0x10010002, 0xAB), (0x10010003, 0x89), (0x10010004, 0x67), (0x10010005, 0x45), (0x10010006, 0x23), (0x10010007, 0x01)] 0 0;
      t.readX 2 = 0x0123456789ABCDEF ∧ t.fflags = 0) ∧
    (let t := ran .x32 0x00208023 [(1, 0x10010003), (2, 0x12345678)] [] [] 0 0;
      t.mem.byte? 0x10010003 = some 0x78 ∧ t.fflags = 0) := by
  decide +kernel

/-- `sh`, `sw`, `sd`, `fence`, `fence.i` (95_test_vectors.md). -/
theorem test_step_load_store_2 :
    (let t := ran .x32 0x00209123 [(1, 0x10010000), (2, 0x12345678)] [] [] 0 0;
      t.mem.byte? 0x10010002 = some 0x78 ∧ t.mem.byte? 0x10010003 = some 0x56 ∧ t.fflags = 0) ∧
    (let t := ran .x32 0x0020A023 [(1, 0x10010000), (2, 0xDEADBEEF)] [] [] 0 0;
      t.mem.byte? 0x10010000 = some 0xEF ∧ t.mem.byte? 0x10010001 = some 0xBE ∧ t.mem.byte? 0x10010002 = some 0xAD ∧ t.mem.byte? 0x10010003 = some 0xDE ∧ t.fflags = 0) ∧
    (let t := ran .x64 0x0020B023 [(1, 0x10010000), (2, 0x123456789ABCDEF)] [] [] 0 0;
      t.mem.byte? 0x10010000 = some 0xEF ∧ t.mem.byte? 0x10010001 = some 0xCD ∧ t.mem.byte? 0x10010002 = some 0xAB ∧ t.mem.byte? 0x10010003 = some 0x89 ∧ t.mem.byte? 0x10010004 = some 0x67 ∧ t.mem.byte? 0x10010005 = some 0x45 ∧ t.mem.byte? 0x10010006 = some 0x23 ∧ t.mem.byte? 0x10010007 = some 0x01 ∧ t.fflags = 0) ∧
    (let t := ran .x32 0x0FF0000F [] [] [] 0 0;
      t.fflags = 0) ∧
    (let t := ran .x32 0x0000100F [] [] [] 0 0;
      t.fflags = 0) := by
  decide +kernel

/-- `mul`, `mulh`, `mulhsu`, `mulhu`, `div`, `divu`, `rem`, `remu` (95_test_vectors.md). -/
theorem test_step_muldiv_1 :
    (let t := ran .x32 0x022081B3 [(1, 0x80000000), (2, 0xFFFFFFFF)] [] [] 0 0;
      t.readX 3 = 0x80000000 ∧ t.fflags = 0) ∧
    (let t := ran .x32 0x022091B3 [(1, 0xFFFFFFFF), (2, 0x2)] [] [] 0 0;
      t.readX 3 = 0xFFFFFFFF ∧ t.fflags = 0) ∧
    (let t := ran .x32 0x0220A1B3 [(1, 0xFFFFFFFF), (2, 0xFFFFFFFF)] [] [] 0 0;
      t.readX 3 = 0xFFFFFFFF ∧ t.fflags = 0) ∧
    (let t := ran .x32 0x0220B1B3 [(1, 0xFFFFFFFF), (2, 0xFFFFFFFF)] [] [] 0 0;
      t.readX 3 = 0xFFFFFFFE ∧ t.fflags = 0) ∧
    (let t := ran .x32 0x0220C1B3 [(1, 0xFFFFFFF9), (2, 0x2)] [] [] 0 0;
      t.readX 3 = 0xFFFFFFFD ∧ t.fflags = 0) ∧
    (let t := ran .x32 0x0220D1B3 [(1, 0xFFFFFFF9), (2, 0x2)] [] [] 0 0;
      t.readX 3 = 0x7FFFFFFC ∧ t.fflags = 0) ∧
    (let t := ran .x32 0x0220E1B3 [(1, 0xFFFFFFF9), (2, 0x2)] [] [] 0 0;
      t.readX 3 = 0xFFFFFFFF ∧ t.fflags = 0) ∧
    (let t := ran .x32 0x0220F1B3 [(1, 0xFFFFFFF9), (2, 0x2)] [] [] 0 0;
      t.readX 3 = 0x00000001 ∧ t.fflags = 0) := by
  decide +kernel

/-- `mulw`, `divw`, `divuw`, `remw`, `remuw` (95_test_vectors.md). -/
theorem test_step_muldiv_2 :
    (let t := ran .x64 0x022081BB [(1, 0x10000), (2, 0x8000)] [] [] 0 0;
      t.readX 3 = 0xFFFFFFFF80000000 ∧ t.fflags = 0) ∧
    (let t := ran .x64 0x0220C1BB [(1, 0xFFFFFFF9), (2, 0x2)] [] [] 0 0;
      t.readX 3 = 0xFFFFFFFFFFFFFFFD ∧ t.fflags = 0) ∧
    (let t := ran .x64 0x0220D1BB [(1, 0xFFFFFFF9), (2, 0x1)] [] [] 0 0;
      t.readX 3 = 0xFFFFFFFFFFFFFFF9 ∧ t.fflags = 0) ∧
    (let t := ran .x64 0x0220E1BB [(1, 0xFFFFFFF9), (2, 0x2)] [] [] 0 0;
      t.readX 3 = 0xFFFFFFFFFFFFFFFF ∧ t.fflags = 0) ∧
    (let t := ran .x64 0x0220F1BB [(1, 0xFFFFFFF9), (2, 0x0)] [] [] 0 0;
      t.readX 3 = 0xFFFFFFFFFFFFFFF9 ∧ t.fflags = 0) := by
  decide +kernel

/-- `csrrw`, `csrrs`, `csrrc`, `csrrwi`, `csrrsi`, `csrrci` (95_test_vectors.md). -/
theorem test_step_system_1 :
    (let t := ran .x32 0x003312F3 [(6, 0xFFFFFFFF)] [] [] 0 0;
      t.readX 5 = 0x00000000 ∧ t.fflags = 0x1F ∧ t.frm = 7) ∧
    (let t := ran .x32 0x003022F3 [] [] [] 21 3;
      t.readX 5 = 0x00000075 ∧ t.fflags = 21) ∧
    (let t := ran .x32 0x0012B073 [(5, 0x1)] [] [] 17 0;
      t.fflags = 0x10) ∧
    (let t := ran .x32 0x0020D073 [] [] [] 0 0;
      t.frm = 1 ∧ t.fflags = 0) ∧
    (let t := ran .x32 0x00126473 [] [] [] 0 0;
      t.readX 8 = 0x00000000 ∧ t.fflags = 0x04) ∧
    (let t := ran .x32 0x001FF4F3 [] [] [] 31 0;
      t.readX 9 = 0x0000001F ∧ t.fflags = 0x00) := by
  decide +kernel

/-- `fnmsub.s`, `flw`, `fsw`, `fmadd.s`, `fmsub.s`, `fnmadd.s`, `fadd.s`, `fsub.s` (95_test_vectors.md). -/
theorem test_step_float_single_1 :
    (let t := ran .x32 0x203100CB [] [(2, 0xFFFFFFFF40000000), (3, 0xFFFFFFFF40400000), (4, 0xFFFFFFFF3F800000)] [] 0 0;
      t.readF 1 = 0xFFFFFFFFC0A00000 ∧ t.fflags = 0) ∧
    (let t := ran .x32 0x0000A087 [(1, 0x10010000)] [] [(0x10010002, 0x40), (0x10010003, 0x40)] 0 0;
      t.readF 1 = 0xFFFFFFFF40400000 ∧ t.fflags = 0) ∧
    (let t := ran .x32 0x0020A227 [(1, 0x10010000)] [(2, 0xFFFFFFFF3F800000)] [] 0 0;
      t.mem.byte? 0x10010006 = some 0x80 ∧ t.mem.byte? 0x10010007 = some 0x3F ∧ t.fflags = 0) ∧
    (let t := ran .x32 0x203100C3 [] [(2, 0xFFFFFFFF00000000), (3, 0xFFFFFFFF7F800000), (4, 0xFFFFFFFF7FC00001)] [] 0 0;
      t.readF 1 = 0xFFFFFFFF7FC00000 ∧ t.fflags = 0x10) ∧
    (let t := ran .x32 0x203100C7 [] [(2, 0xFFFFFFFF40000000), (3, 0xFFFFFFFF40400000), (4, 0xFFFFFFFF3F800000)] [] 0 0;
      t.readF 1 = 0xFFFFFFFF40A00000 ∧ t.fflags = 0) ∧
    (let t := ran .x32 0x203100CF [] [(2, 0xFFFFFFFF40000000), (3, 0xFFFFFFFF40400000), (4, 0xFFFFFFFF3F800000)] [] 0 0;
      t.readF 1 = 0xFFFFFFFFC0E00000 ∧ t.fflags = 0) ∧
    (let t := ran .x32 0x003100D3 [] [(2, 0xFFFFFFFF3F800000), (3, 0xFFFFFFFF33800000)] [] 0 0;
      t.readF 1 = 0xFFFFFFFF3F800000 ∧ t.fflags = 0x01) ∧
    (let t := ran .x32 0x083100D3 [] [(2, 0xFFFFFFFF7F800000), (3, 0xFFFFFFFF7F800000)] [] 0 0;
      t.readF 1 = 0xFFFFFFFF7FC00000 ∧ t.fflags = 0x10) := by
  decide +kernel

/-- `fmul.s`, `fdiv.s`, `fsqrt.s`, `fsgnj.s`, `fsgnjn.s`, `fsgnjx.s`, `fmin.s`, `fmax.s` (95_test_vectors.md). -/
theorem test_step_float_single_2 :
    (let t := ran .x32 0x103100D3 [] [(2, 0xFFFFFFFF00000000), (3, 0xFFFFFFFF7F800000)] [] 0 0;
      t.readF 1 = 0xFFFFFFFF7FC00000 ∧ t.fflags = 0x10) ∧
    (let t := ran .x32 0x183100D3 [] [(2, 0xFFFFFFFF3F800000), (3, 0xFFFFFFFF40400000)] [] 0 0;
      t.readF 1 = 0xFFFFFFFF3EAAAAAB ∧ t.fflags = 0x01) ∧
    (let t := ran .x32 0x580100D3 [] [(2, 0xFFFFFFFF40000000)] [] 0 0;
      t.readF 1 = 0xFFFFFFFF3FB504F3 ∧ t.fflags = 0x01) ∧
    (let t := ran .x32 0x203100D3 [] [(2, 0xFFFFFFFFBFC00000), (3, 0xFFFFFFFF40000000)] [] 0 0;
      t.readF 1 = 0xFFFFFFFF3FC00000 ∧ t.fflags = 0) ∧
    (let t := ran .x32 0x203110D3 [] [(2, 0xFFFFFFFF3FC00000), (3, 0xFFFFFFFF3FC00000)] [] 0 0;
      t.readF 1 = 0xFFFFFFFFBFC00000 ∧ t.fflags = 0) ∧
    (let t := ran .x32 0x203120D3 [] [(2, 0xFFFFFFFFBFC00000), (3, 0xFFFFFFFFBFC00000)] [] 0 0;
      t.readF 1 = 0xFFFFFFFF3FC00000 ∧ t.fflags = 0) ∧
    (let t := ran .x32 0x283100D3 [] [(2, 0xFFFFFFFF7FC00001), (3, 0xFFFFFFFF7F800001)] [] 0 0;
      t.readF 1 = 0xFFFFFFFF7FC00000 ∧ t.fflags = 0x10) ∧
    (let t := ran .x32 0x283110D3 [] [(2, 0xFFFFFFFF7F800001), (3, 0xFFFFFFFF3F800000)] [] 0 0;
      t.readF 1 = 0xFFFFFFFF3F800000 ∧ t.fflags = 0x10) := by
  decide +kernel

/-- `fcvt.w.s`, `fcvt.wu.s`, `fcvt.l.s`, `fcvt.lu.s`, `fcvt.s.w`, `fcvt.s.wu`, `fcvt.s.l`, `fcvt.s.lu` (95_test_vectors.md). -/
theorem test_step_float_single_3 :
    (let t := ran .x32 0xC00092D3 [] [(1, 0xFFFFFFFFC0F00000)] [] 0 0;
      t.readX 5 = 0xFFFFFFF9 ∧ t.fflags = 0x01) ∧
    (let t := ran .x32 0xC01082D3 [] [(1, 0xFFFFFFFF40600000)] [] 0 0;
      t.readX 5 = 0x00000004 ∧ t.fflags = 0x01) ∧
    (let t := ran .x64 0xC02082D3 [] [(1, 0xFFFFFFFFC0000000)] [] 0 0;
      t.readX 5 = 0xFFFFFFFFFFFFFFFE ∧ t.fflags = 0) ∧
    (let t := ran .x64 0xC03082D3 [] [(1, 0xFFFFFFFF42C80000)] [] 0 0;
      t.readX 5 = 0x0000000000000064 ∧ t.fflags = 0) ∧
    (let t := ran .x32 0xD00280D3 [(5, 0x1000001)] [] [] 0 0;
      t.readF 1 = 0xFFFFFFFF4B800000 ∧ t.fflags = 0x01) ∧
    (let t := ran .x32 0xD01280D3 [(5, 0xFFFFFFFF)] [] [] 0 0;
      t.readF 1 = 0xFFFFFFFF4F800000 ∧ t.fflags = 0x01) ∧
    (let t := ran .x64 0xD02280D3 [(5, 0x7FFFFFFFFFFFFFFF)] [] [] 0 0;
      t.readF 1 = 0xFFFFFFFF5F000000 ∧ t.fflags = 0x01) ∧
    (let t := ran .x64 0xD03280D3 [(5, 0x8)] [] [] 0 0;
      t.readF 1 = 0xFFFFFFFF41000000 ∧ t.fflags = 0) := by
  decide +kernel

/-- `fmv.x.w`, `fmv.w.x`, `feq.s`, `flt.s`, `fle.s`, `fclass.s` (95_test_vectors.md). -/
theorem test_step_float_single_4 :
    (let t := ran .x64 0xE00082D3 [] [(1, 0xFFFFFFFFBF800000)] [] 0 0;
      t.readX 5 = 0xFFFFFFFFBF800000 ∧ t.fflags = 0) ∧
    (let t := ran .x32 0xF00280D3 [(5, 0x40490FDB)] [] [] 0 0;
      t.readF 1 = 0xFFFFFFFF40490FDB ∧ t.fflags = 0) ∧
    (let t := ran .x32 0xA020A2D3 [] [(1, 0xFFFFFFFF7F800001), (2, 0xFFFFFFFF3F800000)] [] 0 0;
      t.readX 5 = 0x00000000 ∧ t.fflags = 0x10) ∧
    (let t := ran .x32 0xA02092D3 [] [(1, 0xFFFFFFFF7FC00001), (2, 0xFFFFFFFF3F800000)] [] 0 0;
      t.readX 5 = 0x00000000 ∧ t.fflags = 0x10) ∧
    (let t := ran .x32 0xA02082D3 [] [(1, 0xFFFFFFFF40000000), (2, 0xFFFFFFFF40000000)] [] 0 0;
      t.readX 5 = 0x00000001 ∧ t.fflags = 0) ∧
    (let t := ran .x32 0xE00092D3 [] [(1, 0xFFFFFFFF80000000)] [] 0 0;
      t.readX 5 = 0x00000008 ∧ t.fflags = 0) := by
  decide +kernel

/-- `fnmsub.d`, `fcvt.s.d`, `fld`, `fsd`, `fmadd.d`, `fmsub.d`, `fnmadd.d`, `fadd.d` (95_test_vectors.md). -/
theorem test_step_float_double_1 :
    (let t := ran .x32 0x223100CB [] [(2, 0x4000000000000000), (3, 0x4008000000000000), (4, 0x3FF0000000000000)] [] 0 0;
      t.readF 1 = 0xC014000000000000 ∧ t.fflags = 0) ∧
    (let t := ran .x32 0x401100D3 [] [(2, 0x380FFFFFFF000000)] [] 0 0;
      t.readF 1 = 0xFFFFFFFF00800000 ∧ t.fflags = 0x01) ∧
    (let t := ran .x32 0x0000B087 [(1, 0x10010000)] [] [(0x10010006, 0x08), (0x10010007, 0x40)] 0 0;
      t.readF 1 = 0x4008000000000000 ∧ t.fflags = 0) ∧
    (let t := ran .x32 0x0020B427 [(1, 0x10010000)] [(2, 0x3FF0000000000000)] [] 0 0;
      t.mem.byte? 0x1001000E = some 0xF0 ∧ t.mem.byte? 0x1001000F = some 0x3F ∧ t.fflags = 0) ∧
    (let t := ran .x32 0x223100C3 [] [(2, 0x4000000000000000), (3, 0x4008000000000000), (4, 0x3FF0000000000000)] [] 0 0;
      t.readF 1 = 0x401C000000000000 ∧ t.fflags = 0) ∧
    (let t := ran .x32 0x223100C7 [] [(2, 0x4000000000000000), (3, 0x4008000000000000), (4, 0x3FF0000000000000)] [] 0 0;
      t.readF 1 = 0x4014000000000000 ∧ t.fflags = 0) ∧
    (let t := ran .x32 0x223100CF [] [(2, 0x4000000000000000), (3, 0x4008000000000000), (4, 0x3FF0000000000000)] [] 0 0;
      t.readF 1 = 0xC01C000000000000 ∧ t.fflags = 0) ∧
    (let t := ran .x32 0x023100D3 [] [(2, 0x3FF0000000000000), (3, 0x3CA0000000000000)] [] 0 0;
      t.readF 1 = 0x3FF0000000000000 ∧ t.fflags = 0x01) := by
  decide +kernel

/-- `fsub.d`, `fmul.d`, `fdiv.d`, `fsqrt.d`, `fsgnj.d`, `fsgnjn.d`, `fsgnjx.d`, `fmin.d` (95_test_vectors.md). -/
theorem test_step_float_double_2 :
    (let t := ran .x32 0x0A3100D3 [] [(2, 0x4014000000000000), (3, 0x4000000000000000)] [] 0 0;
      t.readF 1 = 0x4008000000000000 ∧ t.fflags = 0) ∧
    (let t := ran .x32 0x123100D3 [] [(2, 0x7FEFFFFFFFFFFFFF), (3, 0x4000000000000000)] [] 0 0;
      t.readF 1 = 0x7FF0000000000000 ∧ t.fflags = 0x05) ∧
    (let t := ran .x32 0x1A3100D3 [] [(2, 0x3FF0000000000000), (3, 0x4008000000000000)] [] 0 0;
      t.readF 1 = 0x3FD5555555555555 ∧ t.fflags = 0x01) ∧
    (let t := ran .x32 0x5A0100D3 [] [(2, 0x4000000000000000)] [] 0 0;
      t.readF 1 = 0x3FF6A09E667F3BCD ∧ t.fflags = 0x01) ∧
    (let t := ran .x32 0x223100D3 [] [(2, 0xC004000000000000), (3, 0x3FF0000000000000)] [] 0 0;
      t.readF 1 = 0x4004000000000000 ∧ t.fflags = 0) ∧
    (let t := ran .x32 0x223110D3 [] [(2, 0x3FF0000000000000), (3, 0x3FF0000000000000)] [] 0 0;
      t.readF 1 = 0xBFF0000000000000 ∧ t.fflags = 0) ∧
    (let t := ran .x32 0x223120D3 [] [(2, 0xBFF0000000000000), (3, 0xBFF0000000000000)] [] 0 0;
      t.readF 1 = 0x3FF0000000000000 ∧ t.fflags = 0) ∧
    (let t := ran .x32 0x2A3100D3 [] [(2, 0x3FF0000000000000), (3, 0x4000000000000000)] [] 0 0;
      t.readF 1 = 0x3FF0000000000000 ∧ t.fflags = 0) := by
  decide +kernel

/-- `fmax.d`, `fcvt.d.s`, `feq.d`, `flt.d`, `fle.d`, `fclass.d`, `fcvt.w.d`, `fcvt.wu.d` (95_test_vectors.md). -/
theorem test_step_float_double_3 :
    (let t := ran .x32 0x2A3110D3 [] [(2, 0x3FF0000000000000), (3, 0x4000000000000000)] [] 0 0;
      t.readF 1 = 0x4000000000000000 ∧ t.fflags = 0) ∧
    (let t := ran .x32 0x420100D3 [] [(2, 0xFFFFFFFF7F800001)] [] 0 0;
      t.readF 1 = 0x7FF8000000000000 ∧ t.fflags = 0x10) ∧
    (let t := ran .x32 0xA220A2D3 [] [(1, 0x7FF0000000000001), (2, 0x3FF0000000000000)] [] 0 0;
      t.readX 5 = 0x00000000 ∧ t.fflags = 0x10) ∧
    (let t := ran .x32 0xA22092D3 [] [(1, 0x4000000000000000), (2, 0x4008000000000000)] [] 0 0;
      t.readX 5 = 0x00000001 ∧ t.fflags = 0) ∧
    (let t := ran .x32 0xA22082D3 [] [(1, 0x7FF8000000000001), (2, 0x3FF0000000000000)] [] 0 0;
      t.readX 5 = 0x00000000 ∧ t.fflags = 0x10) ∧
    (let t := ran .x32 0xE20092D3 [] [(1, 0xFFF0000000000000)] [] 0 0;
      t.readX 5 = 0x00000001 ∧ t.fflags = 0) ∧
    (let t := ran .x32 0xC20082D3 [] [(1, 0xC004000000000000)] [] 0 0;
      t.readX 5 = 0xFFFFFFFE ∧ t.fflags = 0x01) ∧
    (let t := ran .x64 0xC21082D3 [] [(1, 0x41E65A0BC0000000)] [] 0 0;
      t.readX 5 = 0xFFFFFFFFB2D05E00 ∧ t.fflags = 0) := by
  decide +kernel

/-- `fcvt.l.d`, `fcvt.lu.d`, `fcvt.d.w`, `fcvt.d.wu`, `fcvt.d.l`, `fcvt.d.lu`, `fmv.x.d`, `fmv.d.x` (95_test_vectors.md). -/
theorem test_step_float_double_4 :
    (let t := ran .x64 0xC22082D3 [] [(1, 0x43E02207973F6440)] [] 0 0;
      t.readX 5 = 0x7FFFFFFFFFFFFFFF ∧ t.fflags = 0x10) ∧
    (let t := ran .x64 0xC23082D3 [] [(1, 0x7FF8000000000001)] [] 0 0;
      t.readX 5 = 0xFFFFFFFFFFFFFFFF ∧ t.fflags = 0x10) ∧
    (let t := ran .x32 0xD20280D3 [(5, 0xFFFFFFFF)] [] [] 0 0;
      t.readF 1 = 0xBFF0000000000000 ∧ t.fflags = 0) ∧
    (let t := ran .x32 0xD21280D3 [(5, 0xFFFFFFFF)] [] [] 0 0;
      t.readF 1 = 0x41EFFFFFFFE00000 ∧ t.fflags = 0) ∧
    (let t := ran .x64 0xD22280D3 [(5, 0x20000000000001)] [] [] 0 0;
      t.readF 1 = 0x4340000000000000 ∧ t.fflags = 0x01) ∧
    (let t := ran .x64 0xD23280D3 [(5, 0xFFFFFFFFFFFFFFFF)] [] [] 0 0;
      t.readF 1 = 0x43F0000000000000 ∧ t.fflags = 0x01) ∧
    (let t := ran .x64 0xE20082D3 [] [(1, 0x3FF0000000000000)] [] 0 0;
      t.readX 5 = 0x3FF0000000000000 ∧ t.fflags = 0) ∧
    (let t := ran .x64 0xF20280D3 [(5, 0x4014000000000000)] [] [] 0 0;
      t.readF 1 = 0x4014000000000000 ∧ t.fflags = 0) := by
  decide +kernel

/-- `slli`, `srli` and `srai` with shamt[5] = 1 (95_test_vectors.md; 41_integer.md R141 to R143). -/
theorem test_step_wide_shifts :
    (ran .x64 0x02009113 [(1, 0x1)] [] [] 0 0).readX 2 = 0x100000000 ∧
    (ran .x64 0x0200D113 [(1, 0x100000000)] [] [] 0 0).readX 2 = 1 ∧
    (ran .x64 0x43F0D113 [(1, 0x8000000000000000)] [] [] 0 0).readX 2 = 0xFFFFFFFFFFFFFFFF := by
  decide +kernel

/-- `ecall` and `ebreak` (95_test_vectors.md; 45_system.md R222, R223). -/
theorem test_step_ecall_ebreak :
    (let t := ran .x32 0x00000073 [(17, 93), (10, 7)] [] [] 0 0;
      t.ctl = .exited ∧ t.exitCode = some 7 ∧ t.readPc = 0x00400004 ∧ t.instret = 1) ∧
    (let t := ran .x32 0x00000073 [(17, 1)] [] [] 0 0;
      t.ctl = .service ∧ t.svc = some ⟨0x00400000, 1⟩ ∧ t.readPc = 0x00400000 ∧ t.instret = 0) ∧
    (let t := ran .x32 0x00100073 [] [] [] 0 0;
      t.ctl = .breakpoint ∧ t.readPc = 0x00400004 ∧ t.instret = 1) := by
  decide +kernel

/-- Faults of each category (95_test_vectors.md; 60_exceptions.md R340 to R342). -/
theorem test_step_faults :
    (ran .x32 0x0010A103 [(1, 0x10010000)] [] [] 0 0).fault =
      some ⟨.addressAlignment, 0x00400000, some 0x0010A103, some 0x10010001, some .load⟩ ∧
    (ran .x32 0x0020A023 [(1, 0x80000000)] [] [] 0 0).fault =
      some ⟨.addressOutOfRange, 0x00400000, some 0x0020A023, some 0x80000000, some .store⟩ ∧
    (ran .x32 0x0020A023 [(1, 0x00400000)] [] [] 0 0).fault =
      some ⟨.writeProtection, 0x00400000, some 0x0020A023, some 0x00400000, some .store⟩ ∧
    (ran .x32 0x02009113 [] [] [] 0 0).fault =
      some ⟨.reservedInstruction, 0x00400000, some 0x02009113, some 0x00400000, none⟩ ∧
    (ran .x32 0xC020E2F3 [] [] [] 0 0).fault = some ⟨.illegalInstruction, 0x00400000, some 0xC020E2F3, none, none⟩ ∧
    (ran .x32 0x30200073 [] [] [] 0 0).fault =
      some ⟨.illegalInstruction, 0x00400000, some 0x30200073, some 0x00400000, none⟩ ∧
    (ran .x32 0x023170D3 [] [] [] 0 6).fault = some ⟨.illegalInstruction, 0x00400000, some 0x023170D3, none, none⟩ := by
  decide +kernel

/-- A store into text with SMC = 1 is written (20_memory.md R79, R85). -/
theorem test_step_smc :
    (let s := setup .x32 [(1, 0x00400000), (2, 0x11223344)] [] [] 0 0
     let t := after ({ s with cfg := { s.cfg with smc := true } }.withFetchWord 32 0x0020A023)
     t.mem.byte? 0x00400003 = some 0x11 ∧ t.fault = none) := by
  decide +kernel

/-- `decodeTableWord` and `withFetchWord` run the very word (log 8). -/
theorem test_fetch_word :
    decodeTableWord 32 0x00000073 = some .ecall ∧
    (after (State.reset.withFetchWord 32 0x00508093)).readX 1 = 5 ∧
    (after (State.reset.withFetchWord 32 0x00508093)).readPc = 0x00400004 := by
  decide +kernel

/-! Witnesses. The configuration EX: text [0x00400000, 0x0FFFFFFF], data [0x10000000, 0x7FFFFFFF]. -/

theorem ex_accepted (x : XLen) : segmentsAccepted (idle x).xlen (idle x).cfg.segments = true := by cases x <;> decide +kernel

/-- The text segment and the data segment of EX. -/
def exText : Segment := ⟨"text", 0x00400000, 0x0FFFFFFF, .text⟩
def exData : Segment := ⟨"data", 0x10000000, 0x7FFFFFFF, .data⟩

theorem exData_holds (x : XLen) {a n : Nat} (h1 : 0x10000000 ≤ a) (h2 : a + n ≤ 0x80000000) : Mapped (idle x).cfg a n :=
  ⟨exData, by cases x <;> decide +kernel, h1, h2⟩

theorem exData_writable (x : XLen) {a n : Nat} (h1 : 0x10000000 ≤ a) (h2 : a + n ≤ 0x80000000) : Writable (idle x).cfg a n :=
  ⟨exData, by cases x <;> decide +kernel, ⟨h1, h2⟩, by intro h; cases h⟩

theorem exText_holds (x : XLen) {a n : Nat} (h1 : 0x00400000 ≤ a) (h2 : a + n ≤ 0x10000000) : Mapped (idle x).cfg a n :=
  ⟨exText, by cases x <;> decide +kernel, h1, h2⟩

/-- What no segment of a list holds is not mapped. -/
theorem not_mapped {cfg : Config} {a n : Nat} (h : cfg.segments.all (fun g => !(decide (g.base ≤ a) && decide (a + n ≤ g.top + 1))) = true) :
    ¬ Mapped cfg a n := by
  rintro ⟨g, hg, h1, h2⟩
  have := List.all_eq_true.1 h g hg
  simp [h1, h2] at this

/-- What only a text segment holds, with SMC = 0, is not writable. -/
theorem not_writable {cfg : Config} {a n : Nat} (hs : cfg.smc = false)
    (h : cfg.segments.all (fun g => g.kind == .text || !(decide (g.base ≤ a) && decide (a + n ≤ g.top + 1))) = true) :
    ¬ Writable cfg a n := by
  rintro ⟨g, hg, ⟨h1, h2⟩, h3⟩
  have := List.all_eq_true.1 h g hg
  simp only [h1, h2, decide_true, Bool.and_self, Bool.not_true, Bool.or_false, beq_iff_eq] at this
  rw [h3 this] at hs
  cases hs

/-! Encoding and lookup. -/

/-- DecodeEncode: well-formed instructions at the ends of their operands' ranges. -/
theorem witness_DecodeEncode :
    ∀ i ∈ ([.jal 31 0xFFFFE, .jal 0 (-0x100000), .beq 0 31 4094, .bgeu 31 0 (-4096), .slli 1 2 0, .slli 1 2 31, .slliHi 1 2 32,
      .sraiHi 1 2 63, .lui 31 0xFFFFF, .csrrci 31 0xFFF 31, .fnmaddD 31 31 31 31 7] : List Instr), i.wellFormed = true := by
  decide +kernel

theorem witness_EncodeDecode : decode 0x00000013 = some (.addi 0 0 0) := by decide +kernel

theorem witness_LookupVerdicts :
    (∀ r ∈ catalog, r.hits 0 = false) ∧ (∃ r ∈ catalog, r.hits 0x00000013 = true ∧ r.rv64 = false) ∧
    (∃ r ∈ catalog, r.hits 0x02009113 = true ∧ r.rv64 = true) := by
  decide +kernel

/-- IllegalWords: an empty word, `lr.w`; `mret`. -/
theorem witness_IllegalWords :
    (let major : List (BitVec 7) := [0b0000011, 0b0000111, 0b0001111, 0b0010011, 0b0010111, 0b0011011, 0b0100011, 0b0100111,
       0b0110011, 0b0110111, 0b0111011, 0b1000011, 0b1000111, 0b1001011, 0b1001111, 0b1010011, 0b1100011, 0b1100111, 0b1101111,
       0b1110011]
     (0x00000000 : InstrWord).extractLsb' 0 7 ∉ major ∧ (0x1000202F : InstrWord).extractLsb' 0 7 ∉ major) ∧
    ((0x30200073 : InstrWord).extractLsb' 0 7 = 0b1110011 ∧ (0x30200073 : InstrWord).extractLsb' 12 3 = 0 ∧
      (0x30200073 : InstrWord) ≠ 0x00000073 ∧ (0x30200073 : InstrWord) ≠ 0x00100073) := by
  decide +kernel

theorem witness_Rv64OnlyReserved :
    (Instr.ld 1 2 0).wellFormed = true ∧ (Instr.ld 1 2 0).rv64Only = true ∧ (running .x32).xlen = .x32 := by decide +kernel

/-! The step. -/

theorem attempts_of {s : State} (h1 : s.ctl = .running) (h2 : s.host = []) (h3 : s.budget = 0) (h4 : s.cancel = false)
    (h5 : s.bp = []) : Attempts s where
  running := h1
  idle := .inl h2
  budget := by rw [h3]; exact fun h => absurd h.1 (by decide +kernel)
  cancel := h4
  breakpoint := by rw [h5]; intro h; cases h

/-- StepExecutes: `addi` at both widths, and `ld` with XLEN = 64. -/
theorem witness_StepExecutes :
    (let s := placed (running .x32) 0x00508093
     Attempts s ∧ segmentsAccepted s.xlen s.cfg.segments = true ∧ pcval s % 4 = 0 ∧ InText s ∧
       decode (wordAtPc s) = some (.addi 1 1 5)) ∧
    (let s := placed (running .x64) 0x0000B083
     Attempts s ∧ segmentsAccepted s.xlen s.cfg.segments = true ∧ pcval s % 4 = 0 ∧ InText s ∧
       decode (wordAtPc s) = some (.ld 1 1 0) ∧ (Instr.ld 1 1 0).rv64Only = true ∧ s.xlen = .x64) :=
  ⟨⟨attempts_of rfl rfl rfl rfl rfl, by decide +kernel, by decide +kernel, ⟨exText, by decide +kernel, rfl, by decide +kernel, by decide +kernel⟩, by decide +kernel⟩,
    ⟨attempts_of rfl rfl rfl rfl rfl, by decide +kernel, by decide +kernel, ⟨exText, by decide +kernel, rfl, by decide +kernel, by decide +kernel⟩, by decide +kernel, rfl, rfl⟩⟩

/-- IterationOrder: a budget just used up, a cancelled unbounded call, a breakpoint, a suppressed breakpoint. -/
theorem witness_IterationOrder :
    (let s := { running .x32 with budget := 1, steps := 1 }
     s.ctl = .running ∧ s.host = [] ∧ 0 < s.budget ∧ s.budget ≤ s.steps) ∧
    (let s := { running .x32 with budget := 0, steps := 1, cancel := true }
     s.ctl = .running ∧ s.host = [] ∧ ¬ (0 < s.budget ∧ s.budget ≤ s.steps) ∧ s.cancel = true) ∧
    (let s := { running .x32 with budget := 2, steps := 1, bp := [0x00400000] }
     s.ctl = .running ∧ s.host = [] ∧ ¬ (0 < s.budget ∧ s.budget ≤ s.steps) ∧ s.cancel = false ∧ s.readPc ∈ s.bp ∧
       s.bpSkip = false) ∧
    (let s := { running .x32 with bp := [0x00400000], bpSkip := true }
     s.ctl = .running ∧ s.host = [] ∧ ¬ (0 < s.budget ∧ s.budget ≤ s.steps) ∧ s.cancel = false ∧
       (s.readPc ∈ s.bp → s.bpSkip = true)) := by
  decide +kernel

/-- A running state with its pc elsewhere. -/
def runningAt (x : XLen) (pc : Word) : State := { running x with pc := pc }

/-- What no text segment holds is not in text. -/
theorem not_inText {s : State} (h : s.cfg.segments.all (fun g => g.kind == .data ||
    !(decide (g.base ≤ s.readPc.toNat) && decide (s.readPc.toNat + 4 ≤ g.top + 1))) = true) : ¬ InText s := by
  rintro ⟨g, hg, hk, h1, h2⟩
  have := List.all_eq_true.1 h g hg
  simp [h1, h2, hk] at this

/-- FetchVerdicts: a misaligned pc; outside text, elsewhere and at TEXT_END; an illegal word, at TEXT_END and elsewhere; a
reserved word. -/
theorem witness_FetchVerdicts :
    (let s := runningAt .x32 0x00400002
     Attempts s ∧ segmentsAccepted s.xlen s.cfg.segments = true ∧ pcval s % 4 ≠ 0) ∧
    (let s := runningAt .x32 0x10000000
     Attempts s ∧ pcval s % 4 = 0 ∧ ¬ InText s ∧ s.readPc ≠ s.xlen.trunc s.cfg.textEnd) ∧
    (let s := { runningAt .x32 0x10000000 with cfg := { (idle .x32).cfg with textEnd := 0x10000000 } }
     Attempts s ∧ pcval s % 4 = 0 ∧ ¬ InText s ∧ s.readPc = s.xlen.trunc s.cfg.textEnd) ∧
    (let s := runningAt .x32 0x00400000
     Attempts s ∧ pcval s % 4 = 0 ∧ InText s ∧ lookup s.xlen (wordAtPc s) = .illegal ∧
       s.readPc = s.xlen.trunc s.cfg.textEnd) ∧
    (let s := runningAt .x32 0x0FFFFFFC
     Attempts s ∧ pcval s % 4 = 0 ∧ InText s ∧ lookup s.xlen (wordAtPc s) = .illegal ∧
       s.readPc ≠ s.xlen.trunc s.cfg.textEnd) ∧
    (let s := placed (runningAt .x32 0x00400000) 0x0000B083
     Attempts s ∧ pcval s % 4 = 0 ∧ InText s ∧ lookup s.xlen (wordAtPc s) = .reserved (.ld 1 1 0)) := by
  exact ⟨⟨attempts_of rfl rfl rfl rfl rfl, by decide +kernel, by decide +kernel⟩, ⟨attempts_of rfl rfl rfl rfl rfl, by decide +kernel, not_inText (by decide +kernel), by decide +kernel⟩,
    ⟨attempts_of rfl rfl rfl rfl rfl, by decide +kernel, not_inText (by decide +kernel), by decide +kernel⟩,
    ⟨attempts_of rfl rfl rfl rfl rfl, by decide +kernel, ⟨exText, by decide +kernel, rfl, by decide +kernel, by decide +kernel⟩, by decide +kernel, by decide +kernel⟩,
    ⟨attempts_of rfl rfl rfl rfl rfl, by decide +kernel, ⟨exText, by decide +kernel, rfl, by decide +kernel, by decide +kernel⟩, by decide +kernel, by decide +kernel⟩,
    ⟨attempts_of rfl rfl rfl rfl rfl, by decide +kernel, ⟨exText, by decide +kernel, rfl, by decide +kernel, by decide +kernel⟩, by decide +kernel⟩⟩

/-- A host that does nothing issues no reset. -/
theorem noReset_nil {s : State} (h : s.host = []) : NoReset s := by intro c rest e; rw [h] at e; cases e

/-- FinalStatesStay: each final state under an idle host. -/
theorem witness_FinalStatesStay :
    (∀ c ∈ [Ctl.cliff, .exited, .faulted], let s := { idle .x32 with ctl := c }
      (s.ctl = .cliff ∨ s.ctl = .exited ∨ s.ctl = .faulted) ∧ NoReset s ∧ step s = .next s) ∧
    ((idle .x32).ctl ≠ .running ∧ (idle .x32).host = []) := by
  refine ⟨?_, by decide +kernel, rfl⟩
  intro c hc
  simp only [List.mem_cons, List.not_mem_nil, or_false] at hc
  rcases hc with rfl | rfl | rfl
  · exact ⟨by decide +kernel, noReset_nil rfl, rfl⟩
  · exact ⟨by decide +kernel, noReset_nil rfl, rfl⟩
  · exact ⟨by decide +kernel, noReset_nil rfl, rfl⟩

/-- PreciseFaults: an illegal word. -/
theorem witness_PreciseFaults :
    let s := runningAt .x32 0x00400004
    s.ctl = .running ∧ HostIdle s ∧ step s = .next (after s) ∧ (after s).ctl = .faulted :=
  ⟨rfl, .inl rfl, step_after (by decide +kernel), by decide +kernel⟩

/-- One instruction on a state. -/
def did (i : Instr) (s : State) : State := nextOf s (exec i s)

/-- FaultCauses: a misaligned load. -/
theorem witness_FaultCauses :
    (running .x32).ctl = .running ∧ exec (.lw 1 0 1) (running .x32) = .next (did (.lw 1 0 1) (running .x32)) ∧
      (did (.lw 1 0 1) (running .x32)).ctl = .faulted :=
  ⟨rfl, eq_nextOf (by decide +kernel), by decide +kernel⟩

/-- CompletionCounts: one that completes, one that faults, one that waits. -/
theorem witness_CompletionCounts :
    ∀ p ∈ [(Instr.addi 1 1 5, Ctl.running), (.lw 1 0 1, .faulted), (.ecall, .service)],
      (running .x32).ctl = .running ∧ exec p.1 (running .x32) = .next (did p.1 (running .x32)) ∧
        (did p.1 (running .x32)).ctl = p.2 := by
  intro p hp
  simp only [List.mem_cons, List.not_mem_nil, or_false] at hp
  rcases hp with rfl | rfl | rfl
  · exact ⟨rfl, eq_nextOf (by decide +kernel), by decide +kernel⟩
  · exact ⟨rfl, eq_nextOf (by decide +kernel), by decide +kernel⟩
  · exact ⟨rfl, eq_nextOf (by decide +kernel), by decide +kernel⟩

/-- OneWritePort and FlagsSticky: one of each kind. -/
theorem witness_OneWritePort_FlagsSticky :
    ∀ i ∈ [Instr.addi 1 1 5, .sw 0 1 0, .flw 1 0 0, .faddS 1 2 3 0, .jal 1 8],
      exec i (running .x32) = .next (did i (running .x32)) ∧ i.kind ≠ .csr := by
  intro i hi
  simp only [List.mem_cons, List.not_mem_nil, or_false] at hi
  rcases hi with rfl | rfl | rfl | rfl | rfl
  all_goals exact ⟨eq_nextOf (by decide +kernel), by decide +kernel⟩

/-- TextProtected: the ends of the text segment. -/
theorem witness_TextProtected :
    let s := running .x32
    segmentsAccepted s.xlen s.cfg.segments = true ∧ s.cfg.smc = false ∧ NoReset s ∧ step s = .next (after s) ∧
      IsText s.cfg 0x00400000 ∧ IsText s.cfg 0x0FFFFFFF :=
  ⟨by decide +kernel, rfl, noReset_nil rfl, step_after (by decide +kernel), ⟨exText, by decide +kernel, rfl, by decide +kernel, by decide +kernel⟩,
    ⟨exText, by decide +kernel, rfl, by decide +kernel, by decide +kernel⟩⟩

theorem witness_ConfigFrozen :
    (NoReset (running .x32) ∧ step (running .x32) = .next (after (running .x32))) ∧
    (let s := { idle .x32 with host := [.command (.setBreakpoints [0x00400004])] }
     s.host = .command (.setBreakpoints [0x00400004]) :: [] ∧ s.ctl ≠ .running) :=
  ⟨⟨noReset_nil rfl, step_after (by decide +kernel)⟩, rfl, by decide +kernel⟩

/-- InvStep: a running state. -/
theorem witness_InvStep : Inv (running .x32) ∧ step (running .x32) = .next (after (running .x32)) :=
  ⟨⟨by decide +kernel, by decide +kernel, by decide +kernel, by decide +kernel, by decide +kernel, by decide +kernel,
    by decide +kernel, by decide +kernel, by decide +kernel, by intro r h; cases h⟩, step_after (by decide +kernel)⟩

/-! Memory. -/

/-- WriteThenRead: the lowest doubleword and the highest byte of data. -/
theorem witness_WriteThenRead :
    segmentsAccepted (idle .x32).xlen (idle .x32).cfg.segments = true ∧ Stores (idle .x32).cfg 0x10000000 .dword ∧
      Stores (idle .x32).cfg 0x7FFFFFFF .byte :=
  ⟨ex_accepted _, ⟨by decide +kernel, exData_writable _ (by decide +kernel) (by decide +kernel), exData_writable _ (by decide +kernel) (by decide +kernel)⟩,
    exData_writable _ (by decide +kernel) (by decide +kernel)⟩

/-- LoadChecks and StoreChecks, at the ends of the segments: misaligned; aligned and unmapped; mapped; mapped and not writable;
writable. -/
theorem witness_LoadChecks_StoreChecks :
    let cfg := (idle .x32).cfg
    segmentsAccepted cfg.xlen cfg.segments = true ∧ (0x10000001 % MemSize.half.bytes ≠ 0) ∧
    (0x80000000 % MemSize.byte.bytes = 0 ∧ ¬ Mapped cfg 0x80000000 1) ∧
    (0x003FFFFF % MemSize.byte.bytes = 0 ∧ ¬ Mapped cfg 0x003FFFFF 1) ∧
    (0x7FFFFFFC % MemSize.word.bytes = 0 ∧ Mapped cfg 0x7FFFFFFC 4 ∧ Writable cfg 0x7FFFFFFC 4) ∧
    (0x00400000 % MemSize.word.bytes = 0 ∧ Mapped cfg 0x00400000 4 ∧ ¬ Writable cfg 0x00400000 4) :=
  ⟨by decide +kernel, by decide +kernel, ⟨by decide +kernel, not_mapped (by decide +kernel)⟩, ⟨by decide +kernel, not_mapped (by decide +kernel)⟩,
    ⟨by decide +kernel, exData_holds _ (by decide +kernel) (by decide +kernel), exData_writable _ (by decide +kernel) (by decide +kernel)⟩,
    ⟨by decide +kernel, exText_holds _ (by decide +kernel) (by decide +kernel), not_writable rfl (by decide +kernel)⟩⟩

/-- A configuration whose data segment ends in the middle of the doubleword at 0x10000000, followed by these segments. -/
def cut (more : List Segment) : Config :=
  { (idle .x32).cfg with segments := ⟨"data", 0x10000000, 0x10000003, .data⟩ :: more }

/-- DoublewordChecks, each clause: misaligned; low half unmapped; high half unmapped; both mapped; low half in text; low half writable
and high half unmapped; high half in text; both writable. -/
theorem witness_DoublewordChecks :
    (0x10000004 % 8 ≠ 0) ∧ ¬ Mapped (idle .x32).cfg 0x80000000 4 ∧
    (segmentsAccepted .x32 (cut []).segments = true ∧ Writable (cut []) 0x10000000 4 ∧ ¬ Mapped (cut []) 0x10000004 4) ∧
    (Mapped (idle .x32).cfg 0x00400000 4 ∧ Mapped (idle .x32).cfg 0x00400004 4 ∧ ¬ Writable (idle .x32).cfg 0x00400000 4) ∧
    (let c := cut [⟨"text", 0x10000004, 0x1FFFFFFF, .text⟩]
     segmentsAccepted .x32 c.segments = true ∧ Writable c 0x10000000 4 ∧ Mapped c 0x10000004 4 ∧ ¬ Writable c 0x10000004 4) ∧
    (Writable (idle .x32).cfg 0x10000000 4 ∧ Writable (idle .x32).cfg 0x10000004 4) :=
  ⟨by decide +kernel, not_mapped (by decide +kernel),
    ⟨by decide +kernel, ⟨⟨"data", 0x10000000, 0x10000003, .data⟩, by decide +kernel, ⟨by decide +kernel, by decide +kernel⟩, by decide +kernel⟩, not_mapped (by decide +kernel)⟩,
    ⟨exText_holds _ (by decide +kernel) (by decide +kernel), exText_holds _ (by decide +kernel) (by decide +kernel), not_writable rfl (by decide +kernel)⟩,
    ⟨by decide +kernel, ⟨⟨"data", 0x10000000, 0x10000003, .data⟩, by decide +kernel, ⟨by decide +kernel, by decide +kernel⟩, by decide +kernel⟩,
      ⟨⟨"text", 0x10000004, 0x1FFFFFFF, .text⟩, by decide +kernel, by decide +kernel, by decide +kernel⟩, not_writable rfl (by decide +kernel)⟩,
    ⟨exData_writable _ (by decide +kernel) (by decide +kernel), exData_writable _ (by decide +kernel) (by decide +kernel)⟩⟩

/-! Instructions. -/

/-- ImmediateOps, WordOps, Multiply, Divide, IntLoads, IntStores, MemoryFaults, FpConversions and SignInjectAndMoves ask for a width in
some clauses. -/
theorem witness_widths : (running .x64).xlen = .x64 ∧ (running .x32).xlen = .x32 := by decide +kernel

/-- Jumps: aligned targets, across the end of the address space too. -/
theorem witness_Jumps :
    wrap (running .x32) (pcval (running .x32) + (8 : BitVec 21).toInt) % 4 = 0 ∧
    wrap (running .x32) (uval (running .x32) 1 + (-4 : BitVec 12).toInt) / 2 * 2 % 4 = 0 ∧
    wrap (running .x32) (uval (running .x32) 1 + (1 : BitVec 12).toInt) / 2 * 2 % 4 = 0 := by
  decide +kernel

/-- A state with x1 = 2^XLEN - 1 (-1 signed) and x2 = 0. -/
def compared (x : XLen) : State := (running x).writeX 1 0xFFFFFFFFFFFFFFFF

/-- MisalignedTargets and Branches: an aligned and a misaligned target, and every branch taken and not taken. -/
theorem witness_Branches :
    ∀ s ∈ [compared .x32, compared .x64],
      wrap s (pcval s + (-16 : BitVec 13).toInt) % 4 = 0 ∧ wrap s (pcval s + (2 : BitVec 13).toInt) % 4 ≠ 0 ∧
      wrap s (pcval s + (2 : BitVec 21).toInt) % 4 ≠ 0 ∧ wrap s (uval s 2 + (2 : BitVec 12).toInt) / 2 * 2 % 4 ≠ 0 ∧
      uval s 1 = uval s 1 ∧ uval s 1 ≠ uval s 2 ∧ sval s 1 < sval s 2 ∧ sval s 2 ≥ sval s 1 ∧ ¬ sval s 2 < sval s 1 ∧
      ¬ sval s 1 ≥ sval s 2 ∧ uval s 2 < uval s 1 ∧ uval s 1 ≥ uval s 2 ∧ ¬ uval s 1 < uval s 2 ∧ ¬ uval s 2 ≥ uval s 1 := by
  decide +kernel

/-- A state with x1 at the lowest and x2 just past the highest data address. -/
def based (x : XLen) : State := ((running x).writeX 1 0x10000000).writeX 2 0x80000000

/-- IntLoads, IntStores and FpLoadsStores: accesses of every width at both ends of the data segment. -/
theorem witness_IntLoads_IntStores_FpLoadsStores (x : XLen) :
    segmentsAccepted (based x).xlen (based x).cfg.segments = true ∧
    (∀ sz, Loads (based x).cfg ((based x).ea 1 0).toNat sz ∧ Stores (based x).cfg ((based x).ea 1 0).toNat sz) ∧
    (Loads (based x).cfg ((based x).ea 2 (-1)).toNat .byte ∧ Stores (based x).cfg ((based x).ea 2 (-8)).toNat .dword) := by
  have hc : (based x).cfg = (idle x).cfg := by cases x <;> rfl
  have h1 : ((based x).ea 1 0).toNat = 0x10000000 := by cases x <;> decide +kernel
  have h2 : ((based x).ea 2 (-1)).toNat = 0x7FFFFFFF := by cases x <;> decide +kernel
  have h3 : ((based x).ea 2 (-8)).toNat = 0x7FFFFFF8 := by cases x <;> decide +kernel
  rw [h1, h2, h3, hc]
  refine ⟨by cases x <;> decide +kernel, ?_, exData_holds _ (by decide +kernel) (by decide +kernel),
    by decide +kernel, exData_writable _ (by decide +kernel) (by decide +kernel), exData_writable _ (by decide +kernel) (by decide +kernel)⟩
  intro sz
  cases sz
  · exact ⟨exData_holds _ (by decide +kernel) (by decide +kernel), exData_writable _ (by decide +kernel) (by decide +kernel)⟩
  · exact ⟨⟨by decide +kernel, exData_holds _ (by decide +kernel) (by decide +kernel)⟩, by decide +kernel, exData_writable _ (by decide +kernel) (by decide +kernel)⟩
  · exact ⟨⟨by decide +kernel, exData_holds _ (by decide +kernel) (by decide +kernel)⟩, by decide +kernel, exData_writable _ (by decide +kernel) (by decide +kernel)⟩
  · exact ⟨⟨by decide +kernel, exData_holds _ (by decide +kernel) (by decide +kernel), exData_holds _ (by decide +kernel) (by decide +kernel)⟩,
      by decide +kernel, exData_writable _ (by decide +kernel) (by decide +kernel), exData_writable _ (by decide +kernel) (by decide +kernel)⟩

/-- MemoryFaults: a load past the data segment, and a store into text. -/
theorem witness_MemoryFaults :
    (Instr.fld 3 2 0).access = some (.load, .dword, 2, 0) ∧
    (based .x32).memRead ((based .x32).ea 2 0) .dword = .error ⟨.addressOutOfRange, 0x80000000, .load⟩ ∧
    (Instr.sb 3 4 0).access = some (.store, .byte, 3, 0) ∧
    (let s := (running .x32).writeX 3 0x00400000
     s.memWrite (s.ea 3 0) .byte 7 = .error ⟨.writeProtection, 0x00400000, .store⟩) :=
  ⟨rfl, by decide +kernel, rfl, by decide +kernel⟩

/-- CsrInstructions: each implemented CSR, a read-only one without write intent. -/
theorem witness_CsrInstructions :
    Csr.ofAddr .x64 0x001 = some .fflags ∧ Csr.ofAddr .x64 0x002 = some .frm ∧ Csr.ofAddr .x64 0x003 = some .fcsr ∧
    Csr.ofAddr .x64 0xC00 = some .cycle ∧ Csr.ofAddr .x64 0xC01 = some .time ∧ Csr.ofAddr .x64 0xC02 = some .instret ∧
    Csr.ofAddr .x32 0xC80 = some .cycleh ∧ Csr.ofAddr .x32 0xC81 = some .timeh ∧ Csr.ofAddr .x32 0xC82 = some .instreth ∧
    csrReadOnly 0x003 = false ∧ decide ((0 : XReg) ≠ 0) = false := by
  decide +kernel

/-- CsrIllegal: an address of no CSR, a high half with XLEN = 64, a write of a read-only CSR. -/
theorem witness_CsrIllegal :
    Csr.ofAddr .x32 0x300 = none ∧ Csr.ofAddr .x64 0xC80 = none ∧ (0xC00 : BitVec 12).toNat / 1024 = 3 ∧ (1 : XReg) ≠ 0 := by
  decide +kernel

/-- EnvironmentCallAndBreakpoint: the exit services of EX, and another service. -/
theorem witness_EnvironmentCallAndBreakpoint :
    (((running .x32).writeX 17 10).readX 17).toNat ∈ (running .x32).cfg.exitServices ∧
    (((running .x32).writeX 17 93).readX 17).toNat ∈ (running .x32).cfg.exitServices ∧
    ((running .x32).readX 17).toNat ∉ (running .x32).cfg.exitServices := by
  decide +kernel

/-- ServiceReplies: a waiting block, each command and x0, a data byte, a text byte and a byte of no segment. -/
theorem witness_ServiceReplies :
    (∀ c ∈ [HostCommand.serviceDone, .serviceTerminate 3, .serviceWriteX 10 7, .serviceWriteX 0 7, .serviceWriteF 0 7,
        .serviceWriteByte 0x10000000 7, .serviceWriteByte 0x0FFFFFFF 7, .serviceWriteByte 0x80000000 7],
      let s := { idle .x32 with ctl := .service, svc := some ⟨0x00400000, 1⟩, host := [.command c] }
      s.ctl = .service ∧ s.host = .command c :: []) ∧ (10 : XReg) ≠ 0 ∧
    (segOf (idle .x32).cfg ((idle .x32).xlen.trunc 0x10000000).toNat 1 = some exData ∧ exData.kind = .data) ∧
    (segOf (idle .x32).cfg ((idle .x32).xlen.trunc 0x0FFFFFFF).toNat 1 = some exText ∧ exText.kind = .text) ∧
    segOf (idle .x32).cfg ((idle .x32).xlen.trunc 0x80000000).toNat 1 = none := by
  decide +kernel

/-- RunAndStep: every accepting and every final state. -/
theorem witness_RunAndStep :
    (∀ c ∈ [Ctl.ready, .breakpoint, .maxSteps, .cancelled],
      let s := { idle .x32 with ctl := c, host := [.command .run, .command .step] }
      (s.ctl = .ready ∨ s.ctl = .breakpoint ∨ s.ctl = .maxSteps ∨ s.ctl = .cancelled) ∧
        s.host = .command .run :: [.command .step]) ∧
    (∀ c ∈ [Ctl.cliff, .exited, .faulted],
      let s := { idle .x32 with ctl := c, host := [.command .step] }
      (s.ctl = .cliff ∨ s.ctl = .exited ∨ s.ctl = .faulted) ∧ s.host = .command .step :: []) := by
  decide +kernel

/-- ResetProcedure: an accepted configuration with a byte of image, a rejected one, and a reset while RUNNING. -/
theorem witness_ResetProcedure :
    (let c := { Config.initial with image := [(0x00400000, 0x13)] }
     let s := { idle .x32 with host := [.command (.reset (some c))] }
     s.host = .command (.reset (some c)) :: [] ∧ s.ctl ≠ .running ∧ configAccepted c = true ∧ (c.image.map (·.1)).Nodup) ∧
    (let s := { idle .x32 with host := [.command (.reset none)] }
     s.host = .command (.reset none) :: [] ∧ configAccepted s.cfg = true) ∧
    configAccepted { Config.initial with pcInit := 0x00400002 } = false ∧ (running .x32).ctl = .running := by
  decide +kernel

/-! Floating point. -/

/-- RoundingModes, FpArithmetic, FpFused and FpConversions: the five modes, static and dynamic; a reserved one of each kind. -/
theorem witness_RoundingModes :
    (let s := { running .x32 with frm := 2 }
     modeCode s 0 = 0 ∧ modeCode s 1 = 1 ∧ modeCode s 7 = 2 ∧ modeCode s 3 = 3 ∧ modeCode s 4 = 4 ∧
     s.roundMode 0 = some .rne ∧ s.roundMode 1 = some .rtz ∧ s.roundMode 7 = some .rdn ∧ s.roundMode 3 = some .rup ∧
     s.roundMode 4 = some .rmm ∧ (Instr.faddS 1 2 3 5).rmField = some 5 ∧ 5 ≤ (modeCode s 5).toNat) ∧
    (let s := { running .x32 with frm := 7 }
     (Instr.fcvtDS 1 2 7).rmField = some 7 ∧ 5 ≤ (modeCode s 7).toNat) := by
  decide +kernel

theorem witness_NanBoxing :
    (let s := (running .x32).writeF 1 0xFFFFFFFF3F800000
     (s.readF 1).extractLsb' 32 32 = 0xFFFFFFFF#32 ∧ (s.readF 2).extractLsb' 32 32 ≠ 0xFFFFFFFF#32) := by
  decide +kernel

/-- One, minus one and the zeros of binary32, as values. -/
theorem single_one : single.unpack 0x3F800000 = .fin false 0x800000 (-23) := by decide +kernel
theorem single_minus_one : single.unpack 0xBF800000 = .fin true 0x800000 (-23) := by decide +kernel
theorem single_zero : single.unpack 0 = .fin false 0 (-149) := by decide +kernel
theorem double_one : double.unpack 0x3FF0000000000000 = .fin false 0x10000000000000 (-52) := by decide +kernel

theorem rat_one : (single.unpack 0x3F800000).rat = 1 := by rw [single_one]; norm_num [FpVal.rat]
theorem rat_minus_one : (single.unpack 0xBF800000).rat = -1 := by rw [single_minus_one]; norm_num [FpVal.rat]
theorem rat_zero_pattern : (single.unpack 0).rat = 0 := by rw [single_zero]; norm_num [FpVal.rat]
theorem rat_double_one : (double.unpack 0x3FF0000000000000).rat = 1 := by rw [double_one]; norm_num [FpVal.rat]

/-- Sums, ProductsQuotientsRoots, FusedRounding and ConversionsRounding: finite operands of both formats, with nonzero and with zero
results. -/
theorem witness_finite_operands :
    IsFormat single ∧ IsFormat double ∧ (single.unpack 0x3F800000).isFinite = true ∧ (single.unpack 0).isFinite = true ∧
    (double.unpack 0x3FF0000000000000).isFinite = true ∧
    (single.unpack 0x3F800000).rat + (single.unpack 0x3F800000).rat ≠ 0 ∧
    (single.unpack 0x3F800000).rat + (single.unpack 0xBF800000).rat = 0 ∧
    (single.unpack 0x3F800000).rat - (single.unpack 0xBF800000).rat ≠ 0 ∧
    (single.unpack 0x3F800000).rat - (single.unpack 0x3F800000).rat = 0 ∧
    (single.unpack 0x3F800000).rat * (single.unpack 0xBF800000).rat ≠ 0 ∧
    (single.unpack 0x3F800000).rat * (single.unpack 0).rat = 0 ∧ (single.unpack 0).rat = 0 ∧
    0 < (double.unpack 0x3FF0000000000000).rat ∧ RoundsTo .rne ((single.unpack 0x3F800000).rat : ℝ) 1 := by
  rw [rat_one, rat_minus_one, rat_zero_pattern, rat_double_one]
  refine ⟨.inl rfl, .inr rfl, by decide +kernel, by decide +kernel, by decide +kernel, by norm_num, by norm_num, by norm_num, by norm_num, by norm_num,
    by norm_num, rfl, by norm_num, ?_⟩
  have := RoundsTo_intCast .rne 1
  push_cast at this ⊢
  exact this

/-- FusedRounding: a sum that is not zero and one that is, negations included. -/
theorem witness_FusedRounding :
    (1 : ℚ) * ((single.unpack 0x3F800000).rat * (single.unpack 0x3F800000).rat) + 1 * (single.unpack 0x3F800000).rat ≠ 0 ∧
    (-1 : ℚ) * ((single.unpack 0x3F800000).rat * (single.unpack 0x3F800000).rat) + 1 * (single.unpack 0x3F800000).rat = 0 := by
  rw [rat_one]; norm_num

/-- ExceptionalOperands, OrderOperations and Classification: a NaN of each kind, the infinities, the zeros, a subnormal, a normal and a
negative number. -/
theorem witness_classes :
    (single.unpack 0x7FC00000).isNaN = true ∧ (single.unpack 0x7FC00000).isSignaling = false ∧
    (single.unpack 0x7F800001).isSignaling = true ∧ (single.unpack 0x7F800000).isInf = true ∧
    (single.unpack 0xFF800000).isInf = true ∧ single.signOf 0xFF800000 = true ∧ (single.unpack 0).isFinite = true ∧
    (single.unpack 0).rat = 0 ∧ single.signOf 0x80000000 = true ∧ (single.unpack 0xBF800000).isFinite = true ∧
    (single.unpack 0xBF800000).rat < 0 ∧ 0 < (single.unpack 1).rat ∧ (single.unpack 1).rat < (2 : ℚ) ^ single.minExp ∧
    (2 : ℚ) ^ single.minExp ≤ (single.unpack 0x3F800000).rat ∧ (single.unpack 0xBF800000).rat ≤ -(2 : ℚ) ^ single.minExp ∧
    -(2 : ℚ) ^ single.minExp < (single.unpack 0x80000001).rat ∧ (single.unpack 0x80000001).rat < 0 := by
  rw [rat_one, rat_minus_one, rat_zero_pattern, show single.unpack 1 = .fin false 1 (-149) by decide +kernel,
    show single.unpack 0x80000001 = .fin true 1 (-149) by decide +kernel, show single.minExp = -126 by decide +kernel]
  refine ⟨by decide +kernel, by decide +kernel, by decide +kernel, by decide +kernel, by decide +kernel, by decide +kernel, by decide +kernel, rfl, by decide +kernel, by decide +kernel, ?_⟩
  norm_num [FpVal.rat]

/-- OrderOperations: -1 below 1, and -0 below +0. -/
theorem witness_OrderOperations : Below single 0xBF800000 0x3F800000 ∧ Below single 0x80000000 0 ∧ ¬ Below single 0 0x80000000 := by
  have hz : single.unpack 0x80000000 = .fin true 0 (-149) := by decide +kernel
  refine ⟨.inl ?_, .inr ⟨?_, by decide +kernel, by decide +kernel⟩, ?_⟩
  · rw [single_minus_one, single_one]; norm_num [FpVal.Less, FpVal.rat]
  · rw [hz, single_zero]; norm_num [FpVal.Equal, FpVal.rat]
  · rintro (h | ⟨_, h, _⟩)
    · rw [hz, single_zero] at h; norm_num [FpVal.Less, FpVal.rat] at h
    · exact absurd h (by decide +kernel)

/-- A double is this integer, and rounds to it in every mode. -/
def Integral (a : Nat) (n : Int) : Prop :=
  (double.unpack a).isFinite = true ∧ ∀ mode, RoundsTo mode ((double.unpack a).rat : ℝ) n

theorem integral_of {a : Nat} {n : Int} {s : Bool} {m : Nat} {e : Int} (h : double.unpack a = .fin s m e)
    (hr : (FpVal.fin s m e).rat = (n : ℚ)) : Integral a n := by
  refine ⟨by rw [h]; rfl, fun mode => ?_⟩
  rw [h, hr, Rat.cast_intCast]
  exact RoundsTo_intCast mode n

/-- ConversionsRounding: for each integer kind the doubles next to and at both ends of its range, outside and inside. -/
theorem witness_ConversionsRounding :
    (Integral 0xC1E0000000200000 (IntKind.w.least - 1) ∧ Integral 0xC1E0000000000000 IntKind.w.least ∧
      Integral 0x41DFFFFFFFC00000 IntKind.w.greatest ∧ Integral 0x41E0000000000000 (IntKind.w.greatest + 1)) ∧
    (Integral 0xBFF0000000000000 (IntKind.wu.least - 1) ∧ Integral 0 IntKind.wu.least ∧
      Integral 0x41EFFFFFFFE00000 IntKind.wu.greatest ∧ Integral 0x41F0000000000000 (IntKind.wu.greatest + 1)) ∧
    (Integral 0xC3E0000000000001 (IntKind.l.least - 2048) ∧ Integral 0xC3E0000000000000 IntKind.l.least ∧
      Integral 0x43DFFFFFFFFFFFFF (IntKind.l.greatest - 1023) ∧ Integral 0x43E0000000000000 (IntKind.l.greatest + 1)) ∧
    (Integral 0xBFF0000000000000 (IntKind.lu.least - 1) ∧ Integral 0 IntKind.lu.least ∧
      Integral 0x43EFFFFFFFFFFFFF (IntKind.lu.greatest - 2047) ∧ Integral 0x43F0000000000000 (IntKind.lu.greatest + 1)) := by
  refine ⟨⟨?_, ?_, ?_, ?_⟩, ⟨?_, ?_, ?_, ?_⟩, ⟨?_, ?_, ?_, ?_⟩, ⟨?_, ?_, ?_, ?_⟩⟩ <;>
    exact integral_of (by rfl) (by norm_num [FpVal.rat, IntKind.least, IntKind.greatest, FpFormat.signOf, FpFormat.fracOf,
      FpFormat.expOf, FpFormat.ulpExp, FpFormat.minExp, FpFormat.bias, double])

/-- FormatLayout: an infinity, a NaN of each kind, a subnormal and a normal number of each format. -/
theorem witness_FormatLayout :
    (∀ p ∈ [(0x7F800000#32, 255, 0), (0x7F800001#32, 255, 1), (0x7FC00000#32, 255, 0x400000), (1#32, 0, 1), (0x3F800000#32, 127, 0)],
      (p.1.extractLsb' 23 8).toNat = p.2.1 ∧ (p.1.extractLsb' 0 23).toNat = p.2.2) ∧
    (∀ p ∈ [(0x7FF0000000000000#64, 2047, 0), (0x7FF0000000000001#64, 2047, 1), (0x7FF8000000000000#64, 2047, 0x8000000000000),
        (1#64, 0, 1), (0x3FF0000000000000#64, 1023, 0)],
      (p.1.extractLsb' 52 11).toNat = p.2.1 ∧ (p.1.extractLsb' 0 52).toNat = p.2.2) := by
  simp

/-- Overflow in each mode and sign (46_float_single.md R246; 47_float_double.md R308). -/
theorem test_overflow_results :
    double.mul .rne 0x7FEFFFFFFFFFFFFF 0x4000000000000000 = ⟨0x7FF0000000000000, 0b00101⟩ ∧
    double.mul .rtz 0x7FEFFFFFFFFFFFFF 0x4000000000000000 = ⟨0x7FEFFFFFFFFFFFFF, 0b00101⟩ ∧
    double.mul .rdn 0x7FEFFFFFFFFFFFFF 0x4000000000000000 = ⟨0x7FEFFFFFFFFFFFFF, 0b00101⟩ ∧
    double.mul .rdn 0xFFEFFFFFFFFFFFFF 0x4000000000000000 = ⟨0xFFF0000000000000, 0b00101⟩ ∧
    double.mul .rup 0x7FEFFFFFFFFFFFFF 0x4000000000000000 = ⟨0x7FF0000000000000, 0b00101⟩ ∧
    double.mul .rup 0xFFEFFFFFFFFFFFFF 0x4000000000000000 = ⟨0xFFEFFFFFFFFFFFFF, 0b00101⟩ ∧
    double.mul .rmm 0xFFEFFFFFFFFFFFFF 0x4000000000000000 = ⟨0xFFF0000000000000, 0b00101⟩ := by
  decide +kernel

end Sys2Proof.Tests
end

/-! PROOFS. The statements of 10_state.md: the invariants at reset and at every step (R57). -/

namespace Sys2Proof.Machine

/-! The invariants, in two parts: what is stored, and how the control state agrees with the pending record, code and request. -/

/-- The part of Inv that speaks of stored values: the configuration, the registers, the pc and memory. -/
structure DataInv (s : State) : Prop where
  config : configAccepted s.cfg = true
  x0 : s.x[0] = 0
  xWidth : ∀ k : Fin 32, fits s.xlen s.x[k] = true
  pcWidth : fits s.xlen s.pc = true
  pcAligned : aligned4 s.pc = true
  memWf : s.mem.wf = true

/-- The part of Inv that speaks of the control state: which record, code or request it goes with. -/
structure ControlInv (s : State) : Prop where
  faulted : s.ctl = .faulted ↔ s.fault ≠ none
  exited : s.ctl = .exited ↔ s.exitCode ≠ none
  service : s.ctl = .service ↔ s.svc ≠ none
  faultPc : ∀ r, s.fault = some r → r.pc = s.pc

theorem inv_iff {s : State} : Inv s ↔ DataInv s ∧ ControlInv s :=
  ⟨fun h => ⟨⟨h.config, h.x0, h.xWidth, h.pcWidth, h.pcAligned, h.memWf⟩, ⟨h.faulted, h.exited, h.service, h.faultPc⟩⟩,
    fun ⟨hd, hc⟩ => ⟨hd.config, hd.x0, hd.xWidth, hd.pcWidth, hd.pcAligned, hd.memWf, hc.faulted, hc.exited, hc.service,
      hc.faultPc⟩⟩

/-! Stored values. -/

namespace DataInv

variable {s t : State}

/-- The four stored fields decide it. -/
theorem congr (h : DataInv s) (hc : t.cfg = s.cfg) (hx : t.x = s.x) (hp : t.pc = s.pc) (hm : t.mem = s.mem) : DataInv t where
  config := hc ▸ h.config
  x0 := hx ▸ h.x0
  xWidth k := by simpa only [State.xlen, hc, hx] using h.xWidth k
  pcWidth := by simpa only [State.xlen, hc, hp] using h.pcWidth
  pcAligned := hp ▸ h.pcAligned
  memWf := hm ▸ h.memWf

theorem writeX (h : DataInv s) (r : XReg) (v : Word) : DataInv (s.writeX r v) := by
  by_cases hr : r = 0
  · simpa only [State.writeX, if_pos hr] using h
  · have hx : (s.writeX r v).x = s.x.set r.toNat (s.xlen.trunc v) := by rw [State.writeX, if_neg hr]
    have hr0 : r.toNat ≠ 0 := fun h0 => hr (BitVec.eq_of_toNat_eq h0)
    refine ⟨by simpa using h.config, ?_, fun k => ?_, by simpa [State.xlen] using h.pcWidth, by simpa using h.pcAligned,
      by simpa using h.memWf⟩
    · simpa only [hx, Vector.getElem_set_ne _ _ hr0] using h.x0
    · simp only [State.xlen, State.writeX_cfg, hx, Fin.getElem_fin, Vector.getElem_set]
      split
      · exact fits_trunc _ _
      · exact h.xWidth k

theorem commit (h : DataInv s) {p : Word} (hp : aligned4 p = true) : DataInv (s.commit p) where
  config := h.config
  x0 := h.x0
  xWidth := h.xWidth
  pcWidth := fits_trunc _ _
  pcAligned := by rw [State.commit_pc, aligned4_trunc, hp]
  memWf := h.memWf

theorem advance (h : DataInv s) : DataInv s.advance :=
  h.commit (by simpa [State.readPc] using h.pcAligned)

theorem withMem (h : DataInv s) {m : Memory} (hm : m.wf = true) : DataInv { s with mem := m } :=
  { h with memWf := hm }

theorem storeRaw (h : DataInv s) (a : Word) (v : BitVec 64) (n : Nat) : DataInv (s.storeRaw a v n) :=
  h.withMem (Memory.store_wf _ _ _ _ h.memWf)

theorem csrEffect (h : DataInv s) (c : Csr) (rd : XReg) (wr : Bool) (op : Word → Word) : DataInv (s.csrEffect c rd wr op) := by
  unfold State.csrEffect
  refine DataInv.writeX ?_ rd _
  cases wr <;> exact h.congr (by simp) (by simp) (by simp) (by simp)

end DataInv

/-- The state after a reset with an accepted configuration (70_reset_and_hazards.md R371, R374). -/
theorem dataInv_ofConfig {cfg : Config} (h : configAccepted cfg = true) : DataInv (State.ofConfig cfg) := by
  have hcfg := h
  simp only [configAccepted, Bool.and_eq_true, beq_iff_eq, List.all_eq_true] at h
  obtain ⟨⟨⟨⟨⟨_, hx0⟩, hx⟩, hpc⟩, _⟩, hal⟩ := h.1
  exact ⟨hcfg, hx0, fun k => hx _ (by simp [State.ofConfig]), hpc, hal, Memory.ofCells_wf _⟩

/-- The configuration EX meets the boot requirements. -/
theorem config_initial_accepted : configAccepted Config.initial = true := by
  rw [configAccepted, catalog_constructs]
  decide

/-! The control state. -/

/-- The five fields it reads decide it. -/
theorem ControlInv.congr {s t : State} (h : ControlInv s) (hc : t.ctl = s.ctl) (hf : t.fault = s.fault)
    (he : t.exitCode = s.exitCode) (hs : t.svc = s.svc) (hp : t.pc = s.pc) : ControlInv t where
  faulted := by rw [hc, hf]; exact h.faulted
  exited := by rw [hc, he]; exact h.exited
  service := by rw [hc, hs]; exact h.service
  faultPc := by rw [hf, hp]; exact h.faultPc

/-- Neither a record, nor a code, nor a request stands. -/
structure NothingPending (s : State) : Prop where
  fault : s.fault = none
  exitCode : s.exitCode = none
  svc : s.svc = none

theorem ControlInv.nothingPending {s : State} (h : ControlInv s) (hf : s.ctl ≠ .faulted) (he : s.ctl ≠ .exited)
    (hs : s.ctl ≠ .service) : NothingPending s where
  fault := not_not.1 (mt h.faulted.2 hf)
  exitCode := not_not.1 (mt h.exited.2 he)
  svc := not_not.1 (mt h.service.2 hs)

theorem NothingPending.controlInv {s : State} (h : NothingPending s) (hf : s.ctl ≠ .faulted) (he : s.ctl ≠ .exited)
    (hs : s.ctl ≠ .service) : ControlInv s where
  faulted := by simp [hf, h.fault]
  exited := by simp [he, h.exitCode]
  service := by simp [hs, h.svc]
  faultPc := by simp [h.fault]

/-- After a reset nothing is pending, and the control state is READY. -/
theorem controlInv_ofConfig (cfg : Config) : ControlInv (State.ofConfig cfg) :=
  NothingPending.controlInv ⟨rfl, rfl, rfl⟩ nofun nofun nofun

/-! An instruction keeps both parts. -/

theorem Effect.dataInv {i : Instr} {s t : State} (h : Effect i s t) (hd : DataInv s) : DataInv t := by
  cases h with
  | fault r => exact hd.congr rfl rfl rfl rfl
  | writeX rd v e => exact ((hd.congr (t := s.accrue e) rfl rfl rfl rfl).writeX rd v).advance
  | writeF rd v e => exact (hd.congr (t := (s.accrue e).writeF rd v) rfl rfl rfl rfl).advance
  | advance => exact hd.advance
  | jump p hp => exact hd.commit hp
  | link rd v p hp => exact (hd.writeX rd v).commit hp
  | store a sz v => exact (hd.storeRaw a v sz.bytes).advance
  | csr c rd wr op => exact (hd.csrEffect c rd wr op).advance
  | exit code => exact hd.advance.congr rfl rfl rfl rfl
  | service n => exact hd.congr rfl rfl rfl rfl
  | ebreak => exact hd.advance.congr rfl rfl rfl rfl

/-- A completing instruction stays in RUNNING and leaves the pending fields; the others enter the state of what they leave. -/
theorem Effect.controlInv {i : Instr} {s t : State} (h : Effect i s t) (hr : s.ctl = .running) (hn : NothingPending s)
    (hp : s.readPc = s.pc) : ControlInv t := by
  obtain ⟨hf, he, hs⟩ := hn
  cases h with
  | fault r hpc => exact ⟨by simp, by simp [he], by simp [hs], by simp [hpc, hp]⟩
  | exit code => exact ⟨by simp [hf], by simp, by simp [hs], by simp [hf]⟩
  | service n => exact ⟨by simp [hf], by simp [he], by simp, by simp [hf]⟩
  | ebreak => exact ⟨by simp [hf], by simp [he], by simp [hs], by simp [hf]⟩
  | _ => exact ⟨by simp [hr, hf], by simp [hr, he], by simp [hr, hs], by simp [hf]⟩

/-! What a host command can do, said once. -/

/-- The shapes of the state after the host's command c on the state s (10_state.md R48 to R52). -/
inductive CommandEffect (c : HostCommand) (s : State) : State → Prop
  /-- an answer alone; a read of a drawn CSR takes a draw -/
  | answer (q : HostReply) (n : Nat) : CommandEffect c s { s with draws := n, reply := some q }
  /-- an accepted `run()` or `step()` -/
  | call (b : Int) (k : Bool) (ha : s.ctl.acceptsCall = true) :
      CommandEffect c s { s with steps := 0, budget := b, bpSkip := k, ctl := .running, reply := some .accepted }
  /-- an accepted reset -/
  | reset (arg : Option Config) (cfg : Config) (hc : c = .reset arg) (hr : s.ctl ≠ .running) (ha : configAccepted cfg = true) :
      CommandEffect c s { s.resetTo cfg with reply := some .accepted }
  /-- new breakpoints -/
  | breakpoints (l : List Word) (hr : s.ctl ≠ .running) : CommandEffect c s { s with bp := l, reply := some .accepted }
  /-- a host write of an integer register -/
  | writeX (r : XReg) (v : Word) (hs : s.ctl = .service) : CommandEffect c s ((s.writeX r v).answer .accepted)
  /-- a host write of an FP register -/
  | writeF (r : FReg) (v : BitVec 64) (hs : s.ctl = .service) : CommandEffect c s ((s.writeF r v).answer .accepted)
  /-- a host write of a byte of a data-kind segment -/
  | writeByte (a : Nat) (b : Byte) (g : Segment) (hg : segOf s.cfg a 1 = some g) (hk : g.kind = .data) (hs : s.ctl = .service) :
      CommandEffect c s (({ s with mem := s.mem.write a b }).answer .accepted)
  /-- the reply `Done` -/
  | done (hs : s.ctl = .service) :
      CommandEffect c s { s.advance with svc := none, ctl := .running, reply := some .accepted }
  /-- the reply `Terminate` -/
  | terminate (code : Word) (hs : s.ctl = .service) :
      CommandEffect c s { s.advance with svc := none, exitCode := some code, ctl := .exited, reply := some .accepted }

section Commands

variable {c : HostCommand} {s u : State}

theorem commandEffect_refuse : CommandEffect c s s.refuse := .answer _ _

theorem commandEffect_inspect (q : HostReply) : CommandEffect c s (s.inspect q) := .answer _ _

theorem commandEffect_inspectCsrAt (a : Option (BitVec 12)) : CommandEffect c s (s.inspectCsrAt a) := by
  unfold State.inspectCsrAt
  split
  · exact commandEffect_inspect _
  · split
    · exact .answer _ _
    · unfold State.afterCsrRead
      split <;> exact .answer _ _

theorem commandEffect_inService (h : s.ctl = .service → CommandEffect c s u) : CommandEffect c s (s.inService u) := by
  unfold State.inService
  split
  · next hs => exact h hs
  · exact commandEffect_refuse

theorem commandEffect_unlessRunning (h : s.ctl ≠ .running → CommandEffect c s u) :
    CommandEffect c s (s.unlessRunning u) := by
  unfold State.unlessRunning
  split
  · exact commandEffect_refuse
  · next hr => exact h hr

theorem commandEffect_doRun : CommandEffect c s s.doRun := by
  unfold State.doRun
  split
  · next ha => exact .call _ s.bpSkip ha
  · exact commandEffect_refuse

theorem commandEffect_doStep : CommandEffect c s s.doStep := by
  unfold State.doStep
  split
  · next ha => exact .call 1 true ha
  · exact commandEffect_refuse

theorem commandEffect_doReset {arg : Option Config} (hc : c = .reset arg) (hr : s.ctl ≠ .running) :
    CommandEffect c s (s.doReset arg) := by
  unfold State.doReset
  simp only
  split
  · next ha => exact .reset arg _ hc hr ha
  · exact .answer _ _

theorem commandEffect_serviceWriteX (r : XReg) (v : Word) : CommandEffect c s (s.serviceWriteX r v) := by
  refine commandEffect_inService fun hs => ?_
  split
  · exact commandEffect_refuse
  · exact .writeX r v hs

theorem commandEffect_serviceWriteByte (a : Word) (b : Byte) : CommandEffect c s (s.serviceWriteByte a b) := by
  refine commandEffect_inService fun hs => ?_
  split
  · next g hg =>
    split
    · next hk => exact .writeByte _ b g hg hk hs
    · exact commandEffect_refuse
  · exact commandEffect_refuse

/-- Every command leaves a state of one of the shapes. -/
theorem onCommand_effect (c : HostCommand) (s : State) : CommandEffect c s (s.onCommand c) := by
  cases c with
  | run => exact commandEffect_doRun
  | step => exact commandEffect_doStep
  | reset arg => exact commandEffect_unlessRunning (commandEffect_doReset rfl)
  | setBreakpoints l => exact commandEffect_unlessRunning (.breakpoints l)
  | inspectX | inspectF | inspectName | inspectPc | inspectState | inspectFault | inspectExitCode | inspectInstret
  | inspectMem | probe => exact commandEffect_inspect _
  | inspectCsr | inspectCsrName => exact commandEffect_inspectCsrAt _
  | serviceWriteX r v => exact commandEffect_serviceWriteX r v
  | serviceWriteF r v => exact commandEffect_inService (.writeF r v)
  | serviceWriteByte a b => exact commandEffect_serviceWriteByte a b
  | serviceDone => exact commandEffect_inService .done
  | serviceTerminate code => exact commandEffect_inService (.terminate _)

end Commands

/-- READY, BREAKPOINT, MAXSTEPS and CANCELLED are the states that accept a call (10_state.md R50). -/
theorem acceptsCall_iff (c : Ctl) :
    c.acceptsCall = true ↔ c = .ready ∨ c = .breakpoint ∨ c = .maxSteps ∨ c = .cancelled := by
  cases c <;> simp [Ctl.acceptsCall]

/-! A host command keeps both parts. -/

theorem CommandEffect.dataInv {c : HostCommand} {s t : State} (h : CommandEffect c s t) (hd : DataInv s) : DataInv t := by
  cases h with
  | answer | call | breakpoints | writeF => exact hd.congr rfl rfl rfl rfl
  | reset _ cfg _ _ ha => exact (dataInv_ofConfig ha).congr rfl rfl rfl rfl
  | writeX r v => exact (hd.writeX r v).congr rfl rfl rfl rfl
  | writeByte a b => exact (hd.withMem (Memory.write_wf _ a b hd.memWf)).congr rfl rfl rfl rfl
  | done | terminate => exact hd.advance.congr rfl rfl rfl rfl

theorem CommandEffect.controlInv {c : HostCommand} {s t : State} (h : CommandEffect c s t) (hc : ControlInv s) :
    ControlInv t := by
  cases h with
  | answer | breakpoints | writeF | writeByte => exact hc.congr rfl rfl rfl rfl rfl
  | writeX => exact hc.congr (by simp) (by simp) (by simp) (by simp) (by simp)
  | call b k ha =>
    have hn : NothingPending s := by
      rcases (acceptsCall_iff _).1 ha with h | h | h | h <;>
        exact hc.nothingPending (by simp [h]) (by simp [h]) (by simp [h])
    exact NothingPending.controlInv ⟨hn.fault, hn.exitCode, hn.svc⟩ (by simp) (by simp) (by simp)
  | reset _ cfg => exact (controlInv_ofConfig cfg).congr rfl rfl rfl rfl rfl
  | done hs =>
    have hf : s.fault = none := not_not.1 (mt hc.faulted.2 (by simp [hs]))
    have he : s.exitCode = none := not_not.1 (mt hc.exited.2 (by simp [hs]))
    exact NothingPending.controlInv ⟨hf, he, rfl⟩ (by simp) (by simp) (by simp)
  | terminate code hs =>
    have hf : s.fault = none := not_not.1 (mt hc.faulted.2 (by simp [hs]))
    exact ⟨by simp [hf], by simp, by simp, by simp [hf]⟩

/-! Every step keeps the invariants. -/

/-- An iteration keeps them: an instruction does, a stop leaves nothing pending, a fault in the fetch records the pc. -/
theorem iterate_keeps_inv {s t : State} (hr : s.ctl = .running) (hi : Inv s) (h : iterate s = .next t) : Inv t := by
  obtain ⟨hd, hc⟩ := inv_iff.1 hi
  have hn : NothingPending s := hc.nothingPending (by simp [hr]) (by simp [hr]) (by simp [hr])
  have hp : s.readPc = s.pc := trunc_eq_of_fits hd.pcWidth
  obtain ⟨i, hx⟩ | ⟨c, b, rfl, hstop⟩ | ⟨r, hpc, rfl⟩ := iterate_cases h
  · have he := exec_effect hx
    exact inv_iff.2 ⟨he.dataInv (hd.congr rfl rfl rfl rfl), he.controlInv hr ⟨hn.fault, hn.exitCode, hn.svc⟩ hp⟩
  · refine inv_iff.2 ⟨hd.congr rfl rfl rfl rfl, NothingPending.controlInv ⟨hn.fault, hn.exitCode, hn.svc⟩ ?_ ?_ ?_⟩ <;>
      rcases hstop with rfl | rfl | rfl | rfl <;> simp
  · exact inv_iff.2 ⟨hd.congr rfl rfl rfl rfl,
      ⟨by simp, by simp [hn.exitCode], by simp [hn.svc], by simp [hpc, hp]⟩⟩

/-- The host's list of events and the level of `cancel` are none of its business. -/
theorem inv_withHost {s : State} (h : Inv s) (l : List HostEvent) (k : Bool) : Inv { s with host := l, cancel := k } :=
  { h with }

theorem step_keeps_inv {s t : State} (hi : Inv s) (h : step s = .next t) : Inv t := by
  obtain ⟨hr, _, hit⟩ | ⟨_, _, rfl⟩ | ⟨l, rest, _, rfl⟩ | ⟨c, rest, _, rfl⟩ := step_cases h
  · exact iterate_keeps_inv (s := { s with host := s.host.tail }) hr (inv_withHost hi _ _) hit
  · exact inv_withHost hi _ _
  · exact inv_withHost hi _ _
  · have he := onCommand_effect c { s with host := rest }
    obtain ⟨hd, hc⟩ := inv_iff.1 (inv_withHost hi rest s.cancel)
    exact inv_iff.2 ⟨he.dataInv hd, he.controlInv hc⟩

end Sys2Proof.Machine

namespace Sys2Proof

open Machine

/-- Settles O19: the stored values and the control state are kept apart, and each shape of a step keeps each. -/
theorem invStep : Obligations.InvStep := fun _ _ => step_keeps_inv

/-- Settles O18: the configuration EX is accepted, and a reset with an accepted configuration meets both parts. -/
theorem invReset : Obligations.InvReset :=
  inv_iff.2 ⟨dataInv_ofConfig config_initial_accepted, controlInv_ofConfig _⟩

end Sys2Proof

/-! PROOFS. What one instruction may write and count (10_state.md R30, R36, R43), and the CSRs as views (R31 to R39). -/

namespace Sys2Proof.Machine

variable (s : State)

/-! Frames of the claims. -/

theorem sameXBut_of_sameX {s t : State} (h : SameX s t) (rd : XReg) : SameXBut rd s t := ⟨rfl, fun r _ => h r⟩

theorem sameFBut_of_sameF {s t : State} (h : SameF s t) (rd : FReg) : SameFBut rd s t := fun r _ => h r

theorem sameX_of_eq {s t : State} (hc : t.cfg = s.cfg) (hx : t.x = s.x) : SameX s t := fun _ => State.readX_congr hc hx _

theorem sameF_of_eq {s t : State} (hf : t.f = s.f) : SameF s t := fun _ => State.readF_congr hf _

theorem sameXBut_writeX (rd : XReg) (v : Word) : SameXBut rd s (s.writeX rd v) :=
  ⟨rfl, fun _ h => State.readX_writeX_ne s h v⟩

theorem sameFBut_writeF (rd : FReg) (v : BitVec 64) : SameFBut rd s (s.writeF rd v) :=
  fun _ h => State.readF_writeF_ne s h v

/-- A commit that falls through changes the pc and the counts alone. -/
theorem onlyPc_advance : OnlyPc s s.advance (wrap s (pcval s + 4)) := by
  rw [← wrap_pc_four]
  exact onlyPc_commit s _

/-! A CSR access, field by field (10_state.md R37, 45_system.md R220). -/

theorem afterCsrRead_draws (c : Csr) : (s.afterCsrRead c).draws = s.draws + if c.drawn then 1 else 0 := by
  unfold State.afterCsrRead
  split <;> rfl

/-- The draw taken beside it does not change what a CSR write leaves in the latch. -/
theorem writeCsr_afterCsrRead_latch (c : Csr) (v : Word) :
    ((s.afterCsrRead c).writeCsr c v).frm = (s.writeCsr c v).frm ∧
    ((s.afterCsrRead c).writeCsr c v).fflags = (s.writeCsr c v).fflags := by
  cases c <;> exact ⟨rfl, rfl⟩

/-- A CSR read has XLEN bits. -/
theorem trunc_readCsr (c : Csr) : s.xlen.trunc (s.readCsr c) = s.readCsr c := by
  cases c <;> exact trunc_trunc _ _

section CsrEffect

variable (c : Csr) (rd : XReg) (wr : Bool) (op : Word → Word)

theorem sameXBut_csrEffect : SameXBut rd s (s.csrEffect c rd wr op) := by
  refine ⟨rfl, fun r h => ?_⟩
  rw [State.csrEffect, State.readX_writeX_ne _ h]
  cases wr <;> exact State.readX_congr (by simp) (by simp) r

theorem readX_csrEffect_same {rd : XReg} (h : rd ≠ 0) : (s.csrEffect c rd wr op).readX rd = s.readCsr c := by
  rw [State.csrEffect, State.readX_writeX_same _ h, ← trunc_readCsr s c]
  cases wr <;> simp [State.xlen]

theorem csrEffect_draws : (s.csrEffect c rd wr op).draws = s.draws + if c.drawn then 1 else 0 := by
  rw [← afterCsrRead_draws]
  cases wr <;> simp [State.csrEffect]

theorem csrEffect_latch : let u := if wr then s.writeCsr c (op (s.readCsr c)) else s
    (s.csrEffect c rd wr op).frm = u.frm ∧ (s.csrEffect c rd wr op).fflags = u.fflags := by
  cases wr
  · simp [State.csrEffect]
  · simpa [State.csrEffect] using writeCsr_afterCsrRead_latch s c _

end CsrEffect

/-! What one instruction may write (10_state.md R30, R36, R43). -/

/-- Through one write port: an integer register, or an FP register, or neither. -/
theorem Effect.one_port {i : Instr} {s t : State} (h : Effect i s t) :
    ((∃ rd, SameXBut rd s t) ∧ SameF s t) ∨ ((∃ rd, SameFBut rd s t) ∧ SameX s t) := by
  cases h with
  | writeX rd v e => exact .inl ⟨⟨rd, sameXBut_writeX (s.accrue e) rd v⟩, sameF_of_eq (by simp)⟩
  | writeF rd v e => exact .inr ⟨⟨rd, sameFBut_writeF (s.accrue e) rd v⟩, fun _ => rfl⟩
  | link rd v => exact .inl ⟨⟨rd, sameXBut_writeX s rd v⟩, sameF_of_eq (by simp)⟩
  | csr c rd wr op => exact .inl ⟨⟨rd, sameXBut_csrEffect s c rd wr op⟩, sameF_of_eq (by simp)⟩
  | fault | advance | jump | store | exit | service | ebreak =>
    exact .inl ⟨⟨0, sameXBut_of_sameX (fun _ => rfl) 0⟩, fun _ => rfl⟩

theorem Effect.sameMemory {i : Instr} {s t : State} (h : Effect i s t) (hk : i.kind ≠ .store) : SameMemory s t := by
  intro a
  cases h with
  | store _ _ _ _ hs => exact absurd hs hk
  | _ => simp

/-- A store faults, or commits its bytes: it writes no register and no field of the latch. -/
theorem Effect.store_frame {i : Instr} {s t : State} (h : Effect i s t) (hk : i.kind = .store) :
    SameX s t ∧ SameF s t ∧ t.frm = s.frm ∧ t.fflags = s.fflags := by
  cases h with
  | fault | store => exact ⟨fun _ => rfl, fun _ => rfl, rfl, rfl⟩
  | csr _ _ _ _ hc => rw [hk] at hc; cases hc
  | _ => contradiction

/-- Only a CSR access sets the latch; the others leave `frm` and add flags at most. -/
theorem Effect.flags_accrue {i : Instr} {s t : State} (h : Effect i s t) (hk : i.kind ≠ .csr) :
    t.frm = s.frm ∧ ∃ e, t.fflags = s.fflags ||| e := by
  cases h with
  | csr _ _ _ _ hc => exact absurd hc hk
  | writeX _ _ e => exact ⟨by simp, e, by simp⟩
  | writeF _ _ e => exact ⟨rfl, e, rfl⟩
  | _ => exact ⟨by simp, 0, by simp⟩

/-- Started in RUNNING, an instruction that faults or waits counts nothing, and every other one counts once. -/
theorem Effect.counts {i : Instr} {s t : State} (h : Effect i s t) (hr : s.ctl = .running) :
    ((t.ctl = .faulted ∨ t.ctl = .service) ∧ t.instret = s.instret ∧ t.steps = s.steps) ∨
    ((t.ctl ≠ .faulted ∧ t.ctl ≠ .service) ∧ t.instret = s.instret + 1 ∧ t.steps = s.steps + 1) := by
  cases h with
  | fault | service => exact .inl ⟨by simp, rfl, rfl⟩
  | exit | ebreak => exact .inr ⟨by simp, rfl, rfl⟩
  | _ => exact .inr ⟨by simp [hr], by simp, by simp⟩

/-! CSR access (10_state.md R31 to R39, 45_system.md R220). -/

/-- A value of at most 32 bits is the same at either width. -/
theorem zext_of_le {n : Nat} (h : n ≤ 32) (x : XLen) (v : BitVec n) : x.zext v = v.setWidth 64 := by
  apply BitVec.eq_of_toNat_eq
  have hv : v.toNat < 2 ^ 32 := lt_of_lt_of_le v.isLt (Nat.pow_le_pow_right (by decide) h)
  have hx : 2 ^ 32 ≤ 2 ^ x.bits := by cases x <;> decide
  rw [XLen.zext, XLen.trunc_toNat, BitVec.toNat_setWidth, Nat.mod_eq_of_lt (a := v.toNat) (by omega), Nat.mod_eq_of_lt (by omega)]

theorem zext_high_half (v : BitVec 64) (x : XLen) : x.zext (v.extractLsb' 32 32) = .ofNat 64 (v.toNat / 2 ^ 32) := by
  apply BitVec.eq_of_toNat_eq
  have := v.isLt
  rw [zext_of_le le_rfl, BitVec.toNat_setWidth, BitVec.extractLsb'_toNat, Nat.shiftRight_eq_div_pow, BitVec.toNat_ofNat]
  omega

/-- A CSR instruction that passes its checks: rd takes the old value, the latch what the write leaves (45_system.md R220). -/
theorem csrResult_csrEffect (c : Csr) (rd : XReg) (wr : Bool) (op : Word → Word) :
    let u := if wr then s.writeCsr c (op (s.readCsr c)) else s
    CsrResult s (s.csrEffect c rd wr op).advance rd (s.readCsr c) u.frm u.fflags (s.draws + if c.drawn then 1 else 0) where
  value := readX_csrEffect_same s c wr op
  others := sameXBut_csrEffect s c rd wr op
  sameF := sameF_of_eq (by simp)
  frm := (csrEffect_latch s c rd wr op).1
  fflags := (csrEffect_latch s c rd wr op).2
  memory _ := by simp
  draws := csrEffect_draws s c rd wr op
  committed := committed_advance s (by simp) (by simp) (by simp) (by simp)
  control := by constructor <;> simp

/-- A CSR instruction on an implemented CSR, with write intent on a writable one only. -/
theorem csrAccess_spec {a : BitVec 12} {c : Csr} {wr : Bool} (hc : Csr.ofAddr s.xlen a = some c)
    (hw : (wr && csrReadOnly a) = false) (i : Instr) (rd : XReg) (op : Word → Word) :
    let u := if wr then s.writeCsr c (op (s.readCsr c)) else s
    ∃ t, csrAccess i rd a wr op s = .next t ∧
      CsrResult s t rd (s.readCsr c) u.frm u.fflags (s.draws + if c.drawn then 1 else 0) :=
  ⟨_, csrAccess_ok s hc hw i rd op, csrResult_csrEffect s c rd wr op⟩

/-- A CSR access that fails a check is the illegal-instruction fault, with no address in its record (10_state.md R39). -/
theorem csrAccess_illegal {a : BitVec 12} {wr : Bool}
    (h : Csr.ofAddr s.xlen a = none ∨ wr = true ∧ csrReadOnly a = true) (i : Instr) (rd : XReg) (op : Word → Word) :
    ∃ t, csrAccess i rd a wr op s = .next t ∧ Faults s t ⟨.illegalInstruction, s.readPc, some (encode i), none, none⟩ := by
  refine ⟨_, ?_, rfl⟩
  unfold csrAccess
  cases hc : Csr.ofAddr s.xlen a with
  | none => rfl
  | some c =>
    obtain ⟨hwr, hro⟩ := h.resolve_left (by simp [hc])
    simp only [hwr, hro]
    rfl

/-- Bits [11:10] of an address are its two leading bits. -/
theorem csrReadOnly_iff (a : BitVec 12) : csrReadOnly a = true ↔ a.toNat / 1024 = 3 := by
  have := a.isLt
  rw [csrReadOnly, beq_iff_eq, ← BitVec.toNat_inj, BitVec.extractLsb'_toNat, Nat.shiftRight_eq_div_pow]
  change a.toNat / 2 ^ 10 % 2 ^ 2 = 3 ↔ _
  omega

/-- The implemented CSRs (10_state.md R32). -/
theorem ofAddr_eq_none_iff (x : XLen) (a : BitVec 12) : Csr.ofAddr x a = none ↔
    a ∉ ([0x001, 0x002, 0x003, 0xC00, 0xC01, 0xC02] : List (BitVec 12)) ∧
    (x = .x32 → a ∉ ([0xC80, 0xC81, 0xC82] : List (BitVec 12))) := by
  cases x <;> simp [Csr.ofAddr, ite_eq_iff, and_assoc]

end Sys2Proof.Machine

namespace Sys2Proof

open Machine

/-- Settles O13: by the shapes of an instruction's effect. -/
theorem completionCounts : Obligations.CompletionCounts := by
  intro s t i hr hx
  obtain ⟨hc, hcount⟩ | ⟨⟨hf, hs⟩, hcount⟩ := (exec_effect hx).counts hr
  · exact ⟨fun _ => hcount, fun hf hs => absurd hc (not_or.2 ⟨hf, hs⟩)⟩
  · exact ⟨fun hc => absurd hc (not_or.2 ⟨hf, hs⟩), fun _ _ => hcount⟩

/-- Settles O14: an effect goes through one write port, and only a store has memory as its port. -/
theorem oneWritePort : Obligations.OneWritePort := by
  intro s t i hx
  have he := exec_effect hx
  have hmem : i.kind ≠ .store → SameMemory s t := he.sameMemory
  have hstore := he.store_frame
  obtain ⟨hx, hf⟩ | ⟨hf, hx⟩ := he.one_port
  · exact ⟨.inr hf, hx, ⟨0, sameFBut_of_sameF hf 0⟩, hmem, hstore⟩
  · exact ⟨.inl hx, ⟨0, sameXBut_of_sameX hx 0⟩, hf, hmem, hstore⟩

/-- Settles O17: what is raised is added to the flags. -/
theorem flagsSticky : Obligations.FlagsSticky := by
  intro s t i hk hx
  obtain ⟨hfrm, e, he⟩ := (exec_effect hx).flags_accrue hk
  refine ⟨hfrm, ?_⟩
  rw [he, BitVec.or_assoc, BitVec.or_comm e, ← BitVec.or_assoc, BitVec.or_self]

/-- Settles O39: each access passes its checks, and its CSR is a view of the latch or of the count. -/
theorem latchViews : Obligations.LatchViews := by
  intro s rd rs1
  have hflags := csrAccess_spec s (a := 0x001) (wr := true) rfl rfl (.csrrw rd 0x001 rs1) rd fun _ => s.readX rs1
  have hfrm := csrAccess_spec s (a := 0x002) (wr := true) rfl rfl (.csrrw rd 0x002 rs1) rd fun _ => s.readX rs1
  have hfcsr := csrAccess_spec s (a := 0x003) (wr := true) rfl rfl (.csrrw rd 0x003 rs1) rd fun _ => s.readX rs1
  have hinstret := csrAccess_spec s (a := 0xC02) (wr := false) rfl rfl (.csrrs rd 0xC02 0) rd fun old => old ||| s.readX 0
  refine ⟨?_, ?_, ?_, ?_, fun hx => ?_⟩
  · rw [← zext_of_le (by decide) s.xlen]
    exact hflags
  · rw [← zext_of_le (by decide) s.xlen]
    exact hfrm
  · rw [← zext_of_le (by decide) s.xlen]
    exact hfcsr
  · rw [← XLen.trunc_toNat, BitVec.ofNat_toNat, BitVec.setWidth_eq]
    exact hinstret
  · have hinstreth := csrAccess_spec s (a := 0xC82) (c := .instreth) (wr := false) (by rw [hx]; rfl) rfl
      (.csrrs rd 0xC82 0) rd fun old => old ||| s.readX 0
    rw [← zext_high_half s.instret s.xlen]
    exact hinstreth

/-- Settles O40: the two failing checks of a CSR access, in the six instructions. -/
theorem csrIllegal : Obligations.CsrIllegal := by
  refine ⟨ofAddr_eq_none_iff, fun s rd rs1 a uimm => ?_⟩
  have bad : ∀ (i : Instr) (wr : Bool) (intent : Prop) (op : Word → Word), (intent → wr = true) →
      Csr.ofAddr s.xlen a = none ∨ intent ∧ a.toNat / 1024 = 3 → ∃ t, csrAccess i rd a wr op s = .next t ∧
        Faults s t ⟨.illegalInstruction, s.readPc, some (encode i), none, none⟩ :=
    fun i wr intent op hw h => csrAccess_illegal s (h.imp_right fun ⟨hi, ha⟩ => ⟨hw hi, (csrReadOnly_iff a).2 ha⟩) i rd op
  exact ⟨bad _ true True _ fun _ => rfl, bad _ _ _ _ bne_iff_ne.2, bad _ _ _ _ bne_iff_ne.2,
    bad _ true True _ fun _ => rfl, bad _ _ _ _ bne_iff_ne.2, bad _ _ _ _ bne_iff_ne.2⟩

end Sys2Proof

/-! PROOFS. The step: its order, its verdicts, the final states (10_state.md R53 to R56), and the host (R48 to R52). -/

namespace Sys2Proof.Machine

/-! The block's own transition (10_state.md R48, R53). -/

theorem step_of_no_event {s : State} (h : s.host = []) : step s = tick s := by
  simp only [step, transition, h]

theorem step_command {s u : State} {c : HostCommand} {rest : List HostEvent} (h : s.host = .command c :: rest)
    (hu : ({ s with host := rest } : State).onCommand c = u) : step s = .next u := by
  simp only [step, transition, h, onEvent, hu]

theorem tick_running {s : State} (h : s.ctl = .running) : tick s = iterate s := by
  simp only [tick, h]

theorem tick_stopped {s : State} (h : s.ctl ≠ .running) : tick s = .next s := by
  unfold tick
  split
  · contradiction
  all_goals rfl

/-! The final states (10_state.md R56). -/

/-- Where no call is accepted and no service is pending, a command that is no reset reaches only what the host keeps. -/
theorem CommandEffect.of_final {c : HostCommand} {s t : State} (h : CommandEffect c s t) (hcall : s.ctl.acceptsCall = false)
    (hsvc : s.ctl ≠ .service) (hc : ∀ arg, c ≠ .reset arg) :
    ∃ l n q, t = { s with bp := l, draws := n, reply := q } := by
  cases h with
  | answer q n => exact ⟨_, n, some q, rfl⟩
  | breakpoints l => exact ⟨l, _, some .accepted, rfl⟩
  | reset arg _ he => exact absurd he (hc arg)
  | call _ _ ha => rw [hcall] at ha; cases ha
  | _ => contradiction

/-- The same of a step: in a final state it leaves all but the host's side. -/
theorem step_of_final {s t : State} (hcall : s.ctl.acceptsCall = false) (hsvc : s.ctl ≠ .service) (hrun : s.ctl ≠ .running)
    (hn : NoReset s) (h : step s = .next t) :
    ∃ e k l n q, t = { s with host := e, cancel := k, bp := l, draws := n, reply := q } := by
  obtain ⟨hr, _, _⟩ | ⟨_, _, rfl⟩ | ⟨k, rest, _, rfl⟩ | ⟨c, rest, hh, rfl⟩ := step_cases h
  · contradiction
  · exact ⟨_, s.cancel, _, _, _, rfl⟩
  · exact ⟨_, k, _, _, _, rfl⟩
  · obtain ⟨l, n, q, ht⟩ := (onCommand_effect c { s with host := rest }).of_final hcall hsvc
      (fun arg hc => hn arg rest (hc ▸ hh))
    exact ⟨rest, _, l, n, q, ht⟩

/-! Execution at the pc, verdict by verdict (10_state.md R54). -/

section Verdicts

variable {s : State}

theorem executeAtPc_misaligned (h : aligned4 s.readPc = false) : executeAtPc s =
    takeFault ⟨.addressAlignment, s.readPc, none, some s.readPc, some .fetch⟩ s := by
  simp only [executeAtPc, h, Bool.false_eq_true, if_false]

theorem executeAtPc_no_word (h : aligned4 s.readPc = true) (hf : s.fetchWord = none) :
    executeAtPc s = noInstruction none s := by
  simp only [executeAtPc, h, hf, if_true]

variable {w : InstrWord} (h : aligned4 s.readPc = true) (hf : s.fetchWord = some w)
include h hf

theorem executeAtPc_descriptor {i : Instr} (hl : lookup s.xlen w = .descriptor i) : executeAtPc s = exec i s := by
  simp only [executeAtPc, h, hf, hl, if_true]

theorem executeAtPc_reserved {i : Instr} (hl : lookup s.xlen w = .reserved i) : executeAtPc s =
    takeFault ⟨.reservedInstruction, s.readPc, some w, some s.readPc, none⟩ s := by
  simp only [executeAtPc, h, hf, hl, if_true]

theorem executeAtPc_illegal (hl : lookup s.xlen w = .illegal) : executeAtPc s = noInstruction (some w) s := by
  simp only [executeAtPc, h, hf, hl, if_true]

end Verdicts

/-- No instruction at the pc: CLIFF at TEXT_END, the illegal-instruction fault elsewhere. -/
theorem noInstruction_spec (w : Option InstrWord) (s : State) :
    (s.readPc = s.xlen.trunc s.cfg.textEnd → noInstruction w s = .next { s with ctl := .cliff }) ∧
    (s.readPc ≠ s.xlen.trunc s.cfg.textEnd → ∃ t, noInstruction w s = .next t ∧
      Faults s t ⟨.illegalInstruction, s.readPc, w, some s.readPc, none⟩) :=
  ⟨fun h => if_pos h, fun h => ⟨_, if_neg h, rfl⟩⟩

theorem aligned_readPc_iff (s : State) : aligned4 s.readPc = true ↔ pcval s % 4 = 0 := by
  rw [aligned4_iff, pcval]
  omega

/-! The service port in SERVICE (10_state.md R48). -/

section Service

variable {s : State} (h : s.ctl = .service)
include h

theorem inService_eq (u : State) : s.inService u = u := if_pos h

theorem refuse_service : s.refuse = s.answer (.refused .service) := by rw [State.refuse, h]

theorem serviceWriteX_of_ne {r : XReg} (hr : r ≠ 0) (v : Word) : s.serviceWriteX r v = (s.writeX r v).answer .accepted := by
  rw [State.serviceWriteX, inService_eq h, if_neg hr]

theorem serviceWriteX_zero (v : Word) : s.serviceWriteX 0 v = s.answer (.refused .service) := by
  rw [State.serviceWriteX, inService_eq h, if_pos rfl, refuse_service h]

theorem serviceWriteByte_data {a : Word} (b : Byte) {g : Segment} (hg : segOf s.cfg (s.xlen.trunc a).toNat 1 = some g)
    (hk : g.kind = .data) :
    s.serviceWriteByte a b = ({ s with mem := s.mem.write (s.xlen.trunc a).toNat b }).answer .accepted := by
  simp only [State.serviceWriteByte, inService_eq h, hg, hk, if_true]

theorem serviceWriteByte_text {a : Word} (b : Byte) {g : Segment} (hg : segOf s.cfg (s.xlen.trunc a).toNat 1 = some g)
    (hk : g.kind = .text) : s.serviceWriteByte a b = s.answer (.refused .service) := by
  simp only [State.serviceWriteByte, inService_eq h, hg, hk, reduceCtorEq, if_false, refuse_service h]

theorem serviceWriteByte_unmapped {a : Word} (b : Byte) (hg : segOf s.cfg (s.xlen.trunc a).toNat 1 = none) :
    s.serviceWriteByte a b = s.answer (.refused .service) := by
  simp only [State.serviceWriteByte, inService_eq h, hg, refuse_service h]

end Service

end Sys2Proof.Machine

namespace Sys2Proof

open Machine

/-- Settles O7: the word fetched decodes to a descriptor of the active width. -/
theorem stepExecutes : Obligations.StepExecutes := by
  intro s i ha hs hpc ht hd hw
  have hl : lookup s.xlen (wordAtPc s) = .descriptor i := by
    rw [lookup_of_decode hd, if_neg]
    rintro ⟨h64, h32⟩
    rw [hw h64] at h32
    cases h32
  rw [step_attempts ha]
  exact executeAtPc_descriptor (s := begun s) ((aligned_readPc_iff s).2 hpc) (fetchWord_text (s := begun s) hs ht) hl

/-- Settles O8: the four branches of an iteration. -/
theorem iterationOrder : Obligations.IterationOrder := by
  intro s hr hh
  rw [step_of_no_event hh, tick_running hr, iterate]
  refine ⟨fun hb => if_pos hb, fun hb hc => ?_, fun hb hc hp hk => ?_, fun hb hc hp => ?_⟩
  · rw [if_neg hb, if_pos hc]
  · rw [if_neg hb, if_neg (by simp [hc]), if_pos ⟨hp, hk⟩]
  · rw [if_neg hb, if_neg (by simp [hc]), if_neg fun ⟨hm, hk⟩ => by simp [hp hm] at hk]

/-- Settles O9: the fetch finds no word outside text, and a word in text goes to the lookup. -/
theorem fetchVerdicts : Obligations.FetchVerdicts := by
  intro s ha hs
  have aligned : pcval s % 4 = 0 → aligned4 (begun s).readPc = true := (aligned_readPc_iff s).2
  have fetched : InText s → (begun s).fetchWord = some (wordAtPc s) := fetchWord_text (s := begun s) hs
  rw [step_attempts ha]
  refine ⟨fun hpc => ?_, fun hpc ht => ?_, fun hpc ht hl => ?_, fun i hpc ht hl => ?_⟩
  · have hm : aligned4 (begun s).readPc = false := Bool.eq_false_iff.2 (mt (aligned_readPc_iff s).1 hpc)
    exact ⟨_, executeAtPc_misaligned hm, rfl⟩
  · rw [executeAtPc_no_word (aligned hpc) (fetchWord_none (s := begun s) hs ht)]
    exact noInstruction_spec none (begun s)
  · rw [executeAtPc_illegal (aligned hpc) (fetched ht) hl]
    exact noInstruction_spec (some (wordAtPc s)) (begun s)
  · exact ⟨_, executeAtPc_reserved (aligned hpc) (fetched ht) hl, rfl⟩

/-- Settles O10: a step from a final state leaves all but the host's side. -/
theorem finalStatesStay : Obligations.FinalStatesStay := by
  refine ⟨fun s t hfin hn hx => ?_, fun s hr hh => by rw [step_of_no_event hh, tick_stopped hr]⟩
  have hctl : s.ctl.acceptsCall = false ∧ s.ctl ≠ .service ∧ s.ctl ≠ .running := by
    rcases hfin with h | h | h <;> simp [h, Ctl.acceptsCall]
  obtain ⟨hcall, hsvc, hrun⟩ := hctl
  obtain ⟨e, k, l, n, q, rfl⟩ := step_of_final hcall hsvc hrun hn hx
  exact ⟨rfl, rfl, rfl, rfl, fun _ => rfl, fun _ => rfl, fun _ => rfl, rfl, rfl, rfl⟩

/-- Settles O42: each command of the service port, with its conditions met in SERVICE. -/
theorem serviceReplies : Obligations.ServiceReplies := by
  intro s rest hs
  have hs' : ({ s with host := rest } : State).ctl = .service := hs
  refine ⟨fun hh => ?_, fun code hh => ?_, fun r v hr hh => ?_, fun r v hh => ?_, fun a b g hg hk hh => ?_,
    fun v hh => ?_, fun a b g hg hk hh => ?_, fun a b hg hh => ?_⟩
  · exact ⟨_, step_command hh (inService_eq hs' _), rfl, rfl, onlyPc_advance s⟩
  · exact ⟨_, step_command hh (inService_eq hs' _), rfl, rfl, rfl, onlyPc_advance s⟩
  · exact ⟨_, step_command hh (serviceWriteX_of_ne hs' hr v), State.readX_writeX_same { s with host := rest } hr v,
      sameXBut_writeX { s with host := rest } r v, sameF_of_eq (by simp), fun _ => by simp,
      State.readPc_congr (by simp) (by simp), by simpa using hs, by simp⟩
  · exact ⟨_, step_command hh (inService_eq hs' _), State.readF_writeF_same { s with host := rest } r v,
      sameFBut_writeF { s with host := rest } r v, fun _ => rfl, fun _ => rfl, rfl, hs, rfl⟩
  · exact ⟨_, step_command hh (serviceWriteByte_data hs' b hg hk), Memory.byte?_write_same _ _ _,
      fun p hp => Memory.byte?_write_ne _ _ hp, fun _ => rfl, fun _ => rfl, rfl, hs, rfl⟩
  · exact ⟨_, step_command hh (serviceWriteX_zero hs' v), rfl⟩
  · exact ⟨_, step_command hh (serviceWriteByte_text hs' b hg hk), rfl⟩
  · exact ⟨_, step_command hh (serviceWriteByte_unmapped hs' b hg), rfl⟩

/-- Settles O43: a call sets the control registers where it is accepted, and else is refused. -/
theorem runAndStep : Obligations.RunAndStep := by
  intro s rest
  refine ⟨fun hc => ?_, fun hc hh => ?_⟩
  · have ha : s.ctl.acceptsCall = true := (acceptsCall_iff _).2 hc
    exact ⟨fun hh => step_command hh (if_pos ha), fun hh => step_command hh (if_pos ha)⟩
  · have ha : ¬ s.ctl.acceptsCall = true := by rcases hc with h | h | h <;> simp [h, Ctl.acceptsCall]
    rcases hh with hh | hh
    · exact step_command hh (if_neg ha)
    · exact step_command hh (if_neg ha)

/-- Settles O52: the accessors box and unbox by the upper half of the register. -/
theorem nanBoxing : Obligations.NanBoxing :=
  fun s r v => ⟨State.readF_writeF_same s r (box v), fun h => if_pos h, fun h => if_neg h⟩

end Sys2Proof

/-! PROOFS. Memory: where accesses may go, their checks in order, what they read and store, and the protection of text
(20_memory.md R76 to R85). -/

namespace Sys2Proof.Machine

/-! Where an access may go. -/

theorem MemSize.bytes_pos (sz : MemSize) : 0 < sz.bytes := by cases sz <;> decide

theorem MemSize.bytes_le (sz : MemSize) : sz.bytes ≤ 8 := by cases sz <;> decide

theorem mapped_of_writable {cfg : Config} {a n : Nat} (h : Writable cfg a n) : Mapped cfg a n := by
  obtain ⟨g, hg, hh, _⟩ := h
  exact ⟨g, hg, hh⟩

theorem loads_of_stores {cfg : Config} {a : Nat} {sz : MemSize} (h : Stores cfg a sz) : Loads cfg a sz := by
  cases sz with
  | byte => exact mapped_of_writable h
  | half | word =>
    obtain ⟨ha, hw⟩ := h
    exact ⟨ha, mapped_of_writable hw⟩
  | dword =>
    obtain ⟨ha, hlow, hhigh⟩ := h
    exact ⟨ha, mapped_of_writable hlow, mapped_of_writable hhigh⟩

theorem loads_of_ne_dword {cfg : Config} {a : Nat} {sz : MemSize} (h : sz ≠ .dword) (ha : a % sz.bytes = 0)
    (hm : Mapped cfg a sz.bytes) : Loads cfg a sz := by
  cases sz with
  | byte => exact hm
  | half | word => exact ⟨ha, hm⟩
  | dword => contradiction

theorem stores_of_ne_dword {cfg : Config} {a : Nat} {sz : MemSize} (h : sz ≠ .dword) (ha : a % sz.bytes = 0)
    (hw : Writable cfg a sz.bytes) : Stores cfg a sz := by
  cases sz with
  | byte => exact hw
  | half | word => exact ⟨ha, hw⟩
  | dword => contradiction

/-! The checks, in their order (20_memory.md R78 to R81). -/

section Checks

variable {cfg : Config} {k : Access} {a : Word} {n : Nat}

theorem accessFaultWord_misaligned (h : a.toNat % n ≠ 0) :
    accessFaultWord cfg k a n = some ⟨.addressAlignment, a, k⟩ := if_pos h

theorem accessFault_dword_misaligned (h : a.toNat % 8 ≠ 0) :
    accessFault cfg k a .dword = some ⟨.addressAlignment, a, k⟩ := if_pos h

/-- The low half is checked first. -/
theorem accessFault_dword_low (h : a.toNat % 8 = 0) {e : MemFault} (hlow : accessFaultWord cfg k a 4 = some e) :
    accessFault cfg k a .dword = some e := by
  rw [accessFault, accessFaultDouble, if_neg (not_not.2 h), hlow]

/-- The high half is checked where the low half passes. -/
theorem accessFault_dword_high (h : a.toNat % 8 = 0) (hlow : accessFaultWord cfg k a 4 = none) :
    accessFault cfg k a .dword = accessFaultWord cfg k (a + 4) 4 := by
  rw [accessFault, accessFaultDouble, if_neg (not_not.2 h), hlow]

theorem accessFault_of_ne_dword {sz : MemSize} (h : sz ≠ .dword) :
    accessFault cfg k a sz = accessFaultWord cfg k a sz.bytes := by
  cases sz with
  | byte | half | word => rfl
  | dword => contradiction

variable (hs : segmentsAccepted cfg.xlen cfg.segments = true)
include hs

theorem accessFaultWord_unmapped (ha : a.toNat % n = 0) (hm : ¬ Mapped cfg a.toNat n) :
    accessFaultWord cfg k a n = some ⟨.addressOutOfRange, a, k⟩ := by
  have hseg : segOf cfg a.toNat n = none := by simpa using mt (segOf_isSome hs a.toNat n).1 hm
  rw [accessFaultWord, if_neg (not_not.2 ha), hseg]

/-- A mapped place where a store may not write lies in a text-kind segment, and SMC = 0. -/
theorem accessFaultWord_protected (ha : a.toNat % n = 0) (hn : 0 < n) (hm : Mapped cfg a.toNat n)
    (hw : ¬ Writable cfg a.toNat n) : accessFaultWord cfg .store a n = some ⟨.writeProtection, a, .store⟩ := by
  obtain ⟨g, hseg⟩ := Option.isSome_iff_exists.1 ((segOf_isSome hs a.toNat n).2 hm)
  obtain ⟨hg, hh, _⟩ := segOf_spec hs hn hseg
  have hp : g.kind = .text ∧ cfg.smc = false := by
    by_contra hp
    exact hw ⟨g, hg, hh, fun ht => by simpa [ht] using hp⟩
  rw [accessFaultWord, if_neg (not_not.2 ha), hseg]
  exact if_pos ⟨rfl, hp⟩

theorem accessFaultWord_load_passes (ha : a.toNat % n = 0) (hn : 0 < n) (hm : Mapped cfg a.toNat n) :
    accessFaultWord cfg .load a n = none :=
  (accessFaultWord_none hs .load a hn).2 ⟨ha, hm⟩

theorem accessFaultWord_store_passes (ha : a.toNat % n = 0) (hn : 0 < n) (hw : Writable cfg a.toNat n) :
    accessFaultWord cfg .store a n = none :=
  (accessFaultWord_none hs .store a hn).2 ⟨ha, hw⟩

end Checks

/-! The accessors: the failed check, or the bytes (20_memory.md R73, R78 to R81). -/

section Accessors

variable {s : State} {a : Word} {sz : MemSize} {v : BitVec 64} {e : MemFault}

theorem memRead_eq_error_iff : s.memRead a sz = .error e ↔ accessFault s.cfg .load a sz = some e := by
  unfold State.memRead
  cases accessFault s.cfg .load a sz <;> simp

theorem memWrite_eq_error_iff : s.memWrite a sz v = .error e ↔ accessFault s.cfg .store a sz = some e := by
  unfold State.memWrite
  cases accessFault s.cfg .store a sz <;> simp

variable (hs : segmentsAccepted s.xlen s.cfg.segments = true)
include hs

theorem memRead_ok (h : Loads s.cfg a.toNat sz) : s.memRead a sz = .ok (s.mem.load a.toNat sz.bytes) := by
  rw [State.memRead, (accessFault_load hs a sz).2 h]

theorem memWrite_ok (h : Stores s.cfg a.toNat sz) (v : BitVec 64) : s.memWrite a sz v = .ok (s.storeRaw a v sz.bytes) := by
  rw [State.memWrite, (accessFault_store hs a sz).2 h]

end Accessors

/-! The number that bytes stand for (20_memory.md R71). -/

theorem leValue_lt (m : Memory) (a n : Nat) : leValue m a n < 256 ^ n := by
  induction n generalizing a with
  | zero => simp [leValue]
  | succ n ih =>
    have hb := (m.byte a).isLt
    have hrest := ih (a + 1)
    rw [leValue, pow_succ]
    omega

theorem leValue_add (m : Memory) (a n k : Nat) : leValue m a (n + k) = leValue m a n + 256 ^ n * leValue m (a + n) k := by
  induction n generalizing a with
  | zero => simp [leValue]
  | succ n ih =>
    rw [show n + 1 + k = n + k + 1 by omega, leValue, leValue, ih, show a + 1 + n = a + (n + 1) by omega, pow_succ]
    ring

theorem load_store_toNat (m : Memory) (a : Nat) (v : BitVec 64) {n : Nat} (hn : n ≤ 8) :
    ((m.store a v n).load a n).toNat = v.toNat % 256 ^ n := by
  have hp : (2 : Nat) ^ (8 * n) = 256 ^ n := by rw [pow_mul]; rfl
  have hle : 256 ^ n ≤ 2 ^ 64 := hp ▸ Nat.pow_le_pow_right (by decide) (by omega)
  have hlt : v.toNat % 256 ^ n < 256 ^ n := Nat.mod_lt _ (by positivity)
  rw [Memory.load_store_same, BitVec.toNat_setWidth, BitVec.toNat_setWidth, hp, Nat.mod_eq_of_lt (hlt.trans_le hle)]

/-- The two halves of a stored doubleword (20_memory.md R81). -/
theorem leValue_store_halves (m : Memory) (a : Nat) (v : BitVec 64) :
    leValue (m.store a v 8) a 4 = v.toNat % 2 ^ 32 ∧ leValue (m.store a v 8) (a + 4) 4 = v.toNat / 2 ^ 32 := by
  have hall : leValue (m.store a v 8) a (4 + 4) = v.toNat % 256 ^ 8 :=
    (load_toNat _ a 8 le_rfl).symm.trans (load_store_toNat m a v le_rfl)
  have hlow := leValue_lt (m.store a v 8) a 4
  have hv := v.isLt
  rw [leValue_add] at hall
  omega

/-! A load or store that fails a check (20_memory.md R82). -/

/-- Every load and store with a failing check raises that condition. -/
theorem exec_of_accessFault {i : Instr} {s : State} {k : Access} {sz : MemSize} {rs1 : XReg} {imm : BitVec 12} {e : MemFault}
    (hi : i.access = some (k, sz, rs1, imm)) (hx : i.rv64Only = true → s.xlen = .x64)
    (he : accessFault s.cfg k (s.ea rs1 imm) sz = some e) : exec i s = raiseMem i e s := by
  cases i with
  | lb | lh | lw | lbu | lhu | flw | fld => cases hi; exact loadThen_error (memRead_eq_error_iff.2 he) _ _
  | lwu | ld => cases hi; exact (rv64Only_x64 (hx rfl) _ _).trans (loadThen_error (memRead_eq_error_iff.2 he) _ _)
  | sb | sh | sw | fsw | fsd => cases hi; exact storeAt_error (memWrite_eq_error_iff.2 he) _
  | sd => cases hi; exact (rv64Only_x64 (hx rfl) _ _).trans (storeAt_error (memWrite_eq_error_iff.2 he) _)
  | _ => cases hi

/-! The protection of text (20_memory.md R85). -/

section Protection

variable {cfg : Config} (hs : segmentsAccepted cfg.xlen cfg.segments = true) {p : Nat} (hp : IsText cfg p)
include hs hp

/-- A text byte is none that the host may write (10_state.md R48). -/
theorem text_ne_of_data {a : Nat} {g : Segment} (hg : segOf cfg a 1 = some g) (hk : g.kind = .data) : p ≠ a := by
  rintro rfl
  obtain ⟨q, hq, hqk, hqbase, hqtop⟩ := hp
  obtain ⟨_, _, huniq⟩ := segOf_spec hs one_pos hg
  obtain rfl := huniq q hq ⟨hqbase, by omega⟩
  rw [hk] at hqk
  cases hqk

variable (hsmc : cfg.smc = false)
include hsmc

/-- With SMC = 0 a text byte is none of the bytes a store may write. -/
theorem text_outside_of_writable {a n : Nat} (h : Writable cfg a n) : p < a ∨ a + n ≤ p := by
  obtain ⟨g, hg, ⟨hbase, htop⟩, hsm⟩ := h
  obtain ⟨q, hq, hk, hqbase, hqtop⟩ := hp
  by_contra hin
  obtain rfl : g = q := segment_unique hs hg hq (a := p) (by omega) (by omega)
  simp [hsm hk] at hsmc

theorem text_outside_of_stores {a : Nat} {sz : MemSize} (h : Stores cfg a sz) : p < a ∨ a + sz.bytes ≤ p := by
  cases sz with
  | byte => exact text_outside_of_writable hs hp hsmc h
  | half | word => exact text_outside_of_writable hs hp hsmc h.2
  | dword =>
    obtain ⟨_, hlow, hhigh⟩ := h
    have hl := text_outside_of_writable hs hp hsmc hlow
    have hh := text_outside_of_writable hs hp hsmc hhigh
    simp only [MemSize.bytes]
    omega

end Protection

section TextByte

variable {s t : State} (hs : segmentsAccepted s.xlen s.cfg.segments = true) {p : Nat} (hp : IsText s.cfg p)
include hs hp

theorem CommandEffect.keeps_text {c : HostCommand} (h : CommandEffect c s t) (hc : ∀ arg, c ≠ .reset arg) :
    t.mem.byte? p = s.mem.byte? p := by
  cases h with
  | writeByte a b g hg hk => exact Memory.byte?_write_ne _ _ (text_ne_of_data hs hp hg hk)
  | reset arg _ he => exact absurd he (hc arg)
  | writeX r v => simp [State.answer]
  | _ => rfl

variable (hsmc : s.cfg.smc = false)
include hsmc

theorem Effect.keeps_text {i : Instr} (h : Effect i s t) : t.mem.byte? p = s.mem.byte? p := by
  by_cases hk : i.kind = .store
  · cases h with
    | store a sz v ha =>
      have hst : Stores s.cfg a.toNat sz := (accessFault_store hs a sz).1 ha
      exact Memory.byte?_store_out _ _ _ _ (text_outside_of_stores hs hp hsmc hst)
    | fault => rfl
    | csr _ _ _ _ hc => rw [hk] at hc; cases hc
    | _ => contradiction
  · exact h.sameMemory hk p

theorem iterate_keeps_text (h : iterate s = .next t) : t.mem.byte? p = s.mem.byte? p := by
  obtain ⟨i, hx⟩ | ⟨c, b, rfl, _⟩ | ⟨r, _, rfl⟩ := iterate_cases h
  · exact Effect.keeps_text (s := { s with bpSkip := false }) hs hp hsmc (exec_effect hx)
  · rfl
  · rfl

end TextByte

end Sys2Proof.Machine

namespace Sys2Proof

open Machine

/-! Words outside the catalog (30_encoding.md R104, R117). -/

/-- The field of n bits at i of a word that a row hits, where the row fixes all its bits (30_encoding.md R102). -/
theorem Row.field_of_hits {r : Row} {w : InstrWord} (h : r.hits w = true) {i n : Nat}
    (hm : r.mask.extractLsb' i n = .allOnes n) : w.extractLsb' i n = r.value.extractLsb' i n := by
  have hv : w &&& r.mask = r.value := by simpa [Row.hits] using h
  rw [← hv, BitVec.extractLsb'_and, hm, BitVec.and_allOnes]

/-- A word that no row hits is illegal (30_encoding.md R104). -/
theorem lookup_of_no_hit {w : InstrWord} (h : ∀ r ∈ catalog, r.hits w ≠ true) (x : XLen) : lookup x w = .illegal := by
  have hn : findRow w = none := List.find?_eq_none.2 h
  rw [lookup, hn]

/-- The major opcodes (30_encoding.md R117). -/
def majorOpcodes : List (BitVec 7) :=
  [0b0000011, 0b0000111, 0b0001111, 0b0010011, 0b0010111, 0b0011011, 0b0100011, 0b0100111, 0b0110011, 0b0110111, 0b0111011,
    0b1000011, 0b1000111, 0b1001011, 0b1001111, 0b1010011, 0b1100011, 0b1100111, 0b1101111, 0b1110011]

/-- Every row fixes the opcode, to a major one. -/
theorem catalog_opcode : ∀ r ∈ catalog,
    r.mask.extractLsb' 0 7 = .allOnes 7 ∧ r.value.extractLsb' 0 7 ∈ majorOpcodes := by decide +kernel

/-- A SYSTEM row fixes funct3 to another value than 000, or fixes the whole word, to `ecall` or `ebreak`. -/
theorem catalog_system : ∀ r ∈ catalog, r.value.extractLsb' 0 7 = 0b1110011 →
    r.mask.extractLsb' 12 3 = .allOnes 3 ∧ r.value.extractLsb' 12 3 ≠ 0 ∨
    r.mask = .allOnes 32 ∧ (r.value = 0x00000073 ∨ r.value = 0x00100073) := by decide +kernel

/-! The statements. -/

/-- Settles O15: an instruction writes outside text, the host writes data, and no other step but a reset writes memory. -/
theorem textProtected : Obligations.TextProtected := by
  intro s t p hs hsmc hn hx hp
  obtain ⟨_, _, hit⟩ | ⟨_, _, rfl⟩ | ⟨_, _, _, rfl⟩ | ⟨c, rest, hh, rfl⟩ := step_cases hx
  · exact iterate_keeps_text (s := { s with host := s.host.tail }) hs hp hsmc hit
  · rfl
  · rfl
  · have hc : ∀ arg, c ≠ .reset arg := fun arg hc => hn arg rest (hc ▸ hh)
    exact CommandEffect.keeps_text (s := { s with host := rest }) hs hp (onCommand_effect c _) hc

/-- Settles O5: a row that hits the word would fix its opcode to a major one, or its funct3 to another value. -/
theorem illegalWords : Obligations.IllegalWords := by
  refine fun x w => ⟨fun hop => lookup_of_no_hit (fun r hr hw => ?_) x,
    fun hop hf3 hecall hebreak => lookup_of_no_hit (fun r hr hw => ?_) x⟩
  · obtain ⟨hm, hv⟩ := catalog_opcode r hr
    exact hop (Row.field_of_hits hw hm ▸ hv)
  · obtain ⟨hm, _⟩ := catalog_opcode r hr
    obtain ⟨hm3, hv3⟩ | ⟨hmw, hvw⟩ := catalog_system r hr (Row.field_of_hits hw hm ▸ hop)
    · exact hv3 (Row.field_of_hits hw hm3 ▸ hf3)
    · have hwv : w = r.value := by rwa [Row.hits, hmw, BitVec.and_allOnes, beq_iff_eq] at hw
      rcases hvw with h | h
      · exact hecall (hwv.trans h)
      · exact hebreak (hwv.trans h)

/-- Settles O21: where a store completes a load does, and it reads the bytes stored. -/
theorem writeThenRead : Obligations.WriteThenRead := by
  intro s a sz v hs hst
  have hread := memRead_ok (s := s.storeRaw a v sz.bytes) hs (loads_of_stores hst)
  refine ⟨_, _, memWrite_ok hs hst v, hread, ?_, fun p hp => ?_⟩
  · exact load_store_toNat _ _ _ sz.bytes_le
  · exact Memory.byte?_store_out _ _ _ _ hp

/-- Settles O22: the checks of a load in order, then the bytes. -/
theorem loadChecks : Obligations.LoadChecks := by
  intro s a sz hs hsz
  have hf := accessFault_of_ne_dword (cfg := s.cfg) (k := .load) (a := a) hsz
  refine ⟨fun h => ?_, fun ha hm => ?_, fun ha hm => ?_⟩
  · exact memRead_eq_error_iff.2 (hf.trans (accessFaultWord_misaligned h))
  · exact memRead_eq_error_iff.2 (hf.trans (accessFaultWord_unmapped hs ha hm))
  · exact ⟨_, memRead_ok hs (loads_of_ne_dword hsz ha hm), load_toNat _ _ _ sz.bytes_le⟩

/-- Settles O23: the checks of a store in order, then the bytes and nothing else. -/
theorem storeChecks : Obligations.StoreChecks := by
  intro s a sz v hs hsz
  have hf := accessFault_of_ne_dword (cfg := s.cfg) (k := .store) (a := a) hsz
  refine ⟨fun h => ?_, fun ha hm => ?_, fun ha hm hw => ?_, fun ha hw => ?_⟩
  · exact memWrite_eq_error_iff.2 (hf.trans (accessFaultWord_misaligned h))
  · exact memWrite_eq_error_iff.2 (hf.trans (accessFaultWord_unmapped hs ha hm))
  · exact memWrite_eq_error_iff.2 (hf.trans (accessFaultWord_protected hs ha sz.bytes_pos hm hw))
  · refine ⟨_, memWrite_ok hs (stores_of_ne_dword hsz ha hw) v, fun k hk => ?_, fun p hp => ?_⟩
    · rw [← extractLsb'_byte]
      exact Memory.byte?_store_in _ _ _ _ hk
    · exact Memory.byte?_store_out _ _ _ _ hp

/-- Settles O24: the checks of the two halves in order, then the bytes of both. -/
theorem doublewordChecks : Obligations.DoublewordChecks := by
  intro s a v hs
  have h4 : a.toNat % 8 = 0 → a.toNat % 4 = 0 := by omega
  have high4 : a.toNat % 8 = 0 → (a + 4).toNat % 4 = 0 := fun h => by rw [word_add_four h]; omega
  refine ⟨fun h => ⟨?_, ?_⟩, fun h hm => ⟨?_, ?_⟩, fun h hm hm' => ?_, fun h hm hm' => ?_, fun h hm hw => ?_,
    fun h hw hm' => ?_, fun h hw hm' hw' => ?_, fun h hw hw' => ?_⟩
  · exact memRead_eq_error_iff.2 (accessFault_dword_misaligned h)
  · exact memWrite_eq_error_iff.2 (accessFault_dword_misaligned h)
  · exact memRead_eq_error_iff.2 (accessFault_dword_low h (accessFaultWord_unmapped hs (h4 h) hm))
  · exact memWrite_eq_error_iff.2 (accessFault_dword_low h (accessFaultWord_unmapped hs (h4 h) hm))
  · rw [← word_add_four h] at hm'
    have hlow := accessFaultWord_load_passes hs (h4 h) four_pos hm
    exact memRead_eq_error_iff.2 ((accessFault_dword_high h hlow).trans (accessFaultWord_unmapped hs (high4 h) hm'))
  · exact ⟨_, memRead_ok hs ⟨h, hm, hm'⟩, (load_toNat _ _ 8 le_rfl).trans (leValue_add _ _ 4 4)⟩
  · exact memWrite_eq_error_iff.2 (accessFault_dword_low h (accessFaultWord_protected hs (h4 h) four_pos hm hw))
  · rw [← word_add_four h] at hm'
    have hlow := accessFaultWord_store_passes hs (h4 h) four_pos hw
    exact memWrite_eq_error_iff.2 ((accessFault_dword_high h hlow).trans (accessFaultWord_unmapped hs (high4 h) hm'))
  · rw [← word_add_four h] at hm' hw'
    have hlow := accessFaultWord_store_passes hs (h4 h) four_pos hw
    exact memWrite_eq_error_iff.2
      ((accessFault_dword_high h hlow).trans (accessFaultWord_protected hs (high4 h) four_pos hm' hw'))
  · have hst : Stores s.cfg a.toNat .dword := ⟨h, hw, hw'⟩
    exact ⟨_, memWrite_ok hs hst v, leValue_store_halves _ _ _⟩

/-- Settles O36: the failed check is what the load or store raises. -/
theorem memoryFaults : Obligations.MemoryFaults := by
  intro s i k sz rs1 imm e hi hx he
  have hf : accessFault s.cfg k (s.ea rs1 imm) sz = some e := by
    obtain ⟨rfl, h⟩ | ⟨rfl, v, h⟩ := he
    · exact memRead_eq_error_iff.1 h
    · exact memWrite_eq_error_iff.1 h
  exact ⟨_, exec_of_accessFault hi hx hf, rfl⟩

end Sys2Proof

/-! PROOFS. The codec: decoding and encoding are inverse to each other, the lookup has one verdict, and the 64-bit-only
instructions are reserved with XLEN = 32 (30_encoding.md R102 to R106). -/

namespace Sys2Proof

open Machine

/-! Decoding and encoding (30_encoding.md R102, R103). -/

/-- Every instruction has its row: the laws of PerInstr, in the order of the constructors. -/
theorem Laws.EncodedRow.all (i : Instr) : Laws.EncodedRow.Statement i :=
  Instr.casesOn (motive := Laws.EncodedRow.Statement) i
    lui auipc jal jalr beq bne blt bge bltu bgeu lb lh lw lbu lhu lwu ld sb sh sw sd addi slti sltiu xori ori andi
    slli srli srai slliHi srliHi sraiHi add sub sll slt sltu xor srl sra or and fence fenceI ecall ebreak
    addiw slliw srliw sraiw addw subw sllw srlw sraw mul mulh mulhsu mulhu div divu rem remu mulw divw divuw remw remuw
    csrrw csrrs csrrc csrrwi csrrsi csrrci
    flw fsw fmaddS fmsubS fnmsubS fnmaddS faddS fsubS fmulS fdivS fsqrtS fsgnjS fsgnjnS fsgnjxS fminS fmaxS feqS fltS fleS
    fclassS fcvtWS fcvtWuS fcvtLS fcvtLuS fcvtSW fcvtSWu fcvtSL fcvtSLu fmvXW fmvWX
    fld fsd fmaddD fmsubD fnmsubD fnmaddD faddD fsubD fmulD fdivD fsqrtD fsgnjD fsgnjnD fsgnjxD fminD fmaxD feqD fltD fleD
    fclassD fcvtWD fcvtWuD fcvtLD fcvtLuD fcvtDW fcvtDWu fcvtDL fcvtDLu fcvtSD fcvtDS fmvXD fmvDX

theorem decode_encode {i : Instr} (h : i.wellFormed = true) : decode (encode i) = some i := by
  obtain ⟨r, hr, hw, hi⟩ := Laws.EncodedRow.all i h
  rw [decode_of_hits hr hw, hi]

/-- A word decodes to an instruction exactly where it is the instruction's encoding and the instruction has one. -/
theorem decode_eq_some_iff {w : InstrWord} {i : Instr} : decode w = some i ↔ i.wellFormed = true ∧ encode i = w := by
  constructor
  · intro h
    obtain ⟨j, hj, rfl⟩ := encode_of_decode h
    obtain rfl : j = i := Option.some.inj ((decode_encode hj).symm.trans h)
    exact ⟨hj, rfl⟩
  · rintro ⟨hi, rfl⟩
    exact decode_encode hi

/-! The lookup (30_encoding.md R104 to R106). -/

/-- Of pairwise disjoint rows at most one hits a word. -/
theorem filter_hits_length_le_one {rows : List Row} (hd : allDisjoint rows = true) (w : InstrWord) :
    (rows.filter (fun r => r.hits w)).length ≤ 1 := by
  induction rows with
  | nil => simp
  | cons q qs ih =>
    simp only [allDisjoint, Bool.and_eq_true, List.all_eq_true] at hd
    obtain ⟨hq, hqs⟩ := hd
    by_cases hw : q.hits w = true
    · have hrest : qs.filter (fun r => r.hits w) = [] :=
        List.filter_eq_nil_iff.2 fun r hr => by simp [Row.not_both_hit (hq r hr) hw]
      simp [hw, hrest]
    · simpa [hw] using ih hqs

theorem Row.appliesTo_iff (r : Row) (x : XLen) : r.appliesTo x = true ↔ ¬ (r.rv64 = true ∧ x = .x32) := by
  cases x <;> simp [Row.appliesTo]

/-- A 64-bit-only instruction answers the reserved-instruction fault with XLEN = 32. -/
theorem exec_rv64Only_x32 {i : Instr} {s : State} (hi : i.rv64Only = true) (hx : s.xlen = .x32) :
    exec i s = raise .reservedInstruction .decode i s.readPc none s := by
  cases i with
  | lwu | ld | sd | addiw | slliw | srliw | sraiw | addw | subw | sllw | srlw | sraw | mulw | divw | divuw | remw | remuw
  | fcvtLS | fcvtLuS | fcvtSL | fcvtSLu | fcvtLD | fcvtLuD | fcvtDL | fcvtDLu | fmvXD | fmvDX | slliHi | srliHi | sraiHi =>
    exact rv64Only_x32 hx _ _
  | _ => cases hi

/-! The statements. -/

/-- Settles O1: the row of the instruction is the one the decoder finds. -/
theorem decodeEncode : Obligations.DecodeEncode := fun _ => decode_encode

/-- Settles O2: a word that a row hits is an encoding, and decoding an encoding gives its instruction back. -/
theorem encodeDecode : Obligations.EncodeDecode := fun _ _ => decode_eq_some_iff.1

/-- Settles O4: the catalog is disjoint, so the row that hits is the row found. -/
theorem lookupVerdicts : Obligations.LookupVerdicts := by
  refine fun x w => ⟨filter_hits_length_le_one catalog_allDisjoint w, fun h => ?_, fun r hr hw => ?_⟩
  · exact lookup_of_no_hit (fun r hr => by simp [h r hr]) x
  · simp only [lookup_of_hits hr hw, Row.appliesTo_iff, ite_not]

/-- Settles O6: the rows marked 64-bit-only are those of the listed instructions, whose meanings check the width first. -/
theorem rv64OnlyReserved : Obligations.Rv64OnlyReserved := by
  refine ⟨fun i hi => ?_, fun i s hi hx => ?_⟩
  · have hl := lookup_of_decode (decode_encode hi)
    exact ⟨by simpa using hl .x64, by simpa using hl .x32⟩
  · rw [exec_rv64Only_x32 hi hx]
    exact raise_spec ..

/-- Settles O3: each instruction is well-formed and encoded by its word. -/
theorem specWordsDecode : Obligations.SpecWordsDecode := by
  simp only [Obligations.SpecWordsDecode, decode_eq_some_iff]
  decide

end Sys2Proof

/-! PROOFS. The integer computational instructions (41_integer.md): what the ALU computes at any width, the operands it is
given, and the result that each kind of instruction commits at the active width or on words. -/

namespace Sys2Proof.Machine

/-! What the ALU computes at any width (41_integer.md R130, R132). -/

namespace Alu

variable {w : Nat}

/-- A sum needs its operands modulo 2^w only. -/
theorem add_val {a b : BitVec w} {x y : Int} (ha : a.toNat ≡ x [ZMOD 2 ^ w]) (hb : b.toNat ≡ y [ZMOD 2 ^ w]) :
    ((add w a b).toNat : Int) = (x + y) % 2 ^ w := by
  rw [add, BitVec.toNat_add]
  push_cast
  exact ha.add hb

/-- A difference needs its operands modulo 2^w only. -/
theorem sub_val {a b : BitVec w} {x y : Int} (ha : a.toNat ≡ x [ZMOD 2 ^ w]) (hb : b.toNat ≡ y [ZMOD 2 ^ w]) :
    ((sub w a b).toNat : Int) = (x - y) % 2 ^ w := by
  have hborrow : ((2 ^ w - b.toNat + a.toNat : Nat) : Int) = a.toNat - b.toNat + 2 ^ w := by
    push_cast [b.isLt.le]
    ring
  rw [sub, BitVec.toNat_sub, Int.natCast_mod, hborrow]
  push_cast
  rw [Int.add_emod_right]
  exact ha.sub hb

/-- A truth value as a bit vector and as an integer. -/
theorem ite_one_zero_val (p : Prop) [Decidable p] :
    (((if p then 1 else 0 : BitVec w)).toNat : Int) = (if p then 1 else 0) % 2 ^ w := by
  split <;> simp

variable (a b : BitVec w)

theorem slt_val : ((slt w a b).toNat : Int) = (if a.toInt < b.toInt then 1 else 0) % 2 ^ w := ite_one_zero_val _

theorem sltu_val : ((sltu w a b).toNat : Int) = (if (a.toNat : Int) < b.toNat then 1 else 0) % 2 ^ w := by
  simp only [Int.ofNat_lt]
  exact ite_one_zero_val _

theorem sll_val : ((sll w a b).toNat : Int) = a.toNat * 2 ^ (b.toNat % w) % 2 ^ w := by
  rw [sll, BitVec.toNat_shiftLeft, Nat.shiftLeft_eq]
  push_cast
  rfl

theorem srl_val : ((srl w a b).toNat : Int) = a.toNat / 2 ^ (b.toNat % w) % 2 ^ w := by
  rw [← BitVec.toNat_mod_cancel, srl, BitVec.toNat_ushiftRight, Nat.shiftRight_eq_div_pow]
  push_cast
  rfl

theorem sra_toInt : (sra w a b).toInt = a.toInt / 2 ^ (b.toNat % w) := by
  rw [sra, BitVec.toInt_sshiftRight, Int.shiftRight_eq_div_pow]
  push_cast
  rfl

end Alu

/-- A bit vector that an integer stands for modulo 2^w has that integer's signed residue. -/
theorem toInt_of_emod {w : Nat} {b : BitVec w} {v : Int} (h : (b.toNat : Int) = v % 2 ^ w) : b.toInt = v.bmod (2 ^ w) := by
  rw [BitVec.toInt_eq_toNat_bmod, h, ← Nat.cast_ofNat, ← Nat.cast_pow, Int.emod_bmod]

/-! The operands: what the ALU takes of a register, of an immediate and of a shift amount (30_encoding.md R109, R113). -/

section Operands

variable (s : State) {w : Nat}

/-- The bits that the ALU takes of a truncated word are those of the word. -/
theorem setWidth_trunc {x : XLen} (hw : w ≤ x.bits) (v : Word) : (x.trunc v).setWidth w = v.setWidth w := by
  cases x
  · rw [XLen.trunc, BitVec.setWidth_setWidth_of_le _ (hw.trans (by decide)), BitVec.setWidth_setWidth_of_le _ hw]
  · rfl

theorem le_of_eq_bits {x : XLen} (hw : w = x.bits) : 32 ≤ w := by cases x <;> simp [hw, XLen.bits]

theorem bits_le_64 (x : XLen) : x.bits ≤ 64 := by cases x <;> decide

/-- A word's low w bits are its number modulo 2^w. -/
theorem setWidth_val (v : Word) : ((v.setWidth w).toNat : Int) = v.toNat % 2 ^ w := by
  rw [BitVec.toNat_setWidth]
  push_cast
  rfl

theorem setWidth_modEq (v : Word) : (v.setWidth w).toNat ≡ (v.toNat : Int) [ZMOD 2 ^ w] := by
  rw [setWidth_val]
  exact Int.mod_modEq _ _

theorem setWidth_signExtend {n : Nat} (v : BitVec n) (hw : w ≤ 64) : (v.signExtend 64).setWidth w = v.signExtend w := by
  ext i hi
  simp [BitVec.getElem_signExtend, show i < 64 by omega]

/-- An immediate has its signed value at the active width and at every narrower one that holds it. -/
theorem setWidth_imm12 (imm : BitVec 12) (hw : w ≤ s.xlen.bits) : (s.imm12 imm).setWidth w = imm.signExtend w := by
  rw [State.imm12, XLen.sext, setWidth_trunc hw, setWidth_signExtend _ (hw.trans (bits_le_64 _))]

theorem imm12_signed (imm : BitVec 12) (h32 : 32 ≤ w) (hw : w ≤ s.xlen.bits) :
    ((s.imm12 imm).setWidth w).toInt = imm.toInt := by
  rw [setWidth_imm12 s imm hw, BitVec.toInt_signExtend_of_le (h32.trans' (by decide))]

theorem imm12_unsigned (imm : BitVec 12) (hw : w = s.xlen.bits) :
    (((s.imm12 imm).setWidth w).toNat : Int) = wrap s imm.toInt := by
  subst hw
  rw [toNat_emod_toInt, imm12_signed s imm (le_of_eq_bits rfl) le_rfl, wrap]

/-- An immediate modulo 2^w. -/
theorem imm12_modEq (imm : BitVec 12) (h32 : 32 ≤ w) (hw : w ≤ s.xlen.bits) :
    ((s.imm12 imm).setWidth w).toNat ≡ imm.toInt [ZMOD 2 ^ w] := by
  rw [toNat_emod_toInt, imm12_signed s imm h32 hw]
  exact Int.mod_modEq _ _

/-- The amount of a register shift at the active width. -/
theorem shiftAmount_reg (r : XReg) (hw : w = s.xlen.bits) :
    ((s.readX r).setWidth w).toNat % w = (s.readX r).toNat % s.xlen.bits := by
  have h := readX_unsigned s r hw
  rw [uval, Nat.cast_inj] at h
  rw [h, hw]

/-- A shift amount of at most 32 bits is not cut at the active width or at 32 bits. -/
theorem setWidth_shamt {n : Nat} (shamt : BitVec n) (hn : n ≤ 32) (h32 : 32 ≤ w) (hw : w ≤ 64) :
    ((shamt.setWidth 64).setWidth w).toNat = shamt.toNat := by
  rw [BitVec.setWidth_setWidth_of_le _ hw, BitVec.toNat_setWidth_of_le (hn.trans h32)]

end Operands

/-! The results at the active width (41_integer.md R130, R133 to R153): the first operand is a register, the second is known by
its value. -/

section Results

variable (s : State) (rd rs1 : XReg)

theorem add_result {b : Word} {y : Int} (hb : ∀ w, w = s.xlen.bits → (b.setWidth w).toNat ≡ y [ZMOD 2 ^ w]) :
    ∃ t, retireX rd (s.xlen.lift2 Alu.add (s.readX rs1) b) s = .next t ∧ XResult s t rd (uval s rs1 + y) 0 :=
  lift2_result s _ _ _ rd _ fun w hw => Alu.add_val (setWidth_modEq _) (hb w hw)

theorem sub_result {b : Word} {y : Int} (hb : ∀ w, w = s.xlen.bits → (b.setWidth w).toNat ≡ y [ZMOD 2 ^ w]) :
    ∃ t, retireX rd (s.xlen.lift2 Alu.sub (s.readX rs1) b) s = .next t ∧ XResult s t rd (uval s rs1 - y) 0 :=
  lift2_result s _ _ _ rd _ fun w hw => Alu.sub_val (setWidth_modEq _) (hb w hw)

theorem slt_result {b : Word} {y : Int} (hb : ∀ w, w = s.xlen.bits → (b.setWidth w).toInt = y) :
    ∃ t, retireX rd (s.xlen.lift2 Alu.slt (s.readX rs1) b) s = .next t ∧
      XResult s t rd (if sval s rs1 < y then 1 else 0) 0 :=
  lift2_result s _ _ _ rd _ fun w hw => by rw [Alu.slt_val, readX_signed s rs1 hw, hb w hw]

theorem sltu_result {b : Word} {y : Int} (hb : ∀ w, w = s.xlen.bits → ((b.setWidth w).toNat : Int) = y) :
    ∃ t, retireX rd (s.xlen.lift2 Alu.sltu (s.readX rs1) b) s = .next t ∧
      XResult s t rd (if uval s rs1 < y then 1 else 0) 0 :=
  lift2_result s _ _ _ rd _ fun w hw => by rw [Alu.sltu_val, readX_unsigned s rs1 hw, hb w hw]

/-- An operation on each bit has the result of the 64-bit words; the second operand is known by its low XLEN bits. -/
theorem bitwise_result {op : (w : Nat) → BitVec w → BitVec w → BitVec w} {b c : Word}
    (hop : ∀ w (a b : Word), op w (a.setWidth w) (b.setWidth w) = (op 64 a b).setWidth w)
    (hb : ∀ w, w = s.xlen.bits → b.setWidth w = c.setWidth w) :
    ∃ t, retireX rd (s.xlen.lift2 op (s.readX rs1) b) s = .next t ∧ XResult s t rd (op 64 (s.readX rs1) c).toNat 0 :=
  lift2_result s _ _ _ rd _ fun w hw => by rw [hb w hw, hop, setWidth_val]

section Shifts

variable {s} {b : Word} {n : Nat} (hn : ∀ w, w = s.xlen.bits → (b.setWidth w).toNat % w = n)
include hn

theorem sll_result : ∃ t, retireX rd (s.xlen.lift2 Alu.sll (s.readX rs1) b) s = .next t ∧
    XResult s t rd (uval s rs1 * 2 ^ n) 0 :=
  lift2_result s _ _ _ rd _ fun w hw => by rw [Alu.sll_val, readX_unsigned s rs1 hw, hn w hw]

theorem srl_result : ∃ t, retireX rd (s.xlen.lift2 Alu.srl (s.readX rs1) b) s = .next t ∧
    XResult s t rd (uval s rs1 / 2 ^ n) 0 :=
  lift2_result s _ _ _ rd _ fun w hw => by rw [Alu.srl_val, readX_unsigned s rs1 hw, hn w hw]

theorem sra_result : ∃ t, retireX rd (s.xlen.lift2 Alu.sra (s.readX rs1) b) s = .next t ∧
    XResult s t rd (sval s rs1 / 2 ^ n) 0 :=
  lift2_result s _ _ _ rd _ fun w hw => by rw [toNat_emod_toInt, Alu.sra_toInt, readX_signed s rs1 hw, hn w hw]

end Shifts

/-- The upper immediate, alone or added to the pc. -/
theorem immU_val (up : BitVec 20) : ((s.immU up).toNat : Int) = wrap s (up.toInt * 2 ^ 12) := by
  rw [State.immU, sext_val s _ (by decide), BitVec.toInt_append_zero, mul_comm]

theorem lui_result (up : BitVec 20) :
    ∃ t, exec (.lui rd up) s = .next t ∧ XResult s t rd (up.toInt * 2 ^ 12) 0 := by
  obtain ⟨t, ht, h⟩ := retireX_spec' s rd (s.immU up)
  exact ⟨t, ht, XResult.of_wrap h (wrap_of_toNat s (immU_val s up))⟩

theorem auipc_result (up : BitVec 20) :
    ∃ t, exec (.auipc rd up) s = .next t ∧ XResult s t rd (pcval s + up.toInt * 2 ^ 12) 0 := by
  obtain ⟨t, ht, h⟩ := retireX_spec' s rd (s.readPc + s.immU up)
  refine ⟨t, ht, XResult.of_wrap h ?_⟩
  rw [wrap_of_emod s (add_toNat_emod _ _), immU_val]
  exact Int.add_emod_emod ..

end Results

/-! The results of the word instructions (41_integer.md R131, R154 to R162). -/

section WordResults

variable {s : State} (hx : s.xlen = .x64) (i : Instr) (rd rs1 : XReg)

/-- With XLEN = 64 a 64-bit-only instruction does what it says. -/
theorem rv64Only_completes {P : State → Prop} {go : Result} (hx : s.xlen = .x64) (h : ∃ t, go = .next t ∧ P t) :
    ∃ t, rv64Only i s go = .next t ∧ P t := by
  rwa [rv64Only_x64 hx]

include hx

/-- A word operation on a register whose number modulo 2^32 is known. -/
theorem opRVW_result {op : (w : Nat) → BitVec w → BitVec w → BitVec w} {b : Word} {v : Int}
    (h : ((op 32 ((s.readX rs1).setWidth 32) (b.setWidth 32)).toNat : Int) = v % 2 ^ 32) :
    ∃ t, opRVW op i rd rs1 b s = .next t ∧ XResult s t rd (v.bmod (2 ^ 32)) 0 :=
  rv64Only_completes i hx (liftW_result s op _ _ rd _ (toInt_of_emod h))

section Shifts

variable {b : Word} {n : Nat} (hn : (b.setWidth 32).toNat % 32 = n)
include hn

theorem sllw_result : ∃ t, opRVW Alu.sll i rd rs1 b s = .next t ∧
    XResult s t rd ((uval32 s rs1 * 2 ^ n).bmod (2 ^ 32)) 0 :=
  opRVW_result hx i rd rs1 (by rw [Alu.sll_val, readX_unsigned32, hn])

theorem srlw_result : ∃ t, opRVW Alu.srl i rd rs1 b s = .next t ∧
    XResult s t rd ((uval32 s rs1 / 2 ^ n).bmod (2 ^ 32)) 0 :=
  opRVW_result hx i rd rs1 (by rw [Alu.srl_val, readX_unsigned32, hn])

theorem sraw_result : ∃ t, opRVW Alu.sra i rd rs1 b s = .next t ∧ XResult s t rd (sval32 s rs1 / 2 ^ n) 0 :=
  rv64Only_completes i hx (liftW_result s _ _ _ rd _ (by rw [Alu.sra_toInt, readX_signed32, hn]))

end Shifts

end WordResults

end Sys2Proof.Machine

namespace Sys2Proof

open Machine

/-- Settles O25: each operation's value at the active width, with its operands read as integers. -/
theorem registerOps : Obligations.RegisterOps := by
  intro s rd rs1 rs2
  have amount := fun w (hw : w = s.xlen.bits) => shiftAmount_reg s rs2 hw
  exact ⟨
    add_result s rd rs1 fun _ _ => setWidth_modEq _,
    sub_result s rd rs1 fun _ _ => setWidth_modEq _,
    slt_result s rd rs1 fun _ hw => readX_signed s rs2 hw,
    sltu_result s rd rs1 fun _ hw => readX_unsigned s rs2 hw,
    bitwise_result s rd rs1 (op := Alu.xor) (fun _ _ _ => BitVec.setWidth_xor.symm) fun _ _ => rfl,
    bitwise_result s rd rs1 (op := Alu.or) (fun _ _ _ => BitVec.setWidth_or.symm) fun _ _ => rfl,
    bitwise_result s rd rs1 (op := Alu.and) (fun _ _ _ => BitVec.setWidth_and.symm) fun _ _ => rfl,
    sll_result rd rs1 amount,
    srl_result rd rs1 amount,
    sra_result rd rs1 amount⟩

/-- Settles O26: the operations of O25 on an immediate or a fixed amount, and the upper immediates. -/
theorem immediateOps : Obligations.ImmediateOps := by
  intro s rd rs1 imm up shamt
  have amount : ∀ w, w = s.xlen.bits →
      ((shamt.setWidth 64).setWidth w).toNat % w = shamt.toNat % s.xlen.bits := fun w hw => by
    rw [setWidth_shamt shamt (by decide) (le_of_eq_bits hw) (hw ▸ bits_le_64 _), hw]
  refine ⟨lui_result s rd up, auipc_result s rd up,
    add_result s rd rs1 fun _ hw => imm12_modEq s imm (le_of_eq_bits hw) hw.le,
    slt_result s rd rs1 fun _ hw => imm12_signed s imm (le_of_eq_bits hw) hw.le,
    sltu_result s rd rs1 fun _ hw => imm12_unsigned s imm hw,
    bitwise_result s rd rs1 (op := Alu.xor) (fun _ _ _ => BitVec.setWidth_xor.symm) fun _ hw => setWidth_trunc hw.le _,
    bitwise_result s rd rs1 (op := Alu.or) (fun _ _ _ => BitVec.setWidth_or.symm) fun _ hw => setWidth_trunc hw.le _,
    bitwise_result s rd rs1 (op := Alu.and) (fun _ _ _ => BitVec.setWidth_and.symm) fun _ hw => setWidth_trunc hw.le _,
    sll_result rd rs1 amount, srl_result rd rs1 amount, sra_result rd rs1 amount, fun hx => ?_⟩
  have wide : shamt.toNat % s.xlen.bits = shamt.toNat := Nat.mod_eq_of_lt (hx ▸ shamt.isLt)
  rw [wide] at amount
  exact ⟨rv64Only_completes _ hx (sll_result rd rs1 amount), rv64Only_completes _ hx (srl_result rd rs1 amount),
    rv64Only_completes _ hx (sra_result rd rs1 amount)⟩

/-- Settles O27: the operations at 32 bits, their results sign-extended. -/
theorem wordOps : Obligations.WordOps := by
  intro s rd rs1 rs2 imm shamt hx
  have regAmount : ((s.readX rs2).setWidth 32).toNat % 32 = (s.readX rs2).toNat % 32 := by
    rw [BitVec.toNat_setWidth]
    omega
  have immAmount : ((shamt.setWidth 64).setWidth 32).toNat % 32 = shamt.toNat := by
    rw [setWidth_shamt shamt (by decide) le_rfl (by decide), Nat.mod_eq_of_lt shamt.isLt]
  exact ⟨
    opRVW_result hx _ rd rs1 (Alu.add_val (setWidth_modEq _) (imm12_modEq s imm le_rfl (le_of_eq_bits rfl))),
    sllw_result hx _ rd rs1 immAmount,
    srlw_result hx _ rd rs1 immAmount,
    sraw_result hx _ rd rs1 immAmount,
    opRVW_result hx _ rd rs1 (Alu.add_val (setWidth_modEq _) (setWidth_modEq _)),
    opRVW_result hx _ rd rs1 (Alu.sub_val (setWidth_modEq _) (setWidth_modEq _)),
    sllw_result hx _ rd rs1 regAmount,
    srlw_result hx _ rd rs1 regAmount,
    sraw_result hx _ rd rs1 regAmount⟩

end Sys2Proof

/-! PROOFS. The control transfers (42_control.md): the targets as integers, what a transfer does at an aligned and at a
misaligned target, and the conditions of the branches. -/

namespace Sys2Proof.Machine

variable (s : State)

/-! The targets as integers (42_control.md R171, R174). -/

/-- The target of `jalr` is the effective address with bit 0 cleared. -/
theorem jalrTarget_val (rs1 : XReg) (imm : BitVec 12) :
    ((s.ea rs1 imm &&& ~~~1).toNat : Int) = wrap s (uval s rs1 + imm.toInt) / 2 * 2 := by
  rw [← ea_val]
  exact_mod_cast and_not_one (s.ea rs1 imm)

/-- Clearing bit 0 of a number that fits in XLEN bits leaves one that fits. -/
theorem wrap_clearBit0 (v : Int) : wrap s (wrap s v / 2 * 2) = wrap s v / 2 * 2 := by
  have hpos : (0 : Int) < 2 ^ s.xlen.bits := by positivity
  have hnonneg : 0 ≤ wrap s v := Int.emod_nonneg _ hpos.ne'
  have hlt : wrap s v < 2 ^ s.xlen.bits := Int.emod_lt_of_pos _ hpos
  exact Int.emod_eq_of_lt (by omega) (by omega)

/-! A transfer to the word p, which stands for the number v (42_control.md R170). -/

section Transfer

variable {s} {p : Word} {v : Int} (hp : (p.toNat : Int) = v) (i : Instr)
include hp

/-- An aligned target is committed. -/
theorem transfer_completes {u : State} {P : State → Prop} (hP : P (u.commit p)) (ha : v % 4 = 0) :
    ∃ t, transfer i p s u = .next t ∧ P t :=
  ⟨_, transfer_aligned s (by rw [aligned4_of_val hp, decide_eq_true ha]) i u, hP⟩

/-- A misaligned target faults at the transfer; the state that would have been committed is dropped. -/
theorem transfer_faults (u : State) (ha : v % 4 ≠ 0) :
    ∃ t, transfer i p s u = .next t ∧
      Faults s t ⟨.addressAlignment, s.readPc, some (encode i), some (.ofInt 64 v), some .fetch⟩ := by
  have hv : BitVec.ofInt 64 v = p := by rw [← hp, BitVec.ofInt_natCast, BitVec.ofNat_toNat, BitVec.setWidth_eq]
  rw [transfer_misaligned s (by rw [aligned4_of_val hp, decide_eq_false ha]), hv]
  exact raise_spec s _ _ _ _ _

variable (hv : wrap s v = v)
include hv

theorem linkResult_of_val (rd : XReg) : LinkResult s ((s.writeX rd (s.readPc + ilenBytes)).commit p) rd v := by
  have h := linkResult_commit s rd p
  rwa [hp, hv] at h

theorem onlyPc_of_val : OnlyPc s (s.commit p) v := by
  have h := onlyPc_commit s p
  rwa [hp, hv] at h

end Transfer

/-! The conditions of the branches, on the registers read as integers (42_control.md R175 to R180). -/

section Conditions

variable (rs1 rs2 : XReg) (br : BitVec 13)

theorem uval_inj : uval s rs1 = uval s rs2 ↔ s.readX rs1 = s.readX rs2 := Int.ofNat_inj.trans BitVec.toNat_inj

theorem exec_beq : exec (.beq rs1 rs2 br) s =
    branch (.beq rs1 rs2 br) (decide (uval s rs1 = uval s rs2)) br s := by
  simp only [uval_inj]
  rfl

theorem exec_bne : exec (.bne rs1 rs2 br) s =
    branch (.bne rs1 rs2 br) (decide (uval s rs1 ≠ uval s rs2)) br s := by
  simp only [ne_eq, uval_inj, decide_not]
  rfl

theorem exec_blt : exec (.blt rs1 rs2 br) s =
    branch (.blt rs1 rs2 br) (decide (sval s rs1 < sval s rs2)) br s := by
  simp only [← signed_readX]
  rfl

theorem exec_bge : exec (.bge rs1 rs2 br) s =
    branch (.bge rs1 rs2 br) (decide (sval s rs1 ≥ sval s rs2)) br s := by
  simp only [← signed_readX]
  rfl

theorem exec_bltu : exec (.bltu rs1 rs2 br) s =
    branch (.bltu rs1 rs2 br) (decide (uval s rs1 < uval s rs2)) br s := by
  simp only [uval, Int.ofNat_lt]
  rfl

theorem exec_bgeu : exec (.bgeu rs1 rs2 br) s =
    branch (.bgeu rs1 rs2 br) (decide (uval s rs1 ≥ uval s rs2)) br s := by
  simp only [uval, ge_iff_le, Int.ofNat_le]
  rfl

end Conditions

/-! A branch by its condition: taken, it transfers to its target; not taken, it falls through (42_control.md R170). -/

section Branch

variable {s} {i : Instr} {br : BitVec 13} {taken : Prop} [Decidable taken] (hi : exec i s = branch i (decide taken) br s)
include hi

theorem exec_branch_taken (h : taken) : exec i s = transfer i (s.pcPlus br) s s := by
  rw [hi, decide_eq_true h]
  rfl

theorem branch_falls_through (h : ¬ taken) : ∃ t, exec i s = .next t ∧ OnlyPc s t (wrap s (pcval s + 4)) := by
  rw [hi, decide_eq_false h]
  exact retire_spec s

theorem branch_goes (h : taken) (ha : wrap s (pcval s + br.toInt) % 4 = 0) :
    ∃ t, exec i s = .next t ∧ OnlyPc s t (wrap s (pcval s + br.toInt)) := by
  have hp := pcPlus_val s br (by decide)
  rw [exec_branch_taken hi h]
  exact transfer_completes hp i (onlyPc_of_val hp (wrap_wrap s _)) ha

theorem branch_faults (h : taken) (ha : wrap s (pcval s + br.toInt) % 4 ≠ 0) :
    ∃ t, exec i s = .next t ∧ Faults s t ⟨.addressAlignment, s.readPc, some (encode i),
      some (.ofInt 64 (wrap s (pcval s + br.toInt))), some .fetch⟩ := by
  rw [exec_branch_taken hi h]
  exact transfer_faults (pcPlus_val s br (by decide)) i s ha

end Branch

end Sys2Proof.Machine

namespace Sys2Proof

open Machine

/-- Settles O30: each jump commits its link at an aligned target. -/
theorem jumps : Obligations.Jumps := by
  intro s rd rs1 off imm
  have hjal := pcPlus_val s off (by decide)
  have hjalr := jalrTarget_val s rs1 imm
  exact ⟨transfer_completes hjal _ (linkResult_of_val hjal (wrap_wrap s _) rd),
    transfer_completes hjalr _ (linkResult_of_val hjalr (wrap_clearBit0 s _) rd)⟩

/-- Settles O31: each transfer faults at a misaligned target, a branch only when its condition holds. -/
theorem misalignedTargets : Obligations.MisalignedTargets := by
  intro s rd rs1 rs2 off imm br bad branch
  have verdict {i : Instr} {taken : Prop} [Decidable taken] (hi : exec i s = Machine.branch i (decide taken) br s) :
      branch i taken := ⟨branch_faults hi, branch_falls_through hi⟩
  exact ⟨transfer_faults (pcPlus_val s off (by decide)) _ _, transfer_faults (jalrTarget_val s rs1 imm) _ _,
    verdict (exec_beq s rs1 rs2 br), verdict (exec_bne s rs1 rs2 br), verdict (exec_blt s rs1 rs2 br),
    verdict (exec_bge s rs1 rs2 br), verdict (exec_bltu s rs1 rs2 br), verdict (exec_bgeu s rs1 rs2 br)⟩

/-- Settles O32: each branch commits its aligned target when its condition holds, and falls through otherwise. -/
theorem branches : Obligations.Branches := by
  intro s rs1 rs2 br target goes
  have verdict {i : Instr} {taken : Prop} [Decidable taken] (hi : exec i s = branch i (decide taken) br s) :
      goes i taken := ⟨branch_goes hi, branch_falls_through hi⟩
  exact ⟨verdict (exec_beq s rs1 rs2 br), verdict (exec_bne s rs1 rs2 br), verdict (exec_blt s rs1 rs2 br),
    verdict (exec_bge s rs1 rs2 br), verdict (exec_bltu s rs1 rs2 br), verdict (exec_bgeu s rs1 rs2 br)⟩

end Sys2Proof

/-! PROOFS. The integer loads, stores and fences (43_loadstore.md): what a load that passes its checks commits, by what it
makes of the bytes read; a store that passes its checks is `storeAt_ok`, a fence is `retire_spec`. -/

namespace Sys2Proof.Machine

theorem MemSize.width_le (sz : MemSize) {w : Nat} (hw : w = 8 * sz.bytes) : w ≤ 64 := by
  have := sz.bytes_le
  omega

/-- The bytes read fit in the width of the access, so cutting the value to it loses nothing. -/
theorem setWidth_load_toNat (m : Memory) (a : Nat) {n w : Nat} (hw : w = 8 * n) (hn : n ≤ 8) :
    ((m.load a n).setWidth w).toNat = leValue m a n := by
  have hlt := leValue_lt m a n
  rw [BitVec.toNat_setWidth, load_toNat m a n hn, hw, pow_mul]
  exact Nat.mod_eq_of_lt hlt

/-- A zero extension to XLEN as an integer. -/
theorem zext_val (s : State) {n : Nat} (v : BitVec n) (hn : n ≤ 64) : ((s.xlen.zext v).toNat : Int) = wrap s v.toNat := by
  rw [XLen.zext, toNat_trunc_int, BitVec.toNat_setWidth_of_le hn, wrap]

section Loads

variable {s : State} {rs1 : XReg} {imm : BitVec 12} {sz : MemSize} (i : Instr) (rd : XReg)
  (hs : segmentsAccepted s.xlen s.cfg.segments = true) (h : Loads s.cfg (s.ea rs1 imm).toNat sz)
include hs h

/-- A load gives rd what its commit makes of the bytes, modulo 2^XLEN (43_loadstore.md R185). -/
theorem load_completes {fin : BitVec 64 → Word} {v : Int}
    (hv : wrap s (fin (s.mem.load (s.ea rs1 imm).toNat sz.bytes)).toNat = wrap s v) :
    ∃ t, loadThen i sz rs1 imm s (fun b => retireX rd (fin b) s) = .next t ∧ XResult s t rd v 0 := by
  rw [loadThen_ok hs h]
  obtain ⟨t, ht, hr⟩ := retireX_spec' s rd (fin (s.mem.load (s.ea rs1 imm).toNat sz.bytes))
  exact ⟨t, ht, XResult.of_wrap hr hv⟩

/-- A load of the bytes as they stand (43_loadstore.md R189). -/
theorem load_raw_result :
    ∃ t, loadThen i sz rs1 imm s (fun b => retireX rd b s) = .next t ∧
      XResult s t rd (leValue s.mem (s.ea rs1 imm).toNat sz.bytes) 0 :=
  load_completes i rd hs h (fin := id) (by rw [id, load_toNat _ _ _ sz.bytes_le])

variable {w : Nat} (hw : w = 8 * sz.bytes)
include hw

/-- A sign-extending load (43_loadstore.md R186 to R188). -/
theorem load_sext_result :
    ∃ t, loadThen i sz rs1 imm s (fun b => retireX rd (s.xlen.sext (b.setWidth w)) s) = .next t ∧
      XResult s t rd ((leValue s.mem (s.ea rs1 imm).toNat sz.bytes : Int).bmod (2 ^ w)) 0 := by
  refine load_completes i rd hs h (wrap_of_toNat s ?_)
  rw [sext_val s _ (sz.width_le hw), BitVec.toInt_eq_toNat_bmod, setWidth_load_toNat _ _ hw sz.bytes_le]

/-- A zero-extending load (43_loadstore.md R190, R191). -/
theorem load_zext_result :
    ∃ t, loadThen i sz rs1 imm s (fun b => retireX rd (s.xlen.zext (b.setWidth w)) s) = .next t ∧
      XResult s t rd (leValue s.mem (s.ea rs1 imm).toNat sz.bytes) 0 := by
  refine load_completes i rd hs h (wrap_of_toNat s ?_)
  rw [zext_val s _ (sz.width_le hw), setWidth_load_toNat _ _ hw sz.bytes_le]

end Loads

end Sys2Proof.Machine

namespace Sys2Proof

open Machine

/-- Settles O33: each load commits its bytes, extended as its name says. -/
theorem intLoads : Obligations.IntLoads := by
  intro s rd rs1 imm hs a
  refine ⟨ea_val s rs1 imm, fun h => ⟨?_, ?_⟩, fun h => ⟨?_, ?_⟩, fun h => ⟨?_, fun hx => ?_⟩, fun h hx => ?_⟩
  · exact load_sext_result (.lb rd rs1 imm) rd hs h rfl
  · exact load_zext_result (.lbu rd rs1 imm) rd hs h rfl
  · exact load_sext_result (.lh rd rs1 imm) rd hs h rfl
  · exact load_zext_result (.lhu rd rs1 imm) rd hs h rfl
  · exact load_sext_result (.lw rd rs1 imm) rd hs h rfl
  · -- with XLEN = 64 the zero extension to XLEN is the one to 64 bits
    have hlwu := load_zext_result (.lwu rd rs1 imm) rd hs h (w := 32) rfl
    rw [hx] at hlwu
    exact rv64Only_completes _ hx hlwu
  · exact rv64Only_completes _ hx (load_raw_result (.ld rd rs1 imm) rd hs h)

/-- Settles O34: each store completes where its checks pass. -/
theorem intStores : Obligations.IntStores := by
  intro s rs1 rs2 imm hs a v
  exact ⟨fun h => storeAt_ok hs h (.sb rs1 rs2 imm) (s.readX rs2), fun h => storeAt_ok hs h (.sh rs1 rs2 imm) (s.readX rs2),
    fun h => storeAt_ok hs h (.sw rs1 rs2 imm) (s.readX rs2),
    fun h hx => rv64Only_completes _ hx (storeAt_ok hs h (.sd rs1 rs2 imm) (s.readX rs2))⟩

/-- Settles O37: a fence retires with nothing done. -/
theorem fences : Obligations.Fences := fun s _ _ => ⟨retire_spec s, retire_spec s⟩

end Sys2Proof

/-! PROOFS. The multiply and divide instructions (44_muldiv.md): what the ALU computes at any width, as an integer, and the
results that the instructions commit at the active width and on words. -/

namespace Sys2Proof.Machine

/-! Bit vectors as integers. -/

section Values

variable {w : Nat}

theorem ofInt_val (v : Int) : ((BitVec.ofInt w v).toNat : Int) = v % 2 ^ w := by
  rw [BitVec.toNat_ofInt, Int.toNat_of_nonneg (Int.emod_nonneg _ (by positivity))]
  push_cast
  rfl

theorem ofNat_val (n : Nat) : ((BitVec.ofNat w n).toNat : Int) = n % 2 ^ w := by
  rw [BitVec.toNat_ofNat]
  push_cast
  rfl

/-- Zero, as a bit vector and as a signed integer. -/
theorem eq_zero_iff_toInt (b : BitVec w) : b = 0 ↔ b.toInt = 0 := by
  rw [← BitVec.toInt_inj]
  simp

/-- Zero, as a bit vector and as an unsigned integer. -/
theorem eq_zero_iff_toNat (b : BitVec w) : b = 0 ↔ (b.toNat : Int) = 0 := by
  rw [← BitVec.toNat_inj]
  simp

/-- The low 32 bits of a register, read as unsigned and as signed numbers. -/
theorem uval32_bmod (s : State) (r : XReg) : (uval32 s r).bmod (2 ^ 32) = sval32 s r := Int.emod_bmod _ (2 ^ 32)

end Values

/-! The products and quotients at any width (44_muldiv.md R200, R201). -/

namespace Alu

variable {w : Nat}

/-- The low half of a product needs its operands modulo 2^w only. -/
theorem mul_val {a b : BitVec w} {x y : Int} (ha : a.toNat ≡ x [ZMOD 2 ^ w]) (hb : b.toNat ≡ y [ZMOD 2 ^ w]) :
    ((mul w a b).toNat : Int) = x * y % 2 ^ w := by
  have signed {c : BitVec w} {z : Int} (hc : c.toNat ≡ z [ZMOD 2 ^ w]) : c.toInt ≡ z [ZMOD 2 ^ w] :=
    (toNat_emod_toInt c ▸ Int.mod_modEq c.toInt (2 ^ w)).symm.trans hc
  rw [mul, ofInt_val]
  exact (signed ha).mul (signed hb)

variable (a b : BitVec w)

theorem mulh_val : ((mulh w a b).toNat : Int) = a.toInt * b.toInt / 2 ^ w % 2 ^ w := ofInt_val _

theorem mulhsu_val : ((mulhsu w a b).toNat : Int) = a.toInt * b.toNat / 2 ^ w % 2 ^ w := ofInt_val _

theorem mulhu_val : ((mulhu w a b).toNat : Int) = a.toNat * b.toNat / 2 ^ w % 2 ^ w := by
  exact_mod_cast ofNat_val (w := w) (a.toNat * b.toNat / 2 ^ w)

/-- The operands of signed overflow, as bit vectors and as integers. -/
theorem overflow_iff (hw : 0 < w) :
    a = BitVec.intMin w ∧ b = BitVec.allOnes w ↔ a.toInt = -2 ^ (w - 1) ∧ b.toInt = -1 := by
  rw [← BitVec.toInt_inj, ← BitVec.toInt_inj, BitVec.toInt_intMin_of_pos hw, BitVec.toInt_allOnes, if_pos hw]

/-- Short of signed overflow the quotient toward zero is a signed w-bit number. -/
theorem ofInt_tdiv_toInt (h : ¬ (a = BitVec.intMin w ∧ b = BitVec.allOnes w)) :
    (BitVec.ofInt w (a.toInt.tdiv b.toInt)).toInt = a.toInt.tdiv b.toInt := by
  rw [BitVec.toInt_ofInt, ← BitVec.toInt_sdiv]
  rw [not_and_or, ← BitVec.neg_one_eq_allOnes] at h
  exact BitVec.toInt_sdiv_of_ne_or_ne a b h

theorem div_toInt (hw : 0 < w) : (div w a b).toInt =
    if b.toInt = 0 then -1 else if a.toInt = -2 ^ (w - 1) ∧ b.toInt = -1 then -2 ^ (w - 1)
      else a.toInt.tdiv b.toInt := by
  simp only [div, ← eq_zero_iff_toInt, ← overflow_iff a b hw]
  split
  · rw [BitVec.toInt_allOnes, if_pos hw]
  split
  case isTrue h =>
    obtain ⟨ha, -⟩ := h
    rw [ha, BitVec.toInt_intMin_of_pos hw]
  case isFalse h => exact ofInt_tdiv_toInt a b h

/-- The remainder is always a signed w-bit number. -/
theorem rem_toInt (hw : 0 < w) : (rem w a b).toInt =
    if b.toInt = 0 then a.toInt else if a.toInt = -2 ^ (w - 1) ∧ b.toInt = -1 then 0
      else a.toInt - b.toInt * a.toInt.tdiv b.toInt := by
  simp only [rem, ← eq_zero_iff_toInt, ← overflow_iff a b hw, ← Int.tmod_def, ← BitVec.toInt_srem, BitVec.ofInt_toInt]
  split
  · rfl
  split
  · exact BitVec.toInt_zero
  · rfl

/-- Division by zero gives 2^w - 1, which is all ones. -/
theorem divu_val : ((divu w a b).toNat : Int) =
    (if (b.toNat : Int) = 0 then 2 ^ w - 1 else (a.toNat : Int) / b.toNat) % 2 ^ w := by
  simp only [divu, eq_zero_iff_toNat]
  split
  · rw [← BitVec.toNat_mod_cancel, BitVec.toNat_allOnes]
    push_cast [Nat.one_le_two_pow]
    rfl
  · exact_mod_cast ofNat_val (w := w) (a.toNat / b.toNat)

theorem remu_val : ((remu w a b).toNat : Int) =
    (if (b.toNat : Int) = 0 then (a.toNat : Int) else (a.toNat : Int) % b.toNat) % 2 ^ w := by
  simp only [remu, eq_zero_iff_toNat]
  split
  · exact_mod_cast a.toNat_mod_cancel.symm
  · exact_mod_cast ofNat_val (w := w) (a.toNat % b.toNat)

end Alu

/-! The results at the active width and on words. -/

section Results

variable {s : State} {op : (w : Nat) → BitVec w → BitVec w → BitVec w} {v : Int} (rd rs1 rs2 : XReg)

/-- An operation whose signed value at the active width is known. -/
theorem opRR_signed_result
    (h : ∀ w, w = s.xlen.bits → (op w ((s.readX rs1).setWidth w) ((s.readX rs2).setWidth w)).toInt = v) :
    ∃ t, opRR op rd rs1 rs2 s = .next t ∧ XResult s t rd v 0 :=
  lift2_result s op _ _ rd _ fun w hw => by rw [toNat_emod_toInt, h w hw]

variable (hx : s.xlen = .x64) (i : Instr)
include hx

/-- A word operation whose signed value is known (41_integer.md R131). -/
theorem opRRW_signed_result (h : (op 32 ((s.readX rs1).setWidth 32) ((s.readX rs2).setWidth 32)).toInt = v) :
    ∃ t, opRRW op i rd rs1 rs2 s = .next t ∧ XResult s t rd v 0 :=
  rv64Only_completes i hx (liftW_result s op _ _ rd _ h)

end Results

end Sys2Proof.Machine

namespace Sys2Proof

open Machine

/-- Settles O28: each half of the product of the operands read as integers. -/
theorem multiply : Obligations.Multiply := by
  intro s rd rs1 rs2
  refine ⟨
    lift2_result s _ _ _ rd _ fun w _ => Alu.mul_val (setWidth_modEq _) (setWidth_modEq _),
    lift2_result s _ _ _ rd _ fun w hw => ?mulh,
    lift2_result s _ _ _ rd _ fun w hw => ?mulhsu,
    lift2_result s _ _ _ rd _ fun w hw => ?mulhu,
    fun hx => opRRW_signed_result rd rs1 rs2 hx _ (toInt_of_emod ?mulw)⟩
  case mulh => rw [Alu.mulh_val, readX_signed s rs1 hw, readX_signed s rs2 hw, hw]
  case mulhsu => rw [Alu.mulhsu_val, readX_signed s rs1 hw, readX_unsigned s rs2 hw, hw]
  case mulhu => rw [Alu.mulhu_val, readX_unsigned s rs1 hw, readX_unsigned s rs2 hw, hw]
  case mulw => exact Alu.mul_val (by rw [readX_unsigned32]) (by rw [readX_unsigned32])

/-- Settles O29: each quotient and remainder of the operands read as integers, with R201's special results. -/
theorem divide : Obligations.Divide := by
  intro s rd rs1 rs2 L
  refine ⟨
    opRR_signed_result rd rs1 rs2 fun w hw => ?div,
    lift2_result s _ _ _ rd _ fun w hw => ?divu,
    opRR_signed_result rd rs1 rs2 fun w hw => ?rem,
    lift2_result s _ _ _ rd _ fun w hw => ?remu,
    fun hx => ⟨
      opRRW_signed_result rd rs1 rs2 hx _ ?divw,
      opRRW_signed_result rd rs1 rs2 hx _ ?divuw,
      opRRW_signed_result rd rs1 rs2 hx _ ?remw,
      opRRW_signed_result rd rs1 rs2 hx _ ?remuw⟩⟩
  case div => rw [Alu.div_toInt _ _ (hw ▸ bits_pos _), readX_signed s rs1 hw, readX_signed s rs2 hw, hw]
  case divu => rw [Alu.divu_val, readX_unsigned s rs1 hw, readX_unsigned s rs2 hw, hw]
  case rem => rw [Alu.rem_toInt _ _ (hw ▸ bits_pos _), readX_signed s rs1 hw, readX_signed s rs2 hw, hw]
  case remu => rw [Alu.remu_val, readX_unsigned s rs1 hw, readX_unsigned s rs2 hw]
  case divw => rw [Alu.div_toInt _ _ (by decide), readX_signed32, readX_signed32]
  case remw => rw [Alu.rem_toInt _ _ (by decide), readX_signed32, readX_signed32]
  case divuw =>
    -- all 32 ones, sign-extended, are -1
    rw [toInt_of_emod (Alu.divu_val _ _), readX_unsigned32, readX_unsigned32, apply_ite (Int.bmod · (2 ^ 32))]
    rfl
  case remuw =>
    rw [toInt_of_emod (Alu.remu_val _ _), readX_unsigned32, readX_unsigned32, apply_ite (Int.bmod · (2 ^ 32)),
      uval32_bmod]

end Sys2Proof

/-! PROOFS. CSR access, environment call and breakpoint (45_system.md): the sources and the write intent of the six CSR
instructions, and the two outcomes of an ecall. -/

namespace Sys2Proof.Machine

/-- The write intent of the set and clear forms, as they test it (45_system.md R225, R226, R228, R229). -/
theorem decide_ne_zero (u : BitVec 5) : decide (u ≠ 0) = (u != 0) :=
  Bool.eq_iff_iff.2 (decide_eq_true_iff.trans bne_iff_ne.symm)

variable (s : State)

/-- The source of the immediate forms is the same at either width (45_system.md R227 to R229). -/
theorem uimm5_eq (u : BitVec 5) : s.uimm5 u = u.setWidth 64 := zext_of_le (by decide) s.xlen u

/-- An exit service commits and leaves its code (45_system.md R222). -/
theorem environmentCall_exits (h : (s.readX 17).toNat ∈ s.cfg.exitServices) : environmentCall s =
    .next { s.advance with ctl := .exited, exitCode := some (if (s.readX 17).toNat = 93 then s.readX 10 else 0) } := by
  have h93 : s.readX 17 = 93 ↔ (s.readX 17).toNat = 93 := (BitVec.toNat_inj (y := 93)).symm
  simp only [environmentCall, if_pos h, h93]

/-- Any other service waits for the host, with no commit (45_system.md R222, 10_state.md R48). -/
theorem environmentCall_waits (h : (s.readX 17).toNat ∉ s.cfg.exitServices) :
    environmentCall s = .next { s with ctl := .service, svc := some ⟨s.readPc, s.readX 17⟩ } := if_neg h

end Sys2Proof.Machine

namespace Sys2Proof

open Machine

/-- Settles O38: each instruction is a CSR access that passes its checks, with the intent and the source of its row. -/
theorem csrInstructions : Obligations.CsrInstructions := by
  intro s rd rs1 a uimm c hc old
  have access (i : Instr) (wr : Bool) (op : Word → Word) (h : wr = true → csrReadOnly a = false) :=
    csrAccess_spec s hc (Bool.and_eq_false_imp.2 h) i rd op
  rw [← uimm5_eq s, decide_ne_zero rs1, decide_ne_zero uimm]
  exact ⟨
    access _ true fun _ => s.readX rs1,
    access _ (rs1 != 0) fun v => v ||| s.readX rs1,
    access _ (rs1 != 0) fun v => v &&& ~~~(s.readX rs1),
    access _ true fun _ => s.uimm5 uimm,
    access _ (uimm != 0) fun v => v ||| s.uimm5 uimm,
    access _ (uimm != 0) fun v => v &&& ~~~(s.uimm5 uimm)⟩

/-- Settles O41: an ecall exits or waits by its service; beside the control state, its exit and an ebreak change the pc and
the counts alone. -/
theorem environmentCallAndBreakpoint : Obligations.EnvironmentCallAndBreakpoint := by
  intro s
  refine ⟨fun hexit => ?exits, environmentCall_waits s, ?ebreak⟩
  case exits => exact ⟨_, environmentCall_exits s hexit, rfl, rfl, onlyPc_advance s⟩
  case ebreak => exact ⟨_, rfl, rfl, rfl, onlyPc_advance s⟩

end Sys2Proof

/-! PROOFS. The floating-point instructions (46_float_single.md, 47_float_double.md): the rounding mode they run in, and what
each kind of them commits. -/

namespace Sys2Proof.Machine

variable (s : State)

/-! The effective rounding mode (46_float_single.md R243). -/

theorem roundMode_eq (rm : BitVec 3) : s.roundMode rm = RoundMode.ofCode (modeCode s rm) := rfl

/-- The codes 5, 6 and 7 name no mode. -/
theorem ofCode_reserved : ∀ c : BitVec 3, 5 ≤ c.toNat → RoundMode.ofCode c = none := by decide

/-- An instruction with an rm field, implemented at the active width, does nothing before it looks at its rounding mode. -/
theorem exec_of_rmField {s : State} {i : Instr} {rm : BitVec 3} (h : i.rmField = some rm)
    (hx : i.rv64Only = true → s.xlen = .x64) : ∃ go, exec i s = withRound i rm s go := by
  cases i with
  | fmaddS | fmsubS | fnmsubS | fnmaddS | faddS | fsubS | fmulS | fdivS | fsqrtS
  | fmaddD | fmsubD | fnmsubD | fnmaddD | faddD | fsubD | fmulD | fdivD | fsqrtD
  | fcvtWS | fcvtWuS | fcvtSW | fcvtSWu | fcvtWD | fcvtWuD | fcvtDW | fcvtDWu | fcvtSD | fcvtDS =>
    cases h
    exact ⟨_, rfl⟩
  | fcvtLS | fcvtLuS | fcvtSL | fcvtSLu | fcvtLD | fcvtLuD | fcvtDL | fcvtDLu =>
    cases h
    exact ⟨_, rv64Only_x64 (hx rfl) _ _⟩
  | _ => cases h

/-! What each kind commits in a legal rounding mode (46_float_single.md R260, R261). -/

section Rounding

variable {s} {rm : BitVec 3} {m : RoundMode} (h : s.roundMode rm = some m) (i : Instr)
include h

theorem fpS_completes (rd : FReg) (op : RoundMode → FpResult) :
    ∃ t, fpS i rd rm s op = .next t ∧ SingleResult s t rd (op m) := by
  rw [fpS, withRound_some h]
  exact retireFpS_spec s rd (op m)

theorem fpD_completes (rd : FReg) (op : RoundMode → FpResult) :
    ∃ t, fpD i rd rm s op = .next t ∧ DoubleResult s t rd (op m) := by
  rw [fpD, withRound_some h]
  exact retireFpD_spec s rd (op m)

theorem fpToInt_completes (rd : XReg) (op : RoundMode → CvtResult) :
    ∃ t, fpToInt i rd rm s op = .next t ∧ WordResult s t rd (op m) := by
  rw [fpToInt, withRound_some h]
  obtain ⟨t, ht, hr⟩ := retireX_spec s rd (s.xlen.sext (BitVec.ofInt 32 (op m).value)) (op m).flags
  refine ⟨t, ht, XResult.of_wrap hr (wrap_of_toNat s ?_)⟩
  rw [sext_val s _ (by decide), BitVec.toInt_ofInt]

theorem fpToLong_completes (rd : XReg) (op : RoundMode → CvtResult) :
    ∃ t, fpToLong i rd rm s op = .next t ∧ LongResult s t rd (op m) := by
  rw [fpToLong, withRound_some h]
  obtain ⟨t, ht, hr⟩ := retireX_spec s rd (BitVec.ofInt 64 (op m).value) (op m).flags
  exact ⟨t, ht, XResult.of_wrap hr (wrap_of_emod s (ofInt_val _))⟩

end Rounding

/-- The integer that a conversion from w, and from l with XLEN = 64, reads (46_float_single.md R258). -/
theorem intSource_w (r : XReg) : intSource .w (s.readX r) = sval32 s r := readX_signed32 s r

theorem intSource_l {s : State} (hx : s.xlen = .x64) (r : XReg) : intSource .l (s.readX r) = sval s r := by
  rw [← signed_readX, hx]
  rfl

/-! Raw bits: loads, sign injection (46_float_single.md R259, R262). -/

/-- The bytes read, as a number of any width. -/
theorem setWidth_load (m : Memory) (a w : Nat) {n : Nat} (hn : n ≤ 8) :
    (m.load a n).setWidth w = .ofNat w (leValue m a n) := by
  apply BitVec.eq_of_toNat_eq
  rw [BitVec.toNat_setWidth, load_toNat m a n hn, BitVec.toNat_ofNat]

/-- A load into an FP register commits what it makes of the bytes. -/
theorem fpLoad_completes {s : State} {rs1 : XReg} {imm : BitVec 12} {sz : MemSize}
    (hs : segmentsAccepted s.xlen s.cfg.segments = true) (h : Loads s.cfg (s.ea rs1 imm).toNat sz) (i : Instr) (rd : FReg)
    (fin : BitVec 64 → BitVec 64) {v : BitVec 64} (hv : fin (s.mem.load (s.ea rs1 imm).toNat sz.bytes) = v) :
    ∃ t, loadThen i sz rs1 imm s (fun b => retireD rd (fin b) s) = .next t ∧ FResult s t rd v 0 := by
  rw [loadThen_ok hs h, hv]
  exact retireD_spec' s rd v

/-- The bits of the inverse are the inverses of the bits. -/
theorem extractLsb'_not {w k n : Nat} (h : k + n ≤ w) (b : BitVec w) :
    (~~~b).extractLsb' k n = ~~~(b.extractLsb' k n) := by
  ext i hi
  simp [show k + i < w by omega]

theorem signInjectS_not (a b : BitVec 32) : signInjectS a (~~~b) = ~~~(b.extractLsb' 31 1) ++ a.extractLsb' 0 31 := by
  rw [signInjectS, extractLsb'_not (by decide)]

theorem signInjectD_not (a b : BitVec 64) : signInjectD a (~~~b) = ~~~(b.extractLsb' 63 1) ++ a.extractLsb' 0 63 := by
  rw [signInjectD, extractLsb'_not (by decide)]

end Sys2Proof.Machine

namespace Sys2Proof

open Machine

/-- Settles O35: each access completes where its checks pass; a doubleword load takes all 64 bits. -/
theorem fpLoadsStores : Obligations.FpLoadsStores := by
  intro s rd rs2 rs1 imm hs a v
  refine ⟨fun h => ?flw, fun h => ?fld, fun h => storeAt_ok hs h (.fsw rs1 rs2 imm) (s.readF rs2),
    fun h => storeAt_ok hs h (.fsd rs1 rs2 imm) (s.readF rs2)⟩
  case flw =>
    have hword := setWidth_load s.mem a 32 (n := 4) (by decide)
    exact fpLoad_completes hs h (.flw rd rs1 imm) rd (fun b => box (b.setWidth 32)) (congrArg box hword)
  case fld =>
    have hdword := setWidth_load s.mem a 64 (n := 8) (by decide)
    rw [BitVec.setWidth_eq] at hdword
    exact fpLoad_completes hs h (.fld rd rs1 imm) rd id hdword

/-- Settles O46: the codes 0 to 4 name their modes, and with a reserved one the mode check is the fault. -/
theorem roundingModes : Obligations.RoundingModes := by
  intro s rm
  have named {c : BitVec 3} (h : modeCode s rm = c) : s.roundMode rm = RoundMode.ofCode c := by rw [roundMode_eq, h]
  refine ⟨named, named, named, named, named, fun i hi hcode hx => ?reserved⟩
  case reserved =>
    obtain ⟨go, hgo⟩ := exec_of_rmField hi hx
    rw [hgo, withRound_none (ofCode_reserved _ hcode)]
    exact raise_spec s .illegalInstruction .ownCheck i s.readPc none

/-- Settles O47: each instruction rounds in the mode and commits. -/
theorem fpArithmetic : Obligations.FpArithmetic := by
  intro s rd rs1 rs2 rm m h
  have asSingle (i : Instr) (op : RoundMode → FpResult) := fpS_completes h i rd op
  have asDouble (i : Instr) (op : RoundMode → FpResult) := fpD_completes h i rd op
  exact ⟨⟨asSingle _ _, asSingle _ _, asSingle _ _, asSingle _ _, asSingle _ _⟩,
    ⟨asDouble _ _, asDouble _ _, asDouble _ _, asDouble _ _, asDouble _ _⟩⟩

/-- Settles O48: each instruction rounds its variant in the mode and commits. -/
theorem fpFused : Obligations.FpFused := by
  intro s rd rs1 rs2 rs3 rm m h
  have asSingle (i : Instr) (op : RoundMode → FpResult) := fpS_completes h i rd op
  have asDouble (i : Instr) (op : RoundMode → FpResult) := fpD_completes h i rd op
  exact ⟨⟨asSingle _ _, asSingle _ _, asSingle _ _, asSingle _ _⟩,
    ⟨asDouble _ _, asDouble _ _, asDouble _ _, asDouble _ _⟩⟩

/-- Settles O49: each instruction commits with no look at the rounding mode. -/
theorem fpCompareAndClassify : Obligations.FpCompareAndClassify := by
  intro s fd rs1 rs2 rd
  exact ⟨
    ⟨retireFpS_spec s fd _, retireFpS_spec s fd _, retireCmp_spec s rd _, retireCmp_spec s rd _, retireCmp_spec s rd _,
      retireX_spec' s rd _⟩,
    ⟨retireFpD_spec s fd _, retireFpD_spec s fd _, retireCmp_spec s rd _, retireCmp_spec s rd _, retireCmp_spec s rd _,
      retireX_spec' s rd _⟩⟩

/-- Settles O50: each conversion rounds in the mode and commits, from the integer that its source register holds. -/
theorem fpConversions : Obligations.FpConversions := by
  intro s fd rs rd xs rm m h
  have toWord (i : Instr) (op : RoundMode → CvtResult) := fpToInt_completes h i rd op
  have toLong (i : Instr) (op : RoundMode → CvtResult) := fpToLong_completes h i rd op
  have asSingle (i : Instr) (op : RoundMode → FpResult) := fpS_completes h i fd op
  have asDouble (i : Instr) (op : RoundMode → FpResult) := fpD_completes h i fd op
  rw [← intSource_w]
  refine ⟨toWord _ _, toWord _ _, toWord _ _, toWord _ _, asSingle _ _, asSingle _ _, asDouble _ _, asDouble _ _, asSingle _ _,
    asDouble _ _, fun hx => ?_⟩
  rw [← intSource_l hx]
  exact ⟨rv64Only_completes _ hx (toLong _ _), rv64Only_completes _ hx (toLong _ _), rv64Only_completes _ hx (toLong _ _),
    rv64Only_completes _ hx (toLong _ _), rv64Only_completes _ hx (asSingle _ _), rv64Only_completes _ hx (asSingle _ _),
    rv64Only_completes _ hx (asDouble _ _), rv64Only_completes _ hx (asDouble _ _)⟩

/-- Settles O51: the sign of the inverse is the inverse of the sign, and so for the XOR; a move takes its bits as they are. -/
theorem signInjectAndMoves : Obligations.SignInjectAndMoves := by
  intro s fd rs1 rs2 rd xs
  refine ⟨⟨retireS_spec' s fd _, ?notS, ?xorS⟩, ⟨retireD_spec' s fd _, ?notD, ?xorD⟩, ?fmvXW, retireS_spec' s fd _,
    fun hx => ⟨rv64Only_completes _ hx (retireX_spec' s rd _), rv64Only_completes _ hx (retireD_spec' s fd _)⟩⟩
  case notS =>
    rw [← signInjectS_not]
    exact retireS_spec' s fd _
  case xorS =>
    rw [← BitVec.extractLsb'_xor]
    exact retireS_spec' s fd _
  case notD =>
    rw [← signInjectD_not]
    exact retireD_spec' s fd _
  case xorD =>
    rw [← BitVec.extractLsb'_xor]
    exact retireD_spec' s fd _
  case fmvXW =>
    obtain ⟨t, ht, hr⟩ := retireX_spec' s rd (s.xlen.sext ((s.readF rs1).setWidth 32))
    refine ⟨t, ht, XResult.of_wrap hr (wrap_of_toNat s ?_)⟩
    rw [sext_val s _ (by decide), toInt_of_emod (setWidth_val _)]

end Sys2Proof

/-! PROOFS. The floating-point operations on finite numbers (46_float_single.md R240 to R246, R251 to R253, R257, R258): finite
values as numbers, the exact result of each operation, and that it is rounded once. -/

namespace Sys2Proof.Machine

/-! Patterns by what they stand for (46_float_single.md R240). -/

section Unpack

variable {F : FpFormat} {a : Nat}

theorem unpack_nan (h : (F.unpack a).isNaN = true) : ∃ g, F.unpack a = .nan g := by
  obtain ⟨g, ha⟩ | ha | ⟨m, e, ha⟩ := unpack_cases F a
  · exact ⟨g, ha⟩
  all_goals simp [ha, FpVal.isNaN] at h

theorem unpack_inf (h : (F.unpack a).isInf = true) : F.unpack a = .inf (F.signOf a) := by
  obtain ⟨g, ha⟩ | ha | ⟨m, e, ha⟩ := unpack_cases F a
  case inr.inl => exact ha
  all_goals simp [ha, FpVal.isInf] at h

/-- The significand and the exponent of a finite value; one below the smallest normal has the last exponent. -/
theorem unpack_fin_range (hF : F.Regular) {s : Bool} {m : Nat} {e : Int} (h : F.unpack a = .fin s m e) :
    m < 2 ^ (F.fracBits + 1) ∧ F.ulpExp ≤ e ∧ e + 2 ≤ F.ulpExp + F.expMax ∧ (m < 2 ^ F.fracBits → e = F.ulpExp) := by
  have hfrac : F.fracOf a < 2 ^ F.fracBits := Nat.mod_lt _ (by positivity)
  have hexp : F.expOf a < 2 ^ F.expBits := Nat.mod_lt _ (by positivity)
  have hmax := hF.expMax
  have hbias := hF.bias
  rw [← hF.exp] at hexp
  rw [pow_succ]
  unfold FpFormat.unpack at h
  split at h
  · split at h <;> cases h
  · split at h
    · cases h
      omega
    · cases h
      omega

end Unpack

/-! Finite values as numbers. -/

section Numbers

variable (s : Bool) (m : Nat) (e : Int)

theorem rat_neg_iff : (FpVal.fin s m e).rat < 0 ↔ s = true ∧ m ≠ 0 := by
  have h2 : (0 : ℚ) < 2 ^ e := by positivity
  cases s
  · have : (0 : ℚ) ≤ m * 2 ^ e := by positivity
    simpa [FpVal.rat] using this
  · simp [FpVal.rat, h2, Nat.pos_iff_ne_zero]

theorem rat_pos_iff : 0 < (FpVal.fin s m e).rat ↔ s = false ∧ m ≠ 0 := by
  have h2 : (0 : ℚ) < 2 ^ e := by positivity
  cases s
  · simp [FpVal.rat, h2, Nat.pos_iff_ne_zero]
  · have : (0 : ℚ) ≤ m * 2 ^ e := by positivity
    simpa [FpVal.rat] using this

theorem abs_rat : |(FpVal.fin s m e).rat| = m * 2 ^ e := by
  have h : (0 : ℚ) ≤ m * 2 ^ e := by positivity
  cases s <;> simp [FpVal.rat, abs_of_nonneg h]

/-- Changing the sign negates the number. -/
theorem rat_negIf (neg : Bool) : (FpVal.fin (s ^^ neg) m e).rat = (if neg then -1 else 1) * (FpVal.fin s m e).rat := by
  cases s <;> cases neg <;> simp [FpVal.rat]

theorem rat_mul (s' : Bool) (m' : Nat) (e' : Int) :
    (FpVal.fin (s ^^ s') (m * m') (e + e')).rat = (FpVal.fin s m e).rat * (FpVal.fin s' m' e').rat := by
  have hpow : (2 : ℚ) ^ (e + e') = 2 ^ e * 2 ^ e' := zpow_add₀ two_ne_zero e e'
  have hsign : (if s ^^ s' then -1 else 1 : ℚ) = (if s then -1 else 1) * (if s' then -1 else 1) := by
    cases s <;> cases s' <;> simp
  simp only [FpVal.rat, hpow, hsign]
  push_cast
  ring

theorem signedReal_div_signedReal (s' : Bool) (x y : ℝ) :
    signedReal (s ^^ s') (x / y) = signedReal s x / signedReal s' y := by
  cases s <;> cases s' <;> simp [signedReal, neg_div, div_neg]

end Numbers

/-! The operations on finite operands. -/

section Finite

variable {F : FpFormat} {a b c : Nat} {sa sb sc : Bool} {ma mb mc : Nat} {ea eb ec : Int} (mode : RoundMode)

theorem mul_fin (ha : F.unpack a = .fin sa ma ea) (hb : F.unpack b = .fin sb mb eb) :
    F.mul mode a b = F.roundOrZero mode (sa ^^ sb) (ma * mb) (ea + eb) := by
  rw [FpFormat.mul, ha, hb]

theorem div_fin (ha : F.unpack a = .fin sa ma ea) (hb : F.unpack b = .fin sb mb eb) :
    F.div mode a b =
      if mb = 0 then if ma = 0 then F.nanResult true else ⟨F.infinity (sa ^^ sb), flagDZ⟩
      else if ma = 0 then ⟨F.zero (sa ^^ sb), 0⟩ else F.roundQuotient mode (sa ^^ sb) ma ea mb eb := by
  rw [FpFormat.div, ha, hb]

theorem sqrt_fin (ha : F.unpack a = .fin sa ma ea) :
    F.sqrt mode a = if ma = 0 then ⟨F.zero sa, 0⟩ else if sa then F.nanResult true else F.roundRoot mode ma ea := by
  rw [FpFormat.sqrt, ha]

theorem fma_fin (np nc : Bool) (ha : F.unpack a = .fin sa ma ea) (hb : F.unpack b = .fin sb mb eb)
    (hc : F.unpack c = .fin sc mc ec) :
    F.fma np nc mode a b c =
      F.sumVals mode (.fin (sa ^^ sb ^^ np) (ma * mb) (ea + eb)) (.fin (sc ^^ nc) mc ec) := by
  rw [FpFormat.fma, ha, hb, hc]
  rfl

end Finite

/-! The exact results, rounded once (46_float_single.md R244, R251 to R253). -/

section Rounded

variable {F : FpFormat} (hF : F.Regular) (mode : RoundMode)
include hF

/-- A sum of two finite terms, by the numbers they stand for. -/
theorem sumVals_fin (s1 s2 : Bool) {m1 m2 : Nat} {e1 e2 : Int} {p q : ℚ} (hp : (FpVal.fin s1 m1 e1).rat = p)
    (hq : (FpVal.fin s2 m2 e2).rat = q) :
    (p + q ≠ 0 → CorrectlyRounded F mode ((p + q : ℚ) : ℝ) (F.sumVals mode (.fin s1 m1 e1) (.fin s2 m2 e2))) ∧
    (p + q = 0 → F.sumVals mode (.fin s1 m1 e1) (.fin s2 m2 e2) =
      ⟨F.zero (if p = 0 ∧ s1 = s2 then s1 else decide (mode = .rdn)), 0⟩) := by
  subst hp hq
  simp only [rat_zero]
  exact roundSum_spec hF mode s1 m1 e1 s2 m2 e2

/-- A finite magnitude that may be zero. -/
theorem roundOrZero_spec (s : Bool) (m : Nat) (e : Int) :
    let v := (FpVal.fin s m e).rat
    (v ≠ 0 → CorrectlyRounded F mode (v : ℝ) (F.roundOrZero mode s m e)) ∧
    (v = 0 → F.roundOrZero mode s m e = ⟨F.zero s, 0⟩) := by
  simp only [ne_eq, rat_zero, FpFormat.roundOrZero]
  refine ⟨fun hm => ?_, fun hm => if_pos hm⟩
  have hpos : 0 < m := Nat.pos_of_ne_zero hm
  rw [if_neg hm, rat_cast]
  exact FpFormat.round_correct hF mode s hpos (by positivity) (within_exact m e) (by simp)

end Rounded

/-- A number of at least 2^n has more than n bits. -/
theorem lt_bitLength {m n : Nat} (h : 2 ^ n ≤ m) : n < bitLength m := by
  obtain ⟨-, hlt, -⟩ := bitLength_spec (lt_of_lt_of_le (by positivity) h)
  exact (Nat.pow_lt_pow_iff_right (by decide)).1 (h.trans_lt hlt)

/-- The quotient rounded down, with its sticky bit, encloses the exact quotient. -/
theorem within_quotient (n : Nat) {d : Nat} (hd : 0 < d) (e : Int) : Within (n / d) e (n % d != 0) ((n : ℝ) / d * 2 ^ e) := by
  have h2 : (0 : ℝ) < 2 ^ e := by positivity
  have hdR : (0 : ℝ) < d := by exact_mod_cast hd
  have hdiv : (n : ℝ) = d * (n / d : Nat) + (n % d : Nat) := by exact_mod_cast (Nat.div_add_mod n d).symm
  unfold Within
  split
  case isTrue h =>
    have hr : 0 < n % d := Nat.pos_of_ne_zero (by simpa using h)
    have hlow : (d * (n / d : Nat) : ℝ) < n := by
      rw [hdiv]
      exact lt_add_of_pos_right _ (by exact_mod_cast hr)
    have hhigh : (n : ℝ) < d * ((n / d : Nat) + 1) := by exact_mod_cast Nat.lt_mul_div_succ n hd
    exact ⟨mul_lt_mul_of_pos_right ((lt_div_iff₀' hdR).2 hlow) h2,
      mul_lt_mul_of_pos_right ((div_lt_iff₀' hdR).2 hhigh) h2⟩
  case isFalse h =>
    have hr : n % d = 0 := by simpa using h
    rw [hdiv, hr, Nat.cast_zero, add_zero, mul_div_cancel_left₀ _ hdR.ne']

/-- The root rounded down, with its sticky bit, encloses the exact root. -/
theorem within_root (n : Nat) (e : Int) : Within (isqrt n) e (isqrt n * isqrt n != n) (√(n : ℝ) * 2 ^ e) := by
  obtain ⟨hle, hlt⟩ := isqrt_spec n
  have h2 : (0 : ℝ) < 2 ^ e := by positivity
  unfold Within
  split
  case isTrue h =>
    have hlow : isqrt n * isqrt n < n := lt_of_le_of_ne hle (by simpa using h)
    have hlowR : (isqrt n : ℝ) < √n := Real.lt_sqrt_of_sq_lt (by rw [sq]; exact_mod_cast hlow)
    have hhighR : √(n : ℝ) < isqrt n + 1 := (Real.sqrt_lt' (by positivity)).2 (by rw [sq]; exact_mod_cast hlt)
    exact ⟨mul_lt_mul_of_pos_right hlowR h2, mul_lt_mul_of_pos_right hhighR h2⟩
  case isFalse h =>
    have heq : isqrt n * isqrt n = n := by simpa using h
    have hroot : √(n : ℝ) = isqrt n := by
      rw [Real.sqrt_eq_iff_mul_self_eq (by positivity) (by positivity)]
      exact_mod_cast heq.symm
    rw [hroot]

theorem le_isqrt {k n : Nat} (h : k * k ≤ n) : k ≤ isqrt n :=
  Nat.le_of_lt_succ (Nat.mul_self_lt_mul_self_iff.1 (h.trans_lt (isqrt_spec n).2))

section Rounded

variable {F : FpFormat} (hF : F.Regular) (mode : RoundMode)
include hF

/-- A quotient of nonzero magnitudes: the rounding sees at least two bits beside those it keeps (46_float_single.md R253). -/
theorem roundQuotient_spec (sa sb : Bool) {ma mb : Nat} (ea eb : Int) (ha : ma ≠ 0) (hb : mb ≠ 0) :
    CorrectlyRounded F mode (((FpVal.fin sa ma ea).rat / (FpVal.fin sb mb eb).rat : ℚ) : ℝ)
      (F.roundQuotient mode (sa ^^ sb) ma ea mb eb) := by
  have hmb : 0 < mb := Nat.pos_of_ne_zero hb
  obtain ⟨hlow, -, hbits⟩ := bitLength_spec (Nat.pos_of_ne_zero ha)
  obtain ⟨-, hhigh, -⟩ := bitLength_spec hmb
  unfold FpFormat.roundQuotient
  extract_lets k n
  have hlarge : 2 ^ (F.fracBits + 2) ≤ n / mb := by
    rw [Nat.le_div_iff_mul_le hmb]
    calc 2 ^ (F.fracBits + 2) * mb ≤ 2 ^ (F.fracBits + 2) * 2 ^ bitLength mb := Nat.mul_le_mul_left _ hhigh.le
      _ = 2 ^ (F.fracBits + 2 + bitLength mb) := (pow_add ..).symm
      _ ≤ 2 ^ (bitLength ma - 1 + k) := Nat.pow_le_pow_right (by decide) (by omega)
      _ = 2 ^ (bitLength ma - 1) * 2 ^ k := pow_add ..
      _ ≤ n := Nat.mul_le_mul_right _ hlow
  have hx : (n : ℝ) / mb * 2 ^ (ea - eb - k) = ma * 2 ^ ea / (mb * 2 ^ eb) := by
    have hk : (2 : ℝ) ^ (ea - eb - k) = 2 ^ ea / 2 ^ eb / 2 ^ k := by
      rw [zpow_sub₀ two_ne_zero, zpow_sub₀ two_ne_zero, zpow_natCast]
    simp only [n, hk]
    push_cast
    field_simp
  have hround := FpFormat.round_correct hF mode (sa ^^ sb) (lt_of_lt_of_le (by positivity) hlarge)
    (by rw [hx]; positivity) (within_quotient n hmb (ea - eb - k))
    fun _ => (Nat.lt_succ_self _).trans (lt_bitLength hlarge)
  rwa [hx, signedReal_div_signedReal, ← rat_cast, ← rat_cast, ← Rat.cast_div] at hround

/-- The root of a nonzero magnitude, taken of an even power of two (46_float_single.md R253). -/
theorem roundRoot_spec {m : Nat} (e : Int) (hm : m ≠ 0) :
    CorrectlyRounded F mode √((FpVal.fin false m e).rat : ℝ) (F.roundRoot mode m e) := by
  unfold FpFormat.roundRoot
  extract_lets k0 k n
  have heven : (e - k) % 2 = 0 := by
    simp only [k]
    split
    · assumption
    · push_cast
      omega
  have hk0 : k0 ≤ k := by
    simp only [k]
    split <;> omega
  have hlarge : 2 ^ (F.fracBits + 4) ≤ isqrt n := by
    have hn : 2 ^ (F.fracBits + 4) * 2 ^ (F.fracBits + 4) ≤ n := by
      rw [← pow_add, ← two_mul]
      exact (Nat.pow_le_pow_right (by decide) hk0).trans (Nat.le_mul_of_pos_left _ (Nat.pos_of_ne_zero hm))
    exact le_isqrt hn
  have hx : √(n : ℝ) * 2 ^ ((e - k) / 2) = √(m * 2 ^ e) := by
    have hexp : (2 : ℝ) ^ e = 2 ^ k * (2 ^ ((e - k) / 2)) ^ 2 := by
      rw [← zpow_natCast, ← zpow_natCast, ← zpow_mul, ← zpow_add₀ two_ne_zero]
      congr 1
      push_cast
      omega
    rw [hexp, ← mul_assoc, Real.sqrt_mul (by positivity), Real.sqrt_sq (by positivity)]
    simp [n]
  have hpos : 0 < √((m : ℝ) * 2 ^ e) := by
    have : (0 : ℝ) < m := by exact_mod_cast Nat.pos_of_ne_zero hm
    positivity
  have hround := FpFormat.round_correct hF mode false (lt_of_lt_of_le (by positivity) hlarge) (by rw [hx]; exact hpos)
    (within_root n ((e - k) / 2)) fun _ => lt_trans (by omega) (lt_bitLength hlarge)
  rw [hx] at hround
  rwa [rat_cast]

end Rounded

/-! Conversions (46_float_single.md R257, R258; 47_float_double.md R317). -/

/-- A number with few enough bits, in the range of the format, is delivered as it is. -/
theorem correctlyRounded_exact {F : FpFormat} {mode : RoundMode} {v : ℝ} {r : FpResult} (h : CorrectlyRounded F mode v r)
    {i e : Int} (hv : v = i * 2 ^ e) (hi : |(i : ℝ)| < 2 ^ (F.fracBits + 1)) (he : F.ulpExp ≤ e)
    (hmax : |v| < 2 ^ (F.bias + 1)) :
    ((F.unpack r.bits).rat : ℝ) = v ∧ r.flags = 0 := by
  obtain ⟨k, n, hplace, hn, hresult⟩ := h
  have hk : k ≤ e := by
    obtain ⟨⟨hlow, -⟩, -⟩ | ⟨rfl, -⟩ := hplace
    · have h2 : (0 : ℝ) < 2 ^ e := by positivity
      have hlt : (2 : ℝ) ^ (F.fracBits + k) < 2 ^ (F.fracBits + 1 + e) := by
        calc (2 : ℝ) ^ (F.fracBits + k) = 2 ^ F.fracBits * 2 ^ k := by rw [zpow_add₀ two_ne_zero, zpow_natCast]
          _ ≤ |(i : ℝ)| * 2 ^ e := by rwa [hv, abs_mul, abs_of_pos h2] at hlow
          _ < 2 ^ (F.fracBits + 1) * 2 ^ e := mul_lt_mul_of_pos_right hi h2
          _ = 2 ^ (F.fracBits + 1 + e) := by rw [zpow_add₀ two_ne_zero]; norm_cast
      have := (zpow_lt_zpow_iff_right₀ one_lt_two).1 hlt
      omega
    · exact he
  have hexact : (n : ℝ) * 2 ^ k = v := by
    have hpow : (2 : ℝ) ^ e = 2 ^ (e - k).toNat * 2 ^ k := by
      rw [← zpow_natCast, ← zpow_add₀ two_ne_zero]
      congr 1
      omega
    have hdiv : v / 2 ^ k = ((i * 2 ^ (e - k).toNat : Int) : ℝ) := by
      rw [hv, hpow]
      push_cast
      field_simp
    rw [hdiv] at hn
    rw [RoundsTo.unique hn (RoundsTo_intCast mode _), ← hdiv, div_mul_cancel₀ _ (by positivity)]
  rw [hexact, if_neg (not_le.2 hmax)] at hresult
  obtain ⟨-, hrat, -, hflags, -⟩ := hresult
  exact ⟨hrat, hflags rfl⟩

theorem unpack_zero {F : FpFormat} (hF : F.Regular) (s : Bool) : F.unpack (F.zero s) = .fin s 0 F.ulpExp :=
  FpFormat.unpack_subnormal hF s (by positivity)

section Conversions

variable {F : FpFormat} {a : Nat} {s : Bool} {m : Nat} {e : Int} (ha : F.unpack a = .fin s m e) (mode : RoundMode)
include ha

theorem convert_fin (G : FpFormat) : FpFormat.convert F G mode a = G.roundOrZero mode s m e := by
  rw [FpFormat.convert, ha]

/-- The range test is on the rounded integer (46_float_single.md R257). -/
theorem toInt_fin (k : IntKind) {n : Int} (hn : RoundsTo mode ((FpVal.fin s m e).rat : ℝ) n) :
    F.toInt k mode a = if n < k.least then ⟨k.least, flagNV⟩ else if k.greatest < n then ⟨k.greatest, flagNV⟩
      else ⟨n, if (n : ℚ) = (FpVal.fin s m e).rat then 0 else flagNX⟩ := by
  obtain ⟨hr, hexact⟩ := roundAt_spec mode s (ue := 0) (within_exact m e) (by simp)
  rw [zpow_zero, div_one, ← rat_cast] at hr
  have hround := RoundsTo.unique hr hn
  have hflag : flagIf (roundAt mode s m e 0 false).2 flagNX = if (n : ℚ) = (FpVal.fin s m e).rat then 0 else flagNX := by
    have hiff : (n : ℚ) = (FpVal.fin s m e).rat ↔ (roundAt mode s m e 0 false).2 = false := by
      rw [hexact, ← hround, ← Rat.cast_inj (α := ℝ), rat_cast, Rat.cast_intCast, signedMag_cast]
      cases s <;> simp [signedReal]
    simp only [hiff]
    cases (roundAt mode s m e 0 false).2 <;> rfl
  simp only [FpFormat.toInt, ha, hround, hflag]

end Conversions

/-- Every single is a double (47_float_double.md R317). -/
theorem convert_single_double (mode : RoundMode) {a : Nat} (h : (single.unpack a).isFinite = true) :
    (double.unpack (FpFormat.convert single double mode a).bits).rat = (single.unpack a).rat ∧
    (FpFormat.convert single double mode a).flags = 0 := by
  have hdouble : double.Regular := regular_of_isFormat (.inr rfl)
  obtain ⟨m, e, ha⟩ := unpack_fin h
  obtain ⟨hm, hlow, hhigh, -⟩ := unpack_fin_range (regular_of_isFormat (.inl rfl)) ha
  change m < 2 ^ 24 at hm
  change -149 ≤ e at hlow
  change e + 2 ≤ -149 + 255 at hhigh
  obtain ⟨hnonzero, hzero⟩ := roundOrZero_spec hdouble mode (single.signOf a) m e
  rw [convert_fin ha, ha]
  by_cases hv : (FpVal.fin (single.signOf a) m e).rat = 0
  · rw [hzero hv, hv]
    exact ⟨by rw [unpack_zero hdouble, rat_zero], rfl⟩
  · have hmR : (m : ℝ) < 2 ^ 24 := by exact_mod_cast hm
    have hvalue : (((FpVal.fin (single.signOf a) m e).rat : ℚ) : ℝ) = (signedMag (single.signOf a) m : Int) * 2 ^ e := by
      rw [rat_cast, signedMag_cast]
      cases single.signOf a <;> simp [signedReal]
    have habs : |(((FpVal.fin (single.signOf a) m e).rat : ℚ) : ℝ)| < 2 ^ 1024 := by
      rw [hvalue, abs_mul, abs_signedMag, abs_of_pos (by positivity)]
      calc (m : ℝ) * 2 ^ e < 2 ^ 24 * 2 ^ (104 : Int) :=
            mul_lt_mul hmR (zpow_le_zpow_right₀ one_le_two (by omega)) (by positivity) (by positivity)
        _ = 2 ^ 128 := by norm_num
        _ ≤ 2 ^ 1024 := pow_le_pow_right₀ one_le_two (by decide)
    have hbits : |((signedMag (single.signOf a) m : Int) : ℝ)| < 2 ^ (double.fracBits + 1) := by
      rw [abs_signedMag]
      exact hmR.trans (by norm_num [double])
    obtain ⟨hrat, hflags⟩ := correctlyRounded_exact (hnonzero hv) hvalue hbits (le_trans (by decide) hlow) habs
    exact ⟨Rat.cast_injective hrat, hflags⟩

end Sys2Proof.Machine

namespace Sys2Proof

open Machine

/-- Settles O53: the sum is one of two finite terms, and the difference adds the second with its sign changed. -/
theorem sums : Obligations.Sums := by
  intro F mode a b hF ha hb va vb
  obtain ⟨ma, ea, ha⟩ := unpack_fin ha
  obtain ⟨mb, eb, hb⟩ := unpack_fin hb
  have hva : (FpVal.fin (F.signOf a) ma ea).rat = va := congrArg FpVal.rat ha.symm
  have hvb : (FpVal.fin (F.signOf b) mb eb).rat = vb := congrArg FpVal.rat hb.symm
  have hneg : (FpVal.fin (F.signOf b ^^ true) mb eb).rat = -vb := by rw [rat_negIf, if_pos rfl, hvb, neg_one_mul]
  have hadd := sumVals_fin (regular_of_isFormat hF) mode _ _ hva hvb
  have hsub := sumVals_fin (regular_of_isFormat hF) mode _ _ hva hneg
  simp only [← sub_eq_add_neg, Bool.xor_true, Bool.eq_not] at hsub
  simp only [FpFormat.add, FpFormat.sub, ha, hb, FpVal.negIf, Bool.xor_true]
  exact ⟨hadd.1, hadd.2, hsub.1, hsub.2⟩

/-- Settles O54: the exact product is a finite value; the quotient and the root are rounded from enough of their bits. -/
theorem productsQuotientsRoots : Obligations.ProductsQuotientsRoots := by
  intro F mode a b hF ha hb va vb sign
  have hreg := regular_of_isFormat hF
  obtain ⟨ma, ea, ha⟩ := unpack_fin ha
  obtain ⟨mb, eb, hb⟩ := unpack_fin hb
  have hva : va = (FpVal.fin (F.signOf a) ma ea).rat := congrArg FpVal.rat ha
  have hvb : vb = (FpVal.fin (F.signOf b) mb eb).rat := congrArg FpVal.rat hb
  obtain ⟨hmul, hmulZero⟩ := roundOrZero_spec hreg mode sign (ma * mb) (ea + eb)
  rw [mul_fin mode ha hb, div_fin mode ha hb, sqrt_fin mode ha, hva, hvb, ← rat_mul]
  simp only [ne_eq, rat_zero (F.signOf a), rat_zero (F.signOf b), rat_pos_iff]
  refine ⟨hmul, hmulZero, fun hma hmb => ?quotient, fun hma hmb => ?zeroQuotient,
    fun ⟨hs, hma⟩ => ?root, fun hma => ?zeroRoot⟩
  case quotient =>
    rw [if_neg hmb, if_neg hma]
    exact roundQuotient_spec hreg mode _ _ ea eb hma hmb
  case zeroQuotient => rw [if_neg hmb, if_pos hma]
  case root =>
    rw [if_neg hma, hs]
    exact roundRoot_spec hreg mode ea hma
  case zeroRoot => rw [if_pos hma]

/-- Settles O55: the exact product, then one sum of two finite terms. -/
theorem fusedRounding : Obligations.FusedRounding := by
  intro F np nc mode a b c hF ha hb hc p q sp sq
  obtain ⟨ma, ea, ha⟩ := unpack_fin ha
  obtain ⟨mb, eb, hb⟩ := unpack_fin hb
  obtain ⟨mc, ec, hc⟩ := unpack_fin hc
  have hp : (FpVal.fin sp (ma * mb) (ea + eb)).rat = p := by
    simp only [p, ha, hb, ← rat_mul]
    exact rat_negIf ..
  have hq : (FpVal.fin sq mc ec).rat = q := by
    simp only [q, hc]
    exact rat_negIf ..
  rw [fma_fin mode np nc ha hb hc]
  exact sumVals_fin (regular_of_isFormat hF) mode sp sq hp hq

/-- Settles O56: an integer is a finite value of exponent 0; each conversion rounds a finite value once. -/
theorem conversionsRounding : Obligations.ConversionsRounding := by
  intro F G mode k a n hF hG
  have hreg := regular_of_isFormat hG
  refine ⟨fun hn => ?ofInt, rfl, fun hfin => ?finite, fun h => ?nan, fun h => ?inf⟩
  case ofInt =>
    have hv : (FpVal.fin (decide (n < 0)) n.natAbs 0).rat = n := by
      obtain hlt | hle := lt_or_ge n 0
      · simp [FpVal.rat, hlt, Nat.cast_natAbs, abs_of_neg hlt]
      · simp [FpVal.rat, not_lt.2 hle, Nat.cast_natAbs, abs_of_nonneg hle]
    have hround := (roundOrZero_spec hreg mode (decide (n < 0)) n.natAbs 0).1
    rw [hv] at hround
    exact_mod_cast hround (by exact_mod_cast hn)
  case finite =>
    obtain ⟨m, e, ha⟩ := unpack_fin hfin
    obtain ⟨hround, hzero⟩ := roundOrZero_spec hreg mode (F.signOf a) m e
    rw [← convert_fin ha, ← ha] at hround hzero
    refine ⟨hround, hzero, ?widen, ?toInt⟩
    case widen =>
      rintro rfl rfl
      exact convert_single_double mode hfin
    case toInt =>
      rw [ha]
      exact toInt_fin ha mode k
  case nan =>
    obtain ⟨g, ha⟩ := unpack_nan h
    rw [FpFormat.toInt, ha]
  case inf => rw [FpFormat.toInt, unpack_inf h]

end Sys2Proof

/-! PROOFS. The floating-point operations on all patterns (46_float_single.md R240, R241, R247 to R249, R254 to R256): NaNs,
infinities and zero divisors, the order of the values, their classes, and the layout of the formats. -/

namespace Sys2Proof.Machine

/-! NaNs, infinities and zero divisors (46_float_single.md R247 to R249). -/

section Exceptional

variable {F : FpFormat} {a b : Nat} (mode : RoundMode)

/-- A NaN operand gives the canonical NaN, invalid where an operand is signaling. -/
theorem nan_operand (h : (F.unpack a).isNaN = true ∨ (F.unpack b).isNaN = true) :
    let nan := F.nanResult ((F.unpack a).isSignaling || (F.unpack b).isSignaling)
    F.add mode a b = nan ∧ F.sub mode a b = nan ∧ F.mul mode a b = nan ∧ F.div mode a b = nan := by
  simp only [FpFormat.add, FpFormat.sub, FpFormat.mul, FpFormat.div]
  revert h
  cases F.unpack a with
  | nan _ =>
    cases F.unpack b with
    | nan _ | inf _ | fin _ _ _ => simp [FpFormat.sumVals, FpVal.negIf, FpVal.isSignaling]
  | inf _ | fin _ _ _ =>
    cases F.unpack b with
    | nan _ => exact fun _ => ⟨rfl, rfl, rfl, rfl⟩
    | inf _ | fin _ _ _ => simp [FpVal.isNaN]

theorem inf_inf (ha : (F.unpack a).isInf = true) (hb : (F.unpack b).isInf = true) :
    F.add mode a b = (if F.signOf a = F.signOf b then ⟨F.infinity (F.signOf a), 0⟩ else F.nanResult true) ∧
    F.sub mode a b = (if F.signOf a ≠ F.signOf b then ⟨F.infinity (F.signOf a), 0⟩ else F.nanResult true) ∧
    F.mul mode a b = ⟨F.infinity (F.signOf a ^^ F.signOf b), 0⟩ ∧ F.div mode a b = F.nanResult true := by
  simp [FpFormat.add, FpFormat.sub, FpFormat.mul, FpFormat.div, FpFormat.sumVals, FpVal.negIf, unpack_inf ha, unpack_inf hb,
    Bool.eq_not]

theorem inf_fin (ha : (F.unpack a).isInf = true) (hb : (F.unpack b).isFinite = true) :
    F.add mode a b = ⟨F.infinity (F.signOf a), 0⟩ ∧ F.sub mode a b = ⟨F.infinity (F.signOf a), 0⟩ ∧
    F.mul mode a b =
      (if (F.unpack b).rat = 0 then F.nanResult true else ⟨F.infinity (F.signOf a ^^ F.signOf b), 0⟩) ∧
    F.div mode a b = ⟨F.infinity (F.signOf a ^^ F.signOf b), 0⟩ := by
  obtain ⟨m, e, hb⟩ := unpack_fin hb
  simp [FpFormat.add, FpFormat.sub, FpFormat.mul, FpFormat.div, FpFormat.sumVals, FpVal.negIf, unpack_inf ha, hb, rat_zero]

theorem fin_inf (ha : (F.unpack a).isFinite = true) (hb : (F.unpack b).isInf = true) :
    F.add mode a b = ⟨F.infinity (F.signOf b), 0⟩ ∧ F.sub mode a b = ⟨F.infinity (!F.signOf b), 0⟩ ∧
    F.mul mode a b =
      (if (F.unpack a).rat = 0 then F.nanResult true else ⟨F.infinity (F.signOf a ^^ F.signOf b), 0⟩) ∧
    F.div mode a b = ⟨F.zero (F.signOf a ^^ F.signOf b), 0⟩ := by
  obtain ⟨m, e, ha⟩ := unpack_fin ha
  simp [FpFormat.add, FpFormat.sub, FpFormat.mul, FpFormat.div, FpFormat.sumVals, FpVal.negIf, ha, unpack_inf hb, rat_zero]

/-- A zero divisor. -/
theorem div_zero_divisor (ha : (F.unpack a).isFinite = true) (hb : (F.unpack b).isFinite = true) (hz : (F.unpack b).rat = 0) :
    F.div mode a b =
      if (F.unpack a).rat = 0 then F.nanResult true else ⟨F.infinity (F.signOf a ^^ F.signOf b), flagDZ⟩ := by
  obtain ⟨ma, ea, ha⟩ := unpack_fin ha
  obtain ⟨mb, eb, hb⟩ := unpack_fin hb
  rw [hb, rat_zero] at hz
  simp only [div_fin mode ha hb, if_pos hz, ha, rat_zero]

theorem sqrt_negative (ha : (F.unpack a).isFinite = true) (hneg : (F.unpack a).rat < 0) :
    F.sqrt mode a = F.nanResult true := by
  obtain ⟨m, e, ha⟩ := unpack_fin ha
  rw [ha, rat_neg_iff] at hneg
  obtain ⟨hs, hm⟩ := hneg
  rw [sqrt_fin mode ha, if_neg hm, if_pos hs]

end Exceptional

/-! The fused operation with NaNs and infinities (46_float_single.md R248, R252). -/

/-- Zero times infinity, by the numbers. -/
theorem zeroTimesInf_iff (A B : FpVal) : zeroTimesInf A B = true ↔
    A.isInf = true ∧ B.isFinite = true ∧ B.rat = 0 ∨ B.isInf = true ∧ A.isFinite = true ∧ A.rat = 0 := by
  cases A with
  | nan _ | inf _ | fin _ _ _ =>
    cases B with
    | nan _ | inf _ | fin _ _ _ => simp [zeroTimesInf, FpVal.isInf, FpVal.isFinite, rat_zero]

theorem not_signaling {A : FpVal} (h : A.isNaN = false) : A.isSignaling = false := by
  cases A with
  | nan _ => cases h
  | inf _ | fin _ _ _ => rfl

theorem not_nan_of_isInf {A : FpVal} (h : A.isInf = true) : A.isNaN = false := by
  cases A with
  | inf _ => rfl
  | nan _ | fin _ _ _ => cases h

theorem not_nan_of_isFinite {A : FpVal} (h : A.isFinite = true) : A.isNaN = false := by
  cases A with
  | fin _ _ _ => rfl
  | nan _ | inf _ => cases h

section Fused

variable {F : FpFormat} {a b c : Nat} (np nc : Bool) (mode : RoundMode)

theorem fma_invalid (h : (F.unpack a).isSignaling = true ∨ (F.unpack b).isSignaling = true ∨
    (F.unpack c).isSignaling = true ∨ zeroTimesInf (F.unpack a) (F.unpack b) = true) :
    F.fma np nc mode a b c = F.nanResult true := by
  refine if_pos ?_
  simpa only [Bool.or_eq_true, or_assoc] using h

theorem fma_quiet (h : (F.unpack a).isNaN = true ∨ (F.unpack b).isNaN = true ∨ (F.unpack c).isNaN = true)
    (ha : (F.unpack a).isSignaling = false) (hb : (F.unpack b).isSignaling = false) (hc : (F.unpack c).isSignaling = false)
    (hz : zeroTimesInf (F.unpack a) (F.unpack b) = false) : F.fma np nc mode a b c = F.nanResult false := by
  simp only [FpFormat.fma, ha, hb, hc, hz, Bool.or_false, Bool.false_eq_true, if_false]
  refine if_pos ?_
  simpa only [Bool.or_eq_true, or_assoc] using h

/-- Of numbers, the fused operation is one sum. -/
theorem fma_numbers (ha : (F.unpack a).isNaN = false) (hb : (F.unpack b).isNaN = false) (hc : (F.unpack c).isNaN = false)
    (hz : zeroTimesInf (F.unpack a) (F.unpack b) = false) :
    F.fma np nc mode a b c =
      F.sumVals mode ((exactProduct (F.unpack a) (F.unpack b)).negIf np) ((F.unpack c).negIf nc) := by
  simp only [FpFormat.fma, not_signaling ha, not_signaling hb, not_signaling hc, ha, hb, hc, hz, Bool.or_false,
    Bool.false_eq_true, if_false]

theorem exactProduct_inf (ha : (F.unpack a).isNaN = false) (hb : (F.unpack b).isNaN = false)
    (h : (F.unpack a).isInf = true ∨ (F.unpack b).isInf = true) :
    exactProduct (F.unpack a) (F.unpack b) = .inf (F.signOf a ^^ F.signOf b) := by
  obtain ⟨g, hA⟩ | hA | ⟨m, e, hA⟩ := unpack_cases F a
  · rw [hA] at ha
    cases ha
  all_goals
    obtain ⟨g, hB⟩ | hB | ⟨m', e', hB⟩ := unpack_cases F b
    case inl =>
      rw [hB] at hb
      cases hb
    all_goals simp_all [exactProduct, FpVal.isInf]

/-- An infinite product, plus an infinity or a finite number. -/
theorem fma_infinite_product (ha : (F.unpack a).isNaN = false) (hb : (F.unpack b).isNaN = false)
    (hz : zeroTimesInf (F.unpack a) (F.unpack b) = false) (h : (F.unpack a).isInf = true ∨ (F.unpack b).isInf = true) :
    let sp := F.signOf a ^^ F.signOf b ^^ np
    ((F.unpack c).isInf = true → F.fma np nc mode a b c =
      if sp = (F.signOf c ^^ nc) then ⟨F.infinity sp, 0⟩ else F.nanResult true) ∧
    ((F.unpack c).isFinite = true → F.fma np nc mode a b c = ⟨F.infinity sp, 0⟩) := by
  refine ⟨fun hc => ?inf, fun hc => ?fin⟩
  case inf =>
    rw [fma_numbers np nc mode ha hb (not_nan_of_isInf hc) hz, exactProduct_inf ha hb h, unpack_inf hc]
    rfl
  case fin =>
    obtain ⟨m, e, hC⟩ := unpack_fin hc
    rw [fma_numbers np nc mode ha hb (not_nan_of_isFinite hc) hz, exactProduct_inf ha hb h, hC]
    rfl

/-- A finite product plus an infinity. -/
theorem fma_infinite_addend (ha : (F.unpack a).isFinite = true) (hb : (F.unpack b).isFinite = true)
    (hc : (F.unpack c).isInf = true) : F.fma np nc mode a b c = ⟨F.infinity (F.signOf c ^^ nc), 0⟩ := by
  obtain ⟨m, e, ha⟩ := unpack_fin ha
  obtain ⟨m', e', hb⟩ := unpack_fin hb
  rw [FpFormat.fma, ha, hb, unpack_inf hc]
  rfl

end Fused

/-! The order of the values (46_float_single.md R254, R255). -/

theorem less_asymm {x y : FpVal} (h : x.Less y) : ¬ y.Less x := by
  cases x with
  | nan _ => exact h.elim
  | inf _ =>
    cases y with
    | nan _ => exact h.elim
    | inf _ | fin _ _ _ => simp_all [FpVal.Less]
  | fin _ _ _ =>
    cases y with
    | nan _ => exact h.elim
    | inf _ => simp_all [FpVal.Less]
    | fin _ _ _ => exact lt_asymm h

theorem not_equal_of_less {x y : FpVal} (h : x.Less y) : ¬ y.Equal x := by
  cases x with
  | nan _ => exact h.elim
  | inf _ =>
    cases y with
    | nan _ => exact h.elim
    | inf _ | fin _ _ _ => simp_all [FpVal.Less, FpVal.Equal]
  | fin _ _ _ =>
    cases y with
    | nan _ | inf _ => exact not_false
    | fin _ _ _ => exact fun he => ne_of_gt h he

/-- Values that have an order are numbers. -/
theorem not_nan_of_ordered {x y : FpVal} (h : x.Less y ∨ x.Equal y) : (x.isNaN || y.isNaN) = false := by
  cases x with
  | nan _ => exact (or_self_iff.1 h).elim
  | inf _ | fin _ _ _ =>
    cases y with
    | nan _ => exact (or_self_iff.1 h).elim
    | inf _ | fin _ _ _ => rfl

/-- The model's comparison is the order of the numbers (46_float_single.md R255). -/
theorem compareVals_spec (x y : FpVal) :
    (compareVals x y = some .lt ↔ x.Less y) ∧ (compareVals x y = some .eq ↔ x.Equal y) := by
  cases x with
  | nan _ => simp [compareVals, FpVal.Less, FpVal.Equal]
  | inf sa =>
    cases y with
    | nan _ => simp [compareVals, FpVal.Less, FpVal.Equal]
    | inf sb => cases sa <;> cases sb <;> simp [compareVals, FpVal.Less, FpVal.Equal]
    | fin _ _ _ => cases sa <;> simp [compareVals, FpVal.Less, FpVal.Equal]
  | fin sa ma ea =>
    cases y with
    | nan _ => simp [compareVals, FpVal.Less, FpVal.Equal]
    | inf sb => cases sb <;> simp [compareVals, FpVal.Less, FpVal.Equal]
    | fin sb mb eb =>
      simp only [compareVals, Option.some.injEq]
      exact compareFin_spec sa ma ea sb mb eb

section Order

variable {F : FpFormat} {a b : Nat}

theorem below_iff : F.below a b = true ↔ Below F a b := by
  obtain ⟨hless, hequal⟩ := compareVals_spec (F.unpack a) (F.unpack b)
  rw [Below, ← hless, ← hequal, FpFormat.below]
  cases compareVals (F.unpack a) (F.unpack b) with
  | none => simp
  | some o => cases o <;> simp

theorem below_asymm (h : Below F a b) : ¬ Below F b a := by
  rintro (hba | ⟨hba, hsb, -⟩)
  · obtain hab | ⟨hab, -⟩ := h
    · exact less_asymm hab hba
    · exact not_equal_of_less hba hab
  · obtain hab | ⟨-, -, hsb'⟩ := h
    · exact not_equal_of_less hab hba
    · exact absurd hsb (by simp [hsb'])

theorem not_nan_of_below (h : Below F a b) : ((F.unpack a).isNaN || (F.unpack b).isNaN) = false :=
  not_nan_of_ordered (h.imp_right And.left)

/-- Of two numbers, fmin and fmax raise no flag. -/
theorem minMax_numbers (h : ((F.unpack a).isNaN || (F.unpack b).isNaN) = false) (pickA : Bool) :
    F.minMax pickA a b = ⟨if pickA then a else b, 0⟩ := by
  obtain ⟨ha, hb⟩ := Bool.or_eq_false_iff.1 h
  simp [FpFormat.minMax, FpFormat.signalingFlag, ha, hb, not_signaling, flagIf]

theorem minMax_nan_left (ha : (F.unpack a).isNaN = true) (hb : (F.unpack b).isNaN = false) (pickA : Bool) :
    F.minMax pickA a b = ⟨b, F.signalingFlag a b⟩ := by
  simp [FpFormat.minMax, ha, hb]

theorem minMax_nan_right (ha : (F.unpack a).isNaN = false) (hb : (F.unpack b).isNaN = true) (pickA : Bool) :
    F.minMax pickA a b = ⟨a, F.signalingFlag a b⟩ := by
  simp [FpFormat.minMax, ha, hb]

theorem minMax_nan_nan (ha : (F.unpack a).isNaN = true) (hb : (F.unpack b).isNaN = true) (pickA : Bool) :
    F.minMax pickA a b = ⟨F.canonicalNaN, F.signalingFlag a b⟩ := by
  simp [FpFormat.minMax, ha, hb]

theorem minimum_eq_right (h : Below F b a) : F.minimum a b = ⟨b, 0⟩ := by
  rw [FpFormat.minimum, minMax_numbers (Bool.or_comm _ _ ▸ not_nan_of_below h), below_iff.2 h]
  rfl

theorem minimum_eq_left (hn : ((F.unpack a).isNaN || (F.unpack b).isNaN) = false) (h : ¬ Below F b a) :
    F.minimum a b = ⟨a, 0⟩ := by
  rw [FpFormat.minimum, minMax_numbers hn, Bool.eq_false_iff.2 (below_iff.not.2 h)]
  rfl

theorem maximum_eq_right (h : Below F a b) : F.maximum a b = ⟨b, 0⟩ := by
  rw [FpFormat.maximum, minMax_numbers (not_nan_of_below h), below_iff.2 h]
  rfl

theorem maximum_eq_left (hn : ((F.unpack a).isNaN || (F.unpack b).isNaN) = false) (h : ¬ Below F a b) :
    F.maximum a b = ⟨a, 0⟩ := by
  rw [FpFormat.maximum, minMax_numbers hn, Bool.eq_false_iff.2 (below_iff.not.2 h)]
  rfl

end Order

/-! The classes (46_float_single.md R256). -/

/-- The class of a finite number, by its value. -/
theorem classBit_fin {F : FpFormat} (hF : F.Regular) {a : Nat} (h : (F.unpack a).isFinite = true) :
    let v := (F.unpack a).rat
    F.classBit a = if v = 0 then (if F.signOf a then 3 else 4)
      else if |v| < 2 ^ F.minExp then (if v < 0 then 2 else 5) else if v < 0 then 1 else 6 := by
  obtain ⟨m, e, ha⟩ := unpack_fin h
  obtain ⟨-, hlow, -, hsub⟩ := unpack_fin_range hF ha
  have hmin : (2 : ℚ) ^ F.minExp = 2 ^ F.fracBits * 2 ^ F.ulpExp := by
    rw [← zpow_natCast, ← zpow_add₀ two_ne_zero, FpFormat.ulpExp]
    congr 1
    omega
  have hsmall : (m : ℚ) * 2 ^ e < 2 ^ F.minExp ↔ m < 2 ^ F.fracBits := by
    rw [hmin]
    constructor
    · intro hlt
      by_contra hge
      have hm : (2 : ℚ) ^ F.fracBits ≤ m := by exact_mod_cast not_lt.1 hge
      have he : (2 : ℚ) ^ F.ulpExp ≤ 2 ^ e := zpow_le_zpow_right₀ one_le_two hlow
      exact absurd hlt (not_lt.2 (mul_le_mul hm he (by positivity) (by positivity)))
    · intro hlt
      rw [hsub hlt]
      exact mul_lt_mul_of_pos_right (by exact_mod_cast hlt) (by positivity)
  simp only [FpFormat.classBit, ha, rat_zero, rat_neg_iff, abs_rat, hsmall]
  split
  · rfl
  next hm => simp only [hm, ne_eq, not_false_eq_true, and_true]

theorem classify_toNat {F : FpFormat} {a k : Nat} (h : F.classBit a = k) (hk : k < 64) : (F.classify a).toNat = 2 ^ k := by
  rw [FpFormat.classify, h, BitVec.natCast_eq_ofNat, BitVec.toNat_ofNat, Nat.one_shiftLeft]
  exact Nat.mod_eq_of_lt (Nat.pow_lt_pow_right (by decide) hk)

/-! The layout of the formats (46_float_single.md R240). -/

/-- The fields of a pattern given as a bit vector. -/
theorem fracOf_toNat (F : FpFormat) {w : Nat} (v : BitVec w) : (v.extractLsb' 0 F.fracBits).toNat = F.fracOf v.toNat := by
  rw [BitVec.extractLsb'_toNat, Nat.shiftRight_zero, FpFormat.fracOf]

theorem expOf_toNat (F : FpFormat) {w : Nat} (v : BitVec w) :
    (v.extractLsb' F.fracBits F.expBits).toNat = F.expOf v.toNat := by
  rw [BitVec.extractLsb'_toNat, Nat.shiftRight_eq_div_pow, FpFormat.expOf]

theorem signOf_toNat (F : FpFormat) {w : Nat} (hw : w = F.expBits + F.fracBits + 1) (v : BitVec w) :
    F.signOf v.toNat = v.msb := by
  subst hw
  rw [BitVec.msb_eq_getLsbD_last, ← BitVec.testBit_toNat, Nat.testBit_eq_decide_div_mod_eq, FpFormat.signOf,
    Nat.add_sub_cancel]
  rfl

/-- What a pattern stands for, by its fields. -/
theorem standsFor_fields (F : FpFormat) (a : Nat) :
    StandsFor (F.unpack a) (F.signOf a) (F.expOf a) (F.fracOf a) F.expMax F.bias F.fracBits := by
  have hulp : F.ulpExp = 1 - (F.bias : Int) - F.fracBits := rfl
  refine ⟨fun he hf => ?inf, fun he hf => ?nan, fun he => ?fin⟩
  case inf => rw [FpFormat.unpack, if_pos he, if_pos hf]
  case nan =>
    have hquiet : (F.fracOf a / 2 ^ (F.fracBits - 1) == 0) = decide (F.fracOf a < 2 ^ (F.fracBits - 1)) := by
      rw [Bool.eq_iff_iff, beq_iff_eq, decide_eq_true_eq, Nat.div_eq_zero_iff_lt (by positivity)]
    rw [FpFormat.unpack, if_pos he, if_neg hf, hquiet]
  case fin =>
    rw [FpFormat.unpack, if_neg he]
    split
    case isTrue hz => exact ⟨rfl, by rw [FpVal.rat, hulp, mul_assoc]⟩
    case isFalse hn =>
      refine ⟨rfl, ?_⟩
      have hexp : F.ulpExp + ((F.expOf a - 1 : Nat) : Int) = (F.expOf a : Int) - F.bias - F.fracBits := by omega
      rw [FpVal.rat, hexp, zpow_sub₀ two_ne_zero, zpow_natCast, mul_assoc]
      push_cast
      field_simp

/-- The same of a bit vector of the format's width. -/
theorem standsFor_toNat (F : FpFormat) {w : Nat} (hw : w = F.expBits + F.fracBits + 1) (v : BitVec w) :
    F.signOf v.toNat = v.msb ∧ StandsFor (F.unpack v.toNat) v.msb (v.extractLsb' F.fracBits F.expBits).toNat
      (v.extractLsb' 0 F.fracBits).toNat F.expMax F.bias F.fracBits := by
  rw [expOf_toNat, fracOf_toNat, ← signOf_toNat F hw]
  exact ⟨rfl, standsFor_fields F v.toNat⟩

end Sys2Proof.Machine

namespace Sys2Proof

open Machine

/-- Settles O57: each class of operands, operation by operation. -/
theorem exceptionalOperands : Obligations.ExceptionalOperands := by
  intro F mode np nc a b c A B C sign nan
  refine ⟨nan_operand mode, fun ha => ?sqrtNan, fun ha G => ?convertInf, inf_inf mode, inf_fin mode, fin_inf mode,
    div_zero_divisor mode, sqrt_negative mode, fun ha => ?sqrtInf, ?fused⟩
  case sqrtNan =>
    obtain ⟨g, ha⟩ := unpack_nan ha
    simp only [A, nan, FpFormat.sqrt, FpFormat.convert, ha]
    exact ⟨rfl, fun _ => rfl⟩
  case convertInf => rw [FpFormat.convert, unpack_inf ha]
  case sqrtInf =>
    rw [FpFormat.sqrt, unpack_inf ha]
    rfl
  case fused =>
    simp only [← zeroTimesInf_iff, Bool.not_eq_true]
    refine ⟨fma_invalid np nc mode, fma_quiet np nc mode, fun ⟨h, ha, hb, hz⟩ => ?_, fun ⟨h, ha, hb, hz⟩ => ?_,
      fma_infinite_addend np nc mode⟩
    · exact (fma_infinite_product np nc mode ha hb hz h).1
    · exact (fma_infinite_product np nc mode ha hb hz h).2

/-- Settles O58: the model's comparison is the order of the numbers, and its `below` refines it on zeros. -/
theorem orderOperations : Obligations.OrderOperations := by
  intro F a b A B nv signaling unordered
  obtain ⟨hless, hequal⟩ := compareVals_spec A B
  refine ⟨fun h => ⟨minimum_eq_right h, maximum_eq_left ?_ (below_asymm h)⟩, fun hn h => ?min, fun hn h => ?max,
    maximum_eq_right, fun ha hb => ?left, fun ha hb => ?right, fun ha hb => ?both, ?eq, rfl, ?lt, rfl, ?le, rfl⟩
  · exact Bool.or_comm _ _ ▸ not_nan_of_below h
  case min => simp [minimum_eq_left hn h]
  case max => simp [maximum_eq_left hn h]
  case left => exact ⟨minMax_nan_left ha hb _, minMax_nan_left ha hb _⟩
  case right => exact ⟨minMax_nan_right ha hb _, minMax_nan_right ha hb _⟩
  case both => exact ⟨minMax_nan_nan ha hb _, minMax_nan_nan ha hb _⟩
  case eq => rw [← hequal, FpFormat.eq, beq_iff_eq]
  case lt => rw [← hless, FpFormat.lt, beq_iff_eq]
  case le => rw [← hless, ← hequal, FpFormat.le, Bool.or_eq_true, beq_iff_eq, beq_iff_eq]

/-- Settles O59: the class of a finite number by its value, of the others by their kind. -/
theorem classification : Obligations.Classification := by
  intro F a hF A bit normal
  have hreg := regular_of_isFormat hF
  have hnormal : 0 < normal := by positivity
  have hfin (h : A.isFinite = true) := classBit_fin hreg h
  refine ⟨fun h => ?inf, fun h hv => ?negNormal, fun h hlow hv => ?negSub, fun h hv => ?zero, fun h hv hlow => ?posSub,
    fun h hv => ?posNormal, fun h => ?nan⟩
  case inf =>
    refine classify_toNat (by rw [FpFormat.classBit, unpack_inf h]) ?_
    split <;> decide
  case negNormal =>
    have hneg : A.rat < 0 := by linarith
    have hlarge : ¬ |A.rat| < normal := by rw [abs_of_neg hneg]; linarith
    exact classify_toNat (by rw [hfin h, if_neg hneg.ne, if_neg hlarge, if_pos hneg]) (by decide)
  case negSub =>
    have hsmall : |A.rat| < normal := by rw [abs_of_neg hv]; linarith
    exact classify_toNat (by rw [hfin h, if_neg hv.ne, if_pos hsmall, if_pos hv]) (by decide)
  case zero =>
    refine classify_toNat (by rw [hfin h, if_pos hv]) ?_
    split <;> decide
  case posSub =>
    have hsmall : |A.rat| < normal := by rwa [abs_of_pos hv]
    exact classify_toNat (by rw [hfin h, if_neg hv.ne', if_pos hsmall, if_neg hv.not_gt]) (by decide)
  case posNormal =>
    have hpos : 0 < A.rat := by linarith
    have hlarge : ¬ |A.rat| < normal := by rwa [abs_of_pos hpos, not_lt]
    exact classify_toNat (by rw [hfin h, if_neg hpos.ne', if_neg hlarge, if_neg hpos.not_gt]) (by decide)
  case nan =>
    obtain ⟨g, ha⟩ := unpack_nan h
    refine classify_toNat (by rw [FpFormat.classBit, show A = .nan g from ha, ha]; rfl) ?_
    split <;> decide

/-- Settles O60: the fields of a bit vector are those of its number; the special patterns are computed. -/
theorem formatLayout : Obligations.FormatLayout := by
  exact ⟨standsFor_toNat single (w := 32) rfl, standsFor_toNat double (w := 64) rfl,
    by decide, by decide, by decide, by decide⟩

end Sys2Proof

/-! PROOFS. The faults: what an instruction's fault carries and what fault entry leaves unchanged (60_exceptions.md R340 to R343),
and that the machine answers every step (R343; log 7). -/

namespace Sys2Proof.Machine

/-! Fault entry (60_exceptions.md R341 to R343). -/

/-- Nothing raises the arithmetic category (60_exceptions.md R340). -/
theorem ne_arithmetic_of_mem_causes {k : Kind} {c : Cause} (h : c ∈ k.causes) : c ≠ .arithmetic := by
  rintro rfl
  cases k <;> simp [Kind.causes] at h

/-- The one shape of an instruction's effect that enters FAULTED is its fault. -/
theorem Effect.faults {i : Instr} {s t : State} (h : Effect i s t) (hs : s.ctl ≠ .faulted) (ht : t.ctl = .faulted) :
    ∃ r, Faults s t r ∧ r.pc = s.readPc ∧ r.word = some (encode i) ∧
      (r.cause ∈ i.kind.causes ∨ r.cause = .reservedInstruction ∧ i.rv64Only = true ∧ s.xlen = .x32) := by
  cases h with
  | fault r hpc hword hcause => exact ⟨r, rfl, hpc, hword, hcause⟩
  | exit | service | ebreak => cases ht
  | _ => exact absurd (by simpa using ht) hs

/-- An iteration that ends in FAULTED has cleared `bp_skip` and entered the fault at the pc: an instruction's or the fetch's. -/
theorem iterate_faults {s t : State} (hs : s.ctl ≠ .faulted) (h : iterate s = .next t) (ht : t.ctl = .faulted) :
    ∃ r, Faults { s with bpSkip := false } t r ∧ r.pc = s.readPc := by
  obtain ⟨i, hx⟩ | ⟨c, b, rfl, hstop⟩ | ⟨r, hpc, hr⟩ := iterate_cases h
  · obtain ⟨r, hr, hpc, -, -⟩ := (exec_effect hx).faults hs ht
    exact ⟨r, hr, hpc⟩
  · rcases hstop with rfl | rfl | rfl | rfl <;> cases ht
  · exact ⟨r, hr, hpc⟩

/-- The call that a fault ends reports FAULTED, the record and the exit code there was (60_exceptions.md R359). -/
theorem report_of_faults {s t : State} {r : FaultRecord} (h : Faults s t r) :
    t.report = some (.faulted, some r, s.exitCode) := by
  subst h
  rfl

/-! The machine answers (60_exceptions.md R343; log 7). -/

theorem exec_answers (i : Instr) (s : State) : ∃ t, exec i s = .next t :=
  let ⟨t, ht, _⟩ := exec_runs i s
  ⟨t, ht⟩

theorem noInstruction_answers (w : Option InstrWord) (s : State) : ∃ t, noInstruction w s = .next t := by
  obtain ⟨hcliff, hfault⟩ := noInstruction_spec w s
  by_cases hp : s.readPc = s.xlen.trunc s.cfg.textEnd
  · exact ⟨_, hcliff hp⟩
  · obtain ⟨t, ht, -⟩ := hfault hp
    exact ⟨t, ht⟩

/-- By the verdicts of the fetch and of the lookup (10_state.md R54). -/
theorem executeAtPc_answers (s : State) : ∃ t, executeAtPc s = .next t := by
  cases ha : aligned4 s.readPc with
  | false => exact ⟨_, executeAtPc_misaligned ha⟩
  | true =>
    cases hf : s.fetchWord with
    | none => exact executeAtPc_no_word ha hf ▸ noInstruction_answers none s
    | some w =>
      cases hl : lookup s.xlen w with
      | descriptor i => exact executeAtPc_descriptor ha hf hl ▸ exec_answers i s
      | reserved i => exact ⟨_, executeAtPc_reserved ha hf hl⟩
      | illegal => exact executeAtPc_illegal ha hf hl ▸ noInstruction_answers (some w) s

/-- A stop with a reason is a next state, and else the instruction at the pc answers (10_state.md R53). -/
theorem iterate_answers (s : State) : ∃ t, iterate s = .next t := by
  unfold iterate
  split_ifs
  · exact ⟨_, rfl⟩
  · exact ⟨_, rfl⟩
  · exact ⟨_, rfl⟩
  · exact executeAtPc_answers _

theorem tick_answers (s : State) : ∃ t, tick s = .next t := by
  by_cases hr : s.ctl = .running
  · exact tick_running hr ▸ iterate_answers s
  · exact ⟨s, tick_stopped hr⟩

/-- By the host's next event (log 5). -/
theorem step_answers (s : State) : ∃ t, step s = .next t := by
  rw [step, transition]
  rcases s.host with - | ⟨_ | l | c, rest⟩
  · exact tick_answers s
  · exact tick_answers { s with host := rest }
  · exact ⟨{ s with host := rest, cancel := l }, rfl⟩
  · exact ⟨({ s with host := rest } : State).onCommand c, rfl⟩

end Sys2Proof.Machine

namespace Sys2Proof

open Machine

/-- Settles O11: under an idle host the step is an iteration, from the state the instruction begins in. -/
theorem preciseFaults : Obligations.PreciseFaults := by
  intro s t hr hidle hx ht
  rw [tick_of_idle hidle hr] at hx
  obtain ⟨r, hf, hpc⟩ := iterate_faults (s := { s with host := s.host.tail }) (by simp [hr]) hx ht
  exact ⟨r, hf, hpc, report_of_faults (s := begun s) hf⟩

/-- Settles O12: an instruction that ends in FAULTED has the fault of its effect. -/
theorem faultCauses : Obligations.FaultCauses := by
  intro s t i hr hx ht
  obtain ⟨r, hf, hpc, hword, hcause⟩ := (exec_effect hx).faults (by simp [hr]) ht
  have hne : r.cause ≠ .arithmetic := by
    rcases hcause with hmem | ⟨hres, -, -⟩
    · exact ne_arithmetic_of_mem_causes hmem
    · simp [hres]
  exact ⟨r, by rw [hf], hpc, hword, hne, hcause⟩

/-- Settles O20: every instruction has an effect, and every step is an event's, a stop's, a fault's or an instruction's. -/
theorem stepAnswers : Obligations.StepAnswers := ⟨step_answers, exec_answers⟩

end Sys2Proof

/-! PROOFS. Reset and the configuration: what a configuration must meet, what a reset leaves, and that no other step changes a
parameter (70_reset_and_hazards.md R370 to R374). -/

namespace Sys2Proof.Machine

/-! The boot requirements, one by one (70_reset_and_hazards.md R374). -/

theorem segmentsApart_iff (g h : Segment) : segmentsApart g h = true ↔ g.top < h.base ∨ h.top < g.base := by
  simp [segmentsApart]

theorem segmentsAccepted_iff (x : XLen) (gs : List Segment) : segmentsAccepted x gs = true ↔
    (∀ g ∈ gs, g.base ≤ g.top ∧ g.top < 2 ^ x.bits) ∧ gs.Pairwise (fun g h => g.top < h.base ∨ h.top < g.base) := by
  induction gs with
  | nil => simp [segmentsAccepted]
  | cons g gs ih =>
    simp only [segmentsAccepted, Bool.and_eq_true, decide_eq_true_eq, List.all_eq_true, segmentsApart_iff, ih,
      List.forall_mem_cons, List.pairwise_cons]
    tauto

theorem fits_iff (x : XLen) (v : Word) : fits x v = true ↔ v.toNat < 2 ^ x.bits := by
  rw [fits, beq_iff_eq, ← BitVec.toNat_inj, XLen.trunc_toNat, Nat.mod_eq_iff_lt (two_pow_bits_pos x).ne']

theorem xInit_fits_iff (x : XLen) (v : Vector Word 32) :
    v.toList.all (fits x) = true ↔ ∀ k : Fin 32, v[k].toNat < 2 ^ x.bits := by
  simp only [List.all_eq_true, Vector.mem_toList_iff, Vector.mem_iff_getElem, fits_iff, Fin.forall_iff]
  exact ⟨fun h k hk => h _ ⟨k, hk, rfl⟩, fun h _ ⟨k, hk, he⟩ => he ▸ h k hk⟩

/-- An image that accepted segments hold, byte by byte (70_reset_and_hazards.md R374 (c)). -/
theorem image_mapped_iff {cfg : Config} (hs : segmentsAccepted cfg.xlen cfg.segments = true) :
    cfg.image.all (fun c => (segOf cfg c.1 1).isSome) = true ↔ ∀ c ∈ cfg.image, Mapped cfg c.1 1 := by
  simp only [List.all_eq_true, segOf_isSome hs]

/-! The memory that an image loads (70_reset_and_hazards.md R371; log 13). -/

theorem Memory.ofCells_concat (cs : List Host.Cell) (c : Host.Cell) :
    Memory.ofCells (cs ++ [c]) = (Memory.ofCells cs).write c.1 c.2 := by
  rw [Memory.ofCells, List.foldl_concat, Memory.ofCells]

/-- An address that no cell gives is Unwritten. -/
theorem Memory.byte?_ofCells_of_not_mem {cs : List Host.Cell} {a : Nat} (h : ∀ c ∈ cs, c.1 ≠ a) :
    (Memory.ofCells cs).byte? a = none := by
  induction cs using List.reverseRecOn with
  | nil => rfl
  | append_singleton cs c ih =>
    obtain ⟨hcs, hc⟩ := List.forall_mem_append.1 h
    rw [Memory.ofCells_concat, Memory.byte?_write_ne _ _ (hc c (List.mem_singleton_self c)).symm, ih hcs]

/-- Where the addresses are distinct each cell is loaded: no later one is written over it. -/
theorem Memory.byte?_ofCells_of_mem {cs : List Host.Cell} (hn : (cs.map (·.1)).Nodup) {c : Host.Cell} (hc : c ∈ cs) :
    (Memory.ofCells cs).byte? c.1 = some c.2 := by
  induction cs using List.reverseRecOn with
  | nil => cases hc
  | append_singleton cs d ih =>
    rw [List.map_append, List.nodup_append] at hn
    obtain ⟨hcs, -, hne⟩ := hn
    rw [Memory.ofCells_concat]
    rcases List.mem_append.1 hc with hc | hc
    · have hd : c.1 ≠ d.1 := hne _ (List.mem_map_of_mem hc) _ (List.mem_singleton_self _)
      rw [Memory.byte?_write_ne _ _ hd, ih hcs hc]
    · rw [List.mem_singleton.1 hc, Memory.byte?_write_same]

/-! The reset command (70_reset_and_hazards.md R370, R372). -/

section Reset

variable {s : State} {arg : Option Config} {rest : List HostEvent} (h : s.host = .command (.reset arg) :: rest)
include h

theorem step_reset_running (hr : s.ctl = .running) :
    step s = .next { s with host := rest, reply := some (.refused .running) } := by
  refine step_command h ?_
  rw [State.onCommand, State.unlessRunning, if_pos hr, State.refuse, hr, State.answer]

theorem step_reset_rejected (hr : s.ctl ≠ .running) (ha : configAccepted (arg.getD s.cfg) = false) :
    step s = .next { s with host := rest, reply := some .configRejected } := by
  refine step_command h ?_
  rw [State.onCommand, State.unlessRunning, if_neg hr, State.doReset, if_neg (Bool.eq_false_iff.1 ha)]

theorem step_reset_accepted (hr : s.ctl ≠ .running) (ha : configAccepted (arg.getD s.cfg) = true) :
    step s = .next { s.resetTo (arg.getD s.cfg) with host := rest, reply := some .accepted } := by
  refine step_command h ?_
  rw [State.onCommand, State.unlessRunning, if_neg hr, State.doReset, if_pos ha]
  rfl

end Reset

/-! What keeps the configuration (70_reset_and_hazards.md R373). -/

theorem Effect.cfg_eq {i : Instr} {s t : State} (h : Effect i s t) : t.cfg = s.cfg := by
  cases h <;> simp

theorem CommandEffect.cfg_eq {c : HostCommand} {s t : State} (h : CommandEffect c s t) (hc : ∀ arg, c ≠ .reset arg) :
    t.cfg = s.cfg := by
  cases h with
  | reset arg _ he => exact absurd he (hc arg)
  | _ => simp

theorem iterate_keeps_cfg {s t : State} (h : iterate s = .next t) : t.cfg = s.cfg := by
  obtain ⟨i, hx⟩ | ⟨c, b, rfl, _⟩ | ⟨r, _, rfl⟩ := iterate_cases h
  · exact (exec_effect hx).cfg_eq
  · rfl
  · rfl

end Sys2Proof.Machine

namespace Sys2Proof

open Machine

/-- Settles O16: neither an instruction nor a command but reset writes `cfg`; `setBreakpoints` writes `bp`. -/
theorem configFrozen : Obligations.ConfigFrozen := by
  refine ⟨fun s t hn hx => ?_, fun s addrs rest hh hr => ?_⟩
  · obtain ⟨_, _, hit⟩ | ⟨_, _, rfl⟩ | ⟨_, _, _, rfl⟩ | ⟨c, rest, hh, rfl⟩ := step_cases hx
    · exact iterate_keeps_cfg (s := { s with host := s.host.tail }) hit
    · rfl
    · rfl
    · exact (onCommand_effect c _).cfg_eq fun arg hc => hn arg rest (hc ▸ hh)
  · exact ⟨_, step_command hh (if_neg hr), rfl, rfl⟩

/-- Settles O44: the catalog constructs, and each other check of reset is its requirement. -/
theorem bootRequirements : Obligations.BootRequirements := by
  intro cfg
  rw [← and_assoc, ← segmentsAccepted_iff]
  simp only [configAccepted, catalog_constructs, Bool.true_and, Bool.and_eq_true, beq_iff_eq, xInit_fits_iff, fits_iff,
    aligned4_iff, and_assoc]
  exact and_congr_right fun hs => and_congr_left' (image_mapped_iff hs)

/-- Settles O45: an accepted reset is `resetTo`, which reads nothing of the block's state; the others answer only. -/
theorem resetProcedure : Obligations.ResetProcedure := by
  intro s arg rest hh
  refine ⟨fun hr ha => ?_, step_reset_rejected hh, step_reset_running hh⟩
  refine ⟨_, step_reset_accepted hh hr ha, rfl, fun _ => rfl, fun r => Vector.getElem_replicate _, rfl, rfl, rfl, rfl,
    fun hn _ hc => Memory.byte?_ofCells_of_mem hn hc, fun _ hout => Memory.byte?_ofCells_of_not_mem hout,
    rfl, rfl, rfl, rfl, rfl, rfl, rfl, rfl, ?_⟩
  exact step_reset_accepted (arg := none)
    (s := { s.resetTo (arg.getD s.cfg) with host := .command (.reset none) :: rest, reply := some .accepted }) rfl nofun ha

end Sys2Proof
